-- ==== Sys2Proof/Word.lean ====
section
/-! DEFINITION. The word types of the block: the command packet, the page, the response fields. -/

namespace Sys2Proof

/-- A command packet, 128 bits (30_encoding.md R90). -/
abbrev Packet := BitVec 128

/-- A page of the Page Storage, 64 bits (00_scope.md R6, `PAGE_BITS`). -/
abbrev Page := BitVec 64

/-- One byte of the wire image (20_memory.md R62). -/
abbrev Byte := BitVec 8

/-- A 32-bit value: `val32`, `aux32`, `R_BUF32`, a symbol (30_encoding.md R90, R93). -/
abbrev Half := BitVec 32

end Sys2Proof
end

