-- ==== Sys2Proof/Config.lean ====
section
/-! DEFINITION. The implementation parameters of 00_scope.md R6: the fixed and decided ones as
constants, the OPEN ones as the record `Params` that the state carries (log 1). -/

namespace Sys2Proof

namespace Config

/-- `PAGE_BITS`: bits per page (00_scope.md R6). -/
abbrev pageBits : Nat := 64

/-- `MAX_N`: largest bit count of one put, peek or skip (00_scope.md R6). -/
abbrev maxN : Nat := 32

/-- `ESC_Q`: escape threshold of the Golomb-Rice quotient (00_scope.md R6). -/
abbrev escQ : Nat := 32

/-- `MAX_CODE`: longest Golomb-Rice code, the reserve before one code (00_scope.md R6). -/
abbrev maxCode : Nat := 64

/-- `LS`: fixed-point shift of `k` and `kr` (00_scope.md R6). -/
abbrev ls : Nat := 3

/-- `KP_MAX`: upper clamp of `k` and `kr` (00_scope.md R6). -/
abbrev kpMax : Nat := 240

/-- `M_MAX`: largest Rice parameter `GR.WR` and `GR.RD` accept (00_scope.md R6, 44_golomb_rice.md R210). -/
abbrev mMax : Nat := 31

/-- The number of 32-bit handles: `PS_WCUR` "never exceeds `2^32`" (10_state.md R31). -/
abbrev handleSpace : Nat := 2 ^ 32

end Config

/-- The OPEN parameters of 00_scope.md R6. `maxPages = none` is "unbounded". -/
structure Params where
  /-- `WIN_CAP`, 4 to 32. -/
  winCap : Nat
  /-- `MAX_PAGES`, 1 to `2^32`, or unbounded (`none`). -/
  maxPages : Option Nat
  /-- `UP_K`, 1 to 240. -/
  upK : Nat
  /-- `DOWN_K`, 1 to 240. -/
  downK : Nat
  /-- `UP_K_DIRECT`, 1 to 240. -/
  upKDirect : Nat
  /-- `DOWN_K_DIRECT`, 1 to 240. -/
  downKDirect : Nat
  /-- `DOWN_K_RICE`, 1 to 240. -/
  downKRice : Nat
  /-- `K_INIT`, 0 to 240. -/
  kInit : Nat
  /-- `KR_INIT`, 0 to 240. -/
  krInit : Nat
  deriving DecidableEq, Repr, Inhabited

/-- The defaults of 00_scope.md R6. DESIGN CHOICE (log 1): the state carries these at reset. The five
adaptation constants are the spec's own PRESUMED values (93_implementation_defined.md G1). -/
def Params.default : Params where
  winCap := 4
  maxPages := none
  upK := 4
  downK := 6
  upKDirect := 3
  downKDirect := 3
  downKRice := 2
  kInit := 0
  krInit := 0

/-- The legal ranges of 00_scope.md R6. -/
def Params.legal (p : Params) : Bool :=
  decide (4 ≤ p.winCap) && decide (p.winCap ≤ 32) &&
  (match p.maxPages with
   | none => true
   | some n => decide (1 ≤ n) && decide (n ≤ Config.handleSpace)) &&
  decide (1 ≤ p.upK) && decide (p.upK ≤ 240) &&
  decide (1 ≤ p.downK) && decide (p.downK ≤ 240) &&
  decide (1 ≤ p.upKDirect) && decide (p.upKDirect ≤ 240) &&
  decide (1 ≤ p.downKDirect) && decide (p.downKDirect ≤ 240) &&
  decide (1 ≤ p.downKRice) && decide (p.downKRice ≤ 240) &&
  decide (p.kInit ≤ 240) && decide (p.krInit ≤ 240)

/-- The number of pages at which an acquisition raises `F_STORE_FULL`: `MAX_PAGES`, and the number of
handles where the store is unbounded. "Handles are 32 bits wide, so `PS_WCUR` never exceeds `2^32`, or
`MAX_PAGES` if that is smaller" (10_state.md R31). DESIGN CHOICE (log 9) for the unbounded store. -/
def Params.pageLimit (p : Params) : Nat :=
  match p.maxPages with
  | none => Config.handleSpace
  | some n => n

end Sys2Proof
end

