-- ==== Sys2Proof/Machine/State.lean ====
section
/-! DEFINITION. The architectural state (10_state.md R20), the model's own fields for the parameters and
the command port, and the reset state (10_state.md R51). Plain data throughout. -/

namespace Sys2Proof.Machine

/-- The Page Storage's bytes: wire byte `8h + j` is byte `j` of page `h` (20_memory.md R62). Addresses
strictly rise and no listed byte is zero, which is what an unlisted byte reads as (log 12). -/
abbrev Memory := List Host.Cell

/-- The Bit Writer and its Reservation Window (10_state.md R21, R22, R33, R35). -/
structure Writer where
  /-- `W_BUF`, 64 bits. -/
  buf : Page
  /-- `W_LEFT`, 0 to 64. -/
  left : Nat
  /-- `W_RSVD`, 0 to `64·WIN_CAP`. -/
  rsvd : Nat
  /-- `W_WIN`, the handles, oldest first; `W_WCNT` is its length. -/
  win : List Nat
  deriving DecidableEq, Repr, Inhabited

/-- The Bit Reader and its Reservation Window (10_state.md R23 to R26, R34, R35). -/
structure Reader where
  /-- `R_BUF32`, 32 bits. -/
  buf32 : Half
  /-- `R_BV`, 0 to 32. -/
  bv : Nat
  /-- `R_BUF64`, 64 bits. -/
  buf64 : Page
  /-- `R_BV64`, 0 to 64. -/
  bv64 : Nat
  /-- `R_RSVD`, 0 to `96 + 64·WIN_CAP`. -/
  rsvd : Nat
  /-- `R_WIN`, the handles, oldest first; `R_WCNT` is its length. -/
  win : List Nat
  deriving DecidableEq, Repr, Inhabited

/-- The RLGR encoder (10_state.md R37 to R40). -/
structure Encoder where
  /-- `E_K`, 0 to 240. -/
  k : Nat
  /-- `E_KR`, 0 to 240. -/
  kr : Nat
  /-- `E_RL`, 0 to `2^30 - 1`. -/
  rl : Nat
  /-- `E_ACT`. -/
  act : Bool
  deriving DecidableEq, Repr, Inhabited

/-- The RLGR decoder (10_state.md R41 to R46). -/
structure Decoder where
  /-- `D_K`, 0 to 240. -/
  k : Nat
  /-- `D_KR`, 0 to 240. -/
  kr : Nat
  /-- `D_RL`, 0 to `2^30 - 1`. -/
  rl : Nat
  /-- `D_PEND`. -/
  pend : Bool
  /-- `D_PV`, 32 bits. -/
  pv : Half
  /-- `D_REM`, 0 to `2^32 - 1`. -/
  rem : Nat
  /-- `D_ACT`. -/
  act : Bool
  deriving DecidableEq, Repr, Inhabited

/-- The 72-bit response of a command (30_encoding.md R92). -/
structure Response where
  /-- `status`: 0, a fault code, or `0xFF`. -/
  status : BitVec 8
  /-- `result`. -/
  result : BitVec 64
  deriving DecidableEq, Repr, Inhabited

/-- The machine. The fields from `mem` to `finfo` are the tuple of 10_state.md R20; `params`, `program`,
`pos` and `response` are the model's own (R20: the parameters are configuration and the command list an
input; R92: the response is an output): log 1, log 3. -/
structure State where
  /-- The OPEN parameters (00_scope.md R6). No step changes them. -/
  params : Params
  /-- `P`, the Page Storage (10_state.md R30). -/
  mem : Memory
  /-- `PS_WCUR`, the number of pages (R31). -/
  psWcur : Nat
  /-- `PS_RCUR` (R32). -/
  psRcur : Nat
  /-- `W_BUF`, `W_LEFT`, `W_RSVD`, `W_WIN`. -/
  writer : Writer
  /-- `R_BUF32`, `R_BV`, `R_BUF64`, `R_BV64`, `R_RSVD`, `R_WIN`. -/
  reader : Reader
  /-- `E_K`, `E_KR`, `E_RL`, `E_ACT`. -/
  enc : Encoder
  /-- `D_K`, `D_KR`, `D_RL`, `D_PEND`, `D_PV`, `D_REM`, `D_ACT`. -/
  dec : Decoder
  /-- `FAULT`, 8 bits (R47). -/
  fault : BitVec 8
  /-- `FINFO`, 64 bits (R47). -/
  finfo : BitVec 64
  /-- The host's finite list of packets (R27). -/
  program : List Packet
  /-- The position in that list (R27). -/
  pos : Nat
  /-- The last response; none before the first command. -/
  response : Option Response
  deriving DecidableEq, Repr, Inhabited

/-- The model's own faults. No command raises one: the block's faults are states (60_exceptions.md R310). -/
inductive Fault where
  /-- Raised by the meaning of a stream code (`CW.*`) alone, where the reader looks at the stream and the
  bits there are not that code: the spec gives no effect to a code the stream does not hold, and in a coder
  state whose rule does not admit the code no bits are it (30_encoding.md R101). Safe (log 7). -/
  | codeNotAhead
  deriving DecidableEq, Repr

/-- The model's own refusals. -/
inductive Refusal where
  /-- An instruction without a meaning yet. None is left. Safe. -/
  | notModelled (mnemonic : String)
  deriving DecidableEq, Repr

/-- The reset state of a block with these parameters (10_state.md R51, 70_reset_and_hazards.md R340:
the parameters "are not state and are not changed by reset"). -/
def State.resetWith (p : Params) : State where
  params := p
  mem := []
  psWcur := 0
  psRcur := 0
  writer := { buf := 0, left := 64, rsvd := 0, win := [] }
  reader := { buf32 := 0, bv := 0, buf64 := 0, bv64 := 0, rsvd := 0, win := [] }
  enc := { k := 0, kr := 0, rl := 0, act := false }
  dec := { k := 0, kr := 0, rl := 0, pend := false, pv := 0, rem := 0, act := false }
  fault := 0
  finfo := 0
  program := []
  pos := 0
  response := none

/-- The machine right after reset (10_state.md R51), with the default parameters of 00_scope.md R6
(log 1) and no packet issued yet (log 3, log 5). -/
def State.reset : State := State.resetWith Params.default

end Sys2Proof.Machine
end

