-- ==== Sys2Proof/Machine/AfterFault.lean ====
section
/-! DEFINITION. The one free value of the model: what the state holds after a fault. -/

namespace Sys2Proof

/-- "All other state is unspecified after a fault" (60_exceptions.md R310; `any value`,
93_implementation_defined.md U1). DESIGN CHOICE (log 2): an uninterpreted function of the state the
faulting command ran in; nothing can be proved of its values, so what is proved holds for all of them. -/
opaque Config.afterFault : Machine.State → Machine.State

end Sys2Proof
end

