-- ==== Sys2Proof/Machine/Bits.lean ====
section
/-! DEFINITION. Bit-field and byte-order helpers: the operators of 00_scope.md R9, bit strings in stream
order (R7, R8), and the Golomb-Rice bit pattern (30_encoding.md R102, R103). -/

namespace Sys2Proof.Machine

/-- Byte `j` of a page: `x[8j+7:8j]` (00_scope.md R8). -/
def pageByte (x : Page) (j : Nat) : Byte := x.extractLsb' (8 * j) 8

/-- A page from its eight bytes, byte 0 the least significant (20_memory.md R62). -/
def pageOfBytes (b0 b1 b2 b3 b4 b5 b6 b7 : Byte) : Page :=
  b7 ++ b6 ++ b5 ++ b4 ++ b3 ++ b2 ++ b1 ++ b0

/-- `bswap64`: "reverses the order of the eight bytes of the 64-bit value" (00_scope.md R9). -/
def bswap64 (x : Page) : Page :=
  pageOfBytes (pageByte x 7) (pageByte x 6) (pageByte x 5) (pageByte x 4)
    (pageByte x 3) (pageByte x 2) (pageByte x 1) (pageByte x 0)

/-- `clamp240(x) = max(0, min(240, x))` for any integer (00_scope.md R9). -/
def clamp240 (x : Int) : Nat := (max 0 (min (Config.kpMax : Int) x)).toNat

/-- Leading zeros of the low `n` bits of `w`, counted from bit `n - 1` down. -/
def leadingZeros : Nat → Half → Nat
  | 0, _ => 0
  | n + 1, w => if w.getLsbD n then 0 else leadingZeros n w + 1

/-- `clz32(w)`: "the number of leading zero bits", `clz32(0) = 32` (00_scope.md R9). -/
def clz32 (w : Half) : Nat := leadingZeros 32 w

/-- The bit string of `v` as `n` bits, most significant first (00_scope.md R8; 20_memory.md R60). -/
def bitsOf : Nat → Nat → List Bool
  | 0, _ => []
  | n + 1, v => v.testBit n :: bitsOf n v

/-- The number a bit string stands for, first bit most significant. -/
def natOfBits (bs : List Bool) : Nat := bs.foldl (fun a b => 2 * a + b.toNat) 0

/-- The bit string of the Golomb-Rice code of `x` with parameter `m`: `CW.GR` (30_encoding.md R102) when
the quotient is below 32, else `CW.ESC` (R103). -/
def grBits (x m : Nat) : List Bool :=
  if x >>> m < Config.escQ then
    List.replicate (x >>> m) true ++ [false] ++ bitsOf m (x % 2 ^ m)
  else
    List.replicate 32 true ++ bitsOf 32 x

/-- `len_GR(x, m)` (30_encoding.md R108). -/
def lenGr (x m : Nat) : Nat :=
  if Config.escQ ≤ x >>> m then 64 else (x >>> m) + 1 + m

end Sys2Proof.Machine
end

