-- ==== Sys2Proof/Machine/Memory.lean ====
section
/-! DEFINITION. The Page Storage as bytes in one canonical form, its byte and page accesses, and the wire
image (20_memory.md). -/

namespace Sys2Proof.Machine

/-- What an unlisted byte reads as: a page "comes into existence holding zero" (40_page_storage.md R131). -/
def memDefault : Byte := 0

/-- The byte at a wire address. -/
def memRead : Memory → Nat → Byte
  | [], _ => memDefault
  | (a', b) :: m, a => if a = a' then b else memRead m a

/-- Put a byte before a memory, or nothing where it is the default: the canonical form lists no default. -/
def memCons (a : Nat) (b : Byte) (m : Memory) : Memory :=
  if b = memDefault then m else (a, b) :: m

/-- Write a byte at a wire address, keeping the canonical form. -/
def memWrite : Memory → Nat → Byte → Memory
  | [], a, b => memCons a b []
  | (a', b') :: m, a, b =>
    if a < a' then memCons a b ((a', b') :: m)
    else if a = a' then memCons a b m
    else (a', b') :: memWrite m a b

/-- Write a list of bytes, the first first. -/
def memWriteAll (m : Memory) (cells : List Host.Cell) : Memory :=
  cells.foldl (fun m c => memWrite m c.1 c.2) m

/-- Is every address of a memory at least `lo`, strictly rising, with no default byte listed? -/
def memWfFrom : Nat → Memory → Bool
  | _, [] => true
  | lo, (a, b) :: m => decide (lo ≤ a) && decide (b ≠ memDefault) && memWfFrom (a + 1) m

/-- The canonical form of a memory. -/
def Memory.wf (m : Memory) : Bool := memWfFrom 0 m

/-- Are all listed addresses below `n`? -/
def memBelow (n : Nat) (m : Memory) : Bool := m.all fun c => decide (c.1 < n)

/-- `P[h]` read as one 64-bit value; byte `j` is the wire byte `8h + j` (20_memory.md R62, R65). -/
def pageRead (m : Memory) (h : Nat) : Page :=
  pageOfBytes (memRead m (8 * h)) (memRead m (8 * h + 1)) (memRead m (8 * h + 2)) (memRead m (8 * h + 3))
    (memRead m (8 * h + 4)) (memRead m (8 * h + 5)) (memRead m (8 * h + 6)) (memRead m (8 * h + 7))

/-- Write the bytes of a page from byte `8 - n` up to byte 7. -/
def pageWriteFrom (h : Nat) (v : Page) : Nat → Memory → Memory
  | 0, m => m
  | n + 1, m => pageWriteFrom h v n (memWrite m (8 * h + (7 - n)) (pageByte v (7 - n)))

/-- `P[h] <- v` as one 64-bit value (20_memory.md R62, R65). -/
def pageWrite (m : Memory) (h : Nat) (v : Page) : Memory := pageWriteFrom h v 8 m

/-- The stream word of page `h`: `A = bswap64(P[h])` (20_memory.md R61). -/
def streamWord (m : Memory) (h : Nat) : Page := bswap64 (pageRead m h)

/-- Byte `i` of the wire image, which has `8 · PS_WCUR` bytes (20_memory.md R62). -/
def wireByte (s : State) (i : Nat) : Option Byte :=
  if i < 8 * s.psWcur then some (memRead s.mem i) else none

end Sys2Proof.Machine
end

