-- ==== Sys2Proof/Machine/Ops.lean ====
section
/-! DEFINITION. The operations every command shares: how a command ends (normally, with a fault, refused),
taking a fault (60_exceptions.md R310), and the Page Storage procedures (40_page_storage.md). -/

namespace Sys2Proof.Machine

/-! ## Faults -/

/-- The ten faults of 60_exceptions.md R301. -/
inductive FaultName where
  /-- A reserve needs a page and the window is full. -/
  | winOverflow
  /-- A page is to be fetched and `PS_RCUR = PS_WCUR`. -/
  | readPastWrite
  /-- More bits than reserved. -/
  | unreserved
  /-- `value ≥ 2^n` in a write. -/
  | valueWidth
  /-- An operand outside its legal range. -/
  | badOperand
  /-- A handle of no page. -/
  | badHandle
  /-- A packet that matches no row. -/
  | illegalCmd
  /-- A coder command in the wrong phase of the coder. -/
  | coderState
  /-- A code no encoder with these parameters and this count wrote. -/
  | desync
  /-- The Page Storage is full. -/
  | storeFull
  deriving DecidableEq, Repr

/-- The code of a fault (60_exceptions.md R301). -/
def faultCode : FaultName → BitVec 8
  | .winOverflow => 1
  | .readPastWrite => 2
  | .unreserved => 3
  | .valueWidth => 4
  | .badOperand => 5
  | .badHandle => 6
  | .illegalCmd => 7
  | .coderState => 8
  | .desync => 9
  | .storeFull => 10

/-- The status of a command that ended normally (30_encoding.md R92). -/
def statusOk : BitVec 8 := 0x00

/-- The status of a refused command (30_encoding.md R92). -/
def statusRefused : BitVec 8 := 0xFF

/-! ## Procedures -/

/-- How a procedure ends: normally with a value, or at a `raise F(info)` (00_scope.md R11). -/
inductive Res (α : Type) where
  /-- Normal end, with the state it leaves. -/
  | ok (a : α) (s : State)
  /-- `raise F(info)`. -/
  | raise (f : FaultName) (info : Nat)
  deriving DecidableEq, Repr

/-- Run `k` after a procedure that ended normally; a raise ends the command (00_scope.md R11). -/
def Res.andThen {α β : Type} (r : Res α) (k : α → State → Res β) : Res β :=
  match r with
  | .ok a s => k a s
  | .raise f info => .raise f info

/-! ## How a command ends -/

/-- Normal end: status 0 and the result (30_encoding.md R92). -/
def State.answer (s : State) (v : BitVec 64) : State :=
  { s with response := some { status := statusOk, result := v } }

/-- Refused: status `0xFF`, result 0, "and no state changes" (60_exceptions.md R311). -/
def State.refuse (s : State) : State :=
  { s with response := some { status := statusRefused, result := 0 } }

/-- TAKING A FAULT (60_exceptions.md R310): `FAULT` and `FINFO` are recorded, the response carries the
code with result 0, and all other state of the block is unspecified: free (log 2). The parameters, the
host's packets and the position are not state of the block and stay. There is no way back but reset
(R312). -/
def takeFault (f : FaultName) (info : Nat) (s : State) : State :=
  let free := Config.afterFault s
  { params := s.params
    mem := memWriteAll s.mem free.mem
    psWcur := free.psWcur
    psRcur := free.psRcur
    writer := free.writer
    reader := free.reader
    enc := free.enc
    dec := free.dec
    fault := faultCode f
    finfo := BitVec.ofNat 64 info
    program := s.program
    pos := s.pos
    response := some { status := faultCode f, result := 0 } }

/-- The outcome of a command: every command ends in a next state, with its result or with a fault taken. -/
abbrev CommandOutcome := Host.Outcome State Fault Refusal

/-- Run a command's procedure to its end (00_scope.md R11, R12). -/
def runProc (p : State → Res (BitVec 64)) (s : State) : CommandOutcome :=
  match p s with
  | .ok v t => .next (t.answer v)
  | .raise f info => .next (takeFault f info s)

/-- Run a command: "if `FAULT ≠ 0`, rule R311 applies and nothing below is looked at" (60_exceptions.md
R320). -/
def runCommand (p : State → Res (BitVec 64)) (s : State) : CommandOutcome :=
  if s.fault ≠ 0 then .next s.refuse else runProc p s

/-- A procedure with no result returns 0 (00_scope.md R12). -/
def noResult (p : State → Res Unit) (s : State) : Res (BitVec 64) :=
  (p s).andThen fun _ t => .ok 0 t

/-- A procedure with a number as result (00_scope.md R12). -/
def numResult (p : State → Res Nat) (s : State) : Res (BitVec 64) :=
  (p s).andThen fun v t => .ok (BitVec.ofNat 64 v) t

/-! ## Page Storage procedures -/

/-- `ps_acquire()` (40_page_storage.md R131). The bound is `MAX_PAGES`, or the handle space where that is
unbounded (log 9). -/
def psAcquire (s : State) : Res Nat :=
  if s.psWcur < s.params.pageLimit then
    .ok s.psWcur { s with mem := pageWrite s.mem s.psWcur 0, psWcur := s.psWcur + 1 }
  else .raise .storeFull s.psWcur

/-- `ps_read_next()` (40_page_storage.md R132). -/
def psReadNext (s : State) : Res Nat :=
  if s.psRcur < s.psWcur then .ok s.psRcur { s with psRcur := s.psRcur + 1 }
  else .raise .readPastWrite s.psRcur

/-- Read `P[h]` with the bounds check every access requires (20_memory.md R66; 60_exceptions.md R306).
Inside the reader the check cannot fail in a state a run reaches (log 11). -/
def pageGet (h : Nat) (s : State) : Res Page :=
  if h < s.psWcur then .ok (pageRead s.mem h) s else .raise .badHandle h

/-- Write `P[h]` with the bounds check every access requires (20_memory.md R66; 60_exceptions.md R306).
Inside the writer the check cannot fail in a state a run reaches (log 11). -/
def pageSet (h : Nat) (v : Page) (s : State) : Res Unit :=
  if h < s.psWcur then .ok () { s with mem := pageWrite s.mem h v } else .raise .badHandle h

/-! ## The command port (10_state.md R27; log 3) -/

/-- The packet the host issues next. -/
def fetchPacket (s : State) : Option Packet := s.program[s.pos]?

/-- The position "advances by one after every command, normal end or fault alike" (10_state.md R27). -/
def State.advance (s : State) : State := { s with pos := s.pos + 1 }

/-- An illegal packet raises `F_ILLEGAL_CMD` with `FINFO = packet[127:64]` (30_encoding.md R96); in the
fault state it is refused, for legality is not examined (60_exceptions.md R311). -/
def illegalPacket (p : Packet) (s : State) : CommandOutcome :=
  runCommand (fun _ => .raise .illegalCmd (p.extractLsb' 64 64).toNat) s

end Sys2Proof.Machine
end

