-- ==== Sys2Proof/Machine/Operands.lean ====
section
/-! DEFINITION. How each operand of a packet is read, and its legal range (30_encoding.md R93). "No operand
is scaled, shifted or split across fields." -/

namespace Sys2Proof.Machine

/-- `n` of `W.PUT`, `R.SKIP`, `R.PEEK` and `m` of `GR.WR`, `GR.RD`: `imm8`, unsigned (R93). -/
def countOperand (imm : Byte) : Nat := imm.toNat

/-- `value`, `x`, `u`: `val32`, unsigned (R93). -/
def valueOperand (v : Half) : Nat := v.toNat

/-- `h`, `min_bits`, `count`, `idx`: `aux32`, unsigned (R93). -/
def auxOperand (a : Half) : Nat := a.toNat

/-- The legal range of `n` of `W.PUT` and `R.SKIP`: 0 to 32 (R93). -/
def requireCount (n : Nat) (s : State) : Res Unit :=
  if n ≤ Config.maxN then .ok () s else .raise .badOperand n

/-- The legal range of `n` of `R.PEEK`: 1 to 32 (R93). -/
def requirePeekCount (n : Nat) (s : State) : Res Unit :=
  if 1 ≤ n ∧ n ≤ Config.maxN then .ok () s else .raise .badOperand n

/-- The legal range of the Rice parameter `m`: 0 to 31 (R93, 44_golomb_rice.md R210). -/
def requireRice (m : Nat) (s : State) : Res Unit :=
  if m ≤ Config.mMax then .ok () s else .raise .badOperand m

/-- `W.PUT` also needs `value < 2^n`, else `F_VALUE_WIDTH` (R93). -/
def requireWidth (n value : Nat) (s : State) : Res Unit :=
  if value < 2 ^ n then .ok () s else .raise .valueWidth value

end Sys2Proof.Machine
end

