-- ==== Sys2Proof/Machine/Window.lean ====
section
/-! DEFINITION. The Reservation Windows: `take`, the two reserves with the reader's refill, and the window
commands (41_reservation_window.md; 43_bit_reader.md R191). -/

namespace Sys2Proof.Machine

/-! ## `take` (R154) -/

/-- `take(W_WIN)`: pop the oldest handle. On an empty window, which no command sequence reaches, it raises
`F_UNRESERVED(0)` (R154; log 10). -/
def wTake (s : State) : Res Nat :=
  match s.writer.win with
  | h :: t => .ok h { s with writer := { s.writer with win := t } }
  | [] => .raise .unreserved 0

/-- `take(R_WIN)` (R154; log 10). -/
def rTake (s : State) : Res Nat :=
  match s.reader.win with
  | h :: t => .ok h { s with reader := { s.reader with win := t } }
  | [] => .raise .unreserved 0

/-! ## The writer's reserve (R152) -/

/-- One turn of the writer's reserve loop: the capacity test comes before the acquisition. -/
def wReserveTurn (minBits : Nat) (s : State) : Res Unit :=
  if s.writer.win.length < s.params.winCap then
    (psAcquire s).andThen fun h t =>
      .ok () { t with writer := { t.writer with win := t.writer.win ++ [h], rsvd := t.writer.rsvd + 64 } }
  else .raise .winOverflow minBits

/-- The loop `while W_RSVD < min_bits`. Every turn pushes a handle, so at most `WIN_CAP` turns end
normally and the turn after them raises; the count never runs out first (log 14). -/
def wReserveLoop (minBits : Nat) : Nat → State → Res Unit
  | 0, s => if s.writer.rsvd < minBits then .raise .winOverflow minBits else .ok () s
  | n + 1, s =>
    if s.writer.rsvd < minBits then (wReserveTurn minBits s).andThen fun _ t => wReserveLoop minBits n t
    else .ok () s

/-- `w_reserve(min_bits)` (R152). -/
def wReserve (minBits : Nat) (s : State) : Res Unit := wReserveLoop minBits (s.params.winCap + 1) s

/-! ## The refill (43_bit_reader.md R191) -/

/-- The first half of a pass: "holding register empty, a page is reserved: fetch it". -/
def refillFetch (s : State) : Res Unit :=
  if s.reader.bv64 = 0 ∧ s.reader.win ≠ [] then
    (rTake s).andThen fun h t =>
      (pageGet h t).andThen fun page u =>
        .ok () { u with reader := { u.reader with buf64 := bswap64 page, bv64 := 64 } }
  else .ok () s

/-- The second half of a pass: "look-ahead not full, holding register has bits: top up". -/
def refillTopUp (r : Reader) : Reader :=
  if r.bv < 32 ∧ 0 < r.bv64 then
    let t := min (32 - r.bv) r.bv64
    { r with
      buf32 := r.buf32 ||| ((r.buf64 >>> (64 - t)).setWidth 32 <<< (32 - r.bv - t))
      buf64 := r.buf64 <<< t
      bv64 := r.bv64 - t
      bv := r.bv + t }
  else r

/-- One pass of the refill. -/
def refillPass (s : State) : Res Unit :=
  (refillFetch s).andThen fun _ t => .ok () { t with reader := refillTopUp t.reader }

/-- Would another pass move something? -/
def Reader.moves (r : Reader) : Bool :=
  (decide (r.bv64 = 0) && !r.win.isEmpty) || (decide (r.bv < 32) && decide (0 < r.bv64))

/-- `r_refill()`: passes until nothing moves. Two passes do: "the loop ends after at most two passes that
move something and one that moves nothing" (R191; log 14), and a pass that moves nothing changes nothing. -/
def rRefill (s : State) : Res Unit := (refillPass s).andThen fun _ t => refillPass t

/-! ## The reader's reserve (R153) -/

/-- One turn of the reader's reserve loop: the capacity test comes before the fetch. -/
def rReserveTurn (minBits : Nat) (s : State) : Res Unit :=
  if s.reader.win.length < s.params.winCap then
    (psReadNext s).andThen fun h t =>
      .ok () { t with reader := { t.reader with win := t.reader.win ++ [h], rsvd := t.reader.rsvd + 64 } }
  else .raise .winOverflow minBits

/-- The loop `while R_RSVD < min_bits` (log 14). -/
def rReserveLoop (minBits : Nat) : Nat → State → Res Unit
  | 0, s => if s.reader.rsvd < minBits then .raise .winOverflow minBits else .ok () s
  | n + 1, s =>
    if s.reader.rsvd < minBits then (rReserveTurn minBits s).andThen fun _ t => rReserveLoop minBits n t
    else .ok () s

/-- `r_reserve(min_bits)`: the loop, then the glue step, "also when the loop body never ran" (R153). -/
def rReserve (minBits : Nat) (s : State) : Res Unit :=
  (rReserveLoop minBits (s.params.winCap + 1) s).andThen fun _ t => rRefill t

/-! ## The commands -/

/-- `W.RSV min_bits` guarantees that at least `min_bits` bits can be written (R155). -/
def execWRsv (minBits : Half) (s : State) : CommandOutcome :=
  runCommand (noResult (wReserve (auxOperand minBits))) s

/-- `R.RSV min_bits` guarantees that at least `min_bits` bits can be read (R156). -/
def execRRsv (minBits : Half) (s : State) : CommandOutcome :=
  runCommand (noResult (rReserve (auxOperand minBits))) s

/-- `W.AVAIL` returns `W_RSVD` (R157). -/
def execWAvail (s : State) : CommandOutcome := runCommand (numResult fun s => .ok s.writer.rsvd s) s

/-- `R.AVAIL` returns `R_RSVD` (R158). -/
def execRAvail (s : State) : CommandOutcome := runCommand (numResult fun s => .ok s.reader.rsvd s) s

end Sys2Proof.Machine
end

