-- ==== Sys2Proof/Machine/BitReader.lean ====
section
/-! DEFINITION. The Bit Reader commands (43_bit_reader.md). The refill is in Machine/Window.lean, since the
reader's reserve ends with it. -/

namespace Sys2Proof.Machine

/-- A Bit Reader with nothing in it, as `DEC.NEW` leaves it (46_rlgr_decoder.md R261). -/
def freshReader : Reader := { buf32 := 0, bv := 0, buf64 := 0, bv64 := 0, rsvd := 0, win := [] }

/-- `require n ≤ R_RSVD else raise F_UNRESERVED(n)` (R193 to R195). -/
def requireReadable (n : Nat) (s : State) : Res Unit :=
  if n ≤ s.reader.rsvd then .ok () s else .raise .unreserved n

/-- `R_BUF32 >> (32 - n)` (R194). -/
def topBits (n : Nat) (r : Reader) : Nat := (r.buf32 >>> (32 - n)).toNat

/-- `r_peek(n)` (R194). -/
def rPeek (n : Nat) (s : State) : Res Nat :=
  (requirePeekCount n s).andThen fun _ s =>
  (requireReadable n s).andThen fun _ s =>
  .ok (topBits n s.reader) s

/-- The reader's registers after `n` bits are shifted out of the look-ahead (R195). -/
def dropBits (n : Nat) (r : Reader) : Reader :=
  { r with buf32 := r.buf32 <<< n, bv := r.bv - n, rsvd := r.rsvd - n }

/-- `r_skip(n)` (R195). -/
def rSkip (n : Nat) (s : State) : Res Unit :=
  (requireCount n s).andThen fun _ s =>
  (requireReadable n s).andThen fun _ s =>
  rRefill { s with reader := dropBits n s.reader }

/-- `R.PEEK32` returns the next 32 bits of the stream without consuming them (R193). -/
def execRPeek32 (s : State) : CommandOutcome := runCommand (numResult (rPeek 32)) s

/-- `R.PEEK n` returns the next `n` bits without consuming them (R194). -/
def execRPeek (n : Byte) (s : State) : CommandOutcome := runCommand (numResult (rPeek (countOperand n))) s

/-- `R.SKIP n` consumes `n` bits (R195). -/
def execRSkip (n : Byte) (s : State) : CommandOutcome := runCommand (noResult (rSkip (countOperand n))) s

end Sys2Proof.Machine
end

