-- ==== Sys2Proof/Machine/BitWriter.lean ====
section
/-! DEFINITION. The Bit Writer commands (42_bit_writer.md). -/

namespace Sys2Proof.Machine

/-- A Bit Writer with nothing in it, as `ENC.NEW` leaves it (45_rlgr_encoder.md R231). -/
def freshWriter : Writer := { buf := 0, left := 64, rsvd := 0, win := [] }

/-- `commit(A)`: store the finished stream word, byte-swapped, into the oldest reserved page (R171). -/
def commit (word : Page) (s : State) : Res Unit :=
  (wTake s).andThen fun h t => pageSet h (bswap64 word) t

/-- The writer's part of `w_put` that fits the current word (R172, first branch). -/
def putFits (n value : Nat) (w : Writer) : Writer :=
  { w with
    buf := (w.buf <<< n) ||| BitVec.ofNat 64 value
    left := w.left - n
    rsvd := w.rsvd - n }

/-- The stream word a straddling put completes: the free bits filled with the high bits of the value
(R172, second branch). -/
def straddleWord (n value : Nat) (w : Writer) : Page :=
  (w.buf <<< w.left) ||| BitVec.ofNat 64 (value >>> (n - w.left))

/-- The writer after a straddling put has committed: the low `rem` bits, those above cleared (R172, R173). -/
def putStraddles (n value left : Nat) (w : Writer) : Writer :=
  { w with
    buf := BitVec.ofNat 64 (value % 2 ^ (n - left))
    left := 64 - (n - left)
    rsvd := w.rsvd - n }

/-- `w_put` after its three checks (R172). -/
def putBits (n value : Nat) (s : State) : Res Unit :=
  if n ≤ s.writer.left then .ok () { s with writer := putFits n value s.writer }
  else
    (commit (straddleWord n value s.writer) s).andThen fun _ t =>
      .ok () { t with writer := putStraddles n value s.writer.left t.writer }

/-- `require n ≤ W_RSVD else raise F_UNRESERVED(n)` (R172). -/
def requireWritable (n : Nat) (s : State) : Res Unit :=
  if n ≤ s.writer.rsvd then .ok () s else .raise .unreserved n

/-- `w_put(n, value)` with its checks in their order (R172; 60_exceptions.md R320). -/
def wPut (n value : Nat) (s : State) : Res Unit :=
  (requireCount n s).andThen fun _ s =>
  (requireWidth n value s).andThen fun _ s =>
  (requireWritable n s).andThen fun _ s =>
  putBits n value s

/-- The writer after `W.ALIGN`: `d = left & 7` skipped positions that hold zero (R174). -/
def alignWriter (w : Writer) : Writer :=
  { w with
    buf := w.buf <<< (w.left % 8)
    left := w.left - w.left % 8
    rsvd := w.rsvd - w.left % 8 }

/-- `w_flush()`: valid bits to the top, `W_LEFT` zero bits below them, commit (R175). -/
def wFlush (s : State) : Res Unit :=
  if s.writer.left < 64 then
    (commit (s.writer.buf <<< s.writer.left) s).andThen fun _ t =>
      .ok () { t with
        writer := { t.writer with rsvd := t.writer.rsvd - s.writer.left, buf := 0, left := 64 } }
  else .ok () s

/-- `W.PUT n, value` appends the `n`-bit value to the stream (R172). -/
def execWPut (n : Byte) (value : Half) (s : State) : CommandOutcome :=
  runCommand (noResult (wPut (countOperand n) (valueOperand value))) s

/-- `W.ALIGN` advances the write position to the next byte boundary of the stream (R174). -/
def execWAlign (s : State) : CommandOutcome :=
  runCommand (noResult fun s => .ok () { s with writer := alignWriter s.writer }) s

/-- `W.FLUSH` pads the current stream word with zeros and commits it (R175). -/
def execWFlush (s : State) : CommandOutcome := runCommand (noResult wFlush) s

end Sys2Proof.Machine
end

