-- ==== Sys2Proof/Syntax.lean ====
section
/-! DEFINITION. The instructions: one constructor per row of spec/opcode_table.json. The 25 commands
carry the operands their packets carry (30_encoding.md R93); the six stream codes carry the values the
code stands for (30_encoding.md R102 to R107). -/

namespace Sys2Proof

/-- The 25 commands of 30_encoding.md R94 and the six codes of the bit stream (R102 to R107). -/
inductive Instr where
  /-- `PS.ACQ` (40_page_storage.md R131). -/
  | psAcq
  /-- `PS.NEXT` (R132). -/
  | psNext
  /-- `PS.GET h` (R133). -/
  | psGet (h : Half)
  /-- `PS.SET h, page` (R134). -/
  | psSet (h : Half) (page : Page)
  /-- `PS.LEN` (R135). -/
  | psLen
  /-- `W.RSV min_bits` (41_reservation_window.md R155). -/
  | wRsv (minBits : Half)
  /-- `W.AVAIL` (R157). -/
  | wAvail
  /-- `W.PUT n, value` (42_bit_writer.md R172). -/
  | wPut (n : Byte) (value : Half)
  /-- `W.ALIGN` (R174). -/
  | wAlign
  /-- `W.FLUSH` (R175). -/
  | wFlush
  /-- `R.RSV min_bits` (41_reservation_window.md R156). -/
  | rRsv (minBits : Half)
  /-- `R.AVAIL` (R158). -/
  | rAvail
  /-- `R.PEEK32` (43_bit_reader.md R193). -/
  | rPeek32
  /-- `R.PEEK n` (R194). -/
  | rPeek (n : Byte)
  /-- `R.SKIP n` (R195). -/
  | rSkip (n : Byte)
  /-- `GR.WR m, x` (44_golomb_rice.md R211). -/
  | grWr (m : Byte) (x : Half)
  /-- `GR.RD m` (R213). -/
  | grRd (m : Byte)
  /-- `ZZ.ENC v` (R216). -/
  | zzEnc (v : Half)
  /-- `ZZ.DEC u` (R217). -/
  | zzDec (u : Half)
  /-- `ENC.NEW` (45_rlgr_encoder.md R231). -/
  | encNew
  /-- `ENC.PUT u` (R232). -/
  | encPut (u : Half)
  /-- `ENC.FLUSH` (R237). -/
  | encFlush
  /-- `DEC.NEW count` (46_rlgr_decoder.md R261). -/
  | decNew (count : Half)
  /-- `DEC.GET` (R262). -/
  | decGet
  /-- `CSR.RD idx` (47_system.md R290). -/
  | csrRd (idx : Half)
  /-- `CW.GR`: the unescaped Golomb-Rice code of `x` with parameter `m` (30_encoding.md R102). -/
  | cwGr (m : Byte) (x : Half)
  /-- `CW.ESC`: the escape code of `x` (R103). -/
  | cwEsc (x : Half)
  /-- `CW.RUNFULL`: the full-window code (R104). -/
  | cwRunfull
  /-- `CW.RUNTERM`: a partial run of `rl` zeros, then the non-zero symbol `u` (R105). -/
  | cwRunterm (rl : Half) (u : Half)
  /-- `CW.RUNEND`: the trailing partial run of `rl` zeros (R106). -/
  | cwRunend (rl : Half)
  /-- `CW.DIRECT`: the symbol `u` in Direct state (R107). -/
  | cwDirect (u : Half)
  deriving DecidableEq, Repr

/-- Is this instruction one of the 25 command packets (30_encoding.md R94)? -/
def Instr.isCommand : Instr → Bool
  | .psAcq | .psNext | .psGet _ | .psSet _ _ | .psLen => true
  | .wRsv _ | .wAvail | .wPut _ _ | .wAlign | .wFlush => true
  | .rRsv _ | .rAvail | .rPeek32 | .rPeek _ | .rSkip _ => true
  | .grWr _ _ | .grRd _ | .zzEnc _ | .zzDec _ => true
  | .encNew | .encPut _ | .encFlush | .decNew _ | .decGet | .csrRd _ => true
  | .cwGr _ _ | .cwEsc _ | .cwRunfull | .cwRunterm _ _ | .cwRunend _ | .cwDirect _ => false

end Sys2Proof
end

