-- ==== Sys2Proof/WellFormed.lean ====
section
/-! DEFINITION. Which instructions exist. Every command with operands of the packet's widths is a legal
packet (30_encoding.md R97: an operand out of range does not make the packet illegal); a stream code has
the ranges of its rule (R102 to R107). -/

namespace Sys2Proof

/-- The well-formedness of an instruction, from the ranges of 30_encoding.md R102 to R107. -/
def Instr.wellFormed : Instr → Bool
  | .psAcq | .psNext | .psGet _ | .psSet _ _ | .psLen => true
  | .wRsv _ | .wAvail | .wPut _ _ | .wAlign | .wFlush => true
  | .rRsv _ | .rAvail | .rPeek32 | .rPeek _ | .rSkip _ => true
  | .grWr _ _ | .grRd _ | .zzEnc _ | .zzDec _ => true
  | .encNew | .encPut _ | .encFlush | .decNew _ | .decGet | .csrRd _ => true
  -- R102: `m` is 0 to 31 and the quotient at most 31
  | .cwGr m x => decide (m.toNat ≤ Config.mMax) && decide (x.toNat >>> m.toNat < Config.escQ)
  -- R103: some parameter has a quotient of 32 or more, that is the parameter 0 has
  | .cwEsc x => decide (Config.escQ ≤ x.toNat)
  | .cwRunfull => true
  -- R105: the run fits the widest field (`s ≤ 30`), the symbol is not zero
  | .cwRunterm rl u => decide (rl.toNat < 2 ^ (Config.kpMax >>> Config.ls)) && decide (u ≠ 0)
  -- R106: `1 ≤ rl < 1 << s`
  | .cwRunend rl => decide (1 ≤ rl.toNat) && decide (rl.toNat < 2 ^ (Config.kpMax >>> Config.ls))
  | .cwDirect _ => true

end Sys2Proof
end

