-- ==== Sys2Proof/Decode.lean ====
section
/-! DEFINITION. The packet decoder and encoder (30_encoding.md Part A) and the decoder and encoder of the
codes of the bit stream (Part B). Both decoders are total and reject by name. -/

namespace Sys2Proof

open Sys2Proof.Machine

/-! ## The packet's fields (R90) -/

/-- `op`, bits 127:120. -/
def opField (p : Packet) : BitVec 8 := p.extractLsb' 120 8

/-- `imm8`, bits 119:112. -/
def imm8 (p : Packet) : Byte := p.extractLsb' 112 8

/-- `aux32`, bits 95:64. -/
def aux32 (p : Packet) : Half := p.extractLsb' 64 32

/-- `data64`, bits 63:0. -/
def data64 (p : Packet) : Page := p.extractLsb' 0 64

/-- `val32`, bits 31:0: the low half of `data64`. -/
def val32 (p : Packet) : Half := p.extractLsb' 0 32

/-! ## The opcode map (R94) -/

/-- One row of the opcode map: a packet `p` is the command of the row exactly when
`p & mask == match`; the operands are read from the packet's fields (R93). -/
structure Row where
  /-- The row's `match`. -/
  matchBits : Packet
  /-- The row's `mask`. -/
  maskBits : Packet
  /-- The command, from the packet's fields. -/
  build : Packet → Instr

/-- The Page Storage rows of 30_encoding.md R94. -/
def pageRows : List Row :=
  [
   ⟨0x01000000000000000000000000000000, 0xFFFFFFFFFFFFFFFFFFFFFFFFFFFFFFFF, fun _ => .psAcq⟩,
   ⟨0x02000000000000000000000000000000, 0xFFFFFFFFFFFFFFFFFFFFFFFFFFFFFFFF, fun _ => .psNext⟩,
   ⟨0x03000000000000000000000000000000, 0xFFFFFFFF00000000FFFFFFFFFFFFFFFF, fun p => .psGet (aux32 p)⟩,
   ⟨0x04000000000000000000000000000000, 0xFFFFFFFF000000000000000000000000, fun p => .psSet (aux32 p) (data64 p)⟩,
   ⟨0x05000000000000000000000000000000, 0xFFFFFFFFFFFFFFFFFFFFFFFFFFFFFFFF, fun _ => .psLen⟩]

/-- The writer rows of R94. -/
def writerRows : List Row :=
  [
   ⟨0x10000000000000000000000000000000, 0xFFFFFFFF00000000FFFFFFFFFFFFFFFF, fun p => .wRsv (aux32 p)⟩,
   ⟨0x11000000000000000000000000000000, 0xFFFFFFFFFFFFFFFFFFFFFFFFFFFFFFFF, fun _ => .wAvail⟩,
   ⟨0x12000000000000000000000000000000, 0xFF00FFFFFFFFFFFFFFFFFFFF00000000, fun p => .wPut (imm8 p) (val32 p)⟩,
   ⟨0x13000000000000000000000000000000, 0xFFFFFFFFFFFFFFFFFFFFFFFFFFFFFFFF, fun _ => .wAlign⟩,
   ⟨0x14000000000000000000000000000000, 0xFFFFFFFFFFFFFFFFFFFFFFFFFFFFFFFF, fun _ => .wFlush⟩]

/-- The reader rows of R94. -/
def readerRows : List Row :=
  [
   ⟨0x20000000000000000000000000000000, 0xFFFFFFFF00000000FFFFFFFFFFFFFFFF, fun p => .rRsv (aux32 p)⟩,
   ⟨0x21000000000000000000000000000000, 0xFFFFFFFFFFFFFFFFFFFFFFFFFFFFFFFF, fun _ => .rAvail⟩,
   ⟨0x22000000000000000000000000000000, 0xFFFFFFFFFFFFFFFFFFFFFFFFFFFFFFFF, fun _ => .rPeek32⟩,
   ⟨0x23000000000000000000000000000000, 0xFF00FFFFFFFFFFFFFFFFFFFFFFFFFFFF, fun p => .rPeek (imm8 p)⟩,
   ⟨0x24000000000000000000000000000000, 0xFF00FFFFFFFFFFFFFFFFFFFFFFFFFFFF, fun p => .rSkip (imm8 p)⟩]

/-- The Golomb-Rice and zig-zag rows of R94. -/
def golombRows : List Row :=
  [
   ⟨0x30000000000000000000000000000000, 0xFF00FFFFFFFFFFFFFFFFFFFF00000000, fun p => .grWr (imm8 p) (val32 p)⟩,
   ⟨0x31000000000000000000000000000000, 0xFF00FFFFFFFFFFFFFFFFFFFFFFFFFFFF, fun p => .grRd (imm8 p)⟩,
   ⟨0x32000000000000000000000000000000, 0xFFFFFFFFFFFFFFFFFFFFFFFF00000000, fun p => .zzEnc (val32 p)⟩,
   ⟨0x33000000000000000000000000000000, 0xFFFFFFFFFFFFFFFFFFFFFFFF00000000, fun p => .zzDec (val32 p)⟩]

/-- The RLGR and system rows of R94. -/
def rlgrRows : List Row :=
  [
   ⟨0x40000000000000000000000000000000, 0xFFFFFFFFFFFFFFFFFFFFFFFFFFFFFFFF, fun _ => .encNew⟩,
   ⟨0x41000000000000000000000000000000, 0xFFFFFFFFFFFFFFFFFFFFFFFF00000000, fun p => .encPut (val32 p)⟩,
   ⟨0x42000000000000000000000000000000, 0xFFFFFFFFFFFFFFFFFFFFFFFFFFFFFFFF, fun _ => .encFlush⟩,
   ⟨0x48000000000000000000000000000000, 0xFFFFFFFF00000000FFFFFFFFFFFFFFFF, fun p => .decNew (aux32 p)⟩,
   ⟨0x49000000000000000000000000000000, 0xFFFFFFFFFFFFFFFFFFFFFFFFFFFFFFFF, fun _ => .decGet⟩,
   ⟨0x7F000000000000000000000000000000, 0xFFFFFFFF00000000FFFFFFFFFFFFFFFF, fun p => .csrRd (aux32 p)⟩]

/-- The opcode map of 30_encoding.md R94, in the table's order. -/
def opcodeMap : List Row := pageRows ++ writerRows ++ readerRows ++ golombRows ++ rlgrRows

/-- "a packet `p` is the command of a row exactly when `p & mask == match`" (R94). -/
def Row.matches (r : Row) (p : Packet) : Bool := p &&& r.maskBits == r.matchBits

/-- The 25 assigned opcodes: bits 127:120 of the rows' `match` (R94). -/
def opcodes : List (BitVec 8) := opcodeMap.map fun r => opField r.matchBits

/-- Why a packet is illegal (30_encoding.md R96). -/
inductive PacketError where
  /-- (a) `op` is not one of the 25 opcodes. -/
  | unassignedOpcode (op : BitVec 8)
  /-- (b) some bit that the command's format requires to be zero is one. -/
  | reservedBitSet (op : BitVec 8)
  deriving DecidableEq, Repr

/-- The packet decoder: the one row that matches, or the reason why none does (R94, R96). -/
def decode (p : Packet) : Except PacketError Instr :=
  match opcodeMap.find? (fun r => r.matches p) with
  | some r => .ok (r.build p)
  | none =>
    if opcodes.contains (opField p) then .error (.reservedBitSet (opField p))
    else .error (.unassignedOpcode (opField p))

/-! ## The encoder of packets (R90, R91) -/

/-- A packet from its five fields, `rsv` zero (R90). -/
def packet (op imm : BitVec 8) (aux : Half) (data : Page) : Packet :=
  op ++ imm ++ (0 : BitVec 16) ++ aux ++ data

/-- Format `F0`: `op` alone (R91). -/
def packetF0 (op : BitVec 8) : Packet := packet op 0 0 0

/-- Format `FA`: `op`, `aux32` (R91). -/
def packetFA (op : BitVec 8) (aux : Half) : Packet := packet op 0 aux 0

/-- Format `FAD`: `op`, `aux32`, `data64` (R91). -/
def packetFAD (op : BitVec 8) (aux : Half) (data : Page) : Packet := packet op 0 aux data

/-- Format `FI`: `op`, `imm8` (R91). -/
def packetFI (op : BitVec 8) (imm : Byte) : Packet := packet op imm 0 0

/-- Format `FIV`: `op`, `imm8`, `val32` (R91). -/
def packetFIV (op : BitVec 8) (imm : Byte) (val : Half) : Packet := packet op imm 0 (val.setWidth 64)

/-- Format `FV`: `op`, `val32` (R91). -/
def packetFV (op : BitVec 8) (val : Half) : Packet := packet op 0 0 (val.setWidth 64)

/-- The packet of a command (R91, R94); a stream code has none (R96). -/
def encode : Instr → Option Packet
  | .psAcq => some (packetF0 0x01)
  | .psNext => some (packetF0 0x02)
  | .psGet h => some (packetFA 0x03 h)
  | .psSet h page => some (packetFAD 0x04 h page)
  | .psLen => some (packetF0 0x05)
  | .wRsv minBits => some (packetFA 0x10 minBits)
  | .wAvail => some (packetF0 0x11)
  | .wPut n value => some (packetFIV 0x12 n value)
  | .wAlign => some (packetF0 0x13)
  | .wFlush => some (packetF0 0x14)
  | .rRsv minBits => some (packetFA 0x20 minBits)
  | .rAvail => some (packetF0 0x21)
  | .rPeek32 => some (packetF0 0x22)
  | .rPeek n => some (packetFI 0x23 n)
  | .rSkip n => some (packetFI 0x24 n)
  | .grWr m x => some (packetFIV 0x30 m x)
  | .grRd m => some (packetFI 0x31 m)
  | .zzEnc v => some (packetFV 0x32 v)
  | .zzDec u => some (packetFV 0x33 u)
  | .encNew => some (packetF0 0x40)
  | .encPut u => some (packetFV 0x41 u)
  | .encFlush => some (packetF0 0x42)
  | .decNew count => some (packetFA 0x48 count)
  | .decGet => some (packetF0 0x49)
  | .csrRd idx => some (packetFA 0x7F idx)
  | .cwGr _ _ | .cwEsc _ | .cwRunfull | .cwRunterm _ _ | .cwRunend _ | .cwDirect _ => none

/-! ## The codes of the bit stream (Part B) -/

/-- What a reader must know to tell the next code, none of which is in the stream (R100, R101). -/
inductive CodeCtx where
  /-- A bare Golomb-Rice code with parameter `m` (R102, R103). -/
  | golomb (m : Nat)
  /-- Direct state, `m = kr >> 3` (R107). -/
  | direct (m : Nat)
  /-- Run state, `s = k >> 3`, `m = kr >> 3`, and the number of symbols still expected (R104 to R106). -/
  | run (s m rem : Nat)
  deriving DecidableEq, Repr

/-- The bit string of a code in its context, first bit first; none where the code is not legal there
(R102 to R107). The number of symbols expected plays no part: an encoder does not know it. -/
def encodeCode : CodeCtx → Instr → Option (List Bool)
  | .golomb m, .cwGr m' x =>
    if m'.toNat = m ∧ m ≤ Config.mMax ∧ x.toNat >>> m < Config.escQ then some (grBits x.toNat m) else none
  | .golomb m, .cwEsc x =>
    if m ≤ Config.mMax ∧ Config.escQ ≤ x.toNat >>> m then some (grBits x.toNat m) else none
  | .direct m, .cwDirect u =>
    if m ≤ Config.mMax then some (grBits u.toNat m) else none
  | .run _ _ _, .cwRunfull => some [false]
  | .run s m _, .cwRunterm rl u =>
    if m ≤ Config.mMax ∧ rl.toNat < 2 ^ s ∧ u ≠ 0 then
      some (true :: (bitsOf s rl.toNat ++ grBits (u.toNat - 1) m))
    else none
  | .run s _ _, .cwRunend rl =>
    if 1 ≤ rl.toNat ∧ rl.toNat < 2 ^ s then some (true :: bitsOf s rl.toNat) else none
  | _, _ => none

/-- Does a reader in this context take the code for what it is? "The decoder tells it from `CW.RUNTERM` by
the count alone: the run length equals the number of symbols it still expects" (R106). -/
def CodeCtx.tells : CodeCtx → Instr → Bool
  | .run _ _ rem, .cwRunterm rl _ => decide (rl.toNat ≠ rem)
  | .run _ _ rem, .cwRunend rl => decide (rl.toNat = rem)
  | _, _ => true

/-- Why no code can be read. -/
inductive CodeError where
  /-- The bits end inside the code. -/
  | outOfBits
  /-- A terminator whose coded quantity is `0xFFFFFFFF`: no encoder writes it (46_rlgr_decoder.md R267). -/
  | noSuchSymbol
  deriving DecidableEq, Repr

/-- The first `n` bits as a number and the bits after them. -/
def takeNum (n : Nat) (bs : List Bool) : Except CodeError (Nat × List Bool) :=
  if bs.length < n then .error .outOfBits else .ok (natOfBits (bs.take n), bs.drop n)

/-- The number of leading one-bits, at most `n`. -/
def leadingOnes : Nat → List Bool → Nat
  | n + 1, true :: bs => leadingOnes n bs + 1
  | _, _ => 0

/-- Read one Golomb-Rice code with parameter `m`: the value, whether it was escaped, and the bits after
it (R101 to R103, 44_golomb_rice.md R213). -/
def decodeGr (m : Nat) (bs : List Bool) : Except CodeError (Nat × Bool × List Bool) :=
  let q := leadingOnes Config.escQ bs
  if q = Config.escQ then
    match takeNum 32 (bs.drop 32) with
    | .ok (x, rest) => .ok (x, true, rest)
    | .error e => .error e
  else if bs.length ≤ q then .error .outOfBits
  else
    match takeNum m (bs.drop (q + 1)) with
    | .ok (r, rest) => .ok ((r + (q <<< m)) % 2 ^ 32, false, rest)
    | .error e => .error e

/-- The decoder of the stream: the next code in a context and the bits after it (R101). A run longer than
expected is read as the code it is; that it raises `F_DESYNC` is the decoder's rule (46_rlgr_decoder.md
R267). -/
def decodeCode : CodeCtx → List Bool → Except CodeError (Instr × List Bool)
  | .golomb m, bs =>
    match decodeGr m bs with
    | .ok (x, true, rest) => .ok (.cwEsc (BitVec.ofNat 32 x), rest)
    | .ok (x, false, rest) => .ok (.cwGr (BitVec.ofNat 8 m) (BitVec.ofNat 32 x), rest)
    | .error e => .error e
  | .direct m, bs =>
    match decodeGr m bs with
    | .ok (u, _, rest) => .ok (.cwDirect (BitVec.ofNat 32 u), rest)
    | .error e => .error e
  | .run _ _ _, [] => .error .outOfBits
  | .run _ _ _, false :: rest => .ok (.cwRunfull, rest)
  | .run s m rem, true :: bs =>
    match takeNum s bs with
    | .error e => .error e
    | .ok (rl, rest) =>
      if rl = rem then .ok (.cwRunend (BitVec.ofNat 32 rl), rest)
      else
        match decodeGr m rest with
        | .error e => .error e
        | .ok (x, _, rest') =>
          if x = 0xFFFFFFFF then .error .noSuchSymbol
          else .ok (.cwRunterm (BitVec.ofNat 32 rl) (BitVec.ofNat 32 (x + 1)), rest')

/-! ## The table's words, for the host -/

/-- The context in which a table word of a fixed-length stream code is read: 64 bits is `CW.ESC`, met by
a Golomb-Rice reader; fewer is `CW.RUNFULL`, met in Run state. DESIGN CHOICE (log 8). -/
def tableCtx (nbits : Nat) : CodeCtx :=
  if nbits = 64 then .golomb 0 else .run 0 0 1

/-- The bit string of a table word of a stream code, first bit first: the table writes it first bit
leftmost. `CW.RUNFULL` has one bit, which the host rounds up to a byte. DESIGN CHOICE (log 8). -/
def tableBits (nbits w : Nat) : List Bool :=
  if nbits = 64 then bitsOf 64 w else [decide (w ≠ 0)]

/-- The stream code a table word of at most 64 bits holds, if the whole word is that code. -/
def decodeTableCode (nbits w : Nat) : Option Instr :=
  match decodeCode (tableCtx nbits) (tableBits nbits w) with
  | .ok (i, []) => some i
  | _ => none

/-- The instruction this decoder reads from a row's word: a packet of 128 bits, or a stream code of a
fixed length (30_encoding.md R90, R103, R104; log 8). -/
def decodeTableWord (nbits w : Nat) : Option Instr :=
  if 64 < nbits then (decode (BitVec.ofNat 128 w)).toOption
  else decodeTableCode nbits w

end Sys2Proof
end

