-- ==== Sys2Proof/Machine/Flags.lean ====
section
/-! DEFINITION. The seven flags and the two flag registers (10_state.md R28). Three flags are stored, the
other four are computed when read. -/

namespace Sys2Proof.Machine

/-- `E_RUN_MODE = (E_K > 0)` (R28). -/
def Encoder.runMode (e : Encoder) : Bool := decide (0 < e.k)

/-- `E_IN_RUN = (E_RL > 0)` (R28). -/
def Encoder.inRun (e : Encoder) : Bool := decide (0 < e.rl)

/-- `D_RUN_MODE = (D_K > 0)` (R28). -/
def Decoder.runMode (d : Decoder) : Bool := decide (0 < d.k)

/-- `D_IN_RUN = (D_RL > 0)` (R28). -/
def Decoder.inRun (d : Decoder) : Bool := decide (0 < d.rl)

/-- A flag register from its bits, bit 0 first. -/
def flagBits (b0 b1 b2 b3 : Bool) : BitVec 64 :=
  BitVec.ofNat 64 (b0.toNat + 2 * b1.toNat + 4 * b2.toNat + 8 * b3.toNat)

/-- `E_FLAGS` (CSR 0x43): `E_ACT`, `E_RUN_MODE`, `E_IN_RUN`, bits 63:3 zero (R28). -/
def eFlags (e : Encoder) : BitVec 64 := flagBits e.act e.runMode e.inRun false

/-- `D_FLAGS` (CSR 0x4B): `D_ACT`, `D_RUN_MODE`, `D_IN_RUN`, `D_PEND`, bits 63:4 zero (R28). -/
def dFlags (d : Decoder) : BitVec 64 := flagBits d.act d.runMode d.inRun d.pend

/-- At a code boundary: "`D_RL = 0` and `D_PEND = 0`"; only there does `DEC.GET` read bits (R43). -/
def Decoder.atBoundary (d : Decoder) : Bool := decide (d.rl = 0) && !d.pend

end Sys2Proof.Machine
end

