-- ==== Sys2Proof/Machine/Golomb.lean ====
section
/-! DEFINITION. The Golomb-Rice codec and the zig-zag mapping (44_golomb_rice.md). -/

namespace Sys2Proof.Machine

/-- The escape: "32 one-bits as a 32-bit 0xFFFFFFFF write", then the value verbatim (R211). -/
def grWriteEscape (x : Nat) (s : State) : Res Unit :=
  (wPut 32 0xFFFFFFFF s).andThen fun _ s => wPut 32 x s

/-- The unescaped code: `q` one-bits and a zero in one put, then the remainder where `m > 0` (R211). -/
def grWritePlain (x m : Nat) (s : State) : Res Unit :=
  (wPut ((x >>> m) + 1) (2 ^ ((x >>> m) + 1) - 2) s).andThen fun _ s =>
    if 0 < m then wPut m (x % 2 ^ m) s else .ok () s

/-- `gr_write(x, m)` (R211). -/
def grWrite (x m : Nat) (s : State) : Res Unit :=
  (requireRice m s).andThen fun _ s =>
    if Config.escQ ≤ x >>> m then grWriteEscape x s else grWritePlain x m s

/-- After the escape marker has been seen: "read and return the next raw 32-bit value" (R213). -/
def grReadEscape (s : State) : Res Nat :=
  (rSkip 32 s).andThen fun _ s =>
  (rPeek 32 s).andThen fun x s =>
  (rSkip 32 s).andThen fun _ s =>
  .ok x s

/-- Peek `n` bits and skip them; a field of width 0 reads as 0 with no peek (R194, R213). -/
def readField (n : Nat) (s : State) : Res Nat :=
  if 0 < n then
    (rPeek n s).andThen fun v s => (rSkip n s).andThen fun _ s => .ok v s
  else .ok 0 s

/-- An unescaped code whose prefix is in the look-ahead `w`: "remainder + (quotient << m)" in 32 bits (R213). -/
def grReadPlain (w m : Nat) (s : State) : Res Nat :=
  let q := clz32 (~~~ BitVec.ofNat 32 w)
  (rSkip (q + 1) s).andThen fun _ s =>
  (readField m s).andThen fun r s =>
  .ok ((r + q <<< m) % 2 ^ 32) s

/-- `gr_read(m)` (R213). -/
def grRead (m : Nat) (s : State) : Res Nat :=
  (requireRice m s).andThen fun _ s =>
  (rPeek 32 s).andThen fun w s =>
    if w = 0xFFFFFFFF then grReadEscape s else grReadPlain w m s

/-- `to_unsigned`: `trunc_32(b << 1) xor asr32(b, 31)` (R216). -/
def zigzagEnc (b : Half) : Half := (b <<< 1) ^^^ (b.sshiftRight 31)

/-- `to_signed`: `(u >> 1) xor s`, `s` all ones for an odd `u` (R217). -/
def zigzagDec (u : Half) : Half := (u >>> 1) ^^^ (if u.getLsbD 0 then 0xFFFFFFFF else 0)

/-- `GR.WR m, x` writes the Golomb-Rice code of `x` with parameter `m` (R211). -/
def execGrWr (m : Byte) (x : Half) (s : State) : CommandOutcome :=
  runCommand (noResult (grWrite (valueOperand x) (countOperand m))) s

/-- `GR.RD m` reads one Golomb-Rice code with parameter `m` and returns its value (R213). -/
def execGrRd (m : Byte) (s : State) : CommandOutcome := runCommand (numResult (grRead (countOperand m))) s

/-- `ZZ.ENC v` maps a signed residual to its unsigned image (R216). -/
def execZzEnc (v : Half) (s : State) : CommandOutcome :=
  runCommand (fun s => .ok ((zigzagEnc v).setWidth 64) s) s

/-- `ZZ.DEC u` maps an unsigned image back; the 32-bit pattern is zero-extended (R217). -/
def execZzDec (u : Half) (s : State) : CommandOutcome :=
  runCommand (fun s => .ok ((zigzagDec u).setWidth 64) s) s

end Sys2Proof.Machine
end

