-- ==== Sys2Proof/Machine/RlgrEncoder.lean ====
section
/-! DEFINITION. The RLGR adaptive encoder and the parameter adaptation both coders share
(45_rlgr_encoder.md). -/

namespace Sys2Proof.Machine

/-- `k >> 3` and `kr >> 3`: the run-length field width and the Rice parameter (10_state.md R37, R38). -/
def width (k : Nat) : Nat := k >>> Config.ls

/-- `adapt_kr(kr, u)`: the sum is taken unbounded, then clamped (R236). -/
def adaptKr (p : Params) (kr u : Nat) : Nat :=
  let vk := u >>> width kr
  if vk = 0 then clamp240 ((kr : Int) - p.downKRice)
  else if 1 < vk then clamp240 ((kr : Int) + vk)
  else kr

/-- The update of `k` after a symbol in Direct state (R233). -/
def adaptKDirect (p : Params) (k u : Nat) : Nat :=
  if u = 0 then clamp240 ((k : Int) + p.upKDirect) else clamp240 ((k : Int) - p.downKDirect)

/-- The update of `k` after a full-window code (R234). -/
def adaptKFull (p : Params) (k : Nat) : Nat := clamp240 ((k : Int) + p.upK)

/-- The update of `k` after a run terminator with its symbol (R235). -/
def adaptKTerm (p : Params) (k : Nat) : Nat := clamp240 ((k : Int) - p.downK)

/-- Write a field of `s` bits, "if `s > 0`" (R235). -/
def writeField (n value : Nat) (s : State) : Res Unit :=
  if 0 < n then wPut n value s else .ok () s

/-- `put_direct(u)` (R233). -/
def putDirect (u : Nat) (s : State) : Res Unit :=
  (wReserve Config.maxCode s).andThen fun _ s =>
  (grWrite u (width s.enc.kr) s).andThen fun _ s =>
  .ok () { s with
    enc := { s.enc with kr := adaptKr s.params s.enc.kr u, k := adaptKDirect s.params s.enc.k u } }

/-- `put_run_zero()` (R234). -/
def putRunZero (s : State) : Res Unit :=
  if s.enc.rl + 1 = 2 ^ width s.enc.k then
    (wReserve (1 + width s.enc.k) s).andThen fun _ s =>
    (wPut 1 0 s).andThen fun _ s =>
    .ok () { s with enc := { s.enc with rl := 0, k := adaptKFull s.params s.enc.k } }
  else .ok () { s with enc := { s.enc with rl := s.enc.rl + 1 } }

/-- The run terminator and its run-length field, with the reserve before them (R235, R237). -/
def putTerminator (s : State) : Res Unit :=
  (wReserve (1 + width s.enc.k) s).andThen fun _ s =>
  (wPut 1 1 s).andThen fun _ s =>
  writeField (width s.enc.k) s.enc.rl s

/-- `put_run_nonzero(u)` (R235). -/
def putRunNonzero (u : Nat) (s : State) : Res Unit :=
  (putTerminator s).andThen fun _ s =>
  (wReserve Config.maxCode s).andThen fun _ s =>
  (grWrite (u - 1) (width s.enc.kr) s).andThen fun _ s =>
  .ok () { s with
    enc := { s.enc with kr := adaptKr s.params s.enc.kr u, rl := 0, k := adaptKTerm s.params s.enc.k } }

/-- `require E_ACT = 1 else raise F_CODER_STATE(0)` (R232, R237). -/
def requireEncoder (s : State) : Res Unit :=
  if s.enc.act then .ok () s else .raise .coderState 0

/-- `Encoder::put` (R232). -/
def encPut (u : Nat) (s : State) : Res Unit :=
  (requireEncoder s).andThen fun _ s =>
    if s.enc.k = 0 then putDirect u s
    else if u = 0 then putRunZero s
    else putRunNonzero u s

/-- The terminator of a run in progress at the end of the stream (R237). -/
def flushRun (s : State) : Res Unit :=
  if 0 < s.enc.rl then
    (putTerminator s).andThen fun _ s => .ok () { s with enc := { s.enc with rl := 0 } }
  else .ok () s

/-- `Encoder::flush` (R237). -/
def encFlush (s : State) : Res Unit :=
  (requireEncoder s).andThen fun _ s =>
  (flushRun s).andThen fun _ s =>
  (wFlush s).andThen fun _ s =>
  .ok () { s with enc := { s.enc with act := false } }

/-- A fresh encoder of a new stream (R231). -/
def freshEncoder (p : Params) : Encoder := { k := p.kInit, kr := p.krInit, rl := 0, act := true }

/-- `ENC.NEW` starts a new stream (R231). -/
def execEncNew (s : State) : CommandOutcome :=
  runCommand (noResult fun s => .ok () { s with writer := freshWriter, enc := freshEncoder s.params }) s

/-- `ENC.PUT u` encodes one symbol (R232). -/
def execEncPut (u : Half) (s : State) : CommandOutcome := runCommand (noResult (encPut (valueOperand u))) s

/-- `ENC.FLUSH` ends the stream (R237). -/
def execEncFlush (s : State) : CommandOutcome := runCommand (noResult encFlush) s

end Sys2Proof.Machine
end

