-- ==== Sys2Proof/Machine/RlgrDecoder.lean ====
section
/-! DEFINITION. The RLGR adaptive decoder (46_rlgr_decoder.md). -/

namespace Sys2Proof.Machine

/-- `require D_ACT = 1 and D_REM > 0 else raise F_CODER_STATE(1)` (R262). -/
def requireDecoder (s : State) : Res Unit :=
  if s.dec.act ∧ 0 < s.dec.rem then .ok () s else .raise .coderState 1

/-- Zeros pending: return one of them (R262, 10_state.md R43). -/
def getZero (s : State) : Res Nat :=
  .ok 0 { s with dec := { s.dec with rl := s.dec.rl - 1, rem := s.dec.rem - 1 } }

/-- Value pending: return it (R262, 10_state.md R43). -/
def getPending (s : State) : Res Nat :=
  .ok s.dec.pv.toNat { s with dec := { s.dec with pend := false, pv := 0, rem := s.dec.rem - 1 } }

/-- The updates after the symbol `u` of a Direct-state code (R262). -/
def directDone (u : Nat) (s : State) : Res Nat :=
  .ok u { s with
    dec := { s.dec with
      kr := adaptKr s.params s.dec.kr u
      k := adaptKDirect s.params s.dec.k u
      rem := s.dec.rem - 1 } }

/-- Direct state: `CW.DIRECT` (R262). -/
def getDirect (s : State) : Res Nat :=
  (rReserve Config.maxCode s).andThen fun _ s =>
  (grRead (width s.dec.kr) s).andThen fun u s =>
  directDone u s

/-- `require v ≤ D_REM else raise F_DESYNC(v)` (R262, R267). -/
def requireRemaining (v : Nat) (s : State) : Res Unit :=
  if v ≤ s.dec.rem then .ok () s else .raise .desync v

/-- After the flag of `CW.RUNFULL`: a whole window of zeros (R262). -/
def runFullDone (s : State) : Res Nat :=
  (requireRemaining (2 ^ width s.dec.k) s).andThen fun _ s =>
  .ok 0 { s with
    dec := { s.dec with
      k := adaptKFull s.params s.dec.k
      rl := 2 ^ width s.dec.k - 1
      rem := s.dec.rem - 1 } }

/-- After the run length of `CW.RUNEND`: the encoder's flush terminator; no Golomb-Rice code follows and
`D_K`, `D_KR` stay (R262, R266). -/
def runEndDone (r : Nat) (s : State) : Res Nat :=
  .ok 0 { s with dec := { s.dec with rl := r - 1, rem := s.dec.rem - 1 } }

/-- After the coded quantity `x` of `CW.RUNTERM` with run length `r`: the zeros first, the symbol after
them (R262). -/
def runTermDone (r x : Nat) (s : State) : Res Nat :=
  if x = 0xFFFFFFFF then .raise .desync x
  else
    let u := x + 1
    let d := { s.dec with
      kr := adaptKr s.params s.dec.kr u
      k := adaptKTerm s.params s.dec.k
      rem := s.dec.rem - 1 }
    if 0 < r then .ok 0 { s with dec := { d with rl := r - 1, pend := true, pv := BitVec.ofNat 32 u } }
    else .ok u { s with dec := d }

/-- After the flag 1 and the run length `r` (R262). -/
def getTerminator (r : Nat) (s : State) : Res Nat :=
  (requireRemaining r s).andThen fun _ s =>
    if r = s.dec.rem then runEndDone r s
    else
      (rReserve Config.maxCode s).andThen fun _ s =>
      (grRead (width s.dec.kr) s).andThen fun x s =>
      runTermDone r x s

/-- Run state: the flag decides (R262). -/
def getRun (s : State) : Res Nat :=
  (rReserve (1 + width s.dec.k) s).andThen fun _ s =>
  (readField 1 s).andThen fun f s =>
    if f = 0 then runFullDone s
    else (readField (width s.dec.k) s).andThen fun r s => getTerminator r s

/-- `Decoder::get` (R262). -/
def decGet (s : State) : Res Nat :=
  (requireDecoder s).andThen fun _ s =>
    if 0 < s.dec.rl then getZero s
    else if s.dec.pend then getPending s
    else if s.dec.k = 0 then getDirect s
    else getRun s

/-- A fresh decoder of a stream of `count` symbols (R261). -/
def freshDecoder (p : Params) (count : Nat) : Decoder :=
  { k := p.kInit, kr := p.krInit, rl := 0, pend := false, pv := 0, rem := count, act := true }

/-- `DEC.NEW count` starts decoding a stream of `count` symbols at the current read cursor (R261). -/
def execDecNew (count : Half) (s : State) : CommandOutcome :=
  runCommand (noResult fun s =>
    .ok () { s with reader := freshReader, dec := freshDecoder s.params (auxOperand count) }) s

/-- `DEC.GET` returns the next symbol (R262). -/
def execDecGet (s : State) : CommandOutcome := runCommand (numResult decGet) s

end Sys2Proof.Machine
end

