-- ==== Sys2Proof/Machine/Codes.lean ====
section
/-! DEFINITION. The codes of the bit stream as instructions (30_encoding.md Part B). A code is met by the
reader inside `GR.RD` or `DEC.GET`; its meaning here is what that command does when the code is the next one
of the stream: the command's own checks and faults, the code's bits consumed, the symbols it stands for
delivered, the parameters updated (log 6). Its operands say what the bits say, so the meaning does not parse
them. -/

namespace Sys2Proof.Machine

/-- The 64 stream bits of page `h`, first bit first (20_memory.md R60, R61). -/
def pageBits (m : Memory) (h : Nat) : List Bool := bitsOf 64 (streamWord m h).toNat

/-- The reserved and unconsumed bits of the reader in stream order (43_bit_reader.md R190). -/
def reservedBits (s : State) : List Bool :=
  (bitsOf 32 s.reader.buf32.toNat).take s.reader.bv ++
  (bitsOf 64 s.reader.buf64.toNat).take s.reader.bv64 ++
  s.reader.win.flatMap (pageBits s.mem)

/-- The bits of the pages a reserve would fetch next (41_reservation_window.md R153). -/
def unfetchedBits (s : State) : List Bool :=
  (List.range' s.psRcur (s.psWcur - s.psRcur)).flatMap (pageBits s.mem)

/-- The stream from the reader's position on (43_bit_reader.md R199). -/
def streamAhead (s : State) : List Bool := reservedBits s ++ unfetchedBits s

/-- What the decoder knows at a code boundary (30_encoding.md R101). -/
def decoderCtx (s : State) : CodeCtx :=
  if s.dec.k = 0 then .direct (width s.dec.kr) else .run (width s.dec.k) (width s.dec.kr) s.dec.rem

/-- Does `DEC.GET` read a code in this state (46_rlgr_decoder.md R262; 10_state.md R43)? -/
def decoderReads (s : State) : Bool := s.dec.act && decide (0 < s.dec.rem) && s.dec.atBoundary

/-- Is this code the next one of the stream, as a reader in this context meets it (30_encoding.md R101)? -/
def codeAhead (ctx : CodeCtx) (i : Instr) (s : State) : Bool :=
  match encodeCode ctx i with
  | some bits => bits.isPrefixOf (streamAhead s)
  | none => false

/-- Run a stream code as the command that meets it does: refused in the fault state (60_exceptions.md R311);
then what the command does before it looks at the stream, faults included (R320); then its procedure on the
code. A stop of the model where the stream holds another code (log 7). -/
def runCode (before : State → Res Unit) (ctx : CodeCtx) (i : Instr) (p : State → Res Nat) (s : State) :
    CommandOutcome :=
  if s.fault ≠ 0 then .next s.refuse
  else
    match before s with
    | .raise f info => .next (takeFault f info s)
    | .ok _ _ => if codeAhead ctx i s then runProc (numResult p) s else .fault .codeNotAhead

/-- The bits the decoder reserves before it looks at a code: 64 in Direct state, the flag and the run-length
field in Run state (46_rlgr_decoder.md R262). -/
def codeReserve (d : Decoder) : Nat := if d.k = 0 then Config.maxCode else 1 + width d.k

/-- What `DEC.GET` does before it looks at a code: `F_CODER_STATE`, and at a code boundary the first reserve
(46_rlgr_decoder.md R262). -/
def decoderBefore (s : State) : Res Unit :=
  (requireDecoder s).andThen fun _ s =>
    if s.dec.atBoundary then rReserve (codeReserve s.dec) s else .ok () s

/-- What `GR.RD` does before it looks at a code: 32 reserved bits (44_golomb_rice.md R213). -/
def golombBefore (s : State) : Res Unit := requireReadable 32 s

/-- `DEC.GET` with a code next in the stream: what an earlier code left is returned first, and at a code
boundary the code is read (46_rlgr_decoder.md R262; 10_state.md R43). -/
def decoderMeets (p : State → Res Nat) (s : State) : Res Nat :=
  if 0 < s.dec.rl then getZero s
  else if s.dec.pend then getPending s
  else p s

/-- Run a stream code the decoder meets. -/
def runDecoderCode (i : Instr) (p : State → Res Nat) (s : State) : CommandOutcome :=
  runCode decoderBefore (decoderCtx s) i (decoderMeets p) s

/-- Consume a field of `n` bits; one of width 0 has no bits. -/
def skipField (n : Nat) (s : State) : Res Unit := if 0 < n then rSkip n s else .ok () s

/-- Consume the escape code: its marker and its 32 value bits (30_encoding.md R103). -/
def skipEscape (s : State) : Res Unit :=
  (requireReadable 32 s).andThen fun _ s => (rSkip 32 s).andThen fun _ s => rSkip 32 s

/-- Consume the unescaped code of `x`: `q + 1` prefix bits, `m` remainder bits (30_encoding.md R102). The
reader looks at 32 bits before it knows the prefix (44_golomb_rice.md R213). -/
def skipPlain (x m : Nat) (s : State) : Res Unit :=
  (requireReadable 32 s).andThen fun _ s =>
  (rSkip ((x >>> m) + 1) s).andThen fun _ s => skipField m s

/-- Consume the Golomb-Rice code of `x` with parameter `m` (30_encoding.md R102, R103). -/
def skipGr (x m : Nat) (s : State) : Res Unit :=
  if Config.escQ ≤ x >>> m then skipEscape s else skipPlain x m s

/-- Consume the flag bit of a run code, after its reserve (30_encoding.md R104 to R106). -/
def skipFlag (s : State) : Res Unit :=
  (rReserve (1 + width s.dec.k) s).andThen fun _ s => rSkip 1 s

/-- Consume the flag and the run-length field of a terminator (30_encoding.md R105, R106). -/
def skipTerminator (s : State) : Res Unit :=
  (skipFlag s).andThen fun _ s => skipField (width s.dec.k) s

/-- `CW.GR`: the code of `x` with parameter `m`; a Golomb-Rice reader consumes it and delivers `x` (R102). -/
def execCwGr (m : Byte) (x : Half) (s : State) : CommandOutcome :=
  runCode (fun s => (requireRice (countOperand m) s).andThen fun _ s => golombBefore s)
    (.golomb (countOperand m)) (.cwGr m x)
    (fun s => (skipPlain (valueOperand x) (countOperand m) s).andThen fun _ s => .ok (valueOperand x) s) s

/-- `CW.ESC`: the escape code of `x`, the same for every parameter (R103). -/
def execCwEsc (x : Half) (s : State) : CommandOutcome :=
  runCode golombBefore (.golomb 0) (.cwEsc x)
    (fun s => (skipEscape s).andThen fun _ s => .ok (valueOperand x) s) s

/-- `CW.RUNFULL`: a whole window of zeros; `k` grows by `UP_K` (R104; 45_rlgr_encoder.md R234). A window
longer than expected raises `F_DESYNC` (46_rlgr_decoder.md R267). -/
def execCwRunfull (s : State) : CommandOutcome :=
  runDecoderCode .cwRunfull (fun s => (skipFlag s).andThen fun _ s => runFullDone s) s

/-- `CW.RUNTERM`: `rl` zeros and the symbol `u`; `kr` adapts to `u`, `k` shrinks by `DOWN_K` (R105;
45_rlgr_encoder.md R235). A run longer than expected raises `F_DESYNC`, and one as long as expected is taken
for the flush terminator (46_rlgr_decoder.md R266, R267). -/
def execCwRunterm (rl u : Half) (s : State) : CommandOutcome :=
  runDecoderCode (.cwRunterm rl u) (fun s =>
    (skipTerminator s).andThen fun _ s =>
    (requireRemaining rl.toNat s).andThen fun _ s =>
    if rl.toNat = s.dec.rem then runEndDone rl.toNat s
    else
      (rReserve Config.maxCode s).andThen fun _ s =>
      (skipGr (u.toNat - 1) (width s.dec.kr) s).andThen fun _ s =>
      runTermDone rl.toNat (u.toNat - 1) s) s

/-- `CW.RUNEND`: the trailing run of `rl` zeros; neither parameter changes (R106; 46_rlgr_decoder.md R266).
A run longer than expected raises `F_DESYNC`, and a shorter one is taken for the terminator of the symbol that
the bits after it then stand for (R262, R267). -/
def execCwRunend (rl : Half) (s : State) : CommandOutcome :=
  runDecoderCode (.cwRunend rl) (fun s => (skipTerminator s).andThen fun _ s => getTerminator rl.toNat s) s

/-- `CW.DIRECT`: the symbol `u` in Direct state; both parameters adapt (R107; 45_rlgr_encoder.md R233). -/
def execCwDirect (u : Half) (s : State) : CommandOutcome :=
  runDecoderCode (.cwDirect u) (fun s =>
    (rReserve Config.maxCode s).andThen fun _ s =>
    (skipGr u.toNat (width s.dec.kr) s).andThen fun _ s =>
    directDone u.toNat s) s

end Sys2Proof.Machine
end

