-- ==== Sys2Proof/Machine/PageStorage.lean ====
section
/-! DEFINITION. The Page Storage commands (40_page_storage.md). -/

namespace Sys2Proof.Machine

/-- `PS.ACQ` appends one zero page and returns its handle (R131). -/
def execPsAcq (s : State) : CommandOutcome := runCommand (numResult psAcquire) s

/-- `PS.NEXT` returns the handle of the next unread page and advances the read cursor (R132). -/
def execPsNext (s : State) : CommandOutcome := runCommand (numResult psReadNext) s

/-- `PS.GET h` returns the stored value of page `h` (R133). -/
def execPsGet (h : Half) (s : State) : CommandOutcome := runCommand (pageGet (auxOperand h)) s

/-- `PS.SET h, page` stores a value into page `h` (R134). -/
def execPsSet (h : Half) (page : Page) (s : State) : CommandOutcome :=
  runCommand (noResult (pageSet (auxOperand h) page)) s

/-- `PS.LEN` returns the number of pages (R135). -/
def execPsLen (s : State) : CommandOutcome := runCommand (numResult fun s => .ok s.psWcur s) s

end Sys2Proof.Machine
end

