-- ==== Sys2Proof/Machine/System.lean ====
section
/-! DEFINITION. `CSR.RD` and the register map (47_system.md; 10_state.md R29). -/

namespace Sys2Proof.Machine

/-- Entry `i` of a window, "and 0 when `i ≥ W_WCNT`" (47_system.md R290). -/
def windowEntry (win : List Nat) (i : Nat) : Nat := win.getD i 0

/-- The registers with numbers below 0x100 (10_state.md R29), zero-extended to 64 bits. -/
def csrNamed (idx : Nat) (s : State) : Option (BitVec 64) :=
  match idx with
  | 0x00 => some (s.fault.setWidth 64)
  | 0x01 => some s.finfo
  | 0x10 => some (BitVec.ofNat 64 s.psWcur)
  | 0x11 => some (BitVec.ofNat 64 s.psRcur)
  | 0x20 => some s.writer.buf
  | 0x21 => some (BitVec.ofNat 64 s.writer.left)
  | 0x22 => some (BitVec.ofNat 64 s.writer.rsvd)
  | 0x23 => some (BitVec.ofNat 64 s.writer.win.length)
  | 0x30 => some (s.reader.buf32.setWidth 64)
  | 0x31 => some (BitVec.ofNat 64 s.reader.bv)
  | 0x32 => some s.reader.buf64
  | 0x33 => some (BitVec.ofNat 64 s.reader.bv64)
  | 0x34 => some (BitVec.ofNat 64 s.reader.rsvd)
  | 0x35 => some (BitVec.ofNat 64 s.reader.win.length)
  | 0x40 => some (BitVec.ofNat 64 s.enc.k)
  | 0x41 => some (BitVec.ofNat 64 s.enc.kr)
  | 0x42 => some (BitVec.ofNat 64 s.enc.rl)
  | 0x43 => some (eFlags s.enc)
  | 0x48 => some (BitVec.ofNat 64 s.dec.k)
  | 0x49 => some (BitVec.ofNat 64 s.dec.kr)
  | 0x4A => some (BitVec.ofNat 64 s.dec.rl)
  | 0x4B => some (dFlags s.dec)
  | 0x4C => some (s.dec.pv.setWidth 64)
  | 0x4D => some (BitVec.ofNat 64 s.dec.rem)
  | _ => none

/-- The register map: "Every number not in this table is undefined" (10_state.md R29). The legal `i` of
the window registers "are `0 .. 31` whatever `WIN_CAP` is" (47_system.md R290). -/
def csrRead (idx : Nat) (s : State) : Option (BitVec 64) :=
  if 0x100 ≤ idx ∧ idx < 0x100 + 32 then some (BitVec.ofNat 64 (windowEntry s.writer.win (idx - 0x100)))
  else if 0x140 ≤ idx ∧ idx < 0x140 + 32 then some (BitVec.ofNat 64 (windowEntry s.reader.win (idx - 0x140)))
  else csrNamed idx s

/-- `CSR.RD`'s procedure (R290). -/
def csrProc (idx : Nat) (s : State) : Res (BitVec 64) :=
  match csrRead idx s with
  | some v => .ok v s
  | none => .raise .badOperand idx

/-- The two reads that execute in the fault state (60_exceptions.md R311). -/
def csrInFaultState (idx : Nat) : Bool := idx == 0x00 || idx == 0x01

/-- `CSR.RD idx` returns the value of one status register (R290). In the fault state the reads of `FAULT`
and `FINFO` execute normally, every other is refused (60_exceptions.md R311). -/
def execCsrRd (idx : Half) (s : State) : CommandOutcome :=
  if csrInFaultState (auxOperand idx) then runProc (csrProc (auxOperand idx)) s
  else runCommand (csrProc (auxOperand idx)) s

end Sys2Proof.Machine
end

