-- ==== Sys2Proof/Machine/Dispatch.lean ====
section
/-! DEFINITION. The dispatch of an instruction to its meaning: one arm per constructor of Instr. -/

namespace Sys2Proof.Machine

def exec (i : Instr) (s : State) : Host.Outcome State Fault Refusal :=
  match i with
  | .psAcq => Sys2Proof.Machine.execPsAcq s
  | .psNext => Sys2Proof.Machine.execPsNext s
  | .psGet h => Sys2Proof.Machine.execPsGet h s
  | .psSet h page => Sys2Proof.Machine.execPsSet h page s
  | .psLen => Sys2Proof.Machine.execPsLen s
  | .wRsv minBits => Sys2Proof.Machine.execWRsv minBits s
  | .wAvail => Sys2Proof.Machine.execWAvail s
  | .wPut n value => Sys2Proof.Machine.execWPut n value s
  | .wAlign => Sys2Proof.Machine.execWAlign s
  | .wFlush => Sys2Proof.Machine.execWFlush s
  | .rRsv minBits => Sys2Proof.Machine.execRRsv minBits s
  | .rAvail => Sys2Proof.Machine.execRAvail s
  | .rPeek32 => Sys2Proof.Machine.execRPeek32 s
  | .rPeek n => Sys2Proof.Machine.execRPeek n s
  | .rSkip n => Sys2Proof.Machine.execRSkip n s
  | .grWr m x => Sys2Proof.Machine.execGrWr m x s
  | .grRd m => Sys2Proof.Machine.execGrRd m s
  | .zzEnc v => Sys2Proof.Machine.execZzEnc v s
  | .zzDec u => Sys2Proof.Machine.execZzDec u s
  | .encNew => Sys2Proof.Machine.execEncNew s
  | .encPut u => Sys2Proof.Machine.execEncPut u s
  | .encFlush => Sys2Proof.Machine.execEncFlush s
  | .decNew count => Sys2Proof.Machine.execDecNew count s
  | .decGet => Sys2Proof.Machine.execDecGet s
  | .csrRd idx => Sys2Proof.Machine.execCsrRd idx s
  | .cwGr m x => Sys2Proof.Machine.execCwGr m x s
  | .cwEsc x => Sys2Proof.Machine.execCwEsc x s
  | .cwRunfull => Sys2Proof.Machine.execCwRunfull s
  | .cwRunterm rl u => Sys2Proof.Machine.execCwRunterm rl u s
  | .cwRunend rl => Sys2Proof.Machine.execCwRunend rl s
  | .cwDirect u => Sys2Proof.Machine.execCwDirect u s

end Sys2Proof.Machine
end

