-- ==== Sys2Proof/Machine/Fetch.lean ====
section
/-! DEFINITION. Where the next step finds an instruction: a packet is the next of the host's list; a stream
code stands at the reader's position, behind the command that meets it (log 5, log 8). -/

namespace Sys2Proof.Machine

/-- The host issues this packet next, and nothing after it. -/
def issueNext (p : Packet) (s : State) : State := { s with program := [p], pos := 0 }

/-- A reader with these 64 bits reserved, as a reserve of 64 bits leaves it (43_bit_reader.md R192). -/
def readerHolding (word : Page) : Reader :=
  { buf32 := (word >>> 32).setWidth 32, bv := 32, buf64 := word <<< 32, bv64 := 32, rsvd := 64, win := [] }

/-- Put the escape code of a table word before the reader, with the `GR.RD 0` that meets it (log 8). -/
def placeEscape (w : Nat) (s : State) : State :=
  issueNext (packetFI 0x31 0) { s with reader := readerHolding (BitVec.ofNat 64 w) }

/-- Put a one-bit run code before a decoder in Run state that expects one symbol, with the `DEC.GET` that
meets it (log 8). -/
def placeRunFlag (w : Nat) (s : State) : State :=
  issueNext (packetF0 0x49)
    { s with
      reader := readerHolding (BitVec.ofNat 64 w <<< 63)
      dec := { k := 1, kr := 0, rl := 0, pend := false, pv := 0, rem := 1, act := true } }

/-- Store a table word where the next step fetches it. -/
def placeTableWord (nbits w : Nat) (s : State) : State :=
  if 64 < nbits then issueNext (BitVec.ofNat 128 w) s
  else if nbits = 64 then placeEscape w s
  else placeRunFlag w s

end Sys2Proof.Machine
end

