-- ==== Sys2Proof/Machine/Step.lean ====
section
/-! DEFINITION. One step of the block: the host's next packet, decoded and run (00_scope.md R15). -/

namespace Sys2Proof.Machine

/-- One step. The position advances by one for every packet (10_state.md R27); with no packet left the
block waits (70_reset_and_hazards.md R341; log 4). -/
def step (s : State) : Host.Outcome State Fault Refusal :=
  match fetchPacket s with
  | none => .next s
  | some p =>
    match decode p with
    | .ok i => exec i s.advance
    | .error _ => illegalPacket p s.advance

/-- The state with a table word stored where `step` fetches its next instruction (log 5, log 8). -/
def State.withFetchWord (s : State) (nbits w : Nat) : State := placeTableWord nbits w s

end Sys2Proof.Machine
end

