-- ==== Sys2Proof/Safety.lean ====
section
/-! DEFINITION. What a good state is: the invariants the spec states for every non-faulted state, gathered
as `State.Inv`, and the capacity conditions under which a command completes. -/

namespace Sys2Proof.Machine

/-- "Entries of `W_WIN` are distinct handles of existing pages in increasing order" (10_state.md R35). -/
def handlesBelow (n : Nat) (win : List Nat) : Prop := win.Pairwise (· < ·) ∧ ∀ h ∈ win, h < n

/-- The writer's invariants (10_state.md R21, R22, R33, R35; 42_bit_writer.md R170). -/
structure Writer.Inv (w : Writer) (cap pages : Nat) : Prop where
  /-- `0 ≤ W_LEFT ≤ 64`. -/
  left_le : w.left ≤ 64
  /-- `W_BUF < 2^(64 - W_LEFT)`. -/
  buf_lt : w.buf.toNat < 2 ^ (64 - w.left)
  /-- `W_RSVD = 64 · W_WCNT - (64 - W_LEFT)`. -/
  rsvd_eq : w.rsvd + 64 = 64 * w.win.length + w.left
  /-- `W_WCNT ≤ WIN_CAP`. -/
  win_le : w.win.length ≤ cap
  /-- The entries of `W_WIN`. -/
  win_ok : handlesBelow pages w.win

/-- The reader's invariants and its normal form (10_state.md R23 to R26, R34, R35; 43_bit_reader.md R190,
R192). -/
structure Reader.Inv (r : Reader) (cap fetched : Nat) : Prop where
  /-- `R_BV = min(32, R_RSVD)`. -/
  bv_eq : r.bv = min 32 r.rsvd
  /-- `R_BV64 ≤ 64`. -/
  bv64_le : r.bv64 ≤ 64
  /-- The low `32 - R_BV` bits of `R_BUF32` are zero. -/
  buf32_low : r.buf32.toNat % 2 ^ (32 - r.bv) = 0
  /-- The low `64 - R_BV64` bits of `R_BUF64` are zero. -/
  buf64_low : r.buf64.toNat % 2 ^ (64 - r.bv64) = 0
  /-- `R_RSVD = R_BV + R_BV64 + 64 · R_WCNT`. -/
  rsvd_eq : r.rsvd = r.bv + r.bv64 + 64 * r.win.length
  /-- The refill would move nothing. -/
  settled : r.moves = false
  /-- `R_WCNT ≤ WIN_CAP`. -/
  win_le : r.win.length ≤ cap
  /-- The entries of `R_WIN` have been fetched, in increasing order. -/
  win_ok : handlesBelow fetched r.win

/-- The encoder's invariants (10_state.md R37 to R39). -/
structure Encoder.Inv (e : Encoder) : Prop where
  /-- `E_K` is 0 to 240. -/
  k_le : e.k ≤ 240
  /-- `E_KR` is 0 to 240. -/
  kr_le : e.kr ≤ 240
  /-- `E_RL = 0` whenever `E_K = 0`, and `E_RL < 1 << (E_K >> 3)`: with `E_K = 0` the window is 1. -/
  rl_lt : e.rl < 2 ^ width e.k

/-- The decoder's invariants (10_state.md R41 to R45). -/
structure Decoder.Inv (d : Decoder) : Prop where
  /-- `D_K` is 0 to 240. -/
  k_le : d.k ≤ 240
  /-- `D_KR` is 0 to 240. -/
  kr_le : d.kr ≤ 240
  /-- `D_RL ≤ 2^30 - 1`. -/
  rl_lt : d.rl < 2 ^ 30
  /-- `D_PV = 0` exactly when `D_PEND = 0`. -/
  pv_iff : d.pend = false ↔ d.pv = 0
  /-- What has been decoded and not yet returned is still expected. -/
  held_le : d.rl + d.pend.toNat ≤ d.rem
  /-- `D_REM` is 32 bits. -/
  rem_lt : d.rem < 2 ^ 32

/-- The Page Storage's invariants (40_page_storage.md R130). -/
structure State.PagesInv (s : State) : Prop where
  /-- `PS_RCUR ≤ PS_WCUR`. -/
  rcur_le : s.psRcur ≤ s.psWcur
  /-- `PS_WCUR ≤ MAX_PAGES`. -/
  wcur_le : s.psWcur ≤ s.params.pageLimit
  /-- Nothing is stored outside the pages that exist. -/
  mem_below : memBelow (8 * s.psWcur) s.mem = true

/-- The invariants of every non-faulted state. -/
structure State.LiveInv (s : State) : Prop where
  /-- The Page Storage. -/
  pages : s.PagesInv
  /-- The writer. -/
  writer : s.writer.Inv s.params.winCap s.psWcur
  /-- The reader. -/
  reader : s.reader.Inv s.params.winCap s.psRcur
  /-- The encoder. -/
  enc : s.enc.Inv
  /-- The decoder. -/
  dec : s.dec.Inv

/-- The invariant of the machine: legal parameters, a canonical memory, a fault register of the table, no
information without a fault (10_state.md R47), and, outside the fault state, the invariants above. After a
fault "all other state is unspecified" (60_exceptions.md R310), so nothing else holds there. -/
structure State.Inv (s : State) : Prop where
  /-- The parameters are in the ranges of 00_scope.md R6. -/
  params_legal : s.params.legal = true
  /-- The Page Storage's bytes are in canonical form. -/
  mem_wf : s.mem.wf = true
  /-- `FAULT` is 0 to 10. -/
  fault_le : s.fault.toNat ≤ 10
  /-- `FINFO` is "0 while `FAULT = 0`". -/
  finfo_zero : s.fault = 0 → s.finfo = 0
  /-- The invariants of a non-faulted state. -/
  live : s.fault = 0 → s.LiveInv

/-- A state a command can run in: the invariant holds and no fault has occurred. -/
structure State.Ready (s : State) : Prop where
  /-- The invariant. -/
  inv : s.Inv
  /-- Not in the fault state (60_exceptions.md R311). -/
  no_fault : s.fault = 0

/-- The store has room for `n` more pages. -/
def State.roomFor (s : State) (n : Nat) : Prop := s.psWcur + n ≤ s.params.pageLimit

/-- The bits written and not yet committed, in stream order: the `64 - W_LEFT` valid bits of `W_BUF`
(10_state.md R21, R48). -/
def Writer.pendingBits (w : Writer) : List Bool := bitsOf (64 - w.left) w.buf.toNat

/-! ## Which command may write what -/

/-- The faults a command can raise: the "raised by" column of 60_exceptions.md R301, per command. A stream
code raises those of the command that meets it. -/
def faultsOf : Instr → List FaultName
  | .psAcq => [.storeFull]
  | .psNext => [.readPastWrite]
  | .psGet _ | .psSet _ _ => [.badHandle]
  | .psLen | .wAvail | .wAlign | .wFlush | .rAvail => []
  | .wRsv _ => [.winOverflow, .storeFull]
  | .wPut _ _ => [.badOperand, .valueWidth, .unreserved]
  | .rRsv _ => [.winOverflow, .readPastWrite]
  | .rPeek32 => [.unreserved]
  | .rPeek _ | .rSkip _ | .grWr _ _ | .grRd _ => [.badOperand, .unreserved]
  | .zzEnc _ | .zzDec _ | .encNew | .decNew _ => []
  | .encPut _ | .encFlush => [.coderState, .storeFull]
  | .decGet => [.coderState, .readPastWrite, .desync]
  | .csrRd _ => [.badOperand]
  | .cwGr _ _ => [.badOperand, .unreserved]
  | .cwEsc _ => [.unreserved]
  | .cwRunfull | .cwRunterm _ _ | .cwRunend _ | .cwDirect _ => [.coderState, .readPastWrite, .desync]

/-- Writes the writer's registers or its window (10_state.md R21, R22, R33, R35). -/
def writesWriter : Instr → Bool
  | .wRsv _ | .wPut _ _ | .wAlign | .wFlush | .grWr _ _ | .encNew | .encPut _ | .encFlush => true
  | _ => false

/-- Writes the reader's registers or its window (10_state.md R23 to R26, R34, R35). The stream codes are
read by `GR.RD` or `DEC.GET`. -/
def writesReader : Instr → Bool
  | .rRsv _ | .rSkip _ | .grRd _ | .decNew _ | .decGet => true
  | .cwGr _ _ | .cwEsc _ | .cwRunfull | .cwRunterm _ _ | .cwRunend _ | .cwDirect _ => true
  | _ => false

/-- Writes the encoder's registers (10_state.md R37 to R40). -/
def writesEncoder : Instr → Bool
  | .encNew | .encPut _ | .encFlush => true
  | _ => false

/-- Writes the decoder's registers (10_state.md R41 to R46). -/
def writesDecoder : Instr → Bool
  | .decNew _ | .decGet | .cwRunfull | .cwRunterm _ _ | .cwRunend _ | .cwDirect _ => true
  | _ => false

/-- Appends pages: the first row of the table of 20_memory.md R66. -/
def acquiresPages : Instr → Bool
  | .psAcq | .wRsv _ | .encPut _ | .encFlush => true
  | _ => false

/-- Advances the read cursor: the last row of the table of 20_memory.md R66. -/
def fetchesPages : Instr → Bool
  | .psNext | .rRsv _ | .decGet => true
  | .cwRunfull | .cwRunterm _ _ | .cwRunend _ | .cwDirect _ => true
  | _ => false

/-- Commits stream words into pages: the third row of the table of 20_memory.md R66, without `PS.SET`. -/
def commitsPages : Instr → Bool
  | .wPut _ _ | .wFlush | .grWr _ _ | .encPut _ | .encFlush => true
  | _ => false

/-! ## What a reserve acquires -/

/-- "The number of pages it acquires is `max(0, ceil((min_bits - W_RSVD) / 64))`" (41_reservation_window.md
R152), and the same for the reader (R153). -/
def pagesNeeded (minBits rsvd : Nat) : Nat := (minBits - rsvd + 63) / 64

/-- The pages of the two reserves around a run terminator with its symbol: `1 + s` bits, then 64
(45_rlgr_encoder.md R235; 46_rlgr_decoder.md R262). -/
def termPages (s rsvd : Nat) : Nat :=
  let n := pagesNeeded (1 + s) rsvd
  n + pagesNeeded 64 (rsvd + 64 * n - (1 + s))

/-- The state with the next `n` pages of the store acquired by the writer, all zero
(41_reservation_window.md R152). -/
def State.withReserved (s : State) (n : Nat) : State :=
  { s with
    psWcur := s.psWcur + n
    writer := { s.writer with
      win := s.writer.win ++ List.range' s.psWcur n
      rsvd := s.writer.rsvd + 64 * n } }

/-! ## What the writer does to the stream (42_bit_writer.md R176) -/

/-- The stream words committed when `bits` follow the buffered bits: a word is committed when a bit beyond
it is written ("lazy commit", 42_bit_writer.md R172). -/
def wordsCommitted (w : Writer) (bits : List Bool) : Nat := (w.pendingBits.length + bits.length - 1) / 64

/-- `t` is `s` after the writer has appended `bits` to the stream (42_bit_writer.md R172, R176): the words
that are full and passed are in the oldest reserved pages, the rest is in the accumulator, every other byte
of the store and every other register is as before. -/
structure Appended (s t : State) (bits : List Bool) : Prop where
  /-- Only the writer and bytes of the store change. -/
  others : t = { s with mem := t.mem, writer := t.writer }
  /-- The committed words have had their pages. -/
  enough : wordsCommitted s.writer bits ≤ s.writer.win.length
  /-- Their handles have left the window. -/
  win : t.writer.win = s.writer.win.drop (wordsCommitted s.writer bits)
  /-- The free positions of the word begun. -/
  left : t.writer.left + (s.writer.pendingBits.length + bits.length) =
    64 * (wordsCommitted s.writer bits + 1)
  /-- The accumulator holds the bits of the word begun and nothing above them. -/
  buffered : t.writer.pendingBits = (s.writer.pendingBits ++ bits).drop (64 * wordsCommitted s.writer bits)
  /-- "every bit above them is zero" (10_state.md R21). -/
  cleared : t.writer.buf.toNat < 2 ^ (64 - t.writer.left)
  /-- The guarantee shrinks by the bits used. -/
  rsvd : t.writer.rsvd + bits.length = s.writer.rsvd
  /-- The i-th oldest page holds the i-th word. -/
  pages : ∀ i h, i < wordsCommitted s.writer bits → s.writer.win[i]? = some h →
    pageBits t.mem h = ((s.writer.pendingBits ++ bits).drop (64 * i)).take 64
  /-- Every byte outside those pages is as before. -/
  frame : ∀ a, a / 8 ∉ s.writer.win.take (wordsCommitted s.writer bits) → memRead t.mem a = memRead s.mem a
  /-- The memory keeps its canonical form. -/
  mem_wf : t.mem.wf = true

/-- `t` is `s` after `w_flush()` with bits buffered (42_bit_writer.md R175): the oldest reserved page holds
the buffered bits and zeros below them, the accumulator is empty. -/
structure Committed (s t : State) : Prop where
  /-- What changes: bytes of the store, and the writer. -/
  others : t = { s with
    mem := t.mem
    writer := { buf := 0, left := 64, rsvd := s.writer.rsvd - s.writer.left, win := s.writer.win.tail } }
  /-- The page of the word and the frame around it. -/
  page : ∃ h rest, s.writer.win = h :: rest ∧
    pageBits t.mem h = s.writer.pendingBits ++ List.replicate s.writer.left false ∧
    ∀ a, a / 8 ≠ h → memRead t.mem a = memRead s.mem a
  /-- The memory keeps its canonical form. -/
  mem_wf : t.mem.wf = true

/-- `t` is `s` after `w_flush()`: nothing at all where nothing is buffered (42_bit_writer.md R175). -/
def Flushed (s t : State) : Prop := if s.writer.left = 64 then t = s else Committed s t

/-! ## What the reader does to the stream (43_bit_reader.md R199) -/

/-- `t` is `s` after the reader has fetched `n` pages and stands where `rest` is ahead: only the reader and
the read cursor change, and the reader is in its normal form (43_bit_reader.md R190, R192). -/
structure ReadOn (s t : State) (n : Nat) (rest : List Bool) : Prop where
  /-- Only the reader and the read cursor change. -/
  others : t = { s with psRcur := s.psRcur + n, reader := t.reader }
  /-- Normal form and the registers' ranges. -/
  reader : t.reader.Inv s.params.winCap (s.psRcur + n)
  /-- The stream from the new position on. -/
  ahead : streamAhead t = rest

/-- `t` is `s` after the reader has consumed `n` reserved bits, with no page fetched. -/
structure Consumed (s t : State) (n : Nat) : Prop where
  /-- Only the reader changes. -/
  others : t = { s with reader := t.reader }
  /-- Normal form and the registers' ranges. -/
  reader : t.reader.Inv s.params.winCap s.psRcur
  /-- The guarantee shrinks by the bits used. -/
  rsvd : t.reader.rsvd + n = s.reader.rsvd
  /-- The next bits are those after the consumed ones. -/
  bits : reservedBits t = (reservedBits s).drop n

/-! ## What a code of the stream does to the decoder (46_rlgr_decoder.md R262) -/

/-- The symbol `DEC.GET` returns when it parses the code `i`, and the decoder's registers after it. -/
def codeResult (p : Params) (d : Decoder) : Instr → Nat × Decoder
  | .cwRunfull =>
    (0, { d with k := min 240 (d.k + p.upK), rl := 2 ^ (d.k / 8) - 1, rem := d.rem - 1 })
  | .cwRunend rl => (0, { d with rl := rl.toNat - 1, rem := d.rem - 1 })
  | .cwRunterm rl u =>
    let e := { d with kr := adaptKr p d.kr u.toNat, k := d.k - p.downK, rem := d.rem - 1 }
    if rl = 0 then (u.toNat, e) else (0, { e with rl := rl.toNat - 1, pend := true, pv := u })
  | .cwDirect u =>
    (u.toNat, { d with
      kr := adaptKr p d.kr u.toNat
      k := if u = 0 then min 240 (d.k + p.upKDirect) else d.k - p.downKDirect
      rem := d.rem - 1 })
  | _ => (0, d)

/-- Does a code stand for no more symbols than the decoder still expects, and is it taken for what it is? A
code that is not so raises `F_DESYNC` or is taken for the other terminator (46_rlgr_decoder.md R266, R267). -/
def codeFits (d : Decoder) : Instr → Bool
  | .cwRunfull => decide (2 ^ (d.k / 8) ≤ d.rem)
  | .cwRunterm rl _ => decide (rl.toNat < d.rem)
  | .cwRunend rl => decide (rl.toNat = d.rem)
  | _ => true

/-- The pages the reserves for a code fetch (46_rlgr_decoder.md R262). -/
def codePages (d : Decoder) (rsvd : Nat) : Instr → Nat
  | .cwRunfull | .cwRunend _ => pagesNeeded (1 + d.k / 8) rsvd
  | .cwRunterm _ _ => termPages (d.k / 8) rsvd
  | _ => pagesNeeded 64 rsvd

/-! ## A list of commands -/

/-- Run instructions one after another: the responses and the last state, or none where one stops. -/
def runAll : List Instr → State → Option (List (Option Response) × State)
  | [], s => some ([], s)
  | i :: is, s =>
    match exec i s with
    | .next t =>
      match runAll is t with
      | some (rs, u) => some (t.response :: rs, u)
      | none => none
    | _ => none

/-- The response of a command that ended normally with this result (30_encoding.md R92). -/
def okWith (v : BitVec 64) : Option Response := some { status := statusOk, result := v }

end Sys2Proof.Machine
end

