-- ==== Sys2Proof/Certificates/Slice0/Obligations.lean ====
section
/-! DEFINITION. The statements about the block, from the numbered rules of the spec. A statement about every
state carries `State.Ready` (the invariant and no fault, Safety.lean) where it could fail only in a state no
run reaches; the invariant is stated for reset and for every step on its own. -/

open Sys2Proof Sys2Proof.Machine

/-! ## Packets (30_encoding.md Part A) -/

/-- Words written out from the rows of R94 decode to their commands, and words no row matches do not. -/
def Obligations.DecodesRuleWords : Prop :=
  decode 0x01000000000000000000000000000000 = .ok .psAcq ∧
  decode 0x0400000000000002000000000000CF0B = .ok (.psSet 2 0xCF0B) ∧
  decode 0x10000000000000400000000000000000 = .ok (.wRsv 64) ∧
  decode 0x12030000000000000000000000000005 = .ok (.wPut 3 5) ∧
  decode 0x24040000000000000000000000000000 = .ok (.rSkip 4) ∧
  decode 0x300300000000000000000000000000FF = .ok (.grWr 3 255) ∧
  decode 0x320000000000000000000000FFFFFFFD = .ok (.zzEnc 0xFFFFFFFD) ∧
  decode 0x41000000000000000000000000000005 = .ok (.encPut 5) ∧
  decode 0x480000000000000A0000000000000000 = .ok (.decNew 10) ∧
  decode 0x7F000000000000210000000000000000 = .ok (.csrRd 0x21) ∧
  decode 0 = .error (.unassignedOpcode 0) ∧
  decode 0x01000001000000000000000000000000 = .error (.reservedBitSet 0x01)

/-- Decoding the packet of any command gives the command back, whatever its operands, and a legal packet is
the packet of the command it decodes to: no bit of a packet is left unread (R90, R91, R93, R94). -/
def Obligations.PacketRoundTrip : Prop :=
  (∀ i : Instr, i.isCommand = true →
    i.wellFormed = true ∧ ∃ p, encode i = some p ∧ decode p = .ok i) ∧
  ∀ (p : Packet) (i : Instr), decode p = .ok i → encode i = some p ∧ i.isCommand = true

/-- Each format's zero bits decide whether a packet with an assigned opcode is legal, and no other opcode
is legal (R91). -/
def Obligations.FormatsDecideLegality : Prop :=
  ∀ p : Packet,
    (opField p ∈ ([0x01, 0x02, 0x05, 0x11, 0x13, 0x14, 0x21, 0x22, 0x40, 0x42, 0x49] : List (BitVec 8)) →
      ((∃ i, decode p = .ok i) ↔ p.extractLsb' 0 120 = 0)) ∧
    (opField p ∈ ([0x03, 0x10, 0x20, 0x48, 0x7F] : List (BitVec 8)) →
      ((∃ i, decode p = .ok i) ↔ p.extractLsb' 96 24 = 0 ∧ p.extractLsb' 0 64 = 0)) ∧
    (opField p = 0x04 → ((∃ i, decode p = .ok i) ↔ p.extractLsb' 96 24 = 0)) ∧
    (opField p ∈ ([0x23, 0x24, 0x31] : List (BitVec 8)) →
      ((∃ i, decode p = .ok i) ↔ p.extractLsb' 0 112 = 0)) ∧
    (opField p ∈ ([0x12, 0x30] : List (BitVec 8)) →
      ((∃ i, decode p = .ok i) ↔ p.extractLsb' 32 80 = 0)) ∧
    (opField p ∈ ([0x32, 0x33, 0x41] : List (BitVec 8)) →
      ((∃ i, decode p = .ok i) ↔ p.extractLsb' 32 88 = 0)) ∧
    (opField p ∉ opcodes → decode p = .error (.unassignedOpcode (opField p)))

/-- A packet that matches no row of the opcode map raises `F_ILLEGAL_CMD` with `FINFO = packet[127:64]`: one
with an unassigned opcode, one with a bit set that its command's format requires to be zero (the low 120 bits
of the row's mask), one with a bit of `rsv` set. Every packet is one of the 25 commands or illegal (R96). -/
def Obligations.IllegalPacketFaults : Prop :=
  ∀ (s : State) (p : Packet), s.fault = 0 → s.program[s.pos]? = some p →
    let faults := step s = .next (takeFault .illegalCmd (p.extractLsb' 64 64).toNat { s with pos := s.pos + 1 })
    ((∀ r ∈ opcodeMap, p &&& r.maskBits ≠ r.matchBits) → faults) ∧
    (opField p ∉ opcodes → faults) ∧
    (∀ r ∈ opcodeMap, opField p = opField r.matchBits →
      (p &&& r.maskBits).extractLsb' 0 120 ≠ 0 → faults) ∧
    (p.extractLsb' 96 16 ≠ 0 → faults) ∧
    opcodeMap.length = 25 ∧
    ((∃ i, i.isCommand = true ∧ decode p = .ok i) ∨ faults)

/-! ## Codes of the bit stream (30_encoding.md Part B) -/

/-- Every well-formed stream code has a context and a bit string, and in any context that tells it (a
terminator is told by the count, R106), a code's bits, with anything after them, decode to the code and what
is after it (R101 to R107). A terminator with a symbol, of as many zeros as symbols are expected, is taken for
the trailing run (R101). -/
def Obligations.CodeRoundTrip : Prop :=
  (∀ i : Instr, i.wellFormed = true → i.isCommand = false →
    ∃ ctx bits, encodeCode ctx i = some bits ∧ ctx.tells i = true) ∧
  (∀ (ctx : CodeCtx) (i : Instr) (bits rest : List Bool), encodeCode ctx i = some bits → ctx.tells i = true →
    decodeCode ctx (bits ++ rest) = .ok (i, rest)) ∧
  ∀ (s m : Nat) (rl u : Half) (bits rest : List Bool),
    encodeCode (.run s m rl.toNat) (.cwRunterm rl u) = some bits →
    decodeCode (.run s m rl.toNat) (bits ++ rest) = .ok (.cwRunend rl, grBits (u.toNat - 1) m ++ rest)

/-! ## The step, reset, the invariant -/

/-- A step runs the decoded packet, with the position advanced by one and nothing else (10_state.md R27; the
model holds the host's list in its state, log 3). -/
def Obligations.StepRunsDecoded : Prop :=
  ∀ (s : State) (p : Packet) (i : Instr), s.program[s.pos]? = some p → decode p = .ok i →
    step s = exec i { s with pos := s.pos + 1 }

/-- With no packet left the block waits: the model's idle step (log 4). -/
def Obligations.StepWaits : Prop :=
  ∀ s : State, s.program[s.pos]? = none → step s = .next s

/-- The reset values of 10_state.md R51, for every choice of the parameters. -/
def Obligations.ResetState : Prop :=
  ∀ p : Params,
    let s := State.resetWith p
    (s.mem = [] ∧ s.psWcur = 0 ∧ s.psRcur = 0 ∧ ∀ i, wireByte s i = none) ∧
    s.writer = { buf := 0, left := 64, rsvd := 0, win := [] } ∧
    s.reader = { buf32 := 0, bv := 0, buf64 := 0, bv64 := 0, rsvd := 0, win := [] } ∧
    s.enc = { k := 0, kr := 0, rl := 0, act := false } ∧
    s.dec = { k := 0, kr := 0, rl := 0, pend := false, pv := 0, rem := 0, act := false } ∧
    s.fault = 0 ∧ s.finfo = 0

/-- The invariant holds at reset, for the default parameters, the model's choice (log 1), and for every legal
choice of them. -/
def Obligations.InvAtReset : Prop :=
  State.reset.Inv ∧ ∀ p : Params, p.legal = true → (State.resetWith p).Inv

/-- Every step, and every instruction, a stream code included, keeps the invariant: the memory's canonical
form, the registers' ranges, the writer's accounting (10_state.md R21, R33; 42_bit_writer.md R170), the
reader's normal form (43_bit_reader.md R192), the page cursors (40_page_storage.md R130), the clamps
(45_rlgr_encoder.md R238). R170 and R192 are the spec's own inferences, and the form of the memory is the
model's (log 12). -/
def Obligations.StepKeepsInv : Prop :=
  (∀ s t : State, s.Inv → step s = .next t → t.Inv) ∧
  ∀ (i : Instr) (s t : State), s.Inv → exec i s = .next t → t.Inv

/-! ## Faults (60_exceptions.md) -/

/-- Taking a fault: the codes 1 to 10, `FINFO`, the response; the parameters, the host's packets and the
position stay, and the memory stays in canonical form, which is the model's choice (R301, R310; log 2). -/
def Obligations.FaultEntry : Prop :=
  [FaultName.winOverflow, .readPastWrite, .unreserved, .valueWidth, .badOperand, .badHandle, .illegalCmd,
    .coderState, .desync, .storeFull].map faultCode = [1, 2, 3, 4, 5, 6, 7, 8, 9, 10] ∧
  ∀ (f : FaultName) (info : Nat) (s : State),
    (takeFault f info s).fault = faultCode f ∧
    (takeFault f info s).finfo = BitVec.ofNat 64 info ∧
    (takeFault f info s).response = some { status := faultCode f, result := 0 } ∧
    (takeFault f info s).params = s.params ∧ (takeFault f info s).program = s.program ∧
    (takeFault f info s).pos = s.pos ∧
    (s.mem.wf = true → (takeFault f info s).mem.wf = true)

/-- Every command ends in a next state with one of the three responses of 30_encoding.md R92: status 0, the
code of the fault it raised, or `0xFF` because `FAULT` was already set. -/
def Obligations.CommandsAnswer : Prop :=
  ∀ (i : Instr) (s : State), i.isCommand = true → ∃ t r, exec i s = .next t ∧ t.response = some r ∧
    ((r.status = 0 ∧ t.fault = s.fault) ∨
      (s.fault = 0 ∧ ∃ f : FaultName, t.fault = faultCode f ∧ r = { status := faultCode f, result := 0 }) ∨
      (s.fault ≠ 0 ∧ t = { s with response := some r } ∧ r = { status := 0xFF, result := 0 }))

/-- In the fault state every packet, legal or not, is refused with status `0xFF` and result 0 and no state
changes; only the two exact packets `CSR.RD 0x00` and `CSR.RD 0x01` execute (R311). -/
def Obligations.FaultStateRefuses : Prop :=
  ∀ (s : State) (p : Packet), s.fault ≠ 0 → s.program[s.pos]? = some p →
    (p = 0x7F000000000000000000000000000000 →
      step s = .next { s with pos := s.pos + 1, response := okWith (s.fault.setWidth 64) }) ∧
    (p = 0x7F000000000000010000000000000000 →
      step s = .next { s with pos := s.pos + 1, response := okWith s.finfo }) ∧
    (p ≠ 0x7F000000000000000000000000000000 → p ≠ 0x7F000000000000010000000000000000 →
      step s = .next { s with pos := s.pos + 1, response := some { status := 0xFF, result := 0 } })

/-- No sequence of steps leaves the fault state or changes anything in it but the position and the response:
`FAULT` names the first fault, and no command clears it (R311, R312; 10_state.md R47). -/
def Obligations.FaultIsForever : Prop :=
  ∀ (n : Nat) (s : State), s.fault ≠ 0 → ∃ t : State, Sys2Proof.core.run n s = .next t ∧
    t = { s with pos := t.pos, response := t.response }

/-- A command ends normally or raises one of the faults its row of R301 names, and no other; so the commands
R301 lists as raising no fault raise none. -/
def Obligations.RaisesOnlyItsFaults : Prop :=
  ∀ (i : Instr) (s : State), i.isCommand = true → s.Ready →
    (∃ (t : State) (v : BitVec 64), exec i s = .next (t.answer v) ∧ t.fault = 0) ∨
    (∃ f info, f ∈ faultsOf i ∧ exec i s = .next (takeFault f info s))

/-- The order of the operand checks of the bit commands: the range first, then the width of the value, then
the reservation, from any state without a fault (R320). -/
def Obligations.OperandCheckOrder : Prop :=
  ∀ (n : Byte) (v : Half) (s : State), s.fault = 0 →
    (32 < n.toNat → exec (.wPut n v) s = .next (takeFault .badOperand n.toNat s)) ∧
    (n.toNat ≤ 32 → 2 ^ n.toNat ≤ v.toNat → exec (.wPut n v) s = .next (takeFault .valueWidth v.toNat s)) ∧
    (n.toNat ≤ 32 → v.toNat < 2 ^ n.toNat → s.writer.rsvd < n.toNat →
      exec (.wPut n v) s = .next (takeFault .unreserved n.toNat s)) ∧
    (32 < n.toNat → exec (.rSkip n) s = .next (takeFault .badOperand n.toNat s)) ∧
    (n.toNat ≤ 32 → s.reader.rsvd < n.toNat →
      exec (.rSkip n) s = .next (takeFault .unreserved n.toNat s)) ∧
    (n.toNat = 0 ∨ 32 < n.toNat → exec (.rPeek n) s = .next (takeFault .badOperand n.toNat s)) ∧
    (1 ≤ n.toNat → n.toNat ≤ 32 → s.reader.rsvd < n.toNat →
      exec (.rPeek n) s = .next (takeFault .unreserved n.toNat s)) ∧
    (s.reader.rsvd < 32 → exec .rPeek32 s = .next (takeFault .unreserved 32 s)) ∧
    (31 < n.toNat → exec (.grWr n v) s = .next (takeFault .badOperand n.toNat s)) ∧
    (31 < n.toNat → exec (.grRd n) s = .next (takeFault .badOperand n.toNat s)) ∧
    (n.toNat ≤ 31 → s.reader.rsvd < 32 → exec (.grRd n) s = .next (takeFault .unreserved 32 s))

/-! ## Page Storage (40_page_storage.md) -/

/-- `PS.ACQ` appends one page that reads as zero and returns its handle; no byte that existed changes
(R131; the limit of an unbounded store is the model's, log 9). -/
def Obligations.PsAcqAppends : Prop :=
  ∀ s : State, s.Ready → s.roomFor 1 →
    exec .psAcq s = .next { s with
      psWcur := s.psWcur + 1
      response := okWith (BitVec.ofNat 64 s.psWcur) } ∧
    pageRead s.mem s.psWcur = 0

/-- `PS.NEXT` returns the next unread page's handle and advances the read cursor, or raises
`F_READ_PAST_WRITE` at the write cursor (R132). -/
def Obligations.PsNextAdvances : Prop :=
  ∀ s : State, s.fault = 0 →
    (s.psRcur < s.psWcur → exec .psNext s = .next { s with
      psRcur := s.psRcur + 1
      response := okWith (BitVec.ofNat 64 s.psRcur) }) ∧
    (s.psWcur ≤ s.psRcur → exec .psNext s = .next (takeFault .readPastWrite s.psRcur s))

/-- `PS.GET` returns the page, whose byte `j` is wire byte `8h + j`, and changes nothing; it raises
`F_BAD_HANDLE` for a handle of no page (R133; 20_memory.md R62). -/
def Obligations.PsGetReads : Prop :=
  ∀ (h : Half) (s : State), s.fault = 0 →
    (h.toNat < s.psWcur → ∃ v : Page,
      exec (.psGet h) s = .next { s with response := okWith v } ∧
      ∀ j < 8, pageByte v j = memRead s.mem (8 * h.toNat + j)) ∧
    (s.psWcur ≤ h.toNat → exec (.psGet h) s = .next (takeFault .badHandle h.toNat s))

/-- `PS.SET` stores the eight bytes of its page and leaves every other byte and register as it is; it raises
`F_BAD_HANDLE` for a handle of no page (R134). -/
def Obligations.PsSetStores : Prop :=
  ∀ (h : Half) (v : Page) (s : State), s.fault = 0 →
    (s.mem.wf = true → h.toNat < s.psWcur → ∃ m : Memory,
      exec (.psSet h v) s = .next { s with mem := m, response := okWith 0 } ∧ m.wf = true ∧
      (∀ j < 8, memRead m (8 * h.toNat + j) = pageByte v j) ∧
      ∀ a, a / 8 ≠ h.toNat → memRead m a = memRead s.mem a) ∧
    (s.psWcur ≤ h.toNat → exec (.psSet h v) s = .next (takeFault .badHandle h.toNat s))

/-- `PS.LEN`, `W.AVAIL` and `R.AVAIL` return a register and change nothing (40_page_storage.md R135;
41_reservation_window.md R157, R158). -/
def Obligations.LengthsAndAvailable : Prop :=
  ∀ s : State, s.fault = 0 →
    exec .psLen s = .next { s with response := okWith (BitVec.ofNat 64 s.psWcur) } ∧
    exec .wAvail s = .next { s with response := okWith (BitVec.ofNat 64 s.writer.rsvd) } ∧
    exec .rAvail s = .next { s with response := okWith (BitVec.ofNat 64 s.reader.rsvd) }

/-- Where a bounded store is full, or fills before a reserve has its pages, an acquisition raises
`F_STORE_FULL(MAX_PAGES)`: `PS.ACQ`, `W.RSV` where the window has room, and `ENC.PUT` and `ENC.FLUSH` in each
of their cases that reserves: the symbol in Direct state, the zero that fills the window, the terminator with
its symbol at either reserve, the trailing run (R131; 41_reservation_window.md R152; 45_rlgr_encoder.md R233 to
R237; 60_exceptions.md R301). -/
def Obligations.FullStoreFaults : Prop :=
  ∀ (s : State) (n u : Half) (m : Nat), s.Ready → s.params.maxPages = some m →
    (s.psWcur = m → exec .psAcq s = .next (takeFault .storeFull m s)) ∧
    (s.psWcur = m → s.writer.rsvd < n.toNat → s.writer.win.length < s.params.winCap →
      exec (.wRsv n) s = .next (takeFault .storeFull m s)) ∧
    (s.enc.act = true → s.enc.k = 0 → m < s.psWcur + pagesNeeded 64 s.writer.rsvd →
      exec (.encPut u) s = .next (takeFault .storeFull m s)) ∧
    (s.enc.act = true → 0 < s.enc.k → s.enc.rl + 1 = 2 ^ (s.enc.k / 8) →
      m < s.psWcur + pagesNeeded (1 + s.enc.k / 8) s.writer.rsvd →
      exec (.encPut 0) s = .next (takeFault .storeFull m s)) ∧
    (s.enc.act = true → 0 < s.enc.k → u ≠ 0 → m < s.psWcur + termPages (s.enc.k / 8) s.writer.rsvd →
      exec (.encPut u) s = .next (takeFault .storeFull m s)) ∧
    (s.enc.act = true → 0 < s.enc.rl → m < s.psWcur + pagesNeeded (1 + s.enc.k / 8) s.writer.rsvd →
      exec .encFlush s = .next (takeFault .storeFull m s))

/-- The wire format: stream bit `t` of page `h` is bit `7 - (t mod 8)` of wire byte `8h + t / 8`, byte
`8h + j` is `P[h][8j+7:8j]`, and the image is the `8 · PS_WCUR` bytes (20_memory.md R62); a stream word comes
back from the page its swapped value was stored in, and no other page changes (R61). -/
def Obligations.WireFormat : Prop :=
  (∀ (m : Memory) (h t : Nat), t < 64 →
    (pageBits m h)[t]? = some ((memRead m (8 * h + t / 8)).getLsbD (7 - t % 8))) ∧
  (∀ (m : Memory) (h j : Nat), j < 8 →
    pageByte (pageRead m h) j = memRead m (8 * h + j) ∧
    memRead m (8 * h + j) = (streamWord m h).extractLsb' (56 - 8 * j) 8) ∧
  (∀ (s : State) (i : Nat), (i < 8 * s.psWcur → wireByte s i = some (memRead s.mem i)) ∧
    (8 * s.psWcur ≤ i → wireByte s i = none)) ∧
  ∀ (m : Memory) (h g : Nat) (word : Page), m.wf = true →
    streamWord (pageWrite m h (bswap64 word)) h = word ∧
    pageRead (pageWrite m h (bswap64 word)) h = bswap64 word ∧
    (g ≠ h → pageRead (pageWrite m h (bswap64 word)) g = pageRead m g)

/-! ## Reservation windows (41_reservation_window.md) -/

/-- `W.RSV` acquires `max(0, ceil((min_bits - W_RSVD) / 64))` pages, pushes their handles and guarantees the
bits; the accumulator and every byte of the store stay (R152, R155). -/
def Obligations.WRsvReserves : Prop :=
  ∀ (n : Half) (s : State), s.Ready →
    s.writer.win.length + pagesNeeded n.toNat s.writer.rsvd ≤ s.params.winCap →
    s.roomFor (pagesNeeded n.toNat s.writer.rsvd) →
    exec (.wRsv n) s =
      .next ((s.withReserved (pagesNeeded n.toNat s.writer.rsvd)).answer 0) ∧
    n.toNat ≤ (s.withReserved (pagesNeeded n.toNat s.writer.rsvd)).writer.rsvd ∧
    ∀ k < pagesNeeded n.toNat s.writer.rsvd, pageRead s.mem (s.psWcur + k) = 0

/-- `W.RSV` and `R.RSV` beyond the window's capacity raise `F_WIN_OVERFLOW(min_bits)`, in particular `W.RSV`
of every `min_bits > 64·WIN_CAP` (the spec's own inference in R155); where the bounded store is full before the
window, `F_STORE_FULL`, and where the pages end before it, `F_READ_PAST_WRITE(PS_RCUR)` (R152, R153, R155, R156;
60_exceptions.md R320). -/
def Obligations.ReserveFaults : Prop :=
  ∀ (n : Half) (s : State), s.Ready →
    (s.params.winCap < s.writer.win.length + pagesNeeded n.toNat s.writer.rsvd →
      s.roomFor (s.params.winCap - s.writer.win.length) →
      exec (.wRsv n) s = .next (takeFault .winOverflow n.toNat s)) ∧
    (64 * s.params.winCap < n.toNat →
      s.params.winCap < s.writer.win.length + pagesNeeded n.toNat s.writer.rsvd) ∧
    (∀ m, s.params.maxPages = some m → m < s.psWcur + pagesNeeded n.toNat s.writer.rsvd →
      s.writer.win.length + (m - s.psWcur) < s.params.winCap →
      exec (.wRsv n) s = .next (takeFault .storeFull m s)) ∧
    (s.params.winCap < s.reader.win.length + pagesNeeded n.toNat s.reader.rsvd →
      s.psRcur + (s.params.winCap - s.reader.win.length) ≤ s.psWcur →
      exec (.rRsv n) s = .next (takeFault .winOverflow n.toNat s)) ∧
    (s.psWcur < s.psRcur + pagesNeeded n.toNat s.reader.rsvd →
      s.reader.win.length + (s.psWcur - s.psRcur) < s.params.winCap →
      exec (.rRsv n) s = .next (takeFault .readPastWrite s.psWcur s))

/-- `R.RSV` fetches the pages it needs behind the bits already reserved, guarantees the bits, and leaves the
reader in normal form; nothing but the reader and the read cursor changes (R153, R156; 43_bit_reader.md R190,
and the spec's own inference R192). -/
def Obligations.RRsvFetches : Prop :=
  ∀ (n : Half) (s : State), s.Ready →
    s.reader.win.length + pagesNeeded n.toNat s.reader.rsvd ≤ s.params.winCap →
    s.psRcur + pagesNeeded n.toNat s.reader.rsvd ≤ s.psWcur →
    ∃ t, exec (.rRsv n) s = .next (t.answer 0) ∧
      ReadOn s t (pagesNeeded n.toNat s.reader.rsvd) (streamAhead s) ∧
      t.reader.rsvd = s.reader.rsvd + 64 * pagesNeeded n.toNat s.reader.rsvd ∧
      n.toNat ≤ t.reader.rsvd ∧
      reservedBits t = reservedBits s ++
        (List.range' s.psRcur (pagesNeeded n.toNat s.reader.rsvd)).flatMap (pageBits s.mem)

/-! ## Bit Writer (42_bit_writer.md) -/

/-- `W.PUT n, value` appends the `n` bits of the value, most significant first, whether they fit the current
word or straddle into the next (R172; as bit strings the spec's own inference, R176; 20_memory.md R60). -/
def Obligations.WPutAppends : Prop :=
  ∀ (n : Byte) (v : Half) (s : State), s.Ready → n.toNat ≤ 32 → v.toNat < 2 ^ n.toNat →
    n.toNat ≤ s.writer.rsvd →
    ∃ t, exec (.wPut n v) s = .next (t.answer 0) ∧ Appended s t (bitsOf n.toNat v.toNat)

/-- `W.ALIGN` appends `W_LEFT mod 8` zero bits, so that the position is on a byte boundary; it never commits
and never faults (R174; that it needs no reserve, and 10_state.md R48, are the spec's own inferences). -/
def Obligations.WAlignAligns : Prop :=
  ∀ s : State, s.Ready →
    ∃ t, exec .wAlign s = .next (t.answer 0) ∧
      Appended s t (List.replicate (s.writer.left % 8) false) ∧
      t.writer.left % 8 = 0 ∧ t.writer.rsvd % 8 = 0 ∧ t.writer.win = s.writer.win ∧ t.mem = s.mem ∧
      s.writer.rsvd % 8 = s.writer.left % 8

/-- `W.FLUSH` pads the current word with zeros and commits it; with nothing buffered it does nothing; it
never faults (R175, that being the spec's own inference; 20_memory.md R72). -/
def Obligations.WFlushCommits : Prop :=
  ∀ s : State, s.Ready → ∃ t, exec .wFlush s = .next (t.answer 0) ∧ Flushed s t

/-! ## Bit Reader (43_bit_reader.md) -/

/-- The reader's registers and window hold exactly the `R_RSVD` reserved bits; `R.PEEK n` and `R.PEEK32`
return the first of them as a number, first bit most significant, and change nothing (R190, R193, R194; the
spec's own inference, R199; 10_state.md R34). -/
def Obligations.PeekReturnsNextBits : Prop :=
  ∀ (n : Byte) (s : State), s.Ready →
    (reservedBits s).length = s.reader.rsvd ∧
    (1 ≤ n.toNat → n.toNat ≤ 32 → n.toNat ≤ s.reader.rsvd →
      exec (.rPeek n) s = .next { s with
        response := okWith (BitVec.ofNat 64 (natOfBits ((reservedBits s).take n.toNat))) }) ∧
    (32 ≤ s.reader.rsvd → exec .rPeek32 s = .next { s with
      response := okWith (BitVec.ofNat 64 (natOfBits ((reservedBits s).take 32))) })

/-- `R.SKIP n` consumes `n` bits: what is reserved afterwards are the bits after them, in normal form, and
nothing but the reader changes (R195; the normal form is the spec's own inference, R192). -/
def Obligations.SkipConsumes : Prop :=
  ∀ (n : Byte) (s : State), s.Ready → n.toNat ≤ 32 → n.toNat ≤ s.reader.rsvd →
    ∃ t, exec (.rSkip n) s = .next (t.answer 0) ∧ Consumed s t n.toNat

/-! ## Golomb-Rice and zig-zag (44_golomb_rice.md) -/

/-- `GR.WR m, x` appends the Golomb-Rice code of `x` with parameter `m`, escaped or not, whatever page
boundary it straddles (R211). -/
def Obligations.GrWrAppends : Prop :=
  ∀ (m : Byte) (x : Half) (s : State), s.Ready → m.toNat ≤ 31 → lenGr x.toNat m.toNat ≤ s.writer.rsvd →
    ∃ t, exec (.grWr m x) s = .next (t.answer 0) ∧ Appended s t (grBits x.toNat m.toNat)

/-- `GR.WR` with too few bits reserved faults in the constituent put that finds them missing (R211). -/
def Obligations.GrWrFaults : Prop :=
  ∀ (m : Byte) (x : Half) (s : State), s.Ready → m.toNat ≤ 31 →
    (32 ≤ x.toNat >>> m.toNat → s.writer.rsvd < 64 →
      exec (.grWr m x) s = .next (takeFault .unreserved 32 s)) ∧
    (x.toNat >>> m.toNat < 32 → s.writer.rsvd < x.toNat >>> m.toNat + 1 →
      exec (.grWr m x) s = .next (takeFault .unreserved (x.toNat >>> m.toNat + 1) s)) ∧
    (x.toNat >>> m.toNat < 32 → x.toNat >>> m.toNat + 1 ≤ s.writer.rsvd →
      s.writer.rsvd < x.toNat >>> m.toNat + 1 + m.toNat →
      exec (.grWr m x) s = .next (takeFault .unreserved m.toNat s))

/-- `GR.RD m` reads the Golomb-Rice code at the head of the reserved bits, for every bit pattern: its value
in 32-bit arithmetic, its bits consumed; with bits of the code missing it faults (R213). -/
def Obligations.GrRdReadsCode : Prop :=
  ∀ (m : Byte) (s : State), s.Ready → m.toNat ≤ 31 → 32 ≤ s.reader.rsvd →
    (∀ x esc rest, decodeGr m.toNat (reservedBits s) = .ok (x, esc, rest) →
      ∃ t, exec (.grRd m) s = .next (t.answer (BitVec.ofNat 64 x)) ∧
        Consumed s t ((reservedBits s).length - rest.length) ∧ reservedBits t = rest) ∧
    (∀ e, decodeGr m.toNat (reservedBits s) = .error e →
      exec (.grRd m) s = .next (takeFault .unreserved
        (if leadingOnes 32 (reservedBits s) = 32 then 32 else m.toNat) s))

/-- Golomb-Rice idempotence: in an empty stream, `W.RSV 64`; `GR.WR m, x`; `W.FLUSH`; `R.RSV 64`; `GR.RD m`
returns `x` and consumes exactly `len_GR(x, m)` bits (R214, for every `m` the spec's own inference). -/
def Obligations.GolombRoundTrip : Prop :=
  ∀ (m : Byte) (x : Half) (s : State), s.Ready → m.toNat ≤ 31 → s.roomFor 1 →
    s.writer = freshWriter → s.reader = freshReader → s.psRcur = s.psWcur →
    ∃ t, runAll [.wRsv 64, .grWr m x, .wFlush, .rRsv 64, .grRd m] s =
        some ([okWith 0, okWith 0, okWith 0, okWith 0, okWith (x.setWidth 64)], t) ∧
      t.reader.rsvd + lenGr x.toNat m.toNat = 64 ∧ t.psRcur = t.psWcur

/-- `ZZ.ENC v` returns `2·v` for `v ≥ 0` and `-2·v - 1` for `v < 0`, for every 32-bit `v`, and changes
nothing (R216). -/
def Obligations.ZigzagEncodes : Prop :=
  ∀ (v : Half) (s : State), s.fault = 0 → ∃ u : Half,
    exec (.zzEnc v) s = .next { s with response := okWith (u.setWidth 64) } ∧
    (u.toNat : Int) = if 0 ≤ v.toInt then 2 * v.toInt else -2 * v.toInt - 1

/-- `ZZ.DEC u` returns the 32-bit pattern of `u / 2` for even `u` and of `-(u + 1) / 2` for odd `u`,
zero-extended, and is the exact inverse of `ZZ.ENC` in both directions (R217; the formula is the spec's own
inference from R216). -/
def Obligations.ZigzagDecodes : Prop :=
  ∀ (u : Half) (s : State), s.fault = 0 → ∃ v : Half,
    exec (.zzDec u) s = .next { s with response := okWith (v.setWidth 64) } ∧
    v.toInt = (if u.toNat % 2 = 0 then (u.toNat / 2 : Int) else -((u.toNat + 1) / 2 : Int)) ∧
    exec (.zzEnc v) s = .next { s with response := okWith (u.setWidth 64) } ∧
    ∃ w : Half, exec (.zzEnc u) s = .next { s with response := okWith (w.setWidth 64) } ∧
      exec (.zzDec w) s = .next { s with response := okWith (u.setWidth 64) }

/-! ## RLGR encoder (45_rlgr_encoder.md) -/

/-- The `kr` adaptation: down by `DOWN_K_RICE` at `vk = 0`, unchanged at `vk = 1`, up by `vk` above, clamped
to 0..240 on unbounded integers (R236). -/
def Obligations.AdaptKrRule : Prop :=
  ∀ (p : Params) (kr u : Nat), kr ≤ 240 →
    (u / 2 ^ (kr / 8) = 0 → adaptKr p kr u = kr - p.downKRice) ∧
    (u / 2 ^ (kr / 8) = 1 → adaptKr p kr u = kr) ∧
    (1 < u / 2 ^ (kr / 8) → adaptKr p kr u = min 240 (kr + u / 2 ^ (kr / 8)))

/-- `ENC.NEW` sets up a fresh writer and a fresh encoder, `DEC.NEW count` a fresh reader and a fresh decoder of
`count` symbols, with the initial parameters; neither touches the store or the other side (R231;
46_rlgr_decoder.md R261). -/
def Obligations.CodersStartFresh : Prop :=
  ∀ (count : Half) (s : State), s.fault = 0 →
    exec .encNew s = .next { s with
      writer := { buf := 0, left := 64, rsvd := 0, win := [] }
      enc := { k := s.params.kInit, kr := s.params.krInit, rl := 0, act := true }
      response := okWith 0 } ∧
    exec (.decNew count) s = .next { s with
      reader := { buf32 := 0, bv := 0, buf64 := 0, bv64 := 0, rsvd := 0, win := [] }
      dec := { k := s.params.kInit, kr := s.params.krInit, rl := 0, pend := false, pv := 0,
               rem := count.toNat, act := true }
      response := okWith 0 }

/-- `ENC.PUT u` in Direct state: a 64-bit reserve, the Golomb-Rice code of `u` with `kr >> 3`, both
parameters adapted (R233; the first two rows of R230). -/
def Obligations.EncPutDirect : Prop :=
  ∀ (u : Half) (s : State), s.Ready → s.enc.act = true → s.enc.k = 0 →
    s.roomFor (pagesNeeded 64 s.writer.rsvd) →
    ∃ t, Appended (s.withReserved (pagesNeeded 64 s.writer.rsvd)) t (grBits u.toNat (s.enc.kr / 8)) ∧
      exec (.encPut u) s = .next { t with
        enc := { s.enc with
          k := if u = 0 then min 240 s.params.upKDirect else 0
          kr := adaptKr s.params s.enc.kr u.toNat }
        response := okWith 0 }

/-- `ENC.PUT 0` in Run state: counted with no bit written while the window is not full; at the full window
the single bit `0`, `rl` cleared, `k` up by `UP_K` (R234; the third and fourth rows of R230). -/
def Obligations.EncPutRunZero : Prop :=
  ∀ s : State, s.Ready → s.enc.act = true → 0 < s.enc.k →
    (s.enc.rl + 1 < 2 ^ (s.enc.k / 8) →
      exec (.encPut 0) s = .next { s with
        enc := { s.enc with rl := s.enc.rl + 1 }
        response := okWith 0 }) ∧
    (s.enc.rl + 1 = 2 ^ (s.enc.k / 8) → s.roomFor (pagesNeeded (1 + s.enc.k / 8) s.writer.rsvd) →
      ∃ t, Appended (s.withReserved (pagesNeeded (1 + s.enc.k / 8) s.writer.rsvd)) t [false] ∧
        exec (.encPut 0) s = .next { t with
          enc := { s.enc with k := min 240 (s.enc.k + s.params.upK), rl := 0 }
          response := okWith 0 })

/-- `ENC.PUT u` with `u > 0` in Run state: `1`, `rl` in `s` bits, the Golomb-Rice code of `u - 1`; `kr`
adapts to `u`, `rl` is cleared, `k` goes down by `DOWN_K` (R235; the last row of R230). -/
def Obligations.EncPutRunNonzero : Prop :=
  ∀ (u : Half) (s : State), s.Ready → s.enc.act = true → 0 < s.enc.k → u ≠ 0 →
    s.roomFor (termPages (s.enc.k / 8) s.writer.rsvd) →
    ∃ t, Appended (s.withReserved (termPages (s.enc.k / 8) s.writer.rsvd)) t
        (true :: (bitsOf (s.enc.k / 8) s.enc.rl ++ grBits (u.toNat - 1) (s.enc.kr / 8))) ∧
      exec (.encPut u) s = .next { t with
        enc := { s.enc with
          k := s.enc.k - s.params.downK
          kr := adaptKr s.params s.enc.kr u.toNat
          rl := 0 }
        response := okWith 0 }

/-- `ENC.FLUSH` emits `1` and `rl` in `s` bits for a run in progress, pads and commits the word, and ends the
stream; `k` and `kr` keep their values (R237). -/
def Obligations.EncFlushEnds : Prop :=
  ∀ s : State, s.Ready → s.enc.act = true →
    (s.enc.rl = 0 → ∃ t, Flushed s t ∧
      exec .encFlush s = .next { t with enc := { s.enc with act := false }, response := okWith 0 }) ∧
    (0 < s.enc.rl → s.roomFor (pagesNeeded (1 + s.enc.k / 8) s.writer.rsvd) →
      ∃ r t, Appended (s.withReserved (pagesNeeded (1 + s.enc.k / 8) s.writer.rsvd)) r
          (true :: bitsOf (s.enc.k / 8) s.enc.rl) ∧
        Flushed r t ∧
        exec .encFlush s = .next { t with
          enc := { s.enc with rl := 0, act := false }
          response := okWith 0 })

/-- A coder command in the wrong phase raises `F_CODER_STATE`: 0 for the encoder, 1 for the decoder
(60_exceptions.md R301; R232, R237; 46_rlgr_decoder.md R262). -/
def Obligations.CoderStateFaults : Prop :=
  ∀ (u : Half) (s : State), s.fault = 0 →
    (s.enc.act = false →
      exec (.encPut u) s = .next (takeFault .coderState 0 s) ∧
      exec .encFlush s = .next (takeFault .coderState 0 s)) ∧
    (s.dec.act = false ∨ s.dec.rem = 0 → exec .decGet s = .next (takeFault .coderState 1 s))

/-! ## RLGR decoder (46_rlgr_decoder.md) -/

/-- `DEC.GET` away from a code boundary reads no bit: it returns a pending zero, then the pending symbol
(R262; 10_state.md R43). -/
def Obligations.DecGetHeld : Prop :=
  ∀ s : State, s.fault = 0 → s.dec.act = true → 0 < s.dec.rem →
    (0 < s.dec.rl → exec .decGet s = .next { s with
      dec := { s.dec with rl := s.dec.rl - 1, rem := s.dec.rem - 1 }
      response := okWith 0 }) ∧
    (s.dec.rl = 0 → s.dec.pend = true → exec .decGet s = .next { s with
      dec := { s.dec with pend := false, pv := 0, rem := s.dec.rem - 1 }
      response := okWith (s.dec.pv.setWidth 64) })

/-- `DEC.GET` at a code boundary parses the next code of the stream, for every bit pattern that is one,
fetching the pages its reserves need: its first symbol, its registers' updates, its bits consumed; a code for
more zeros than are expected is none the decoder accepts (R262, R266; 30_encoding.md R101). -/
def Obligations.DecGetParsesCode : Prop :=
  ∀ (s : State) (i : Instr) (rest : List Bool), s.Ready → decoderReads s = true →
    decodeCode (decoderCtx s) (streamAhead s) = .ok (i, rest) → codeFits s.dec i = true →
    s.psRcur + codePages s.dec s.reader.rsvd i ≤ s.psWcur →
    ∃ t, ReadOn s t (codePages s.dec s.reader.rsvd i) rest ∧
      exec .decGet s = .next { t with
        dec := (codeResult s.params s.dec i).2
        response := okWith (BitVec.ofNat 64 (codeResult s.params s.dec i).1) }

/-- The faults of `DEC.GET` at a code boundary: the three `F_DESYNC` checks of R267 (a full window or a run
longer than the symbols still expected, a coded quantity `0xFFFFFFFF` after a terminator), and
`F_READ_PAST_WRITE(PS_RCUR)` at either reserve that needs a page beyond the write cursor (R262). -/
def Obligations.DecGetFaults : Prop :=
  ∀ (s : State) (r : Nat) (rest : List Bool), s.Ready → decoderReads s = true →
    (s.psRcur = s.psWcur → s.reader.rsvd < (if s.dec.k = 0 then 64 else 1 + s.dec.k / 8) →
      exec .decGet s = .next (takeFault .readPastWrite s.psRcur s)) ∧
    (0 < s.dec.k → s.psRcur + pagesNeeded (1 + s.dec.k / 8) s.reader.rsvd ≤ s.psWcur →
      (streamAhead s = false :: rest → s.dec.rem < 2 ^ (s.dec.k / 8) →
        exec .decGet s = .next (takeFault .desync (2 ^ (s.dec.k / 8)) s)) ∧
      (r < 2 ^ (s.dec.k / 8) → streamAhead s = true :: (bitsOf (s.dec.k / 8) r ++ rest) →
        (s.dec.rem < r → exec .decGet s = .next (takeFault .desync r s)) ∧
        (r < s.dec.rem → s.psRcur + pagesNeeded (1 + s.dec.k / 8) s.reader.rsvd = s.psWcur →
          s.reader.rsvd + 64 * pagesNeeded (1 + s.dec.k / 8) s.reader.rsvd < 1 + s.dec.k / 8 + 64 →
          exec .decGet s = .next (takeFault .readPastWrite s.psWcur s)) ∧
        (∀ esc rest', r < s.dec.rem → decodeGr (s.dec.kr / 8) rest = .ok (0xFFFFFFFF, esc, rest') →
          s.psRcur + termPages (s.dec.k / 8) s.reader.rsvd ≤ s.psWcur →
          exec .decGet s = .next (takeFault .desync 0xFFFFFFFF s))))

/-- The run codes and the Direct code: each consumes its bits behind the reserves its rule makes, delivers its
first symbol and updates the decoder; a terminator with a symbol, of as many zeros as symbols are expected, is
taken for the trailing run (30_encoding.md R104 to R107; the model reads a code as what `DEC.GET` does where
it meets it, log 6). -/
def Obligations.DecoderCodesComplete : Prop :=
  ∀ (s : State) (i : Instr) (bits : List Bool), s.Ready → decoderReads s = true →
    encodeCode (decoderCtx s) i = some bits → bits <+: streamAhead s →
    (codeFits s.dec i = true → s.psRcur + codePages s.dec s.reader.rsvd i ≤ s.psWcur →
      ∃ t, ReadOn s t (codePages s.dec s.reader.rsvd i) ((streamAhead s).drop bits.length) ∧
        exec i s = .next { t with
          dec := (codeResult s.params s.dec i).2
          response := okWith (BitVec.ofNat 64 (codeResult s.params s.dec i).1) }) ∧
    (∀ rl u : Half, i = .cwRunterm rl u → rl.toNat = s.dec.rem → exec i s = exec (.cwRunend rl) s)

/-- The Golomb-Rice codes: `CW.GR` and `CW.ESC` at the head of the reserved bits are consumed and deliver
their value (30_encoding.md R102, R103; log 6). -/
def Obligations.GolombCodesComplete : Prop :=
  ∀ (m : Byte) (x : Half) (s : State), s.Ready → 32 ≤ s.reader.rsvd →
    (∀ bits, encodeCode (.golomb m.toNat) (.cwGr m x) = some bits → bits <+: reservedBits s →
      ∃ t, exec (.cwGr m x) s = .next (t.answer (x.setWidth 64)) ∧ Consumed s t bits.length) ∧
    (∀ bits, encodeCode (.golomb m.toNat) (.cwEsc x) = some bits → bits <+: reservedBits s →
      ∃ t, exec (.cwEsc x) s = .next (t.answer (x.setWidth 64)) ∧ Consumed s t bits.length)

/-- A stream code takes the faults of the command that meets it: `F_CODER_STATE(1)` where the decoder is not
active or no symbol is expected, `F_BAD_OPERAND(m)` for a Rice parameter above 31, `F_UNRESERVED(32)` and
`F_READ_PAST_WRITE(PS_RCUR)` where the reader cannot look at it, `F_DESYNC` for a window or a run longer than
expected (60_exceptions.md R301, R320; 46_rlgr_decoder.md R262, R267; 44_golomb_rice.md R213; the meaning of a
code is the model's, log 6). -/
def Obligations.CodesTakeTheReadersFaults : Prop :=
  ∀ (m : Byte) (x rl : Half) (s : State), s.fault = 0 →
    (31 < m.toNat → exec (.cwGr m x) s = .next (takeFault .badOperand m.toNat s)) ∧
    (m.toNat ≤ 31 → s.reader.rsvd < 32 → exec (.cwGr m x) s = .next (takeFault .unreserved 32 s)) ∧
    (s.reader.rsvd < 32 → exec (.cwEsc x) s = .next (takeFault .unreserved 32 s)) ∧
    (∀ i ∈ [Instr.cwRunfull, .cwRunterm rl x, .cwRunend rl, .cwDirect x],
      (s.dec.act = false ∨ s.dec.rem = 0 → exec i s = .next (takeFault .coderState 1 s)) ∧
      (s.Ready → decoderReads s = true → s.psRcur = s.psWcur →
        s.reader.rsvd < (if s.dec.k = 0 then 64 else 1 + s.dec.k / 8) →
        exec i s = .next (takeFault .readPastWrite s.psRcur s))) ∧
    (s.Ready → decoderReads s = true → 0 < s.dec.k →
      s.psRcur + pagesNeeded (1 + s.dec.k / 8) s.reader.rsvd ≤ s.psWcur →
      ([false] <+: streamAhead s → s.dec.rem < 2 ^ (s.dec.k / 8) →
        exec .cwRunfull s = .next (takeFault .desync (2 ^ (s.dec.k / 8)) s)) ∧
      (∀ i ∈ [Instr.cwRunterm rl x, .cwRunend rl], ∀ bits, encodeCode (decoderCtx s) i = some bits →
        bits <+: streamAhead s → s.dec.rem < rl.toNat →
        exec i s = .next (takeFault .desync rl.toNat s)))

/-- Where a stream code stops the model: the reader looks at the stream, and the bits there are not the code;
in a coder state whose rule does not admit the code no bits are it (log 7). -/
def Obligations.CodesNotAheadStop : Prop :=
  ∀ (m : Byte) (x rl : Half) (s : State), s.Ready →
    (m.toNat ≤ 31 → 32 ≤ s.reader.rsvd →
      (∀ bits, encodeCode (.golomb m.toNat) (.cwGr m x) = some bits → ¬ bits <+: streamAhead s) →
      exec (.cwGr m x) s = .fault .codeNotAhead) ∧
    (32 ≤ s.reader.rsvd →
      (∀ bits, encodeCode (.golomb 0) (.cwEsc x) = some bits → ¬ bits <+: streamAhead s) →
      exec (.cwEsc x) s = .fault .codeNotAhead) ∧
    ∀ i ∈ [Instr.cwRunfull, .cwRunterm rl x, .cwRunend rl, .cwDirect x], s.dec.act = true → 0 < s.dec.rem →
      (s.dec.atBoundary = true → s.psRcur +
        pagesNeeded (if s.dec.k = 0 then 64 else 1 + s.dec.k / 8) s.reader.rsvd ≤ s.psWcur) →
      (∀ bits, encodeCode (decoderCtx s) i = some bits → ¬ bits <+: streamAhead s) →
      exec i s = .fault .codeNotAhead

/-- `DEC.GET` and `GR.RD m` do exactly what the stream code at the reader's position does, in every good state
and faults included: the readers and the meanings of the codes are one (R262; 30_encoding.md R101;
44_golomb_rice.md R213; the meaning of a code as an instruction is the model's, log 6). -/
def Obligations.ReadersRunTheCodeAhead : Prop :=
  ∀ (m : Byte) (s : State) (i : Instr) (bits : List Bool), s.Ready → bits <+: streamAhead s →
    (encodeCode (decoderCtx s) i = some bits → exec .decGet s = exec i s) ∧
    (encodeCode (.golomb m.toNat) i = some bits → exec (.grRd m) s = exec i s)

/-! ## The pair -/

/-- Lock-step on one code: where encoder and decoder hold the same parameters, the code `ENC.PUT` emits is a
code of the decoder's context and takes the decoder's `k` and `kr` to the encoder's (the spec's own inference,
R271; 10_state.md R41). -/
def Obligations.LockStepOnOneCode : Prop :=
  ∀ (u : Half) (s t s' : State), s.Ready → t.Ready → s.params = t.params → s.enc.act = true →
    decoderReads t = true → t.dec.k = s.enc.k → t.dec.kr = s.enc.kr → s.enc.rl < t.dec.rem →
    exec (.encPut u) s = .next s' → s'.fault = 0 → s'.enc.rl = 0 →
    ∃ i bits n, encodeCode (decoderCtx t) i = some bits ∧ codeFits t.dec i = true ∧
      Appended (s.withReserved n) { s' with enc := s.enc, response := s.response } bits ∧
      n = codePages t.dec s.writer.rsvd i ∧
      (codeResult t.params t.dec i).2.k = s'.enc.k ∧ (codeResult t.params t.dec i).2.kr = s'.enc.kr

/-- The round trip of a whole stream, the spec's own inference (R271): `ENC.NEW`, one `ENC.PUT` for each symbol,
`ENC.FLUSH`, then `DEC.NEW n` and `n` times `DEC.GET` return the symbols, for any list of symbols whatever; the
decoder ends with the encoder's parameters and the read cursor at the write cursor (R272;
70_reset_and_hazards.md R355). -/
def Obligations.StreamRoundTrip : Prop :=
  ∀ (us : List Half) (s e : State) (rs : List (Option Response)), s.Ready → s.psRcur = s.psWcur →
    us.length < 2 ^ 32 →
    runAll (Instr.encNew :: (us.map Instr.encPut ++ [Instr.encFlush])) s = some (rs, e) → e.fault = 0 →
    ∃ d, runAll (Instr.decNew (BitVec.ofNat 32 us.length) :: us.map fun _ => Instr.decGet) e =
        some (okWith 0 :: us.map fun u => okWith (u.setWidth 64), d) ∧
      d.fault = 0 ∧ d.dec.rem = 0 ∧ d.dec.k = e.enc.k ∧ d.dec.kr = e.enc.kr ∧ d.psRcur = d.psWcur

/-! ## CSR.RD (47_system.md; 10_state.md R28, R29) -/

/-- The register map of 10_state.md R29, register by register, the window entries, and `F_BAD_OPERAND` for
every other number; no state changes. In the fault state only `FAULT` and `FINFO` can be read (R290). -/
def Obligations.CsrRdReadsTheMap : Prop :=
  (∀ (s : State) (idx : Half), s.fault ≠ 0 → exec (.csrRd idx) s =
    if idx = 0 then .next { s with response := okWith (s.fault.setWidth 64) }
    else if idx = 1 then .next { s with response := okWith s.finfo }
    else .next { s with response := some { status := 0xFF, result := 0 } }) ∧
  ∀ s : State, s.fault = 0 →
    (∀ r ∈ ([(0x00, 0), (0x01, s.finfo), (0x10, BitVec.ofNat 64 s.psWcur),
        (0x11, BitVec.ofNat 64 s.psRcur), (0x20, s.writer.buf), (0x21, BitVec.ofNat 64 s.writer.left),
        (0x22, BitVec.ofNat 64 s.writer.rsvd), (0x23, BitVec.ofNat 64 s.writer.win.length),
        (0x30, s.reader.buf32.setWidth 64), (0x31, BitVec.ofNat 64 s.reader.bv), (0x32, s.reader.buf64),
        (0x33, BitVec.ofNat 64 s.reader.bv64), (0x34, BitVec.ofNat 64 s.reader.rsvd),
        (0x35, BitVec.ofNat 64 s.reader.win.length), (0x40, BitVec.ofNat 64 s.enc.k),
        (0x41, BitVec.ofNat 64 s.enc.kr), (0x42, BitVec.ofNat 64 s.enc.rl), (0x43, eFlags s.enc),
        (0x48, BitVec.ofNat 64 s.dec.k), (0x49, BitVec.ofNat 64 s.dec.kr), (0x4A, BitVec.ofNat 64 s.dec.rl),
        (0x4B, dFlags s.dec), (0x4C, s.dec.pv.setWidth 64), (0x4D, BitVec.ofNat 64 s.dec.rem)] :
        List (Half × BitVec 64)),
      exec (.csrRd r.1) s = .next { s with response := okWith r.2 }) ∧
    (∀ i < 32,
      exec (.csrRd (BitVec.ofNat 32 (0x100 + i))) s =
        .next { s with response := okWith (BitVec.ofNat 64 (s.writer.win.getD i 0)) } ∧
      exec (.csrRd (BitVec.ofNat 32 (0x140 + i))) s =
        .next { s with response := okWith (BitVec.ofNat 64 (s.reader.win.getD i 0)) }) ∧
    (∀ idx : Half, idx ∉ ([0x00, 0x01, 0x10, 0x11, 0x20, 0x21, 0x22, 0x23, 0x30, 0x31, 0x32, 0x33, 0x34,
        0x35, 0x40, 0x41, 0x42, 0x43, 0x48, 0x49, 0x4A, 0x4B, 0x4C, 0x4D] : List Half) →
      ¬ (0x100 ≤ idx.toNat ∧ idx.toNat < 0x120) → ¬ (0x140 ≤ idx.toNat ∧ idx.toNat < 0x160) →
      exec (.csrRd idx) s = .next (takeFault .badOperand idx.toNat s))

/-- The flag registers bit by bit, as `CSR.RD 0x43` and `CSR.RD 0x4B` read them, and zero at reset
(10_state.md R28). -/
def Obligations.FlagRegisters : Prop :=
  (∀ (e : Encoder) (j : Nat), (eFlags e).getLsbD j =
    if j = 0 then e.act else if j = 1 then decide (0 < e.k) else if j = 2 then decide (0 < e.rl)
    else false) ∧
  (∀ (d : Decoder) (j : Nat), (dFlags d).getLsbD j =
    if j = 0 then d.act else if j = 1 then decide (0 < d.k) else if j = 2 then decide (0 < d.rl)
    else if j = 3 then d.pend else false) ∧
  (∀ s : State, s.fault = 0 →
    exec (.csrRd 0x43) s = .next { s with response := okWith (eFlags s.enc) } ∧
    exec (.csrRd 0x4B) s = .next { s with response := okWith (dFlags s.dec) }) ∧
  ∀ p : Params, eFlags (State.resetWith p).enc = 0 ∧ dFlags (State.resetWith p).dec = 0

/-! ## Frames over all instructions -/

/-- What no instruction changes, and which instructions write each group of registers: where an instruction
ends without a fault, every register outside the groups its rules name is as before (10_state.md R21 to R26,
R31, R32, R36 to R46; 20_memory.md R66). -/
def Obligations.OnlyNamedCommandsWrite : Prop :=
  ∀ (i : Instr) (s t : State), s.fault = 0 → exec i s = .next t → t.fault = 0 →
    t.params = s.params ∧ t.finfo = s.finfo ∧ t.program = s.program ∧ t.pos = s.pos ∧
    (writesWriter i = false → t.writer = s.writer) ∧
    (writesReader i = false → t.reader = s.reader) ∧
    (writesEncoder i = false → t.enc = s.enc) ∧
    (writesDecoder i = false → t.dec = s.dec) ∧
    (acquiresPages i = false → t.psWcur = s.psWcur) ∧
    (fetchesPages i = false → t.psRcur = s.psRcur)

/-- The cursors only grow, by whole pages, and never past the bounds (10_state.md R31, R32;
40_page_storage.md R130). -/
def Obligations.CursorsOnlyGrow : Prop :=
  ∀ (i : Instr) (s t : State), s.Ready → exec i s = .next t → t.fault = 0 →
    s.psWcur ≤ t.psWcur ∧ s.psRcur ≤ t.psRcur ∧ t.psRcur ≤ t.psWcur ∧ t.psWcur ≤ s.params.pageLimit

/-- A byte of the store changes only by `PS.SET` of its page, or by a commit of the writer into a page that
was reserved, the page's handle then leaving the window: the writer stores into a page at most once
(20_memory.md R66; R68, the spec's own inference). -/
def Obligations.StoreWritesOnlyReservedPages : Prop :=
  ∀ (i : Instr) (s t : State) (a : Nat), s.Ready → exec i s = .next t → t.fault = 0 →
    memRead t.mem a ≠ memRead s.mem a →
    (∃ h v, i = .psSet h v ∧ h.toNat = a / 8) ∨
    (commitsPages i = true ∧ a / 8 ∉ t.writer.win ∧
      (a / 8 ∈ s.writer.win ∨ (s.psWcur ≤ a / 8 ∧ a / 8 < t.psWcur)))

/-- Writer and encoder commands neither read nor write what the decoder owns: with any other reader, decoder
and read cursor they do the same. Reader and decoder commands neither read nor write what the encoder owns
(10_state.md R36; 70_reset_and_hazards.md R360, the spec's own inference). -/
def Obligations.SidesAreIndependent : Prop :=
  ∀ (i : Instr) (s t : State), s.fault = 0 → exec i s = .next t → t.fault = 0 →
    (writesWriter i = true → ∀ (r : Reader) (d : Decoder) (c : Nat),
      exec i { s with reader := r, dec := d, psRcur := c } =
        .next { t with reader := r, dec := d, psRcur := c }) ∧
    (writesReader i = true → ∀ (w : Writer) (e : Encoder),
      exec i { s with writer := w, enc := e } = .next { t with writer := w, enc := e })
end

