-- ==== Sys2Proof/Laws/Bits.lean ====
section
/-! SUPPORT. Small facts about the bit-field helpers. -/

namespace Sys2Proof.Machine

@[simp] theorem bitsOf_length (n v : Nat) : (bitsOf n v).length = n := by
  induction n with
  | zero => rfl
  | succ n ih => simp [bitsOf, ih]

theorem bitsOf_getElem (n v i : Nat) (h : i < (bitsOf n v).length) :
    (bitsOf n v)[i] = v.testBit (n - 1 - i) := by
  induction n generalizing i with
  | zero => simp at h
  | succ n ih =>
    cases i with
    | zero => simp [bitsOf]
    | succ i =>
      simp only [bitsOf, List.getElem_cons_succ]
      rw [ih]
      congr 1
      omega

/-- Two numbers with the same low `n` bits have the same bit string. -/
theorem bitsOf_congr {n v w : Nat} (h : ∀ i < n, v.testBit i = w.testBit i) : bitsOf n v = bitsOf n w := by
  induction n with
  | zero => rfl
  | succ n ih => simp [bitsOf, h n (Nat.lt_succ_self n), ih fun i hi => h i (Nat.lt_succ_of_lt hi)]

theorem bitsOf_mod (n v : Nat) : bitsOf n (v % 2 ^ n) = bitsOf n v :=
  bitsOf_congr fun i hi => by simp [Nat.testBit_mod_two_pow, hi]

/-- A number of `m + n` bits is its high `m` bits followed by its low `n` bits (00_scope.md R8). -/
theorem bitsOf_append (m n v : Nat) : bitsOf (m + n) v = bitsOf m (v >>> n) ++ bitsOf n v := by
  induction m with
  | zero => simp [bitsOf]
  | succ m ih =>
    rw [Nat.succ_add]
    simp only [bitsOf, List.cons_append, ih, Nat.testBit_shiftRight]
    rw [Nat.add_comm]

theorem bitsOf_zero (n : Nat) : bitsOf n 0 = List.replicate n false := by
  induction n with
  | zero => rfl
  | succ n ih => simp [bitsOf, ih, List.replicate_succ]

theorem natOfBits_append_aux (bs : List Bool) (a : Nat) :
    bs.foldl (fun a b => 2 * a + b.toNat) a = a * 2 ^ bs.length + natOfBits bs := by
  induction bs generalizing a with
  | nil => simp [natOfBits]
  | cons b bs ih =>
    simp only [List.foldl_cons, List.length_cons, natOfBits]
    rw [ih, ih (2 * 0 + b.toNat)]
    ring

theorem natOfBits_cons (b : Bool) (bs : List Bool) :
    natOfBits (b :: bs) = b.toNat * 2 ^ bs.length + natOfBits bs := by
  rw [natOfBits, List.foldl_cons, natOfBits_append_aux]
  simp

/-- A bit string of a number below `2^n` stands for that number. -/
theorem natOfBits_bitsOf (n v : Nat) : natOfBits (bitsOf n v) = v % 2 ^ n := by
  induction n with
  | zero => simp [bitsOf, natOfBits, Nat.mod_one]
  | succ n ih =>
    rw [bitsOf, natOfBits_cons, bitsOf_length, ih, Nat.mod_pow_succ, Nat.testBit_eq_decide_div_mod_eq]
    rcases Nat.mod_two_eq_zero_or_one (v / 2 ^ n) with h | h <;> simp [h, Nat.add_comm]

theorem natOfBits_bitsOf_lt {n v : Nat} (h : v < 2 ^ n) : natOfBits (bitsOf n v) = v := by
  rw [natOfBits_bitsOf, Nat.mod_eq_of_lt h]

theorem clamp240_le (x : Int) : clamp240 x ≤ 240 := by
  unfold clamp240
  simp only [Config.kpMax]
  omega

@[simp] theorem clamp240_sub (a b : Nat) (h : a ≤ 240) : clamp240 ((a : Int) - b) = a - b := by
  unfold clamp240
  simp only [Config.kpMax]
  omega

@[simp] theorem clamp240_add (a b : Nat) : clamp240 ((a : Int) + b) = min 240 (a + b) := by
  unfold clamp240
  simp only [Config.kpMax]
  omega

/-- The length of a Golomb-Rice code (30_encoding.md R108). -/
theorem grBits_length (x m : Nat) : (grBits x m).length = lenGr x m := by
  unfold grBits lenGr
  split <;> rename_i h
  · simp [Nat.not_le.mpr h]
    omega
  · simp [Nat.not_lt.mp h]

/-- "64 bounds every code" (30_encoding.md R108). -/
theorem lenGr_le {m : Nat} (x : Nat) (hm : m ≤ 31) : lenGr x m ≤ 64 := by
  unfold lenGr
  split
  · exact le_refl _
  · rename_i h
    simp only [Config.escQ] at h
    omega

theorem leadingZeros_le (n : Nat) (w : Half) : leadingZeros n w ≤ n := by
  induction n with
  | zero => simp [leadingZeros]
  | succ n ih => unfold leadingZeros; split <;> omega

end Sys2Proof.Machine
end

