-- ==== Sys2Proof/Laws/Memory.lean ====
section
/-! SUPPORT. The memory: read after write, and the canonical form that every operation keeps. -/

namespace Sys2Proof.Machine

/-! ## Reading -/

theorem memRead_cons (a : Nat) (b : Byte) (m : Memory) (x : Nat) :
    memRead ((a, b) :: m) x = if x = a then b else memRead m x := rfl

theorem memWfFrom_mono {lo lo' : Nat} {m : Memory} (h : memWfFrom lo m = true) (hl : lo' ≤ lo) :
    memWfFrom lo' m = true := by
  cases m with
  | nil => rfl
  | cons c m =>
    simp only [memWfFrom, Bool.and_eq_true, decide_eq_true_eq] at h ⊢
    exact ⟨⟨by omega, h.1.2⟩, h.2⟩

/-- Below the first listed address nothing is listed. -/
theorem memRead_lt {lo : Nat} {m : Memory} (h : memWfFrom lo m = true) {x : Nat} (hx : x < lo) :
    memRead m x = memDefault := by
  induction m generalizing lo with
  | nil => rfl
  | cons c m ih =>
    obtain ⟨a, b⟩ := c
    simp only [memWfFrom, Bool.and_eq_true, decide_eq_true_eq] at h
    rw [memRead_cons, if_neg (by omega)]
    exact ih h.2 (by omega)

theorem memRead_memCons {lo : Nat} {m : Memory} (h : memWfFrom lo m = true) {a : Nat} (ha : a < lo)
    (b : Byte) (x : Nat) : memRead (memCons a b m) x = if x = a then b else memRead m x := by
  unfold memCons
  split
  · rename_i hb
    split
    · rename_i hx; rw [hb, hx]; exact memRead_lt h ha
    · rfl
  · rfl

/-- Read after write: the written byte at its address, every other byte as before. -/
theorem memRead_memWrite_from {lo : Nat} {m : Memory} (h : memWfFrom lo m = true) (a : Nat) (b : Byte)
    (x : Nat) : memRead (memWrite m a b) x = if x = a then b else memRead m x := by
  induction m generalizing lo with
  | nil =>
    rw [memWrite, memRead_memCons (lo := a + 1) rfl (by omega)]
  | cons c m ih =>
    obtain ⟨a', b'⟩ := c
    have h' := h
    simp only [memWfFrom, Bool.and_eq_true, decide_eq_true_eq] at h'
    unfold memWrite
    split
    · refine memRead_memCons (lo := a') ?_ ‹_› b x
      simp only [memWfFrom, Bool.and_eq_true, decide_eq_true_eq]
      exact ⟨⟨le_refl _, h'.1.2⟩, h'.2⟩
    · split
      · subst a'
        rw [memRead_memCons h'.2 (by omega), memRead_cons]
        split <;> rfl
      · rw [memRead_cons, memRead_cons, ih h'.2]
        by_cases hx : x = a'
        · rw [if_pos hx, if_pos hx, if_neg (by omega)]
        · rw [if_neg hx, if_neg hx]

theorem memRead_memWrite {m : Memory} (h : m.wf = true) (a : Nat) (b : Byte) (x : Nat) :
    memRead (memWrite m a b) x = if x = a then b else memRead m x := memRead_memWrite_from h a b x

/-! ## The canonical form -/

theorem memWfFrom_memCons {lo : Nat} {m : Memory} {a : Nat} (h : memWfFrom (a + 1) m = true) (ha : lo ≤ a)
    (b : Byte) : memWfFrom lo (memCons a b m) = true := by
  unfold memCons
  split
  · exact memWfFrom_mono h (by omega)
  · simp only [memWfFrom, Bool.and_eq_true, decide_eq_true_eq]
    exact ⟨⟨ha, ‹_›⟩, h⟩

theorem memWfFrom_memWrite {lo : Nat} {m : Memory} (h : memWfFrom lo m = true) {a : Nat} (ha : lo ≤ a)
    (b : Byte) : memWfFrom lo (memWrite m a b) = true := by
  induction m generalizing lo with
  | nil => exact memWfFrom_memCons rfl ha b
  | cons c m ih =>
    obtain ⟨a', b'⟩ := c
    simp only [memWfFrom, Bool.and_eq_true, decide_eq_true_eq] at h
    unfold memWrite
    split
    · refine memWfFrom_memCons ?_ ha b
      simp only [memWfFrom, Bool.and_eq_true, decide_eq_true_eq]
      exact ⟨⟨by omega, h.1.2⟩, h.2⟩
    · split
      · subst a'
        exact memWfFrom_memCons h.2 ha b
      · simp only [memWfFrom, Bool.and_eq_true, decide_eq_true_eq]
        exact ⟨⟨h.1.1, h.1.2⟩, ih h.2 (by omega)⟩

/-- A byte write keeps the canonical form. -/
theorem memWrite_wf {m : Memory} (h : m.wf = true) (a : Nat) (b : Byte) : (memWrite m a b).wf = true :=
  memWfFrom_memWrite h (Nat.zero_le a) b

/-- A list of byte writes keeps the canonical form. -/
theorem memWriteAll_wf {m : Memory} (h : m.wf = true) (cells : List Host.Cell) :
    (memWriteAll m cells).wf = true := by
  unfold memWriteAll
  induction cells generalizing m with
  | nil => exact h
  | cons c cs ih => exact ih (memWrite_wf h c.1 c.2)

/-- Memories in canonical form are equal when they read alike: equal memories are equal data. -/
theorem memory_ext_from {lo : Nat} {m n : Memory} (hm : memWfFrom lo m = true) (hn : memWfFrom lo n = true)
    (h : ∀ x, memRead m x = memRead n x) : m = n := by
  induction m generalizing lo n with
  | nil =>
    cases n with
    | nil => rfl
    | cons c n =>
      obtain ⟨a, b⟩ := c
      simp only [memWfFrom, Bool.and_eq_true, decide_eq_true_eq] at hn
      have := h a
      rw [memRead_cons, if_pos rfl] at this
      exact absurd this.symm hn.1.2
  | cons c m ih =>
    obtain ⟨a, b⟩ := c
    have hm' := hm
    simp only [memWfFrom, Bool.and_eq_true, decide_eq_true_eq] at hm'
    cases n with
    | nil =>
      have := h a
      rw [memRead_cons, if_pos rfl] at this
      exact absurd this hm'.1.2
    | cons c' n =>
      obtain ⟨a', b'⟩ := c'
      have hn' := hn
      simp only [memWfFrom, Bool.and_eq_true, decide_eq_true_eq] at hn'
      have haa : a = a' := by
        rcases Nat.lt_trichotomy a a' with hlt | heq | hgt
        · have := h a
          rw [memRead_cons, if_pos rfl, memRead_cons, if_neg (by omega),
            memRead_lt hn'.2 (by omega)] at this
          exact absurd this hm'.1.2
        · exact heq
        · have := h a'
          rw [memRead_cons, if_neg (by omega), memRead_lt hm'.2 (by omega), memRead_cons, if_pos rfl] at this
          exact absurd this.symm hn'.1.2
      subst haa
      have hb : b = b' := by
        have := h a
        rwa [memRead_cons, memRead_cons, if_pos rfl, if_pos rfl] at this
      subst hb
      congr 1
      refine ih hm'.2 hn'.2 fun x => ?_
      rcases Nat.lt_or_ge x (a + 1) with hx | hx
      · rw [memRead_lt hm'.2 hx, memRead_lt hn'.2 hx]
      · have := h x
        rwa [memRead_cons, memRead_cons, if_neg (by omega), if_neg (by omega)] at this

theorem memory_ext {m n : Memory} (hm : m.wf = true) (hn : n.wf = true)
    (h : ∀ x, memRead m x = memRead n x) : m = n := memory_ext_from hm hn h

/-! ## The bound on listed addresses -/

theorem memBelow_memCons {n a : Nat} {m : Memory} (h : memBelow n m = true) (ha : a < n) (b : Byte) :
    memBelow n (memCons a b m) = true := by
  unfold memCons
  split
  · exact h
  · simp only [memBelow, List.all_cons, Bool.and_eq_true, decide_eq_true_eq]
    exact ⟨ha, h⟩

theorem memBelow_memWrite {n a : Nat} {m : Memory} (h : memBelow n m = true) (ha : a < n) (b : Byte) :
    memBelow n (memWrite m a b) = true := by
  induction m with
  | nil => exact memBelow_memCons rfl ha b
  | cons c m ih =>
    obtain ⟨a', b'⟩ := c
    have h' := h
    simp only [memBelow, List.all_cons, Bool.and_eq_true, decide_eq_true_eq] at h'
    unfold memWrite
    split
    · exact memBelow_memCons h ha b
    · split
      · exact memBelow_memCons h'.2 ha b
      · simp only [memBelow, List.all_cons, Bool.and_eq_true, decide_eq_true_eq]
        exact ⟨h'.1, ih h'.2⟩

theorem memBelow_mono {n n' : Nat} {m : Memory} (h : memBelow n m = true) (hn : n ≤ n') :
    memBelow n' m = true := by
  simp only [memBelow, List.all_eq_true, decide_eq_true_eq] at h ⊢
  exact fun c hc => lt_of_lt_of_le (h c hc) hn

/-- A byte at or beyond the bound reads as the default. -/
theorem memRead_of_memBelow {n : Nat} {m : Memory} (h : memBelow n m = true) {x : Nat} (hx : n ≤ x) :
    memRead m x = memDefault := by
  induction m with
  | nil => rfl
  | cons c m ih =>
    obtain ⟨a, b⟩ := c
    simp only [memBelow, List.all_cons, Bool.and_eq_true, decide_eq_true_eq] at h
    rw [memRead_cons, if_neg (by omega)]
    exact ih h.2

theorem memBelow_of_read_from {lo n : Nat} {m : Memory} (hwf : memWfFrom lo m = true)
    (h : ∀ a, n ≤ a → memRead m a = memDefault) : memBelow n m = true := by
  induction m generalizing lo with
  | nil => rfl
  | cons c m ih =>
    obtain ⟨a, b⟩ := c
    simp only [memWfFrom, Bool.and_eq_true, decide_eq_true_eq] at hwf
    simp only [memBelow, List.all_cons, Bool.and_eq_true, decide_eq_true_eq]
    refine ⟨?_, ih hwf.2 fun x hx => ?_⟩
    · by_contra hn
      have := h a (by omega)
      rw [memRead_cons, if_pos rfl] at this
      exact hwf.1.2 this
    · by_cases hxa : x ≤ a
      · exact memRead_lt hwf.2 (by omega)
      · have := h x hx
        rwa [memRead_cons, if_neg (by omega)] at this

/-- Nothing is listed where everything reads as the default. -/
theorem memBelow_of_read {n : Nat} {m : Memory} (hwf : m.wf = true)
    (h : ∀ a, n ≤ a → memRead m a = memDefault) : memBelow n m = true := memBelow_of_read_from hwf h

/-! ## Pages -/

theorem pageWriteFrom_wf {m : Memory} (h : m.wf = true) (p : Nat) (v : Page) (n : Nat) :
    (pageWriteFrom p v n m).wf = true := by
  induction n generalizing m with
  | zero => exact h
  | succ n ih => exact ih (memWrite_wf h _ _)

/-- A page write keeps the canonical form. -/
theorem pageWrite_wf {m : Memory} (h : m.wf = true) (p : Nat) (v : Page) : (pageWrite m p v).wf = true :=
  pageWriteFrom_wf h p v 8

theorem pageWriteFrom_below {k : Nat} {m : Memory} (h : memBelow (8 * k) m = true) {p : Nat} (hp : p < k)
    (v : Page) (n : Nat) : memBelow (8 * k) (pageWriteFrom p v n m) = true := by
  induction n generalizing m with
  | zero => exact h
  | succ n ih => exact ih (memBelow_memWrite h (by omega) _)

/-- A page write inside the store stays inside the store. -/
theorem pageWrite_below {k : Nat} {m : Memory} (h : memBelow (8 * k) m = true) {p : Nat} (hp : p < k)
    (v : Page) : memBelow (8 * k) (pageWrite m p v) = true := pageWriteFrom_below h hp v 8

theorem memRead_pageWriteFrom {m : Memory} (h : m.wf = true) (p : Nat) (v : Page) (n : Nat) (hn : n ≤ 8)
    (x : Nat) : memRead (pageWriteFrom p v n m) x =
      if 8 * p + (8 - n) ≤ x ∧ x < 8 * p + 8 then pageByte v (x - 8 * p) else memRead m x := by
  induction n generalizing m with
  | zero => rw [pageWriteFrom, if_neg (by omega)]
  | succ n ih =>
    rw [pageWriteFrom, ih (memWrite_wf h _ _) (by omega), memRead_memWrite h]
    by_cases hx : x = 8 * p + (7 - n)
    · subst hx
      rw [if_neg (by omega), if_pos rfl, if_pos (by omega)]
      congr 1
      omega
    · rw [if_neg hx]
      by_cases hr : 8 * p + (8 - n) ≤ x ∧ x < 8 * p + 8
      · rw [if_pos hr, if_pos (by omega)]
      · rw [if_neg hr, if_neg (by omega)]

/-- Every byte after a page write: the page's own bytes hold the value, every other byte is as before. -/
theorem memRead_pageWrite {m : Memory} (h : m.wf = true) (p : Nat) (v : Page) (x : Nat) :
    memRead (pageWrite m p v) x =
      if 8 * p ≤ x ∧ x < 8 * p + 8 then pageByte v (x - 8 * p) else memRead m x :=
  memRead_pageWriteFrom h p v 8 (le_refl 8) x

/-- Bit `i` of a page is bit `i mod 8` of its byte `i / 8` (20_memory.md R62). -/
theorem getLsbD_pageOfBytes (f : Nat → Byte) {i : Nat} (hi : i < 64) :
    (pageOfBytes (f 0) (f 1) (f 2) (f 3) (f 4) (f 5) (f 6) (f 7)).getLsbD i = (f (i / 8)).getLsbD (i % 8) := by
  obtain ⟨q, r, hr, rfl⟩ : ∃ q r, r < 8 ∧ i = 8 * q + r := ⟨i / 8, i % 8, by omega, by omega⟩
  have hq : q < 8 := by omega
  rw [show (8 * q + r) / 8 = q by omega, show (8 * q + r) % 8 = r by omega]
  simp only [pageOfBytes, BitVec.getLsbD_append]
  interval_cases q <;> simp (disch := omega) only [if_neg, if_pos] <;> congr 1 <;> omega

theorem getLsbD_pageByte (v : Page) (j : Nat) {i : Nat} (hi : i < 8) :
    (pageByte v j).getLsbD i = v.getLsbD (8 * j + i) := by
  simp [pageByte, hi]

/-- A page is its eight bytes (20_memory.md R62). -/
theorem pageOfBytes_pageByte (v : Page) :
    pageOfBytes (pageByte v 0) (pageByte v 1) (pageByte v 2) (pageByte v 3) (pageByte v 4) (pageByte v 5)
      (pageByte v 6) (pageByte v 7) = v := by
  apply BitVec.eq_of_getLsbD_eq
  intro i hi
  rw [getLsbD_pageOfBytes (pageByte v) hi, getLsbD_pageByte v _ (by omega)]
  congr 1
  omega

/-- Bit `i` of the swapped page: the byte order is reversed, the order inside a byte is kept (00_scope.md R9). -/
theorem getLsbD_bswap64 (v : Page) {i : Nat} (hi : i < 64) :
    (bswap64 v).getLsbD i = v.getLsbD (8 * (7 - i / 8) + i % 8) := by
  have h := getLsbD_pageOfBytes (fun j => pageByte v (7 - j)) hi
  unfold bswap64
  simp only [Nat.reduceSub] at h
  rw [h, getLsbD_pageByte v _ (by omega)]

/-- Swapping twice gives the value back (20_memory.md R61). -/
@[simp] theorem bswap64_bswap64 (v : Page) : bswap64 (bswap64 v) = v := by
  apply BitVec.eq_of_getLsbD_eq
  intro i hi
  rw [getLsbD_bswap64 _ hi, getLsbD_bswap64 _ (by omega)]
  congr 1
  omega

/-- The page that was written reads back whole. -/
theorem pageRead_pageWrite_same {m : Memory} (h : m.wf = true) (p : Nat) (v : Page) :
    pageRead (pageWrite m p v) p = v := by
  unfold pageRead
  simp (disch := omega) only [memRead_pageWrite h, if_pos, Nat.add_sub_cancel_left, Nat.sub_self]
  exact pageOfBytes_pageByte v

/-- Every other page is as before. -/
theorem pageRead_pageWrite_other {m : Memory} (h : m.wf = true) {p q : Nat} (hq : q ≠ p) (v : Page) :
    pageRead (pageWrite m p v) q = pageRead m q := by
  unfold pageRead
  simp (disch := omega) only [memRead_pageWrite h, if_neg]

/-- A page beyond the store reads 0. -/
theorem pageRead_of_memBelow {k : Nat} {m : Memory} (h : memBelow (8 * k) m = true) {p : Nat} (hp : k ≤ p) :
    pageRead m p = 0 := by
  unfold pageRead
  simp (disch := omega) only [memRead_of_memBelow h]
  decide

/-- The reader recovers the word the writer stored (20_memory.md R61). -/
theorem streamWord_pageWrite {m : Memory} (h : m.wf = true) (p : Nat) (v : Page) :
    streamWord (pageWrite m p (bswap64 v)) p = v := by
  rw [streamWord, pageRead_pageWrite_same h, bswap64_bswap64]

theorem streamWord_pageWrite_other {m : Memory} (h : m.wf = true) {p q : Nat} (hq : q ≠ p) (v : Page) :
    streamWord (pageWrite m p v) q = streamWord m q := by
  rw [streamWord, streamWord, pageRead_pageWrite_other h hq]

end Sys2Proof.Machine
end

