-- ==== Sys2Proof/Laws/State.lean ====
section
/-! SUPPORT. One lemma per field per named update of the state, so that no proof unfolds an update. -/

namespace Sys2Proof.Machine

/-! ## `State.answer` -/

@[simp] theorem answer_params (s : State) (v : BitVec 64) : (s.answer v).params = s.params := rfl
@[simp] theorem answer_mem (s : State) (v : BitVec 64) : (s.answer v).mem = s.mem := rfl
@[simp] theorem answer_psWcur (s : State) (v : BitVec 64) : (s.answer v).psWcur = s.psWcur := rfl
@[simp] theorem answer_psRcur (s : State) (v : BitVec 64) : (s.answer v).psRcur = s.psRcur := rfl
@[simp] theorem answer_writer (s : State) (v : BitVec 64) : (s.answer v).writer = s.writer := rfl
@[simp] theorem answer_reader (s : State) (v : BitVec 64) : (s.answer v).reader = s.reader := rfl
@[simp] theorem answer_enc (s : State) (v : BitVec 64) : (s.answer v).enc = s.enc := rfl
@[simp] theorem answer_dec (s : State) (v : BitVec 64) : (s.answer v).dec = s.dec := rfl
@[simp] theorem answer_fault (s : State) (v : BitVec 64) : (s.answer v).fault = s.fault := rfl
@[simp] theorem answer_finfo (s : State) (v : BitVec 64) : (s.answer v).finfo = s.finfo := rfl
@[simp] theorem answer_program (s : State) (v : BitVec 64) : (s.answer v).program = s.program := rfl
@[simp] theorem answer_pos (s : State) (v : BitVec 64) : (s.answer v).pos = s.pos := rfl
@[simp] theorem answer_response (s : State) (v : BitVec 64) : (s.answer v).response = some ⟨statusOk, v⟩ := rfl

/-! ## `State.refuse` -/

@[simp] theorem refuse_params (s : State) : (s.refuse).params = s.params := rfl
@[simp] theorem refuse_mem (s : State) : (s.refuse).mem = s.mem := rfl
@[simp] theorem refuse_psWcur (s : State) : (s.refuse).psWcur = s.psWcur := rfl
@[simp] theorem refuse_psRcur (s : State) : (s.refuse).psRcur = s.psRcur := rfl
@[simp] theorem refuse_writer (s : State) : (s.refuse).writer = s.writer := rfl
@[simp] theorem refuse_reader (s : State) : (s.refuse).reader = s.reader := rfl
@[simp] theorem refuse_enc (s : State) : (s.refuse).enc = s.enc := rfl
@[simp] theorem refuse_dec (s : State) : (s.refuse).dec = s.dec := rfl
@[simp] theorem refuse_fault (s : State) : (s.refuse).fault = s.fault := rfl
@[simp] theorem refuse_finfo (s : State) : (s.refuse).finfo = s.finfo := rfl
@[simp] theorem refuse_program (s : State) : (s.refuse).program = s.program := rfl
@[simp] theorem refuse_pos (s : State) : (s.refuse).pos = s.pos := rfl
@[simp] theorem refuse_response (s : State) : (s.refuse).response = some ⟨statusRefused, 0⟩ := rfl

/-! ## `State.advance` -/

@[simp] theorem advance_params (s : State) : (s.advance).params = s.params := rfl
@[simp] theorem advance_mem (s : State) : (s.advance).mem = s.mem := rfl
@[simp] theorem advance_psWcur (s : State) : (s.advance).psWcur = s.psWcur := rfl
@[simp] theorem advance_psRcur (s : State) : (s.advance).psRcur = s.psRcur := rfl
@[simp] theorem advance_writer (s : State) : (s.advance).writer = s.writer := rfl
@[simp] theorem advance_reader (s : State) : (s.advance).reader = s.reader := rfl
@[simp] theorem advance_enc (s : State) : (s.advance).enc = s.enc := rfl
@[simp] theorem advance_dec (s : State) : (s.advance).dec = s.dec := rfl
@[simp] theorem advance_fault (s : State) : (s.advance).fault = s.fault := rfl
@[simp] theorem advance_finfo (s : State) : (s.advance).finfo = s.finfo := rfl
@[simp] theorem advance_program (s : State) : (s.advance).program = s.program := rfl
@[simp] theorem advance_pos (s : State) : (s.advance).pos = s.pos + 1 := rfl
@[simp] theorem advance_response (s : State) : (s.advance).response = s.response := rfl

/-! ## `takeFault` -/

@[simp] theorem takeFault_params (s : State) (f : FaultName) (info : Nat) : (takeFault f info s).params = s.params := rfl
@[simp] theorem takeFault_mem (s : State) (f : FaultName) (info : Nat) : (takeFault f info s).mem = memWriteAll s.mem (Config.afterFault s).mem := rfl
@[simp] theorem takeFault_fault (s : State) (f : FaultName) (info : Nat) : (takeFault f info s).fault = faultCode f := rfl
@[simp] theorem takeFault_finfo (s : State) (f : FaultName) (info : Nat) : (takeFault f info s).finfo = BitVec.ofNat 64 info := rfl
@[simp] theorem takeFault_program (s : State) (f : FaultName) (info : Nat) : (takeFault f info s).program = s.program := rfl
@[simp] theorem takeFault_pos (s : State) (f : FaultName) (info : Nat) : (takeFault f info s).pos = s.pos := rfl
@[simp] theorem takeFault_response (s : State) (f : FaultName) (info : Nat) : (takeFault f info s).response = some ⟨faultCode f, 0⟩ := rfl

/-! ## The reset state -/

@[simp] theorem resetWith_params (p : Params) : (State.resetWith p).params = p := rfl
@[simp] theorem resetWith_mem (p : Params) : (State.resetWith p).mem = [] := rfl
@[simp] theorem resetWith_psWcur (p : Params) : (State.resetWith p).psWcur = 0 := rfl
@[simp] theorem resetWith_psRcur (p : Params) : (State.resetWith p).psRcur = 0 := rfl
@[simp] theorem resetWith_writer (p : Params) : (State.resetWith p).writer = ⟨0, 64, 0, []⟩ := rfl
@[simp] theorem resetWith_reader (p : Params) : (State.resetWith p).reader = ⟨0, 0, 0, 0, 0, []⟩ := rfl
@[simp] theorem resetWith_enc (p : Params) : (State.resetWith p).enc = ⟨0, 0, 0, false⟩ := rfl
@[simp] theorem resetWith_dec (p : Params) : (State.resetWith p).dec = ⟨0, 0, 0, false, 0, 0, false⟩ := rfl
@[simp] theorem resetWith_fault (p : Params) : (State.resetWith p).fault = 0 := rfl
@[simp] theorem resetWith_finfo (p : Params) : (State.resetWith p).finfo = 0 := rfl
@[simp] theorem resetWith_program (p : Params) : (State.resetWith p).program = [] := rfl
@[simp] theorem resetWith_pos (p : Params) : (State.resetWith p).pos = 0 := rfl
@[simp] theorem resetWith_response (p : Params) : (State.resetWith p).response = none := rfl

/-- A state is its fields: the usual way to show that two states agree. -/
theorem state_ext {s t : State} (h0 : s.params = t.params) (h1 : s.mem = t.mem) (h2 : s.psWcur = t.psWcur)
    (h3 : s.psRcur = t.psRcur) (h4 : s.writer = t.writer) (h5 : s.reader = t.reader) (h6 : s.enc = t.enc)
    (h7 : s.dec = t.dec) (h8 : s.fault = t.fault) (h9 : s.finfo = t.finfo) (h10 : s.program = t.program)
    (h11 : s.pos = t.pos) (h12 : s.response = t.response) : s = t := by
  cases s
  cases t
  simp_all

end Sys2Proof.Machine
end

