-- ==== Sys2Proof/Laws/Ops.lean ====
section
/-! SUPPORT. What the shared operations can do: how a procedure and a command end, the Page Storage
procedures, the operand checks. -/

namespace Sys2Proof.Machine

/-! ## Sequencing -/

@[simp] theorem andThen_ok {α β : Type} (a : α) (s : State) (k : α → State → Res β) :
    (Res.ok a s).andThen k = k a s := rfl

@[simp] theorem andThen_raise {α β : Type} (f : FaultName) (info : Nat) (k : α → State → Res β) :
    (Res.raise f info : Res α).andThen k = .raise f info := rfl

theorem andThen_eq_ok {α β : Type} {r : Res α} {k : α → State → Res β} {b : β} {t : State} :
    r.andThen k = .ok b t ↔ ∃ a u, r = .ok a u ∧ k a u = .ok b t := by
  cases r <;> simp

theorem andThen_eq_raise {α β : Type} {r : Res α} {k : α → State → Res β} {f : FaultName} {info : Nat} :
    r.andThen k = .raise f info ↔ r = .raise f info ∨ ∃ a u, r = .ok a u ∧ k a u = .raise f info := by
  cases r <;> simp

theorem andThen_assoc {α β γ : Type} (r : Res α) (k : α → State → Res β) (l : β → State → Res γ) :
    (r.andThen k).andThen l = r.andThen fun a s => (k a s).andThen l := by
  cases r <;> rfl

/-! ## How a command ends -/

@[simp] theorem runProc_ok {p : State → Res (BitVec 64)} {s t : State} {v : BitVec 64} (h : p s = .ok v t) :
    runProc p s = .next (t.answer v) := by
  simp [runProc, h]

@[simp] theorem runProc_raise {p : State → Res (BitVec 64)} {s : State} {f : FaultName} {info : Nat}
    (h : p s = .raise f info) : runProc p s = .next (takeFault f info s) := by
  simp [runProc, h]

theorem runCommand_live {p : State → Res (BitVec 64)} {s : State} (h : s.fault = 0) :
    runCommand p s = runProc p s := by
  simp [runCommand, h]

theorem runCommand_faulted {p : State → Res (BitVec 64)} {s : State} (h : s.fault ≠ 0) :
    runCommand p s = .next s.refuse := by
  rw [runCommand, if_pos h]

/-- A procedure ends in a next state, with its result or with a fault taken. -/
theorem runProc_next {p : State → Res (BitVec 64)} {s t : State} (h : runProc p s = .next t) :
    (∃ v u, p s = .ok v u ∧ t = u.answer v) ∨ (∃ f info, p s = .raise f info ∧ t = takeFault f info s) := by
  unfold runProc at h
  split at h
  · rename_i v u hp
    exact .inl ⟨v, u, hp, by simpa using h.symm⟩
  · rename_i f info hp
    exact .inr ⟨f, info, hp, by simpa using h.symm⟩

/-- A command is refused, ends normally, or takes a fault; nothing else. -/
theorem runCommand_next {p : State → Res (BitVec 64)} {s t : State} (h : runCommand p s = .next t) :
    (s.fault ≠ 0 ∧ t = s.refuse) ∨ (s.fault = 0 ∧ ∃ v u, p s = .ok v u ∧ t = u.answer v) ∨
      (s.fault = 0 ∧ ∃ f info, p s = .raise f info ∧ t = takeFault f info s) := by
  by_cases hf : s.fault = 0
  · rw [runCommand_live hf] at h
    rcases runProc_next h with h | h
    · exact .inr (.inl ⟨hf, h⟩)
    · exact .inr (.inr ⟨hf, h⟩)
  · rw [runCommand_faulted hf] at h
    exact .inl ⟨hf, by simpa using h.symm⟩

/-- A procedure always ends in a next state. -/
theorem runProc_ends (p : State → Res (BitVec 64)) (s : State) : ∃ t, runProc p s = .next t := by
  cases h : p s with
  | ok v t => exact ⟨_, runProc_ok h⟩
  | raise f info => exact ⟨_, runProc_raise h⟩

/-- A command always ends in a next state. -/
theorem runCommand_ends (p : State → Res (BitVec 64)) (s : State) : ∃ t, runCommand p s = .next t := by
  by_cases hf : s.fault = 0
  · rw [runCommand_live hf]
    exact runProc_ends p s
  · exact ⟨_, runCommand_faulted hf⟩

theorem noResult_eq_ok {p : State → Res Unit} {s t : State} {v : BitVec 64} :
    noResult p s = .ok v t ↔ p s = .ok () t ∧ v = 0 := by
  unfold noResult
  cases p s <;> simp
  exact ⟨fun ⟨hv, ht⟩ => ⟨ht, hv.symm⟩, fun ⟨ht, hv⟩ => ⟨hv.symm, ht⟩⟩

theorem noResult_eq_raise {p : State → Res Unit} {s : State} {f : FaultName} {info : Nat} :
    noResult p s = .raise f info ↔ p s = .raise f info := by
  unfold noResult
  cases p s <;> simp

theorem numResult_eq_ok {p : State → Res Nat} {s t : State} {v : BitVec 64} :
    numResult p s = .ok v t ↔ ∃ n, p s = .ok n t ∧ v = BitVec.ofNat 64 n := by
  unfold numResult
  cases p s <;> simp
  exact ⟨fun ⟨hv, ht⟩ => ⟨ht, hv.symm⟩, fun ⟨ht, hv⟩ => ⟨hv.symm, ht⟩⟩

theorem numResult_eq_raise {p : State → Res Nat} {s : State} {f : FaultName} {info : Nat} :
    numResult p s = .raise f info ↔ p s = .raise f info := by
  unfold numResult
  cases p s <;> simp

/-- The fault codes are 1 to 10 (60_exceptions.md R301). -/
theorem faultCode_ne_zero (f : FaultName) : faultCode f ≠ 0 := by
  cases f <;> decide

theorem faultCode_le (f : FaultName) : (faultCode f).toNat ≤ 10 := by
  cases f <;> decide

theorem faultCode_inj {f g : FaultName} (h : faultCode f = faultCode g) : f = g := by
  revert h
  cases f <;> cases g <;> decide

/-! ## The Page Storage procedures -/

theorem psAcquire_eq_ok {s t : State} {h : Nat} : psAcquire s = .ok h t ↔
    s.psWcur < s.params.pageLimit ∧ h = s.psWcur ∧
      t = { s with mem := pageWrite s.mem s.psWcur 0, psWcur := s.psWcur + 1 } := by
  unfold psAcquire
  split <;> simp_all [eq_comm]

theorem psAcquire_eq_raise {s : State} {f : FaultName} {info : Nat} : psAcquire s = .raise f info ↔
    s.params.pageLimit ≤ s.psWcur ∧ f = .storeFull ∧ info = s.psWcur := by
  unfold psAcquire
  split <;> simp_all [eq_comm]

theorem psReadNext_eq_ok {s t : State} {h : Nat} : psReadNext s = .ok h t ↔
    s.psRcur < s.psWcur ∧ h = s.psRcur ∧ t = { s with psRcur := s.psRcur + 1 } := by
  unfold psReadNext
  split <;> simp_all [eq_comm]

theorem psReadNext_eq_raise {s : State} {f : FaultName} {info : Nat} : psReadNext s = .raise f info ↔
    s.psWcur ≤ s.psRcur ∧ f = .readPastWrite ∧ info = s.psRcur := by
  unfold psReadNext
  split <;> simp_all [eq_comm]

theorem pageGet_eq_ok {s t : State} {h : Nat} {v : Page} : pageGet h s = .ok v t ↔
    h < s.psWcur ∧ v = pageRead s.mem h ∧ t = s := by
  unfold pageGet
  split <;> simp_all [eq_comm]

theorem pageGet_eq_raise {s : State} {h : Nat} {f : FaultName} {info : Nat} :
    pageGet h s = .raise f info ↔ s.psWcur ≤ h ∧ f = .badHandle ∧ info = h := by
  unfold pageGet
  split <;> simp_all [eq_comm]

theorem pageSet_eq_ok {s t : State} {h : Nat} {v : Page} : pageSet h v s = .ok () t ↔
    h < s.psWcur ∧ t = { s with mem := pageWrite s.mem h v } := by
  unfold pageSet
  split <;> simp_all [eq_comm]

theorem pageSet_eq_raise {s : State} {h : Nat} {v : Page} {f : FaultName} {info : Nat} :
    pageSet h v s = .raise f info ↔ s.psWcur ≤ h ∧ f = .badHandle ∧ info = h := by
  unfold pageSet
  split <;> simp_all [eq_comm]

/-! ## The operand checks -/

theorem requireCount_eq_ok {n : Nat} {s t : State} : requireCount n s = .ok () t ↔ n ≤ 32 ∧ t = s := by
  unfold requireCount
  split <;> simp_all [eq_comm]

theorem requireCount_eq_raise {n : Nat} {s : State} {f : FaultName} {info : Nat} :
    requireCount n s = .raise f info ↔ 32 < n ∧ f = .badOperand ∧ info = n := by
  unfold requireCount
  split <;> simp_all [eq_comm]

theorem requirePeekCount_eq_ok {n : Nat} {s t : State} :
    requirePeekCount n s = .ok () t ↔ (1 ≤ n ∧ n ≤ 32) ∧ t = s := by
  unfold requirePeekCount
  split <;> simp_all [eq_comm]

theorem requirePeekCount_eq_raise {n : Nat} {s : State} {f : FaultName} {info : Nat} :
    requirePeekCount n s = .raise f info ↔ ¬(1 ≤ n ∧ n ≤ 32) ∧ f = .badOperand ∧ info = n := by
  unfold requirePeekCount
  split <;> simp_all [eq_comm]

theorem requireRice_eq_ok {m : Nat} {s t : State} : requireRice m s = .ok () t ↔ m ≤ 31 ∧ t = s := by
  unfold requireRice
  split <;> simp_all [eq_comm]

theorem requireRice_eq_raise {m : Nat} {s : State} {f : FaultName} {info : Nat} :
    requireRice m s = .raise f info ↔ 31 < m ∧ f = .badOperand ∧ info = m := by
  unfold requireRice
  split <;> simp_all [eq_comm]

theorem requireWidth_eq_ok {n v : Nat} {s t : State} : requireWidth n v s = .ok () t ↔ v < 2 ^ n ∧ t = s := by
  unfold requireWidth
  split <;> simp_all [eq_comm]

theorem requireWidth_eq_raise {n v : Nat} {s : State} {f : FaultName} {info : Nat} :
    requireWidth n v s = .raise f info ↔ 2 ^ n ≤ v ∧ f = .valueWidth ∧ info = v := by
  unfold requireWidth
  split <;> simp_all [eq_comm]

end Sys2Proof.Machine
end

