-- ==== Sys2Proof/Laws/Window.lean ====
section
/-! SUPPORT. The reserves, once and for all: how many pages a reserve acquires or fetches, and when and how
it faults. -/

namespace Sys2Proof.Machine

/-! ## `take` -/

theorem wTake_eq_ok {s t : State} {h : Nat} : wTake s = .ok h t ↔
    ∃ rest, s.writer.win = h :: rest ∧ t = { s with writer := { s.writer with win := rest } } := by
  unfold wTake
  split <;> simp_all [eq_comm]

theorem wTake_eq_raise {s : State} {f : FaultName} {info : Nat} : wTake s = .raise f info ↔
    s.writer.win = [] ∧ f = .unreserved ∧ info = 0 := by
  unfold wTake
  split <;> simp_all [eq_comm]

theorem rTake_eq_ok {s t : State} {h : Nat} : rTake s = .ok h t ↔
    ∃ rest, s.reader.win = h :: rest ∧ t = { s with reader := { s.reader with win := rest } } := by
  unfold rTake
  split <;> simp_all [eq_comm]

theorem rTake_eq_raise {s : State} {f : FaultName} {info : Nat} : rTake s = .raise f info ↔
    s.reader.win = [] ∧ f = .unreserved ∧ info = 0 := by
  unfold rTake
  split <;> simp_all [eq_comm]

/-! ## Pages needed -/

theorem pagesNeeded_eq_zero {n r : Nat} : pagesNeeded n r = 0 ↔ n ≤ r := by
  unfold pagesNeeded
  omega

/-- One more page guarantees 64 more bits. -/
theorem pagesNeeded_succ {n r : Nat} (h : r < n) : pagesNeeded n r = pagesNeeded n (r + 64) + 1 := by
  unfold pagesNeeded
  omega

/-- The guarantee after the reserve. -/
theorem le_pagesNeeded (n r : Nat) : n ≤ r + 64 * pagesNeeded n r := by
  unfold pagesNeeded
  omega

/-- A reserve stops as soon as it can. -/
theorem pagesNeeded_lt {n r : Nat} (h : r < n) : r + 64 * pagesNeeded n r < n + 64 := by
  unfold pagesNeeded
  omega

/-! ## The writer's reserve -/

@[simp] theorem withReserved_zero (s : State) : s.withReserved 0 = s := by
  simp [State.withReserved]

theorem withReserved_succ (s : State) (n : Nat) : s.withReserved (n + 1) =
    ({ s with
        psWcur := s.psWcur + 1
        writer := { s.writer with win := s.writer.win ++ [s.psWcur], rsvd := s.writer.rsvd + 64 } }
      : State).withReserved n := by
  simp only [State.withReserved, List.range'_succ, List.append_assoc, List.singleton_append]
  congr 1
  · omega
  · congr 1
    omega

theorem withReserved_withReserved (s : State) (a b : Nat) :
    (s.withReserved a).withReserved b = s.withReserved (a + b) := by
  induction a generalizing s with
  | zero => simp
  | succ a ih => rw [withReserved_succ, ih, Nat.succ_add, withReserved_succ]

/-- A zero page written beyond the stored bytes leaves the memory as it is. -/
theorem pageWrite_zero_beyond {m : Memory} {p : Nat} (h : m.wf = true) (hb : memBelow (8 * p) m = true) :
    pageWrite m p 0 = m := by
  refine memory_ext (pageWrite_wf h p 0) h fun x => ?_
  rw [memRead_pageWrite h]
  split
  · rw [memRead_of_memBelow hb (by omega)]
    simp [pageByte, memDefault]
  · rfl

/-- An acquisition with room appends a zero page: the listed bytes stay as they are (40_page_storage.md
R131). -/
theorem psAcquire_ok {s : State} (hwf : s.mem.wf = true) (hb : memBelow (8 * s.psWcur) s.mem = true)
    (h : s.psWcur < s.params.pageLimit) :
    psAcquire s = .ok s.psWcur { s with psWcur := s.psWcur + 1 } := by
  rw [psAcquire_eq_ok]
  exact ⟨h, rfl, by rw [pageWrite_zero_beyond hwf hb]⟩

theorem wReserveTurn_ok {s : State} {n : Nat} (hwf : s.mem.wf = true)
    (hb : memBelow (8 * s.psWcur) s.mem = true) (hc : s.writer.win.length < s.params.winCap)
    (hl : s.psWcur < s.params.pageLimit) : wReserveTurn n s = .ok () (s.withReserved 1) := by
  unfold wReserveTurn
  rw [if_pos hc, psAcquire_ok hwf hb hl]
  rfl

theorem memBelow_withReserved {s : State} (hb : memBelow (8 * s.psWcur) s.mem = true) (n : Nat) :
    memBelow (8 * (s.withReserved n).psWcur) (s.withReserved n).mem = true :=
  memBelow_mono hb (by simp only [State.withReserved]; omega)

theorem wReserveLoop_ok {s : State} {n fuel : Nat} (hwf : s.mem.wf = true)
    (hb : memBelow (8 * s.psWcur) s.mem = true) (hf : pagesNeeded n s.writer.rsvd ≤ fuel)
    (hc : s.writer.win.length + pagesNeeded n s.writer.rsvd ≤ s.params.winCap)
    (hl : s.psWcur + pagesNeeded n s.writer.rsvd ≤ s.params.pageLimit) :
    wReserveLoop n fuel s = .ok () (s.withReserved (pagesNeeded n s.writer.rsvd)) := by
  induction fuel generalizing s with
  | zero =>
    have h0 : pagesNeeded n s.writer.rsvd = 0 := by omega
    rw [h0, wReserveLoop, if_neg (Nat.not_lt.mpr (pagesNeeded_eq_zero.mp h0)), withReserved_zero]
  | succ fuel ih =>
    rw [wReserveLoop]
    by_cases h : s.writer.rsvd < n
    · have hk := pagesNeeded_succ h
      rw [if_pos h, wReserveTurn_ok hwf hb (by omega) (by omega), andThen_ok,
        ih (by exact hwf) (memBelow_withReserved hb 1), withReserved_withReserved]
      · congr 2
        rw [hk, Nat.add_comm]
        rfl
      all_goals simp [State.withReserved]
      all_goals omega
    · rw [if_neg h, pagesNeeded_eq_zero.mpr (Nat.not_lt.mp h), withReserved_zero]

theorem wReserveLoop_overflow {s : State} {n fuel : Nat} (hwf : s.mem.wf = true)
    (hb : memBelow (8 * s.psWcur) s.mem = true) (hlen : s.writer.win.length ≤ s.params.winCap)
    (hc : s.params.winCap < s.writer.win.length + pagesNeeded n s.writer.rsvd)
    (hl : s.psWcur + (s.params.winCap - s.writer.win.length) ≤ s.params.pageLimit) :
    wReserveLoop n fuel s = .raise .winOverflow n ∨ fuel ≤ s.params.winCap - s.writer.win.length := by
  induction fuel generalizing s with
  | zero => exact .inr (Nat.zero_le _)
  | succ fuel ih =>
    have h : s.writer.rsvd < n := by
      by_contra h0
      rw [pagesNeeded_eq_zero.mpr (Nat.not_lt.mp h0)] at hc
      omega
    rw [wReserveLoop, if_pos h]
    by_cases hcap : s.writer.win.length < s.params.winCap
    · have hk := pagesNeeded_succ h
      rw [wReserveTurn_ok hwf hb hcap (by omega), andThen_ok]
      rcases ih (s := s.withReserved 1) hwf (memBelow_withReserved hb 1)
        (by simp [State.withReserved]; omega) (by simp [State.withReserved]; omega)
        (by simp [State.withReserved]; omega) with h1 | h1
      · exact .inl h1
      · right
        simp only [State.withReserved, List.range'_one, List.length_append, List.length_singleton] at h1
        omega
    · left
      rw [wReserveTurn, if_neg hcap]
      rfl

theorem wReserveLoop_full {s : State} {n fuel : Nat} (hwf : s.mem.wf = true)
    (hb : memBelow (8 * s.psWcur) s.mem = true) (hp : s.psWcur ≤ s.params.pageLimit)
    (hk : s.params.pageLimit < s.psWcur + pagesNeeded n s.writer.rsvd)
    (hc : s.writer.win.length + (s.params.pageLimit - s.psWcur) < s.params.winCap)
    (hf : s.params.pageLimit - s.psWcur < fuel) :
    wReserveLoop n fuel s = .raise .storeFull s.params.pageLimit := by
  induction fuel generalizing s with
  | zero => omega
  | succ fuel ih =>
    have h : s.writer.rsvd < n := by
      by_contra h0
      rw [pagesNeeded_eq_zero.mpr (Nat.not_lt.mp h0)] at hk
      omega
    rw [wReserveLoop, if_pos h]
    by_cases hl : s.psWcur < s.params.pageLimit
    · have hk' := pagesNeeded_succ h
      rw [wReserveTurn_ok hwf hb (by omega) hl, andThen_ok]
      exact ih (s := s.withReserved 1) hwf (memBelow_withReserved hb 1)
        (by simp [State.withReserved]; omega) (by simp [State.withReserved]; omega)
        (by simp [State.withReserved]; omega) (by simp [State.withReserved]; omega)
    · rw [wReserveTurn, if_pos (by omega), psAcquire, if_neg hl]
      simp only [andThen_raise]
      congr 1
      omega

/-- What the writer's reserve can do (41_reservation_window.md R152, R155): it acquires the pages it needs
where the window and the store have room for them ... -/
theorem wReserve_ok {s : State} {n : Nat} (hwf : s.mem.wf = true)
    (hb : memBelow (8 * s.psWcur) s.mem = true)
    (hc : s.writer.win.length + pagesNeeded n s.writer.rsvd ≤ s.params.winCap)
    (hl : s.psWcur + pagesNeeded n s.writer.rsvd ≤ s.params.pageLimit) :
    wReserve n s = .ok () (s.withReserved (pagesNeeded n s.writer.rsvd)) :=
  wReserveLoop_ok hwf hb (by omega) hc hl

/-- ... overflows where the window has too little room and the store has enough to find that out ... -/
theorem wReserve_overflow {s : State} {n : Nat} (hwf : s.mem.wf = true)
    (hb : memBelow (8 * s.psWcur) s.mem = true) (hlen : s.writer.win.length ≤ s.params.winCap)
    (hc : s.params.winCap < s.writer.win.length + pagesNeeded n s.writer.rsvd)
    (hl : s.psWcur + (s.params.winCap - s.writer.win.length) ≤ s.params.pageLimit) :
    wReserve n s = .raise .winOverflow n := by
  rcases wReserveLoop_overflow (fuel := s.params.winCap + 1) hwf hb hlen hc hl with h | h
  · exact h
  · omega

/-- ... and finds the store full where that has the less room. -/
theorem wReserve_full {s : State} {n : Nat} (hwf : s.mem.wf = true)
    (hb : memBelow (8 * s.psWcur) s.mem = true) (hp : s.psWcur ≤ s.params.pageLimit)
    (hk : s.params.pageLimit < s.psWcur + pagesNeeded n s.writer.rsvd)
    (hc : s.writer.win.length + (s.params.pageLimit - s.psWcur) < s.params.winCap) :
    wReserve n s = .raise .storeFull s.params.pageLimit :=
  wReserveLoop_full hwf hb hp hk hc (by omega)

/-- These three are all. -/
theorem wReserve_cases {s : State} {n : Nat} (hwf : s.mem.wf = true)
    (hb : memBelow (8 * s.psWcur) s.mem = true) (hp : s.psWcur ≤ s.params.pageLimit)
    (hlen : s.writer.win.length ≤ s.params.winCap) :
    wReserve n s = .ok () (s.withReserved (pagesNeeded n s.writer.rsvd)) ∧
        s.writer.win.length + pagesNeeded n s.writer.rsvd ≤ s.params.winCap ∧
        s.psWcur + pagesNeeded n s.writer.rsvd ≤ s.params.pageLimit ∨
      wReserve n s = .raise .winOverflow n ∧
        s.params.winCap < s.writer.win.length + pagesNeeded n s.writer.rsvd ∨
      wReserve n s = .raise .storeFull s.params.pageLimit ∧
        s.params.pageLimit < s.psWcur + pagesNeeded n s.writer.rsvd := by
  by_cases hc : s.writer.win.length + pagesNeeded n s.writer.rsvd ≤ s.params.winCap
  · by_cases hl : s.psWcur + pagesNeeded n s.writer.rsvd ≤ s.params.pageLimit
    · exact .inl ⟨wReserve_ok hwf hb hc hl, hc, hl⟩
    · exact .inr (.inr ⟨wReserve_full hwf hb hp (by omega) (by omega), by omega⟩)
  · by_cases hl : s.psWcur + (s.params.winCap - s.writer.win.length) ≤ s.params.pageLimit
    · exact .inr (.inl ⟨wReserve_overflow hwf hb hlen (by omega) hl, by omega⟩)
    · exact .inr (.inr ⟨wReserve_full hwf hb hp (by omega) (by omega), by omega⟩)

/-! ## The loop of the reader's reserve -/

/-- The state with the next `n` unread pages in the reader's window, before the refill. -/
def State.withFetched (s : State) (n : Nat) : State :=
  { s with
    psRcur := s.psRcur + n
    reader := { s.reader with
      win := s.reader.win ++ List.range' s.psRcur n
      rsvd := s.reader.rsvd + 64 * n } }

@[simp] theorem withFetched_zero (s : State) : s.withFetched 0 = s := by
  simp [State.withFetched]

theorem withFetched_succ (s : State) (n : Nat) : s.withFetched (n + 1) =
    ({ s with
        psRcur := s.psRcur + 1
        reader := { s.reader with win := s.reader.win ++ [s.psRcur], rsvd := s.reader.rsvd + 64 } }
      : State).withFetched n := by
  simp only [State.withFetched, List.range'_succ, List.append_assoc, List.singleton_append]
  congr 1
  · omega
  · congr 1
    omega

theorem withFetched_withFetched (s : State) (a b : Nat) :
    (s.withFetched a).withFetched b = s.withFetched (a + b) := by
  induction a generalizing s with
  | zero => simp
  | succ a ih => rw [withFetched_succ, ih, Nat.succ_add, withFetched_succ]

theorem rReserveTurn_ok {s : State} {n : Nat} (hc : s.reader.win.length < s.params.winCap)
    (hl : s.psRcur < s.psWcur) : rReserveTurn n s = .ok () (s.withFetched 1) := by
  unfold rReserveTurn psReadNext
  rw [if_pos hc, if_pos hl]
  rfl

theorem rReserveLoop_ok {s : State} {n fuel : Nat} (hf : pagesNeeded n s.reader.rsvd ≤ fuel)
    (hc : s.reader.win.length + pagesNeeded n s.reader.rsvd ≤ s.params.winCap)
    (hl : s.psRcur + pagesNeeded n s.reader.rsvd ≤ s.psWcur) :
    rReserveLoop n fuel s = .ok () (s.withFetched (pagesNeeded n s.reader.rsvd)) := by
  induction fuel generalizing s with
  | zero =>
    have h0 : pagesNeeded n s.reader.rsvd = 0 := by omega
    rw [h0, rReserveLoop, if_neg (Nat.not_lt.mpr (pagesNeeded_eq_zero.mp h0)), withFetched_zero]
  | succ fuel ih =>
    rw [rReserveLoop]
    by_cases h : s.reader.rsvd < n
    · have hk := pagesNeeded_succ h
      rw [if_pos h, rReserveTurn_ok (by omega) (by omega), andThen_ok, ih,
        withFetched_withFetched]
      · congr 2
        rw [hk, Nat.add_comm]
        rfl
      all_goals simp [State.withFetched]
      all_goals omega
    · rw [if_neg h, pagesNeeded_eq_zero.mpr (Nat.not_lt.mp h), withFetched_zero]

theorem rReserveLoop_overflow {s : State} {n fuel : Nat} (hlen : s.reader.win.length ≤ s.params.winCap)
    (hc : s.params.winCap < s.reader.win.length + pagesNeeded n s.reader.rsvd)
    (hl : s.psRcur + (s.params.winCap - s.reader.win.length) ≤ s.psWcur)
    (hf : s.params.winCap - s.reader.win.length < fuel) :
    rReserveLoop n fuel s = .raise .winOverflow n := by
  induction fuel generalizing s with
  | zero => omega
  | succ fuel ih =>
    have h : s.reader.rsvd < n := by
      by_contra h0
      rw [pagesNeeded_eq_zero.mpr (Nat.not_lt.mp h0)] at hc
      omega
    rw [rReserveLoop, if_pos h]
    by_cases hcap : s.reader.win.length < s.params.winCap
    · have hk := pagesNeeded_succ h
      rw [rReserveTurn_ok hcap (by omega), andThen_ok]
      exact ih (s := s.withFetched 1) (by simp [State.withFetched]; omega)
        (by simp [State.withFetched]; omega) (by simp [State.withFetched]; omega)
        (by simp [State.withFetched]; omega)
    · rw [rReserveTurn, if_neg hcap]
      rfl

theorem rReserveLoop_pastWrite {s : State} {n fuel : Nat} (hp : s.psRcur ≤ s.psWcur)
    (hk : s.psWcur < s.psRcur + pagesNeeded n s.reader.rsvd)
    (hc : s.reader.win.length + (s.psWcur - s.psRcur) < s.params.winCap)
    (hf : s.psWcur - s.psRcur < fuel) :
    rReserveLoop n fuel s = .raise .readPastWrite s.psWcur := by
  induction fuel generalizing s with
  | zero => omega
  | succ fuel ih =>
    have h : s.reader.rsvd < n := by
      by_contra h0
      rw [pagesNeeded_eq_zero.mpr (Nat.not_lt.mp h0)] at hk
      omega
    rw [rReserveLoop, if_pos h]
    by_cases hl : s.psRcur < s.psWcur
    · have hk' := pagesNeeded_succ h
      rw [rReserveTurn_ok (by omega) hl, andThen_ok]
      exact ih (s := s.withFetched 1) (by simp [State.withFetched]; omega)
        (by simp [State.withFetched]; omega) (by simp [State.withFetched]; omega)
        (by simp [State.withFetched]; omega)
    · rw [rReserveTurn, if_pos (by omega), psReadNext, if_neg hl]
      simp only [andThen_raise]
      congr 1
      omega

end Sys2Proof.Machine
end

