-- ==== Sys2Proof/Laws/Refill.lean ====
section
/-! SUPPORT. The refill moves bits and keeps their order; two passes settle it (43_bit_reader.md R190 to
R192). -/

namespace Sys2Proof.Machine

/-- The reader's bits in stream order (43_bit_reader.md R190), over a memory. -/
def readerBits (m : Memory) (r : Reader) : List Bool :=
  (bitsOf 32 r.buf32.toNat).take r.bv ++ (bitsOf 64 r.buf64.toNat).take r.bv64 ++ r.win.flatMap (pageBits m)

theorem reservedBits_eq (s : State) : reservedBits s = readerBits s.mem s.reader := rfl

/-- The ranges of the reader's registers, with nothing below the valid bits (43_bit_reader.md R190). -/
structure Reader.Shape (r : Reader) : Prop where
  bv_le : r.bv ≤ 32
  bv64_le : r.bv64 ≤ 64
  buf32_low : ∀ i < 32 - r.bv, r.buf32.getLsbD i = false
  buf64_low : ∀ i < 64 - r.bv64, r.buf64.getLsbD i = false

theorem mod_two_pow_eq_zero {x k : Nat} : x % 2 ^ k = 0 ↔ ∀ i < k, x.testBit i = false := by
  constructor
  · intro h i hi
    have := Nat.testBit_mod_two_pow x k i
    rw [h] at this
    simpa [hi] using this.symm
  · intro h
    apply Nat.eq_of_testBit_eq
    intro i
    rw [Nat.testBit_mod_two_pow, Nat.zero_testBit]
    by_cases hi : i < k
    · simp [hi, h i hi]
    · simp [hi]

theorem low_zero_iff {w k : Nat} (x : BitVec w) : x.toNat % 2 ^ k = 0 ↔ ∀ i < k, x.getLsbD i = false := by
  rw [mod_two_pow_eq_zero]
  simp only [BitVec.testBit_toNat]

theorem Reader.Inv.shape {r : Reader} {cap fetched : Nat} (h : r.Inv cap fetched) : r.Shape where
  bv_le := by rw [h.bv_eq]; omega
  bv64_le := h.bv64_le
  buf32_low := (low_zero_iff r.buf32).mp h.buf32_low
  buf64_low := (low_zero_iff r.buf64).mp h.buf64_low

/-- A settled reader of the right shape and accounting is in normal form (43_bit_reader.md R192). -/
theorem Reader.Shape.inv {r : Reader} {cap fetched : Nat} (h : r.Shape) (hm : r.moves = false)
    (hr : r.rsvd = r.bv + r.bv64 + 64 * r.win.length) (hc : r.win.length ≤ cap)
    (hw : handlesBelow fetched r.win) : r.Inv cap fetched where
  bv_eq := by
    unfold Reader.moves at hm
    simp only [Bool.or_eq_false_iff, Bool.and_eq_false_imp, decide_eq_true_eq, Bool.not_eq_false',
      decide_eq_false_iff_not, List.isEmpty_iff] at hm
    have h32 := h.bv_le
    by_cases hb : r.bv < 32
    · have h64 : r.bv64 = 0 := by have := hm.2 hb; omega
      rw [hm.1 h64] at hr
      simp only [List.length_nil] at hr
      omega
    · omega
  bv64_le := h.bv64_le
  buf32_low := (low_zero_iff r.buf32).mpr h.buf32_low
  buf64_low := (low_zero_iff r.buf64).mpr h.buf64_low
  rsvd_eq := hr
  settled := hm
  win_le := hc
  win_ok := hw

/-! ## The top-up -/

/-- The look-ahead after a top-up: its valid bits, then the moved ones. -/
theorem topUp_buf32_bits {b32 : Half} {b64 : Page} {bv t : Nat} (hbt : bv + t ≤ 32)
    (hlow : ∀ i < 32 - bv, b32.getLsbD i = false) :
    (bitsOf 32 (b32 ||| ((b64 >>> (64 - t)).setWidth 32 <<< (32 - bv - t))).toNat).take (bv + t) =
      (bitsOf 32 b32.toNat).take bv ++ (bitsOf 64 b64.toNat).take t := by
  apply List.ext_getElem
  · simp
    omega
  · intro p h1 h2
    simp only [List.length_take, bitsOf_length, lt_min_iff] at h1
    rw [List.getElem_take, bitsOf_getElem, BitVec.testBit_toNat, List.getElem_append]
    split
    · rename_i hp
      simp only [List.length_take, bitsOf_length, lt_min_iff] at hp
      rw [List.getElem_take, bitsOf_getElem, BitVec.testBit_toNat]
      simp only [BitVec.getLsbD_or, BitVec.getLsbD_shiftLeft, BitVec.getLsbD_setWidth,
        BitVec.getLsbD_ushiftRight]
      rw [BitVec.getLsbD_of_ge b64 _ (by omega)]
      simp
    · rename_i hp
      simp only [List.length_take, bitsOf_length, lt_min_iff, not_and_or] at hp
      rw [List.getElem_take, bitsOf_getElem, BitVec.testBit_toNat]
      simp only [BitVec.getLsbD_or, BitVec.getLsbD_shiftLeft, BitVec.getLsbD_setWidth,
        BitVec.getLsbD_ushiftRight, List.length_take, bitsOf_length]
      rw [hlow _ (by omega)]
      have e : 64 - t + (32 - 1 - p - (32 - bv - t)) = 64 - 1 - (p - min bv 32) := by omega
      rw [e]
      have h3 : 32 - 1 - p < 32 := by omega
      have h4 : ¬ (32 - 1 - p < 32 - bv - t) := by omega
      have h5 : 32 - 1 - p - (32 - bv - t) < 32 := by omega
      simp [h3, h4, h5]

/-- The bits of a shifted look-ahead or holding register. -/
theorem shiftLeft_bits {w : Nat} {x : BitVec w} {n t : Nat} (htn : t ≤ n) (hn : n ≤ w) :
    (bitsOf w (x <<< t).toNat).take (n - t) = ((bitsOf w x.toNat).take n).drop t := by
  apply List.ext_getElem
  · simp
    omega
  · intro p h1 h2
    simp only [List.length_take, bitsOf_length, lt_min_iff] at h1
    rw [List.getElem_take, bitsOf_getElem, BitVec.testBit_toNat, List.getElem_drop, List.getElem_take,
      bitsOf_getElem, BitVec.testBit_toNat, BitVec.getLsbD_shiftLeft]
    have h3 : w - 1 - p < w := by omega
    have h4 : ¬ (w - 1 - p < t) := by omega
    simp only [h3, h4, decide_true, decide_false, Bool.not_false, Bool.true_and]
    congr 1
    omega

theorem refillTopUp_bits {r : Reader} (h : r.Shape) (m : Memory) :
    readerBits m (refillTopUp r) = readerBits m r := by
  unfold refillTopUp
  split
  · rename_i hc
    have h64 := h.bv64_le
    simp only [readerBits]
    rw [topUp_buf32_bits (by omega) h.buf32_low, shiftLeft_bits (by omega) h64]
    congr 1
    rw [List.append_assoc]
    congr 1
    rw [show (bitsOf 64 r.buf64.toNat).take (min (32 - r.bv) r.bv64) =
      ((bitsOf 64 r.buf64.toNat).take r.bv64).take (min (32 - r.bv) r.bv64) by
        rw [List.take_take]; congr 1; omega]
    exact List.take_append_drop _ _
  · rfl

theorem refillTopUp_shape {r : Reader} (h : r.Shape) : (refillTopUp r).Shape := by
  have h64 := h.bv64_le
  have h32 := h.bv_le
  unfold refillTopUp
  split
  · rename_i hc
    refine ⟨by simp only; omega, by simp only; omega, ?_, ?_⟩
    · intro i hi
      simp only at hi ⊢
      have hi' : i < 32 - r.bv := by omega
      rw [BitVec.getLsbD_or, h.buf32_low i hi', BitVec.getLsbD_shiftLeft]
      have : i < 32 - r.bv - min (32 - r.bv) r.bv64 := by omega
      simp [this]
    · intro i hi
      simp only at hi ⊢
      rw [BitVec.getLsbD_shiftLeft]
      by_cases ht : i < min (32 - r.bv) r.bv64
      · simp [ht]
      · rw [h.buf64_low _ (by omega)]
        simp
  · exact h

/-! ## A pass, and the refill -/

/-- The reader after the first half of a pass. -/
def Reader.fetched (r : Reader) (m : Memory) : Reader :=
  if r.bv64 = 0 then
    match r.win with
    | [] => r
    | h :: rest => { r with buf64 := streamWord m h, bv64 := 64, win := rest }
  else r

theorem refillFetch_ok {s : State} (hw : ∀ h ∈ s.reader.win, h < s.psWcur) :
    refillFetch s = .ok () { s with reader := s.reader.fetched s.mem } := by
  unfold refillFetch Reader.fetched
  by_cases h0 : s.reader.bv64 = 0
  · cases hwin : s.reader.win with
    | nil => simp [h0]
    | cons h rest =>
      have hlt : h < s.psWcur := hw h (by rw [hwin]; exact List.mem_cons_self)
      simp [h0, rTake, pageGet, hwin, hlt, streamWord]
  · simp [h0]

theorem fetched_bits {r : Reader} (m : Memory) : readerBits m (r.fetched m) = readerBits m r := by
  unfold Reader.fetched
  split
  · rename_i h0
    split
    · rfl
    · rename_i h rest hwin
      simp only [readerBits, hwin, h0, List.take_zero, List.append_nil, List.flatMap_cons]
      rw [List.take_of_length_le (l := bitsOf 64 _) (by simp), List.append_assoc]
      rfl
  · rfl

theorem fetched_shape {r : Reader} (h : r.Shape) (m : Memory) : (r.fetched m).Shape := by
  unfold Reader.fetched
  split
  · split
    · exact h
    · exact ⟨h.bv_le, le_refl _, h.buf32_low, fun i hi => absurd hi (by simp)⟩
  · exact h

theorem fetched_win (r : Reader) (m : Memory) : (r.fetched m).win <:+ r.win := by
  unfold Reader.fetched
  split
  · split
    · exact List.suffix_rfl
    · rename_i h rest hwin
      exact hwin ▸ List.suffix_cons _ _
  · exact List.suffix_rfl

theorem refillTopUp_win (r : Reader) : (refillTopUp r).win = r.win := by
  unfold refillTopUp
  split <;> rfl

theorem fetched_rsvd (r : Reader) (m : Memory) : (r.fetched m).rsvd = r.rsvd := by
  unfold Reader.fetched
  split
  · split <;> rfl
  · rfl

theorem refillTopUp_rsvd (r : Reader) : (refillTopUp r).rsvd = r.rsvd := by
  unfold refillTopUp
  split <;> rfl

/-- The reader after a pass. -/
def Reader.passed (r : Reader) (m : Memory) : Reader := refillTopUp (r.fetched m)

theorem refillPass_ok {s : State} (hw : ∀ h ∈ s.reader.win, h < s.psWcur) :
    refillPass s = .ok () { s with reader := s.reader.passed s.mem } := by
  unfold refillPass
  rw [refillFetch_ok hw]
  rfl

theorem passed_win (r : Reader) (m : Memory) : (r.passed m).win <:+ r.win := by
  rw [Reader.passed, refillTopUp_win]
  exact fetched_win r m

/-- The reader after the refill. -/
def Reader.refilled (r : Reader) (m : Memory) : Reader := (r.passed m).passed m

/-- What the refill can do (43_bit_reader.md R191): with handles of existing pages it ends normally, and only
the reader changes. -/
theorem rRefill_ok {s : State} (hw : ∀ h ∈ s.reader.win, h < s.psWcur) :
    rRefill s = .ok () { s with reader := s.reader.refilled s.mem } := by
  unfold rRefill
  rw [refillPass_ok hw, andThen_ok,
    refillPass_ok (s := { s with reader := s.reader.passed s.mem })
      fun h hh => hw h ((passed_win s.reader s.mem).mem hh)]
  rfl

/-- The refill keeps the bits and their order. -/
theorem refilled_bits {r : Reader} (h : r.Shape) (m : Memory) :
    readerBits m (r.refilled m) = readerBits m r := by
  rw [Reader.refilled, Reader.passed, Reader.passed,
    refillTopUp_bits (fetched_shape (refillTopUp_shape (fetched_shape h m)) m), fetched_bits,
    refillTopUp_bits (fetched_shape h m), fetched_bits]

theorem refilled_shape {r : Reader} (h : r.Shape) (m : Memory) : (r.refilled m).Shape :=
  refillTopUp_shape (fetched_shape (refillTopUp_shape (fetched_shape h m)) m)

@[simp] theorem refilled_rsvd (r : Reader) (m : Memory) : (r.refilled m).rsvd = r.rsvd := by
  simp [Reader.refilled, Reader.passed, refillTopUp_rsvd, fetched_rsvd]

theorem refilled_win (r : Reader) (m : Memory) : (r.refilled m).win <:+ r.win :=
  (passed_win _ m).trans (passed_win r m)

/-- After a pass the look-ahead is full or the holding register is empty. -/
theorem passed_full_or_empty {r : Reader} (h : r.Shape) (m : Memory) :
    (r.passed m).bv = 32 ∨ (r.passed m).bv64 = 0 := by
  have h' := fetched_shape h m
  have h1 := h'.bv_le
  unfold Reader.passed refillTopUp
  split
  · simp only
    omega
  · rename_i hn
    simp only [not_and_or, not_lt] at hn
    omega

/-- The refill settles: no further pass moves anything (43_bit_reader.md R191, R192). -/
theorem refilled_settled {r : Reader} (h : r.Shape) (m : Memory) : (r.refilled m).moves = false := by
  have hs : (r.passed m).Shape := refillTopUp_shape (fetched_shape h m)
  have h1 := hs.bv_le
  have hfe := passed_full_or_empty h m
  unfold Reader.refilled
  generalize hr : r.passed m = r1 at *
  unfold Reader.moves Reader.passed Reader.fetched
  by_cases h64 : r1.bv64 = 0
  · cases hwin : r1.win with
    | nil => simp [h64, refillTopUp, hwin]
    | cons a rest =>
      by_cases hb : r1.bv < 32
      · have : min (32 - r1.bv) 64 = 32 - r1.bv := by omega
        simp only [h64, if_true, refillTopUp, hb, Nat.zero_lt_succ, and_self, this]
        have h2 : ¬ (64 - (32 - r1.bv) = 0) := by omega
        have h3 : ¬ (r1.bv + (32 - r1.bv) < 32) := by omega
        simp [h2, h3]
      · simp [h64, refillTopUp, hb]
  · have hb : r1.bv = 32 := by omega
    simp [h64, refillTopUp, hb]

theorem passed_sum {r : Reader} (m : Memory)
    (hr : r.rsvd = r.bv + r.bv64 + 64 * r.win.length) :
    (r.passed m).rsvd = (r.passed m).bv + (r.passed m).bv64 + 64 * (r.passed m).win.length := by
  have hf : (r.fetched m).rsvd = (r.fetched m).bv + (r.fetched m).bv64 + 64 * (r.fetched m).win.length := by
    unfold Reader.fetched
    split
    · split
      · exact hr
      · rename_i h0 a rest hwin
        rw [hwin] at hr
        simp only [List.length_cons] at hr ⊢
        omega
    · exact hr
  unfold Reader.passed refillTopUp
  split
  · simp only
    omega
  · exact hf

theorem handlesBelow_suffix {n : Nat} {a b : List Nat} (h : handlesBelow n b) (hs : a <:+ b) :
    handlesBelow n a := ⟨h.1.sublist hs.sublist, fun x hx => h.2 x (hs.mem hx)⟩

/-- The refilled reader is in normal form (43_bit_reader.md R192). -/
theorem refilled_inv {r : Reader} {cap fetched : Nat} (h : r.Shape) (m : Memory)
    (hr : r.rsvd = r.bv + r.bv64 + 64 * r.win.length) (hw : handlesBelow fetched r.win)
    (hc : r.win.length ≤ cap) : (r.refilled m).Inv cap fetched :=
  (refilled_shape h m).inv (refilled_settled h m)
    (passed_sum m (passed_sum m hr))
    (le_trans (refilled_win r m).length_le hc) (handlesBelow_suffix hw (refilled_win r m))

/-- A reader in normal form holds exactly `R_RSVD` bits (10_state.md R34). -/
theorem readerBits_length {r : Reader} (h : r.Shape) (m : Memory)
    (hr : r.rsvd = r.bv + r.bv64 + 64 * r.win.length) : (readerBits m r).length = r.rsvd := by
  have h1 := h.bv_le
  have h2 := h.bv64_le
  have hf : ∀ l : List Nat, (l.flatMap (pageBits m)).length = 64 * l.length := by
    intro l
    induction l with
    | nil => rfl
    | cons a l ih => simp [List.flatMap_cons, ih, pageBits]; omega
  simp only [readerBits, List.length_append, List.length_take, bitsOf_length, hf]
  omega

end Sys2Proof.Machine
end

