-- ==== Sys2Proof/Laws/Reader.lean ====
section
/-! SUPPORT. What the reader's procedures can do, once each: reserve, peek, skip, read a field. -/

namespace Sys2Proof.Machine

/-! ## Consuming bits -/

theorem streamAhead_of_consumed {s t : State} {n : Nat} (h : Consumed s t n)
    (hn : n ≤ (reservedBits s).length) : streamAhead t = (streamAhead s).drop n := by
  have hu : unfetchedBits t = unfetchedBits s := by rw [h.others]; rfl
  rw [streamAhead, streamAhead, h.bits, hu, List.drop_append_of_le_length hn]

theorem Consumed.refl {s : State} (h : s.reader.Inv s.params.winCap s.psRcur) : Consumed s s 0 :=
  ⟨rfl, h, rfl, rfl⟩

theorem Consumed.trans {s t u : State} {a b : Nat} (h : Consumed s t a) (h' : Consumed t u b) :
    Consumed s u (a + b) := by
  have ht := h.others
  refine ⟨?_, ?_, ?_, ?_⟩
  · rw [h'.others, ht]
  · have := h'.reader
    rw [ht] at this
    exact this
  · have := h.rsvd
    have := h'.rsvd
    omega
  · rw [h'.bits, h.bits, List.drop_drop]

theorem dropBits_shape {r : Reader} {n : Nat} (h : r.Shape) (hn : n ≤ r.bv) : (dropBits n r).Shape := by
  have h32 := h.bv_le
  refine ⟨by simp only [dropBits]; omega, h.bv64_le, ?_, h.buf64_low⟩
  intro i hi
  simp only [dropBits] at hi ⊢
  rw [BitVec.getLsbD_shiftLeft]
  by_cases hin : i < n
  · simp [hin]
  · rw [h.buf32_low _ (by omega)]
    simp

theorem dropBits_bits {r : Reader} {n : Nat} (h : r.Shape) (hn : n ≤ r.bv) (m : Memory) :
    readerBits m (dropBits n r) = (readerBits m r).drop n := by
  have h32 := h.bv_le
  simp only [readerBits, dropBits, List.append_assoc]
  rw [shiftLeft_bits hn h32, List.drop_append_of_le_length]
  simp
  omega

/-- What `r_skip` can do (43_bit_reader.md R195): with the bits reserved it consumes them. -/
theorem rSkip_ok {s : State} {n : Nat} (hi : s.reader.Inv s.params.winCap s.psRcur)
    (hp : s.psRcur ≤ s.psWcur) (hn : n ≤ 32) (hr : n ≤ s.reader.rsvd) :
    ∃ t, rSkip n s = .ok () t ∧ Consumed s t n := by
  have hbv : n ≤ s.reader.bv := by rw [hi.bv_eq]; omega
  have hsh := dropBits_shape hi.shape hbv
  refine ⟨{ s with reader := (dropBits n s.reader).refilled s.mem }, ?_, rfl, ?_, ?_, ?_⟩
  · unfold rSkip
    rw [requireCount_eq_ok.mpr ⟨hn, rfl⟩, andThen_ok, requireReadable, if_pos hr, andThen_ok]
    exact rRefill_ok (s := { s with reader := dropBits n s.reader })
      fun h hh => lt_of_lt_of_le (hi.win_ok.2 h hh) hp
  · refine refilled_inv hsh s.mem ?_ hi.win_ok hi.win_le
    have := hi.rsvd_eq
    simp only [dropBits]
    omega
  · simp only [refilled_rsvd, dropBits]
    omega
  · rw [reservedBits_eq, reservedBits_eq]
    simp only
    rw [refilled_bits hsh, dropBits_bits hi.shape hbv]

/-- The reserved bits are as many as `R_RSVD` says (43_bit_reader.md R190). -/
theorem reservedBits_length {s : State} (hi : s.reader.Inv s.params.winCap s.psRcur) :
    (reservedBits s).length = s.reader.rsvd := readerBits_length hi.shape s.mem hi.rsvd_eq

/-- The top bits of the look-ahead are the next bits of the stream (43_bit_reader.md R194). -/
theorem topBits_eq {s : State} {n : Nat} (hi : s.reader.Inv s.params.winCap s.psRcur) (hn : n ≤ 32)
    (hr : n ≤ s.reader.rsvd) : topBits n s.reader = natOfBits ((reservedBits s).take n) := by
  have hbv : n ≤ s.reader.bv := by rw [hi.bv_eq]; omega
  have h32 := hi.shape.bv_le
  have h1 : (reservedBits s).take n = (bitsOf 32 s.reader.buf32.toNat).take n := by
    rw [reservedBits_eq, readerBits, List.append_assoc, List.take_append_of_le_length, List.take_take]
    · congr 1
      omega
    · simp
      omega
  have h2 : (bitsOf 32 s.reader.buf32.toNat).take n = bitsOf n (s.reader.buf32.toNat >>> (32 - n)) := by
    have := bitsOf_append n (32 - n) s.reader.buf32.toNat
    rw [show n + (32 - n) = 32 by omega] at this
    rw [this, List.take_left' (bitsOf_length _ _)]
  rw [h1, h2, natOfBits_bitsOf_lt, topBits, BitVec.toNat_ushiftRight]
  rw [Nat.shiftRight_eq_div_pow]
  have hlt := s.reader.buf32.isLt
  apply Nat.div_lt_of_lt_mul
  rw [← Nat.pow_add, show 32 - n + n = 32 by omega]
  exact hlt

/-- What `r_peek` can do (43_bit_reader.md R194): with the bits reserved it returns them. -/
theorem rPeek_ok {s : State} {n : Nat} (hi : s.reader.Inv s.params.winCap s.psRcur) (h1 : 1 ≤ n)
    (hn : n ≤ 32) (hr : n ≤ s.reader.rsvd) :
    rPeek n s = .ok (natOfBits ((reservedBits s).take n)) s := by
  unfold rPeek
  rw [requirePeekCount_eq_ok.mpr ⟨⟨h1, hn⟩, rfl⟩, andThen_ok, requireReadable, if_pos hr, andThen_ok,
    topBits_eq hi hn hr]

theorem rPeek_unreserved {s : State} {n : Nat} (h1 : 1 ≤ n) (hn : n ≤ 32) (hr : s.reader.rsvd < n) :
    rPeek n s = .raise .unreserved n := by
  unfold rPeek
  rw [requirePeekCount_eq_ok.mpr ⟨⟨h1, hn⟩, rfl⟩, andThen_ok, requireReadable,
    if_neg (Nat.not_le.mpr hr), andThen_raise]

theorem rSkip_unreserved {s : State} {n : Nat} (hn : n ≤ 32) (hr : s.reader.rsvd < n) :
    rSkip n s = .raise .unreserved n := by
  unfold rSkip
  rw [requireCount_eq_ok.mpr ⟨hn, rfl⟩, andThen_ok, requireReadable, if_neg (Nat.not_le.mpr hr),
    andThen_raise]

/-- A field of `n` bits, read and consumed; one of width 0 reads as 0 (44_golomb_rice.md R213). -/
theorem readField_ok {s : State} {n : Nat} (hi : s.reader.Inv s.params.winCap s.psRcur)
    (hp : s.psRcur ≤ s.psWcur) (hn : n ≤ 32) (hr : n ≤ s.reader.rsvd) :
    ∃ t, readField n s = .ok (natOfBits ((reservedBits s).take n)) t ∧ Consumed s t n := by
  unfold readField
  by_cases h0 : 0 < n
  · obtain ⟨t, ht, hc⟩ := rSkip_ok hi hp hn hr
    refine ⟨t, ?_, hc⟩
    rw [if_pos h0, rPeek_ok hi h0 hn hr, andThen_ok, ht, andThen_ok]
  · obtain rfl : n = 0 := by omega
    exact ⟨s, by simp [natOfBits], Consumed.refl hi⟩

theorem readField_unreserved {s : State} {n : Nat} (h1 : 1 ≤ n) (hn : n ≤ 32) (hr : s.reader.rsvd < n) :
    readField n s = .raise .unreserved n := by
  rw [readField, if_pos (show 0 < n from h1), rPeek_unreserved h1 hn hr, andThen_raise]

/-! ## The reserve -/

theorem handlesBelow_range' {a n : Nat} {win : List Nat} (h : handlesBelow a win) :
    handlesBelow (a + n) (win ++ List.range' a n) := by
  refine ⟨List.pairwise_append.mpr ⟨h.1, List.pairwise_lt_range', ?_⟩, ?_⟩
  · intro x hx y hy
    have := h.2 x hx
    simp only [List.mem_range'_1] at hy
    omega
  · intro x hx
    simp only [List.mem_append, List.mem_range'_1] at hx
    rcases hx with hx | hx
    · have := h.2 x hx
      omega
    · omega

/-- The unread pages split at a number of them. -/
theorem range'_split {a b n : Nat} (h : a + n ≤ b) :
    List.range' a (b - a) = List.range' a n ++ List.range' (a + n) (b - (a + n)) := by
  rw [List.range'_append_1]
  congr 1
  omega

/-- What the reader's reserve can do (41_reservation_window.md R153, R156): it fetches the pages it needs,
behind the bits already reserved, where the window and the store have them ... -/
theorem rReserve_ok {s : State} {n : Nat} (hi : s.reader.Inv s.params.winCap s.psRcur)
    (hc : s.reader.win.length + pagesNeeded n s.reader.rsvd ≤ s.params.winCap)
    (hl : s.psRcur + pagesNeeded n s.reader.rsvd ≤ s.psWcur) :
    ∃ t, rReserve n s = .ok () t ∧ ReadOn s t (pagesNeeded n s.reader.rsvd) (streamAhead s) ∧
      t.reader.rsvd = s.reader.rsvd + 64 * pagesNeeded n s.reader.rsvd ∧
      reservedBits t = reservedBits s ++
        (List.range' s.psRcur (pagesNeeded n s.reader.rsvd)).flatMap (pageBits s.mem) := by
  generalize hk : pagesNeeded n s.reader.rsvd = k at *
  have hw := handlesBelow_range' (n := k) hi.win_ok
  have hsh : (s.withFetched k).reader.Shape := ⟨hi.shape.1, hi.shape.2, hi.shape.3, hi.shape.4⟩
  have hbits : readerBits s.mem ((s.withFetched k).reader.refilled s.mem) =
      reservedBits s ++ (List.range' s.psRcur k).flatMap (pageBits s.mem) := by
    rw [refilled_bits hsh, reservedBits_eq]
    simp [readerBits, State.withFetched, List.flatMap_append, List.append_assoc]
  refine ⟨{ s.withFetched k with reader := (s.withFetched k).reader.refilled s.mem }, ?_, ⟨rfl, ?_, ?_⟩,
    ?_, ?_⟩
  · unfold rReserve
    rw [rReserveLoop_ok (by omega) (by omega) (by omega), andThen_ok, hk]
    exact rRefill_ok (s := s.withFetched k) fun h hh => lt_of_lt_of_le (hw.2 h hh) hl
  · refine refilled_inv hsh s.mem ?_ hw ?_
    · have := hi.rsvd_eq
      simp only [State.withFetched, List.length_append, List.length_range']
      omega
    · simp only [State.withFetched, List.length_append, List.length_range']
      exact hc
  · rw [streamAhead, reservedBits_eq]
    simp only [State.withFetched] at hbits ⊢
    rw [hbits, streamAhead, unfetchedBits, unfetchedBits, range'_split hl, List.flatMap_append,
      List.append_assoc]
  · simp only [refilled_rsvd]
    rfl
  · exact hbits

/-- ... overflows where the window has too little room and the store has enough pages to find that out ... -/
theorem rReserve_overflow {s : State} {n : Nat} (hlen : s.reader.win.length ≤ s.params.winCap)
    (hc : s.params.winCap < s.reader.win.length + pagesNeeded n s.reader.rsvd)
    (hl : s.psRcur + (s.params.winCap - s.reader.win.length) ≤ s.psWcur) :
    rReserve n s = .raise .winOverflow n := by
  rw [rReserve, rReserveLoop_overflow hlen hc hl (by omega), andThen_raise]

/-- ... and finds no page where the pages end first. -/
theorem rReserve_pastWrite {s : State} {n : Nat} (hp : s.psRcur ≤ s.psWcur)
    (hk : s.psWcur < s.psRcur + pagesNeeded n s.reader.rsvd)
    (hc : s.reader.win.length + (s.psWcur - s.psRcur) < s.params.winCap) :
    rReserve n s = .raise .readPastWrite s.psWcur := by
  rw [rReserve, rReserveLoop_pastWrite hp hk hc (by omega), andThen_raise]

/-- These three are all. -/
theorem rReserve_cases {s : State} {n : Nat} (hi : s.reader.Inv s.params.winCap s.psRcur)
    (hp : s.psRcur ≤ s.psWcur) :
    (∃ t, rReserve n s = .ok () t ∧ ReadOn s t (pagesNeeded n s.reader.rsvd) (streamAhead s) ∧
      t.reader.rsvd = s.reader.rsvd + 64 * pagesNeeded n s.reader.rsvd ∧
      s.psRcur + pagesNeeded n s.reader.rsvd ≤ s.psWcur) ∨
    rReserve n s = .raise .winOverflow n ∧
      s.params.winCap < s.reader.win.length + pagesNeeded n s.reader.rsvd ∨
    rReserve n s = .raise .readPastWrite s.psWcur ∧
      s.psWcur < s.psRcur + pagesNeeded n s.reader.rsvd := by
  have hlen := hi.win_le
  by_cases hc : s.reader.win.length + pagesNeeded n s.reader.rsvd ≤ s.params.winCap
  · by_cases hl : s.psRcur + pagesNeeded n s.reader.rsvd ≤ s.psWcur
    · obtain ⟨t, h1, h2, h3, -⟩ := rReserve_ok hi hc hl
      exact .inl ⟨t, h1, h2, h3, hl⟩
    · exact .inr (.inr ⟨rReserve_pastWrite hp (by omega) (by omega), by omega⟩)
  · by_cases hl : s.psRcur + (s.params.winCap - s.reader.win.length) ≤ s.psWcur
    · exact .inr (.inl ⟨rReserve_overflow hlen (by omega) hl, by omega⟩)
    · exact .inr (.inr ⟨rReserve_pastWrite hp (by omega) (by omega), by omega⟩)

end Sys2Proof.Machine
end

