-- ==== Sys2Proof/Laws/Writer.lean ====
section
/-! SUPPORT. What the writer's procedures can do, once each: put, align, flush; and how appended bits
compose. -/

namespace Sys2Proof.Machine

variable {cap pages : Nat}

/-! ## Bit strings of shifted and joined words -/

/-- The bits of a word with the low `n` bits of `v` shifted in. -/
theorem shiftIn_bits {b : Page} {v n k : Nat} (hv : v < 2 ^ n) (hk : k + n ≤ 64) :
    bitsOf (k + n) ((b <<< n) ||| BitVec.ofNat 64 v).toNat = bitsOf k b.toNat ++ bitsOf n v := by
  rw [bitsOf_append]
  congr 1
  · refine bitsOf_congr fun i hi => ?_
    rw [Nat.testBit_shiftRight, BitVec.testBit_toNat, BitVec.getLsbD_or, BitVec.getLsbD_shiftLeft,
      BitVec.getLsbD_ofNat, BitVec.testBit_toNat, Nat.testBit_lt_two_pow
        (lt_of_lt_of_le hv (Nat.pow_le_pow_right (by decide) (Nat.le_add_right n i)))]
    have h1 : n + i < 64 := by omega
    have h2 : ¬ (n + i < n) := by omega
    simp [h1]
  · refine bitsOf_congr fun i hi => ?_
    rw [BitVec.testBit_toNat, BitVec.getLsbD_or, BitVec.getLsbD_shiftLeft, BitVec.getLsbD_ofNat]
    have h1 : i < 64 := by omega
    simp [hi, h1]

/-- A word with `k` bits and `n` more shifted in stays below `2^(k + n)`. -/
theorem shiftIn_lt {b : Page} {v n k : Nat} (hv : v < 2 ^ n) (hb : b.toNat < 2 ^ k) :
    ((b <<< n) ||| BitVec.ofNat 64 v).toNat < 2 ^ (k + n) := by
  apply Nat.lt_pow_two_of_testBit
  intro i hi
  rw [BitVec.testBit_toNat, BitVec.getLsbD_or, BitVec.getLsbD_shiftLeft, BitVec.getLsbD_ofNat,
    ← BitVec.testBit_toNat, Nat.testBit_lt_two_pow (lt_of_lt_of_le hb (Nat.pow_le_pow_right (by decide)
      (show k ≤ i - n by omega))), Nat.testBit_lt_two_pow (lt_of_lt_of_le hv
      (Nat.pow_le_pow_right (by decide) (show n ≤ i by omega)))]
  simp

theorem bitsOf_take {a n v : Nat} (h : a ≤ n) : (bitsOf n v).take a = bitsOf a (v >>> (n - a)) := by
  have := bitsOf_append a (n - a) v
  rw [show a + (n - a) = n by omega] at this
  rw [this, List.take_left' (bitsOf_length _ _)]

theorem bitsOf_drop {a n v : Nat} (h : a ≤ n) : (bitsOf n v).drop a = bitsOf (n - a) v := by
  have := bitsOf_append a (n - a) v
  rw [show a + (n - a) = n by omega] at this
  rw [this, List.drop_left' (bitsOf_length _ _)]

@[simp] theorem pendingBits_length (w : Writer) : w.pendingBits.length = 64 - w.left := by
  simp [Writer.pendingBits]

/-! ## Commit -/

theorem pageBits_pageWrite_same {m : Memory} (h : m.wf = true) (p : Nat) (word : Page) :
    pageBits (pageWrite m p (bswap64 word)) p = bitsOf 64 word.toNat := by
  rw [pageBits, streamWord_pageWrite h]

theorem pageBits_pageWrite_other {m : Memory} (h : m.wf = true) {p q : Nat} (hq : q ≠ p) (v : Page) :
    pageBits (pageWrite m p v) q = pageBits m q := by
  rw [pageBits, pageBits, streamWord_pageWrite_other h hq]

/-- What `commit` can do (42_bit_writer.md R171): with a handle of a page waiting it stores the word there. -/
theorem commit_ok {s : State} {h : Nat} {rest : List Nat} (word : Page) (hw : s.writer.win = h :: rest)
    (hh : h < s.psWcur) : commit word s = .ok () { s with
      mem := pageWrite s.mem h (bswap64 word)
      writer := { s.writer with win := rest } } := by
  unfold commit
  rw [wTake_eq_ok.mpr ⟨rest, hw, rfl⟩, andThen_ok, pageSet_eq_ok]
  exact ⟨hh, rfl⟩

theorem memRead_pageWrite_frame {m : Memory} (h : m.wf = true) {p a : Nat} (ha : a / 8 ≠ p) (v : Page) :
    memRead (pageWrite m p v) a = memRead m a := by
  rw [memRead_pageWrite h, if_neg (by omega)]

/-! ## Put -/

theorem wordsCommitted_fits {w : Writer} {bits : List Bool} (hl : w.left ≤ 64) (h : bits.length ≤ w.left) :
    wordsCommitted w bits = 0 := by
  simp only [wordsCommitted, pendingBits_length]
  omega

theorem wordsCommitted_straddles {w : Writer} {bits : List Bool} (hl : w.left ≤ 64)
    (h : w.left < bits.length) (h' : bits.length ≤ w.left + 64) : wordsCommitted w bits = 1 := by
  simp only [wordsCommitted, pendingBits_length]
  omega

theorem appended_fits {s : State} {n v : Nat} {bits : List Bool} (hi : s.writer.Inv cap pages)
    (hwf : s.mem.wf = true) (hb : bits = bitsOf n v) (hv : v < 2 ^ n) (hr : n ≤ s.writer.rsvd)
    (h : n ≤ s.writer.left) : Appended s { s with writer := putFits n v s.writer } bits := by
  subst hb
  have hl := hi.left_le
  have hc : wordsCommitted s.writer (bitsOf n v) = 0 := wordsCommitted_fits hl (by simpa using h)
  have e : 64 - (s.writer.left - n) = 64 - s.writer.left + n := by omega
  refine ⟨rfl, ?_, ?_, ?_, ?_, ?_, ?_, ?_, ?_, hwf⟩
  · rw [hc]; exact Nat.zero_le _
  · rw [hc]; rfl
  · rw [hc]
    simp only [putFits, pendingBits_length, bitsOf_length]
    omega
  · rw [hc]
    simp only [Writer.pendingBits, putFits, Nat.mul_zero, List.drop_zero]
    rw [e, shiftIn_bits hv (by omega)]
  · simp only [putFits]
    rw [e]
    exact shiftIn_lt hv hi.buf_lt
  · simp only [putFits, bitsOf_length]
    omega
  · rw [hc]; intro i h hlt; exact absurd hlt (Nat.not_lt_zero i)
  · intro a _; rfl

theorem appended_straddles {s : State} {n v h : Nat} {rest : List Nat} (hi : s.writer.Inv cap pages)
    (hwf : s.mem.wf = true) (hv : v < 2 ^ n) (hn : n ≤ 32) (hr : n ≤ s.writer.rsvd)
    (hlt : s.writer.left < n) (hw : s.writer.win = h :: rest) :
    Appended s { s with
      mem := pageWrite s.mem h (bswap64 (straddleWord n v s.writer))
      writer := putStraddles n v s.writer.left { s.writer with win := rest } } (bitsOf n v) := by
  have hl := hi.left_le
  have hc : wordsCommitted s.writer (bitsOf n v) = 1 :=
    wordsCommitted_straddles hl (by simpa using hlt) (by simp; omega)
  have e : 64 - (64 - (n - s.writer.left)) = n - s.writer.left := by omega
  have hmod : v % 2 ^ (n - s.writer.left) < 2 ^ (n - s.writer.left) := Nat.mod_lt _ (Nat.two_pow_pos _)
  have hmod64 : v % 2 ^ (n - s.writer.left) < 2 ^ 64 :=
    lt_of_lt_of_le hmod (Nat.pow_le_pow_right (by decide) (by omega))
  have hall : ∀ k, (s.writer.pendingBits ++ bitsOf n v).drop (64 * (k + 1)) =
      (bitsOf n v).drop (s.writer.left + 64 * k) := by
    intro k
    rw [List.drop_append, List.drop_of_length_le (by simp; omega), List.nil_append, pendingBits_length]
    congr 1
    omega
  refine ⟨rfl, ?_, ?_, ?_, ?_, ?_, ?_, ?_, ?_, pageWrite_wf hwf _ _⟩
  · rw [hc, hw]; simp
  · rw [hc, hw]; rfl
  · rw [hc]
    simp only [putStraddles, pendingBits_length, bitsOf_length]
    omega
  · rw [hc, hall 0]
    simp only [Writer.pendingBits, putStraddles, Nat.mul_zero, Nat.add_zero]
    rw [e, BitVec.toNat_ofNat, Nat.mod_eq_of_lt hmod64, bitsOf_mod, bitsOf_drop (by omega)]
  · simp only [putStraddles]
    rw [e, BitVec.toNat_ofNat, Nat.mod_eq_of_lt hmod64]
    exact hmod
  · simp only [putStraddles, bitsOf_length]
    omega
  · rw [hc]
    intro i g hi1 hg
    obtain rfl : i = 0 := by omega
    rw [hw] at hg
    simp only [List.getElem?_cons_zero, Option.some.injEq] at hg
    subst hg
    rw [pageBits_pageWrite_same hwf]
    have hsh : v >>> (n - s.writer.left) < 2 ^ s.writer.left := by
      rw [Nat.shiftRight_eq_div_pow]
      apply Nat.div_lt_of_lt_mul
      rw [← Nat.pow_add, show n - s.writer.left + s.writer.left = n by omega]
      exact hv
    have := shiftIn_bits (b := s.writer.buf) (k := 64 - s.writer.left) hsh (by omega)
    rw [show 64 - s.writer.left + s.writer.left = 64 by omega] at this
    rw [straddleWord, this, Nat.mul_zero, List.drop_zero, List.take_append, List.take_of_length_le
      (by simp), pendingBits_length, show 64 - (64 - s.writer.left) = s.writer.left by omega,
      bitsOf_take (by omega)]
    rfl
  · rw [hc, hw]
    intro a ha
    simp only [List.take_succ_cons, List.take_zero, List.mem_singleton] at ha
    exact memRead_pageWrite_frame hwf ha _

/-- What `w_put` can do after its checks (42_bit_writer.md R172): with the bits reserved it appends them. -/
theorem putBits_ok {s : State} {n v : Nat} (hi : s.writer.Inv cap s.psWcur) (hwf : s.mem.wf = true)
    (hn : n ≤ 32) (hv : v < 2 ^ n) (hr : n ≤ s.writer.rsvd) :
    ∃ t, putBits n v s = .ok () t ∧ Appended s t (bitsOf n v) := by
  unfold putBits
  by_cases h : n ≤ s.writer.left
  · exact ⟨_, if_pos h, appended_fits hi hwf rfl hv hr h⟩
  · rw [if_neg h]
    cases hw : s.writer.win with
    | nil =>
      have h1 := hi.rsvd_eq
      have h2 := hi.left_le
      rw [hw] at h1
      simp only [List.length_nil] at h1
      omega
    | cons g rest =>
      have hg : g < s.psWcur := hi.win_ok.2 g (by rw [hw]; exact List.mem_cons_self)
      rw [commit_ok _ hw hg, andThen_ok]
      exact ⟨_, rfl, appended_straddles hi hwf hv hn hr (by omega) hw⟩

/-- What `w_put` can do (42_bit_writer.md R172): its three checks in order, then the bits appended. -/
theorem wPut_ok {s : State} {n v : Nat} (hi : s.writer.Inv cap s.psWcur) (hwf : s.mem.wf = true)
    (hn : n ≤ 32) (hv : v < 2 ^ n) (hr : n ≤ s.writer.rsvd) :
    ∃ t, wPut n v s = .ok () t ∧ Appended s t (bitsOf n v) := by
  obtain ⟨t, ht, ha⟩ := putBits_ok hi hwf hn hv hr
  refine ⟨t, ?_, ha⟩
  unfold wPut
  rw [requireCount_eq_ok.mpr ⟨hn, rfl⟩, andThen_ok, requireWidth_eq_ok.mpr ⟨hv, rfl⟩, andThen_ok,
    requireWritable, if_pos hr, andThen_ok, ht]

theorem wPut_unreserved {s : State} {n v : Nat} (hn : n ≤ 32) (hv : v < 2 ^ n) (hr : s.writer.rsvd < n) :
    wPut n v s = .raise .unreserved n := by
  unfold wPut
  rw [requireCount_eq_ok.mpr ⟨hn, rfl⟩, andThen_ok, requireWidth_eq_ok.mpr ⟨hv, rfl⟩, andThen_ok,
    requireWritable, if_neg (Nat.not_le.mpr hr), andThen_raise]

/-! ## Appended bits compose -/

theorem Appended.inv {s t : State} {bits : List Bool} (h : Appended s t bits)
    (hi : s.writer.Inv cap s.psWcur) : t.writer.Inv cap t.psWcur where
  left_le := by
    have h1 := h.left
    have h2 := hi.left_le
    simp only [wordsCommitted, pendingBits_length] at h1
    omega
  buf_lt := h.cleared
  rsvd_eq := by
    have h1 := h.left
    have h2 := hi.left_le
    have h3 := hi.rsvd_eq
    have h4 := h.rsvd
    have h5 := h.enough
    rw [h.win, List.length_drop]
    simp only [pendingBits_length] at h1
    omega
  win_le := by
    rw [h.win, List.length_drop]
    have := hi.win_le
    omega
  win_ok := by
    have hp : t.psWcur = s.psWcur := by rw [h.others]
    rw [h.win, hp]
    exact ⟨hi.win_ok.1.drop, fun x hx => hi.win_ok.2 x (List.mem_of_mem_drop hx)⟩

/-- Bits appended one after another are appended together (42_bit_writer.md R176). -/
theorem Appended.trans {s t u : State} {a b : List Bool} (h : Appended s t a) (h' : Appended t u b)
    (hi : s.writer.Inv cap s.psWcur) : Appended s u (a ++ b) := by
  have hl := hi.left_le
  have hleft := h.left
  have hleft' := h'.left
  have hti := h.inv hi
  have htl := hti.left_le
  have hen := h.enough
  have hen' := h'.enough
  have hlen : t.writer.pendingBits.length = 64 - t.writer.left := pendingBits_length _
  have hsplit : wordsCommitted s.writer (a ++ b) =
      wordsCommitted s.writer a + wordsCommitted t.writer b := by
    simp only [wordsCommitted, List.length_append, pendingBits_length] at hleft ⊢
    omega
  have h64 : 64 * wordsCommitted s.writer a ≤ (s.writer.pendingBits ++ a).length := by
    simp only [List.length_append, wordsCommitted]
    omega
  have hjoin : t.writer.pendingBits ++ b =
      (s.writer.pendingBits ++ (a ++ b)).drop (64 * wordsCommitted s.writer a) := by
    rw [h.buffered, ← List.append_assoc, List.drop_append_of_le_length h64]
  refine ⟨?_, ?_, ?_, ?_, ?_, h'.cleared, ?_, ?_, ?_, h'.mem_wf⟩
  · rw [h'.others, h.others]
  · rw [hsplit]
    rw [h.win, List.length_drop] at hen'
    omega
  · rw [hsplit, h'.win, h.win, List.drop_drop]
  · rw [hsplit, List.length_append]
    simp only [pendingBits_length] at hleft hleft' ⊢
    omega
  · rw [hsplit, h'.buffered, hjoin, List.drop_drop]
    congr 1
    omega
  · rw [List.length_append]
    have := h.rsvd
    have := h'.rsvd
    omega
  · rw [hsplit]
    intro i g hig hg
    by_cases hic : i < wordsCommitted s.writer a
    · have h1 := h.pages i g hic hg
      have hne : g ∉ t.writer.win.take (wordsCommitted t.writer b) := by
        intro hmem
        have hmem := List.mem_of_mem_take hmem
        rw [h.win] at hmem
        have hnd : s.writer.win.Nodup := hi.win_ok.1.imp (fun h => Nat.ne_of_lt h)
        obtain ⟨j, hj, hj'⟩ := List.getElem_of_mem hmem
        rw [List.getElem_drop] at hj'
        obtain ⟨hi', hg'⟩ := List.getElem?_eq_some_iff.mp hg
        have := (List.Nodup.getElem_inj_iff hnd).mp (hg'.trans hj'.symm)
        omega
      have h2 : pageBits u.mem g = pageBits t.mem g := by
        have hb : ∀ j < 8, memRead u.mem (8 * g + j) = memRead t.mem (8 * g + j) := fun j hj =>
          h'.frame _ (by rwa [show (8 * g + j) / 8 = g by omega])
        have h0 := hb 0 (by decide)
        simp only [Nat.add_zero] at h0
        simp only [pageBits, streamWord, pageRead, h0, hb 1 (by decide), hb 2 (by decide),
          hb 3 (by decide), hb 4 (by decide), hb 5 (by decide), hb 6 (by decide), hb 7 (by decide)]
      rw [h2, h1, ← List.append_assoc]
      have h3 : 64 * i + 64 ≤ (s.writer.pendingBits ++ a).length := by omega
      rw [List.drop_append_of_le_length (l₁ := s.writer.pendingBits ++ a) (by omega),
        List.take_append_of_le_length]
      rw [List.length_drop]
      omega
    · have h1 := h'.pages (i - wordsCommitted s.writer a) g (by omega) (by
        rw [h.win, List.getElem?_drop, ← hg]
        congr 1
        omega)
      rw [h1, hjoin, List.drop_drop]
      congr 2
      omega
  · rw [hsplit]
    intro x hx
    rw [List.take_add, List.mem_append, not_or] at hx
    rw [h'.frame x (by rw [h.win]; exact hx.2), h.frame x hx.1]

/-- Nothing appended: nothing done. -/
theorem Appended.nil {s : State} (hi : s.writer.Inv cap s.psWcur) (hwf : s.mem.wf = true) :
    Appended s s [] := by
  have hl := hi.left_le
  have hc : wordsCommitted s.writer [] = 0 := wordsCommitted_fits hl (Nat.zero_le _)
  refine ⟨rfl, ?_, ?_, ?_, ?_, hi.buf_lt, rfl, ?_, fun _ _ => rfl, hwf⟩
  · rw [hc]; exact Nat.zero_le _
  · rw [hc]; rfl
  · rw [hc]
    simp only [pendingBits_length, List.length_nil]
    omega
  · rw [hc]
    simp
  · rw [hc]; intro i h hlt; exact absurd hlt (Nat.not_lt_zero i)

/-- Pages reserved after the bits might as well have been reserved before them. -/
theorem Appended.withReserved {s t : State} {bits : List Bool} (h : Appended s t bits) (k : Nat) :
    Appended (s.withReserved k) (t.withReserved k) bits := by
  have hen := h.enough
  have hw : wordsCommitted (s.withReserved k).writer bits = wordsCommitted s.writer bits := rfl
  have hp : t.psWcur = s.psWcur := by rw [h.others]
  have htake : (s.withReserved k).writer.win.take (wordsCommitted s.writer bits) =
      s.writer.win.take (wordsCommitted s.writer bits) := List.take_append_of_le_length hen
  refine ⟨?_, ?_, ?_, ?_, ?_, h.cleared, ?_, ?_, ?_, h.mem_wf⟩
  · have := h.others
    simp only [State.withReserved]
    rw [this]
  · rw [hw]
    simp only [State.withReserved, List.length_append]
    omega
  · rw [hw]
    simp only [State.withReserved]
    rw [List.drop_append_of_le_length hen, h.win, hp]
  · exact h.left
  · exact h.buffered
  · have := h.rsvd
    simp only [State.withReserved]
    omega
  · intro i g hig hg
    refine h.pages i g hig ?_
    rw [← hg]
    simp only [State.withReserved]
    rw [List.getElem?_append_left (by rw [hw] at hig; omega)]
  · intro a ha
    rw [hw, htake] at ha
    exact h.frame a ha

/-- The invariant with pages reserved. -/
theorem Writer.Inv.withReserved {s : State} {cap : Nat} (hi : s.writer.Inv cap s.psWcur) (k : Nat)
    (hc : s.writer.win.length + k ≤ cap) :
    (s.withReserved k).writer.Inv cap (s.withReserved k).psWcur where
  left_le := hi.left_le
  buf_lt := hi.buf_lt
  rsvd_eq := by
    have := hi.rsvd_eq
    simp only [State.withReserved, List.length_append, List.length_range']
    omega
  win_le := by
    simp only [State.withReserved, List.length_append, List.length_range']
    exact hc
  win_ok := by
    refine ⟨List.pairwise_append.mpr ⟨hi.win_ok.1, List.pairwise_lt_range', ?_⟩, ?_⟩
    · intro x hx y hy
      have := hi.win_ok.2 x hx
      simp only [List.mem_range'_1] at hy
      omega
    · intro x hx
      simp only [State.withReserved, List.mem_append, List.mem_range'_1] at hx ⊢
      rcases hx with hx | hx
      · have := hi.win_ok.2 x hx
        omega
      · omega

/-! ## Align and flush -/

/-- What `W.ALIGN` does (42_bit_writer.md R174): it appends `W_LEFT mod 8` zero bits. -/
theorem alignWriter_appended {s : State} (hi : s.writer.Inv cap s.psWcur) (hwf : s.mem.wf = true) :
    Appended s { s with writer := alignWriter s.writer } (List.replicate (s.writer.left % 8) false) := by
  have hl := hi.left_le
  have hr := hi.rsvd_eq
  have he : alignWriter s.writer = putFits (s.writer.left % 8) 0 s.writer := by
    simp [alignWriter, putFits]
  rw [he]
  refine appended_fits hi hwf (bitsOf_zero _).symm (Nat.two_pow_pos _) ?_ (Nat.mod_le _ _)
  by_cases h0 : s.writer.win.length = 0
  · rw [h0] at hr
    omega
  · omega

/-- What `w_flush` can do (42_bit_writer.md R175): nothing where nothing is buffered, else the word padded
with zeros is committed. -/
theorem wFlush_ok {s : State} (hi : s.writer.Inv cap s.psWcur) (hwf : s.mem.wf = true) :
    ∃ t, wFlush s = .ok () t ∧ Flushed s t := by
  have hl := hi.left_le
  unfold wFlush Flushed
  by_cases h : s.writer.left < 64
  · rw [if_pos h]
    cases hw : s.writer.win with
    | nil =>
      have h1 := hi.rsvd_eq
      rw [hw] at h1
      simp only [List.length_nil] at h1
      omega
    | cons g rest =>
      have hg : g < s.psWcur := hi.win_ok.2 g (by rw [hw]; exact List.mem_cons_self)
      rw [commit_ok _ hw hg, andThen_ok]
      refine ⟨_, rfl, ?_⟩
      rw [if_neg (by omega)]
      refine ⟨?_, ⟨g, rest, hw, ?_, ?_⟩, pageWrite_wf hwf _ _⟩
      · rw [hw]
        rfl
      · simp only
        rw [pageBits_pageWrite_same hwf]
        have := shiftIn_bits (b := s.writer.buf) (v := 0) (n := s.writer.left) (k := 64 - s.writer.left)
          (Nat.two_pow_pos _) (by omega)
        rw [show 64 - s.writer.left + s.writer.left = 64 by omega, bitsOf_zero] at this
        simpa [Writer.pendingBits] using this
      · intro a ha
        exact memRead_pageWrite_frame hwf ha _
  · rw [if_neg h]
    exact ⟨s, rfl, by rw [if_pos (by omega)]⟩

/-- After `w_flush` the accumulator is empty and the accounting holds. -/
theorem Flushed.inv {s t : State} (h : Flushed s t) (hi : s.writer.Inv cap s.psWcur) :
    t.writer.Inv cap t.psWcur := by
  unfold Flushed at h
  split at h
  · rw [h]
    exact hi
  · rename_i hne
    obtain ⟨g, rest, hw, -, -⟩ := h.page
    rw [h.others]
    have h1 := hi.rsvd_eq
    have h2 := hi.win_le
    have h3 := hi.left_le
    have h4 := hi.win_ok
    rw [hw] at h1 h2 h4
    simp only [List.length_cons] at h1 h2
    refine ⟨by simp, by simp, ?_, ?_, ?_⟩
    · simp only [hw, List.tail_cons]
      omega
    · simp only [hw, List.tail_cons]
      omega
    · simp only [hw, List.tail_cons]
      exact ⟨(List.pairwise_cons.mp h4.1).2, fun x hx => h4.2 x (List.mem_cons_of_mem _ hx)⟩

end Sys2Proof.Machine
end

