-- ==== Sys2Proof/Laws/Golomb.lean ====
section
/-! SUPPORT. What writing and reading a Golomb-Rice code can do, once each (44_golomb_rice.md). -/

namespace Sys2Proof.Machine

variable {cap : Nat}

/-! ## Bit strings of ones -/

theorem bitsOf_ones (n : Nat) : bitsOf n (2 ^ n - 1) = List.replicate n true := by
  apply List.ext_getElem
  · simp
  · intro i h1 h2
    simp only [bitsOf_length] at h1
    rw [bitsOf_getElem, Nat.testBit_two_pow_sub_one, List.getElem_replicate]
    exact decide_eq_true (by omega)

/-- "q one-bits then a zero bit" in one put (44_golomb_rice.md R211). -/
theorem bitsOf_unary (q : Nat) : bitsOf (q + 1) (2 ^ (q + 1) - 2) = List.replicate q true ++ [false] := by
  rw [bitsOf_append]
  have h1 : (2 ^ (q + 1) - 2) >>> 1 = 2 ^ q - 1 := by
    rw [Nat.shiftRight_eq_div_pow, Nat.pow_succ]
    omega
  have h2 : bitsOf 1 (2 ^ (q + 1) - 2) = [false] := by
    simp only [bitsOf, List.cons.injEq, and_true]
    rw [Nat.testBit_zero, Nat.pow_succ]
    have := Nat.two_pow_pos q
    rw [decide_eq_false]
    omega
  rw [h1, h2, bitsOf_ones]

/-! ## Writing a code -/

/-- What `gr_write` can do (44_golomb_rice.md R211): with the code's bits reserved it appends the code. -/
theorem grWrite_ok {s : State} {x m : Nat} (hi : s.writer.Inv cap s.psWcur) (hwf : s.mem.wf = true)
    (hm : m ≤ 31) (hx : x < 2 ^ 32) (hr : lenGr x m ≤ s.writer.rsvd) :
    ∃ t, grWrite x m s = .ok () t ∧ Appended s t (grBits x m) := by
  unfold grWrite
  rw [requireRice_eq_ok.mpr ⟨hm, rfl⟩, andThen_ok]
  by_cases hq : 32 ≤ x >>> m
  · have hlen : lenGr x m = 64 := if_pos hq
    obtain ⟨t, ht, ha⟩ := wPut_ok (n := 32) (v := 0xFFFFFFFF) hi hwf (le_refl _) (by decide) (by omega)
    have hr1 := ha.rsvd
    rw [bitsOf_length] at hr1
    obtain ⟨u, hu, hb⟩ := wPut_ok (n := 32) (v := x) (ha.inv hi) ha.mem_wf (le_refl _) hx (by omega)
    refine ⟨u, ?_, ?_⟩
    · rw [if_pos hq, grWriteEscape, ht, andThen_ok, hu]
    · have := ha.trans hb hi
      rw [show (0xFFFFFFFF : Nat) = 2 ^ 32 - 1 by decide, bitsOf_ones] at this
      rw [grBits, if_neg (Nat.not_lt.mpr hq)]
      exact this
  · have hlen : lenGr x m = x >>> m + 1 + m := if_neg hq
    have h2 : 2 ^ (x >>> m + 1) - 2 < 2 ^ (x >>> m + 1) := by
      have := Nat.two_pow_pos (x >>> m + 1)
      omega
    obtain ⟨t, ht, ha⟩ := wPut_ok (n := x >>> m + 1) hi hwf (by omega) h2 (by omega)
    have hr1 := ha.rsvd
    rw [bitsOf_length] at hr1
    rw [bitsOf_unary] at ha
    rw [if_neg hq, grWritePlain, ht, andThen_ok, grBits, if_pos (Nat.not_le.mp hq)]
    by_cases hm0 : 0 < m
    · obtain ⟨u, hu, hb⟩ := wPut_ok (n := m) (v := x % 2 ^ m) (ha.inv hi) ha.mem_wf (by omega)
        (Nat.mod_lt _ (Nat.two_pow_pos m)) (by omega)
      exact ⟨u, by rw [if_pos hm0, hu], ha.trans hb hi⟩
    · obtain rfl : m = 0 := by omega
      exact ⟨t, by rw [if_neg hm0], by simpa [bitsOf] using ha⟩

/-! ## Leading ones -/

theorem bitsOf_natOfBits (bs : List Bool) : bitsOf bs.length (natOfBits bs) = bs := by
  induction bs with
  | nil => rfl
  | cons b bs ih =>
    have hlt : natOfBits bs < 2 ^ bs.length := by
      have h := natOfBits_bitsOf bs.length (natOfBits bs)
      rw [ih] at h
      exact Nat.mod_eq_iff_lt (Nat.two_pow_pos _).ne' |>.mp h.symm
    rw [List.length_cons, bitsOf, natOfBits_cons]
    congr 1
    · rw [Nat.testBit_eq_decide_div_mod_eq, Nat.mul_comm, Nat.mul_add_div (Nat.two_pow_pos _),
        Nat.div_eq_of_lt hlt]
      cases b <;> simp
    · rw [← bitsOf_mod, Nat.mul_comm, Nat.mul_add_mod, Nat.mod_eq_of_lt hlt, ih]

theorem natOfBits_lt (bs : List Bool) : natOfBits bs < 2 ^ bs.length := by
  have h := natOfBits_bitsOf bs.length (natOfBits bs)
  rw [bitsOf_natOfBits] at h
  exact Nat.mod_eq_iff_lt (Nat.two_pow_pos _).ne' |>.mp h.symm

theorem leadingOnes_le (n : Nat) (bs : List Bool) : leadingOnes n bs ≤ n := by
  induction n generalizing bs with
  | zero => simp [leadingOnes]
  | succ n ih =>
    match bs with
    | [] => simp [leadingOnes]
    | true :: bs => simpa [leadingOnes] using ih bs
    | false :: bs => simp [leadingOnes]

theorem leadingOnes_take (n : Nat) (bs : List Bool) : leadingOnes n (bs.take n) = leadingOnes n bs := by
  induction n generalizing bs with
  | zero => simp [leadingOnes]
  | succ n ih =>
    match bs with
    | [] => rfl
    | true :: bs => simp [leadingOnes, ih]
    | false :: bs => simp [leadingOnes]

/-- All ones up to `n` exactly where the first `n` bits are ones. -/
theorem leadingOnes_eq_iff (n : Nat) (bs : List Bool) :
    leadingOnes n bs = n ↔ bs.take n = List.replicate n true := by
  induction n generalizing bs with
  | zero => simp [leadingOnes]
  | succ n ih =>
    match bs with
    | [] => simp [leadingOnes]
    | true :: bs => simp [leadingOnes, ih, List.replicate_succ]
    | false :: bs => simp [leadingOnes, List.replicate_succ]

/-- "count leading one-bits (clz of the bit-complement)" (44_golomb_rice.md R213). -/
theorem leadingZeros_not (n : Nat) (hn : n ≤ 32) (w : Half) :
    leadingZeros n (~~~ w) = leadingOnes n (bitsOf n w.toNat) := by
  induction n with
  | zero => rfl
  | succ n ih =>
    rw [leadingZeros, bitsOf, BitVec.testBit_toNat, BitVec.getLsbD_not]
    have h : n < 32 := by omega
    cases hb : w.getLsbD n
    · simp [h, leadingOnes]
    · simp [leadingOnes, ih (by omega)]

theorem clz32_not (bs : List Bool) (h : bs.length = 32) :
    clz32 (~~~ BitVec.ofNat 32 (natOfBits bs)) = leadingOnes 32 bs := by
  rw [clz32, leadingZeros_not 32 (le_refl _), BitVec.toNat_ofNat, bitsOf_mod]
  have := bitsOf_natOfBits bs
  rw [h] at this
  rw [this]

/-- The escape marker is all ones. -/
theorem natOfBits_eq_escape (bs : List Bool) (h : bs.length = 32) :
    natOfBits bs = 0xFFFFFFFF ↔ leadingOnes 32 bs = 32 := by
  rw [leadingOnes_eq_iff, List.take_of_length_le (by omega)]
  constructor
  · intro he
    have h1 := bitsOf_natOfBits bs
    rw [h, he, show (0xFFFFFFFF : Nat) = 2 ^ 32 - 1 by decide, bitsOf_ones] at h1
    exact h1.symm
  · intro he
    have := natOfBits_bitsOf 32 (2 ^ 32 - 1)
    rw [bitsOf_ones, ← he] at this
    rw [this]
    decide

/-! ## Reading a code -/

/-- What `gr_read` can do (44_golomb_rice.md R213): with 32 bits reserved it reads the code that is there,
or finds bits of it missing. -/
theorem grRead_cases {s : State} {m : Nat} (hi : s.reader.Inv s.params.winCap s.psRcur)
    (hp : s.psRcur ≤ s.psWcur) (hm : m ≤ 31) (hr : 32 ≤ s.reader.rsvd) :
    (∀ x esc rest, decodeGr m (reservedBits s) = .ok (x, esc, rest) → ∃ t, grRead m s = .ok x t ∧
      Consumed s t ((reservedBits s).length - rest.length) ∧ reservedBits t = rest) ∧
    (∀ e, decodeGr m (reservedBits s) = .error e → grRead m s =
      .raise .unreserved (if leadingOnes 32 (reservedBits s) = 32 then 32 else m)) := by
  have hlen := reservedBits_length hi
  have ht32 : ((reservedBits s).take 32).length = 32 := by simp; omega
  have hread : grRead m s = if natOfBits ((reservedBits s).take 32) = 0xFFFFFFFF then grReadEscape s
      else grReadPlain (natOfBits ((reservedBits s).take 32)) m s := by
    unfold grRead
    rw [requireRice_eq_ok.mpr ⟨hm, rfl⟩, andThen_ok, rPeek_ok hi (by decide) (le_refl _) hr, andThen_ok]
  have hesc := natOfBits_eq_escape _ ht32
  have hclz := clz32_not _ ht32
  rw [leadingOnes_take] at hesc hclz
  unfold decodeGr
  simp only [Config.escQ]
  by_cases h : leadingOnes 32 (reservedBits s) = 32
  · obtain ⟨t, ht, hc⟩ := rSkip_ok hi hp (le_refl 32) hr
    have hp' : t.psRcur ≤ t.psWcur := by rw [hc.others]; exact hp
    have hi' : t.reader.Inv t.params.winCap t.psRcur := by
      have := hc.reader
      rw [hc.others]
      exact this
    have hc1 := hc.rsvd
    have hc2 := hc.bits
    rw [hread, if_pos (hesc.mpr h), grReadEscape, ht, andThen_ok]
    simp only [h, if_true]
    unfold takeNum
    rw [List.length_drop]
    by_cases h64 : 64 ≤ s.reader.rsvd
    · obtain ⟨u, hu, hd⟩ := rSkip_ok hi' hp' (le_refl 32) (by omega)
      rw [rPeek_ok hi' (by decide) (le_refl _) (by omega), andThen_ok, hu, andThen_ok, if_neg (by omega)]
      constructor
      · intro x esc rest he
        simp only [Except.ok.injEq, Prod.mk.injEq] at he
        obtain ⟨hx, -, hrest⟩ := he
        have hbits : reservedBits u = rest := by rw [hd.bits, hc2, hrest]
        refine ⟨u, by rw [hc2, hx], ?_, hbits⟩
        have := hc.trans hd
        rw [show (reservedBits s).length - rest.length = 32 + 32 by
          rw [← hrest, List.length_drop, List.length_drop]; omega]
        exact this
      · intro e he
        simp at he
    · rw [rPeek_unreserved (by decide) (le_refl _) (by omega), andThen_raise, if_pos (by omega)]
      exact ⟨fun x esc rest he => by simp at he, fun e _ => rfl⟩
  · have hq : leadingOnes 32 (reservedBits s) < 32 := by
      have := leadingOnes_le 32 (reservedBits s)
      omega
    generalize hqe : leadingOnes 32 (reservedBits s) = q at *
    obtain ⟨t, ht, hc⟩ := rSkip_ok (n := q + 1) hi hp (by omega) (by omega)
    have hp' : t.psRcur ≤ t.psWcur := by rw [hc.others]; exact hp
    have hi' : t.reader.Inv t.params.winCap t.psRcur := by
      have := hc.reader
      rw [hc.others]
      exact this
    have hc1 := hc.rsvd
    have hc2 := hc.bits
    rw [hread, if_neg fun he => h (hesc.mp he), grReadPlain]
    simp only [hclz, ht, andThen_ok]
    rw [if_neg h, if_neg (by omega), if_neg h]
    unfold takeNum
    rw [List.length_drop]
    by_cases hm' : q + 1 + m ≤ s.reader.rsvd
    · obtain ⟨u, hu, hd⟩ := readField_ok (n := m) hi' hp' (by omega) (by omega)
      rw [hu, andThen_ok, if_neg (by omega)]
      constructor
      · intro x esc rest he
        simp only [Except.ok.injEq, Prod.mk.injEq] at he
        obtain ⟨hx, -, hrest⟩ := he
        have hbits : reservedBits u = rest := by rw [hd.bits, hc2, hrest]
        refine ⟨u, by rw [hc2, hx], ?_, hbits⟩
        have := hc.trans hd
        rw [show (reservedBits s).length - rest.length = q + 1 + m by
          rw [← hrest, List.length_drop, List.length_drop]; omega]
        exact this
      · intro e he
        simp at he
    · rw [readField_unreserved (by omega) (by omega) (by omega), andThen_raise, if_pos (by omega)]
      exact ⟨fun x esc rest he => by simp at he, fun e _ => rfl⟩

end Sys2Proof.Machine
end

