-- ==== Sys2Proof/Laws/Encoder.lean ====
section
/-! SUPPORT. What the encoder's procedures can do, once each, and the adaptation of the parameters
(45_rlgr_encoder.md). -/

namespace Sys2Proof.Machine

/-! ## The adaptation -/

theorem width_eq (k : Nat) : width k = k / 8 := by
  rw [width, Nat.shiftRight_eq_div_pow]
  rfl

theorem width_le {k : Nat} (h : k ≤ 240) : width k ≤ 30 := by
  rw [width_eq]
  omega

@[simp] theorem adaptKFull_eq (p : Params) (k : Nat) : adaptKFull p k = min 240 (k + p.upK) :=
  clamp240_add k p.upK

theorem adaptKTerm_eq (p : Params) {k : Nat} (h : k ≤ 240) : adaptKTerm p k = k - p.downK :=
  clamp240_sub k p.downK h

theorem adaptKDirect_eq (p : Params) {k : Nat} (u : Nat) (h : k ≤ 240) : adaptKDirect p k u =
    if u = 0 then min 240 (k + p.upKDirect) else k - p.downKDirect := by
  unfold adaptKDirect
  rw [clamp240_add, clamp240_sub _ _ h]

/-- The clamps (45_rlgr_encoder.md R238). -/
theorem adaptKr_le (p : Params) {kr : Nat} (u : Nat) (h : kr ≤ 240) : adaptKr p kr u ≤ 240 := by
  unfold adaptKr
  simp only
  split
  · exact clamp240_le _
  · split
    · exact clamp240_le _
    · exact h

/-! ## The coder's reserves -/

/-- The conditions under which the writer's procedures run, for a coder's reserve. -/
structure State.CanWrite (s : State) : Prop where
  cap : 4 ≤ s.params.winCap
  writer : s.writer.Inv s.params.winCap s.psWcur
  wf : s.mem.wf = true
  below : memBelow (8 * s.psWcur) s.mem = true

theorem State.Inv.cap_ge {s : State} (h : s.Inv) : 4 ≤ s.params.winCap := by
  have := h.params_legal
  simp only [Params.legal, Bool.and_eq_true, decide_eq_true_eq] at this
  omega

theorem State.Ready.canWrite {s : State} (h : s.Ready) : s.CanWrite :=
  ⟨h.inv.cap_ge, (h.inv.live h.no_fault).writer, h.inv.mem_wf, (h.inv.live h.no_fault).pages.mem_below⟩

/-- No coder's reserve overflows the window (41_reservation_window.md R159). -/
theorem reserve64_fits {s : State} (h : s.CanWrite) {n : Nat} (hn : n ≤ 64) :
    s.writer.win.length + pagesNeeded n s.writer.rsvd ≤ s.params.winCap := by
  have h1 := h.writer.rsvd_eq
  have h2 := h.writer.win_le
  have h3 := h.writer.left_le
  have h4 := h.cap
  unfold pagesNeeded
  omega

/-- A coder's reserve with room in the store. -/
theorem wReserve64_ok {s : State} (h : s.CanWrite) {n : Nat} (hn : n ≤ 64)
    (hl : s.roomFor (pagesNeeded n s.writer.rsvd)) :
    wReserve n s = .ok () (s.withReserved (pagesNeeded n s.writer.rsvd)) ∧
      (s.withReserved (pagesNeeded n s.writer.rsvd)).CanWrite :=
  ⟨wReserve_ok h.wf h.below (reserve64_fits h hn) hl,
    h.cap, h.writer.withReserved _ (reserve64_fits h hn), h.wf, memBelow_withReserved h.below _⟩

/-- A coder's reserve without room in the store. -/
theorem wReserve64_full {s : State} (h : s.CanWrite) {n : Nat} (hn : n ≤ 64)
    (hp : s.psWcur ≤ s.params.pageLimit) (hl : ¬ s.roomFor (pagesNeeded n s.writer.rsvd)) :
    wReserve n s = .raise .storeFull s.params.pageLimit := by
  unfold State.roomFor at hl
  have := reserve64_fits h hn
  exact wReserve_full h.wf h.below hp (by omega) (by omega)

/-- The bytes written by the writer stay inside the store. -/
theorem Appended.below {s t : State} {bits : List Bool} (h : Appended s t bits)
    (hi : s.writer.Inv s.params.winCap s.psWcur) (hb : memBelow (8 * s.psWcur) s.mem = true) :
    memBelow (8 * t.psWcur) t.mem = true := by
  have hp : t.psWcur = s.psWcur := by rw [h.others]
  rw [hp]
  have hread : ∀ a, 8 * s.psWcur ≤ a → memRead t.mem a = memDefault := by
    intro a ha
    rw [h.frame a, memRead_of_memBelow hb ha]
    intro hmem
    have := hi.win_ok.2 _ (List.mem_of_mem_take hmem)
    omega
  exact memBelow_of_read h.mem_wf hread

theorem Appended.canWrite {s t : State} {bits : List Bool} (h : Appended s t bits) (hs : s.CanWrite) :
    t.CanWrite := by
  have hp : t.params = s.params := by rw [h.others]
  exact ⟨by rw [hp]; exact hs.cap, by rw [hp]; exact h.inv hs.writer, h.mem_wf,
    h.below hs.writer hs.below⟩

/-- A field of `n` bits, written where `n > 0` (45_rlgr_encoder.md R235). -/
theorem writeField_ok {s : State} {n v : Nat} (h : s.CanWrite) (hn : n ≤ 32) (hv : v < 2 ^ n)
    (hr : n ≤ s.writer.rsvd) : ∃ t, writeField n v s = .ok () t ∧ Appended s t (bitsOf n v) := by
  unfold writeField
  by_cases h0 : 0 < n
  · rw [if_pos h0]
    exact wPut_ok h.writer h.wf hn hv hr
  · obtain rfl : n = 0 := by omega
    exact ⟨s, rfl, Appended.nil h.writer h.wf⟩

/-- What `put_terminator` can do (45_rlgr_encoder.md R235, R237): the flag 1 and the run length, behind
their reserve. -/
theorem putTerminator_ok {s : State} (h : s.CanWrite) (he : s.enc.Inv)
    (hl : s.roomFor (pagesNeeded (1 + width s.enc.k) s.writer.rsvd)) :
    ∃ t, putTerminator s = .ok () t ∧
      Appended (s.withReserved (pagesNeeded (1 + width s.enc.k) s.writer.rsvd)) t
        (true :: bitsOf (width s.enc.k) s.enc.rl) := by
  have hw := width_le he.k_le
  obtain ⟨h1, h2⟩ := wReserve64_ok h (n := 1 + width s.enc.k) (by omega) hl
  have hr : 1 + width s.enc.k ≤
      (s.withReserved (pagesNeeded (1 + width s.enc.k) s.writer.rsvd)).writer.rsvd :=
    le_pagesNeeded _ _
  obtain ⟨t, ht, ha⟩ := wPut_ok (n := 1) (v := 1) h2.writer h2.wf (by decide) (by decide) (by omega)
  have hr1 := ha.rsvd
  rw [bitsOf_length] at hr1
  have henc : t.enc = s.enc := by rw [ha.others]; rfl
  obtain ⟨u, hu, hb⟩ := writeField_ok (n := width s.enc.k) (v := s.enc.rl) (ha.canWrite h2) (by omega)
    he.rl_lt (by omega)
  refine ⟨u, ?_, ha.trans hb h2.writer⟩
  unfold putTerminator
  rw [h1, andThen_ok, ht, andThen_ok, henc, hu]

/-! ## The three cases of `ENC.PUT` -/

/-- Direct state (45_rlgr_encoder.md R233). -/
theorem putDirect_ok {s : State} {u : Nat} (h : s.CanWrite) (he : s.enc.Inv) (hu : u < 2 ^ 32)
    (hl : s.roomFor (pagesNeeded 64 s.writer.rsvd)) :
    ∃ t, Appended (s.withReserved (pagesNeeded 64 s.writer.rsvd)) t (grBits u (width s.enc.kr)) ∧
      putDirect u s = .ok () { t with
        enc := { s.enc with
          kr := adaptKr s.params s.enc.kr u
          k := adaptKDirect s.params s.enc.k u } } := by
  have hw := width_le he.kr_le
  obtain ⟨h1, h2⟩ := wReserve64_ok h (n := 64) (le_refl _) hl
  have hr : 64 ≤ (s.withReserved (pagesNeeded 64 s.writer.rsvd)).writer.rsvd := le_pagesNeeded _ _
  have hlen : lenGr u (width s.enc.kr) ≤ 64 := lenGr_le _ (by omega)
  obtain ⟨t, ht, ha⟩ := grWrite_ok (m := width s.enc.kr) h2.writer h2.wf (by omega) hu (by omega)
  have henc : t.enc = s.enc := by rw [ha.others]; rfl
  have hpar : t.params = s.params := by rw [ha.others]; rfl
  refine ⟨t, ha, ?_⟩
  have ht' : grWrite u (width (s.withReserved (pagesNeeded 64 s.writer.rsvd)).enc.kr)
      (s.withReserved (pagesNeeded 64 s.writer.rsvd)) = .ok () t := ht
  unfold putDirect
  rw [h1, andThen_ok, ht', andThen_ok, henc, hpar]

/-- Run state, a zero that does not fill the window (45_rlgr_encoder.md R234). -/
theorem putRunZero_counts {s : State} (h : s.enc.rl + 1 ≠ 2 ^ width s.enc.k) :
    putRunZero s = .ok () { s with enc := { s.enc with rl := s.enc.rl + 1 } } := if_neg h

/-- Run state, the zero that fills the window (45_rlgr_encoder.md R234). -/
theorem putRunZero_full {s : State} (h : s.CanWrite) (he : s.enc.Inv)
    (hf : s.enc.rl + 1 = 2 ^ width s.enc.k)
    (hl : s.roomFor (pagesNeeded (1 + width s.enc.k) s.writer.rsvd)) :
    ∃ t, Appended (s.withReserved (pagesNeeded (1 + width s.enc.k) s.writer.rsvd)) t [false] ∧
      putRunZero s = .ok () { t with
        enc := { s.enc with rl := 0, k := adaptKFull s.params s.enc.k } } := by
  have hw := width_le he.k_le
  obtain ⟨h1, h2⟩ := wReserve64_ok h (n := 1 + width s.enc.k) (by omega) hl
  have hr : 1 + width s.enc.k ≤
      (s.withReserved (pagesNeeded (1 + width s.enc.k) s.writer.rsvd)).writer.rsvd :=
    le_pagesNeeded _ _
  obtain ⟨t, ht, ha⟩ := wPut_ok (n := 1) (v := 0) h2.writer h2.wf (by decide) (by decide) (by omega)
  have henc : t.enc = s.enc := by rw [ha.others]; rfl
  have hpar : t.params = s.params := by rw [ha.others]; rfl
  refine ⟨t, ha, ?_⟩
  unfold putRunZero
  rw [if_pos hf, h1, andThen_ok, ht, andThen_ok, henc, hpar]

/-- Run state, a non-zero symbol (45_rlgr_encoder.md R235). -/
theorem putRunNonzero_ok {s : State} {u : Nat} (h : s.CanWrite) (he : s.enc.Inv) (hu : u < 2 ^ 32)
    (hl : s.roomFor (termPages (width s.enc.k) s.writer.rsvd)) :
    ∃ t, Appended (s.withReserved (termPages (width s.enc.k) s.writer.rsvd)) t
        (true :: (bitsOf (width s.enc.k) s.enc.rl ++ grBits (u - 1) (width s.enc.kr))) ∧
      putRunNonzero u s = .ok () { t with
        enc := { s.enc with
          kr := adaptKr s.params s.enc.kr u
          rl := 0
          k := adaptKTerm s.params s.enc.k } } := by
  have hw := width_le he.kr_le
  unfold State.roomFor termPages at hl
  simp only at hl
  obtain ⟨a, ha, hA⟩ := putTerminator_ok h he (by unfold State.roomFor; omega)
  have hr := hA.rsvd
  have hcw : (s.withReserved (pagesNeeded (1 + width s.enc.k) s.writer.rsvd)).CanWrite :=
    (wReserve64_ok h (n := 1 + width s.enc.k) (by have := width_le he.k_le; omega)
      (by unfold State.roomFor; omega)).2
  have hca := hA.canWrite hcw
  have hrs : a.writer.rsvd = s.writer.rsvd + 64 * pagesNeeded (1 + width s.enc.k) s.writer.rsvd -
      (1 + width s.enc.k) := by
    simp only [State.withReserved, List.length_cons, bitsOf_length] at hr
    omega
  have hpw : a.psWcur = s.psWcur + pagesNeeded (1 + width s.enc.k) s.writer.rsvd := by
    rw [hA.others]; rfl
  have hpar : a.params = s.params := by rw [hA.others]; rfl
  have henc : a.enc = s.enc := by rw [hA.others]; rfl
  obtain ⟨h1, h2⟩ := wReserve64_ok hca (n := 64) (le_refl _)
    (by unfold State.roomFor; rw [hpw, hpar, hrs]; omega)
  have hr64 : 64 ≤ (a.withReserved (pagesNeeded 64 a.writer.rsvd)).writer.rsvd := le_pagesNeeded _ _
  have hlen : lenGr (u - 1) (width s.enc.kr) ≤ 64 := lenGr_le _ (by omega)
  obtain ⟨t, ht, hB⟩ := grWrite_ok (x := u - 1) (m := width s.enc.kr) h2.writer h2.wf (by omega) (by omega)
    (by omega)
  have hA' := hA.withReserved (pagesNeeded 64 a.writer.rsvd)
  rw [withReserved_withReserved, hrs] at hA'
  rw [hrs] at hB ht h1
  refine ⟨t, ?_, ?_⟩
  · have hI : ((s.withReserved (termPages (width s.enc.k) s.writer.rsvd))).writer.Inv s.params.winCap
        (s.withReserved (termPages (width s.enc.k) s.writer.rsvd)).psWcur := by
      refine h.writer.withReserved _ ?_
      have h6 := h.writer.rsvd_eq
      have h7 := h.writer.left_le
      have h8 := h.cap
      have h9 := h.writer.win_le
      have h10 := width_le he.k_le
      unfold termPages pagesNeeded
      simp only
      omega
    exact hA'.trans hB hI
  · have e : t.enc = s.enc := by rw [hB.others]; exact henc
    have e' : t.params = s.params := by rw [hB.others]; exact hpar
    have ht' : grWrite (u - 1) (width (a.withReserved (pagesNeeded 64 (s.writer.rsvd +
        64 * pagesNeeded (1 + width s.enc.k) s.writer.rsvd - (1 + width s.enc.k)))).enc.kr)
        (a.withReserved (pagesNeeded 64 (s.writer.rsvd +
        64 * pagesNeeded (1 + width s.enc.k) s.writer.rsvd - (1 + width s.enc.k)))) = .ok () t := by
      have : (a.withReserved (pagesNeeded 64 (s.writer.rsvd +
        64 * pagesNeeded (1 + width s.enc.k) s.writer.rsvd - (1 + width s.enc.k)))).enc.kr = s.enc.kr := by
        rw [← henc]; rfl
      rw [this]
      exact ht
    unfold putRunNonzero
    rw [ha, andThen_ok, h1, andThen_ok, ht', andThen_ok, e, e']

/-! ## `ENC.PUT` and `ENC.FLUSH` -/

theorem requireEncoder_ok {s : State} (h : s.enc.act = true) : requireEncoder s = .ok () s := if_pos h

theorem requireEncoder_raise {s : State} (h : s.enc.act = false) :
    requireEncoder s = .raise .coderState 0 := by
  simp [requireEncoder, h]

/-- The three cases of `ENC.PUT` (45_rlgr_encoder.md R232). -/
theorem encPut_eq {s : State} {u : Nat} (h : s.enc.act = true) : encPut u s =
    if s.enc.k = 0 then putDirect u s else if u = 0 then putRunZero s else putRunNonzero u s := by
  rw [encPut, requireEncoder_ok h, andThen_ok]

/-- The end of a stream with no run in progress (45_rlgr_encoder.md R237). -/
theorem flushRun_none {s : State} (h : s.enc.rl = 0) : flushRun s = .ok () s := by
  simp [flushRun, h]

/-- The terminator of a run in progress (45_rlgr_encoder.md R237). -/
theorem flushRun_ok {s : State} (h : s.CanWrite) (he : s.enc.Inv) (hrl : 0 < s.enc.rl)
    (hl : s.roomFor (pagesNeeded (1 + width s.enc.k) s.writer.rsvd)) :
    ∃ t, Appended (s.withReserved (pagesNeeded (1 + width s.enc.k) s.writer.rsvd)) t
        (true :: bitsOf (width s.enc.k) s.enc.rl) ∧
      flushRun s = .ok () { t with enc := { s.enc with rl := 0 } } := by
  obtain ⟨t, ht, ha⟩ := putTerminator_ok h he hl
  have henc : t.enc = s.enc := by rw [ha.others]; rfl
  refine ⟨t, ha, ?_⟩
  rw [flushRun, if_pos hrl, ht, andThen_ok, henc]

end Sys2Proof.Machine
end

