-- ==== Sys2Proof/Laws/Decoder.lean ====
section
/-! SUPPORT. What the decoder's procedures can do, over the stream ahead of the reader (46_rlgr_decoder.md). -/

namespace Sys2Proof.Machine

/-! ## Reading on -/

/-- The conditions under which the reader's procedures run, for a coder's reserve. -/
structure State.CanRead (s : State) : Prop where
  cap : 4 ≤ s.params.winCap
  reader : s.reader.Inv s.params.winCap s.psRcur
  rcur : s.psRcur ≤ s.psWcur

theorem State.Ready.canRead {s : State} (h : s.Ready) : s.CanRead :=
  ⟨h.inv.cap_ge, (h.inv.live h.no_fault).reader, (h.inv.live h.no_fault).pages.rcur_le⟩

theorem ReadOn.params {s t : State} {n : Nat} {rest : List Bool} (h : ReadOn s t n rest) :
    t.params = s.params := by rw [h.others]

theorem ReadOn.dec {s t : State} {n : Nat} {rest : List Bool} (h : ReadOn s t n rest) :
    t.dec = s.dec := by rw [h.others]

theorem ReadOn.canRead {s t : State} {n : Nat} {rest : List Bool} (h : ReadOn s t n rest)
    (hs : s.CanRead) (hn : s.psRcur + n ≤ s.psWcur) : t.CanRead := by
  have hr := h.reader
  rw [h.others]
  exact ⟨hs.cap, hr, hn⟩

theorem ReadOn.trans {s t u : State} {a b : Nat} {x y : List Bool} (h : ReadOn s t a x)
    (h' : ReadOn t u b y) : ReadOn s u (a + b) y := by
  refine ⟨?_, ?_, h'.ahead⟩
  · rw [h'.others, h.others]
    simp only [Nat.add_assoc]
  · have := h'.reader
    rw [h.others] at this
    simp only [Nat.add_assoc] at this
    exact this

theorem Consumed.readOn {s t : State} {n : Nat} (h : Consumed s t n) (hn : n ≤ (reservedBits s).length) :
    ReadOn s t 0 ((streamAhead s).drop n) :=
  ⟨h.others, h.reader, streamAhead_of_consumed h hn⟩

/-- The next reserved bits are the next bits of the stream. -/
theorem take_reservedBits {s : State} (h : s.CanRead) {n : Nat} (hn : n ≤ s.reader.rsvd) :
    (reservedBits s).take n = (streamAhead s).take n := by
  rw [streamAhead, List.take_append_of_le_length]
  rw [reservedBits_length h.reader]
  exact hn

/-- No coder's reserve overflows the window (41_reservation_window.md R159): it fetches the page it needs ... -/
theorem rReserve64_ok {s : State} (h : s.CanRead) {n : Nat} (hn : n ≤ 64)
    (hl : s.psRcur + pagesNeeded n s.reader.rsvd ≤ s.psWcur) :
    ∃ t, rReserve n s = .ok () t ∧ ReadOn s t (pagesNeeded n s.reader.rsvd) (streamAhead s) ∧
      t.reader.rsvd = s.reader.rsvd + 64 * pagesNeeded n s.reader.rsvd ∧ n ≤ t.reader.rsvd ∧
      t.CanRead := by
  have h1 := h.reader.rsvd_eq
  have h2 := h.reader.win_le
  have h4 := h.cap
  have hfit : s.reader.win.length + pagesNeeded n s.reader.rsvd ≤ s.params.winCap := by
    unfold pagesNeeded
    omega
  obtain ⟨t, ht, hr, hv, -⟩ := rReserve_ok h.reader hfit hl
  have := le_pagesNeeded n s.reader.rsvd
  exact ⟨t, ht, hr, hv, by omega, hr.canRead h hl⟩

/-- ... or finds no page beyond the write cursor. -/
theorem rReserve64_pastWrite {s : State} (h : s.CanRead) {n : Nat} (hn : n ≤ 64)
    (hl : s.psWcur < s.psRcur + pagesNeeded n s.reader.rsvd) :
    rReserve n s = .raise .readPastWrite s.psWcur := by
  have h1 := h.reader.rsvd_eq
  have h2 := h.reader.win_le
  have h3 := h.rcur
  have h4 := h.cap
  refine rReserve_pastWrite h3 hl ?_
  unfold pagesNeeded at hl
  omega

/-- A field of the stream, read behind its reserve. -/
theorem readField_stream {s : State} (h : s.CanRead) {n : Nat} (hn : n ≤ 32) (hr : n ≤ s.reader.rsvd) :
    ∃ t, readField n s = .ok (natOfBits ((streamAhead s).take n)) t ∧
      ReadOn s t 0 ((streamAhead s).drop n) ∧ t.reader.rsvd + n = s.reader.rsvd ∧ t.CanRead := by
  obtain ⟨t, ht, hc⟩ := readField_ok h.reader h.rcur hn hr
  have hro := hc.readOn (by rw [reservedBits_length h.reader]; exact hr)
  exact ⟨t, by rw [ht, take_reservedBits h hr], hro, hc.rsvd, hro.canRead h h.rcur⟩

/-! ## A code of the stream -/

theorem leadingOnes_append {n : Nat} {bs : List Bool} (h : n ≤ bs.length) (more : List Bool) :
    leadingOnes n (bs ++ more) = leadingOnes n bs := by
  rw [← leadingOnes_take, List.take_append_of_le_length h, leadingOnes_take]

/-- 64 bits are enough for a Golomb-Rice code (30_encoding.md R108): what follows them does not matter. -/
theorem decodeGr_append {m : Nat} {bs : List Bool} (hm : m ≤ 31) (h : 64 ≤ bs.length) :
    ∃ x esc rest, decodeGr m bs = .ok (x, esc, rest) ∧
      ∀ more, decodeGr m (bs ++ more) = .ok (x, esc, rest ++ more) := by
  have hq := leadingOnes_le 32 bs
  unfold decodeGr
  simp only [Config.escQ, leadingOnes_append (show 32 ≤ bs.length by omega)]
  by_cases he : leadingOnes 32 bs = 32
  · refine ⟨natOfBits ((bs.drop 32).take 32), true, (bs.drop 32).drop 32, ?_, fun more => ?_⟩
    · rw [if_pos he, takeNum, if_neg (by rw [List.length_drop]; omega)]
    · rw [if_pos he, takeNum, if_neg (by rw [List.length_drop, List.length_append]; omega),
        List.drop_append_of_le_length (by omega), List.take_append_of_le_length
          (by rw [List.length_drop]; omega), List.drop_append_of_le_length (by rw [List.length_drop]; omega)]
  · have hlt : leadingOnes 32 bs < 32 := by omega
    refine ⟨(natOfBits ((bs.drop (leadingOnes 32 bs + 1)).take m) + leadingOnes 32 bs <<< m) % 2 ^ 32, false,
      (bs.drop (leadingOnes 32 bs + 1)).drop m, ?_, fun more => ?_⟩
    · rw [if_neg he, if_neg (by omega), takeNum, if_neg (by rw [List.length_drop]; omega)]
    · rw [if_neg he, if_neg (by rw [List.length_append]; omega), takeNum,
        if_neg (by rw [List.length_drop, List.length_append]; omega),
        List.drop_append_of_le_length (by omega), List.take_append_of_le_length
          (by rw [List.length_drop]; omega), List.drop_append_of_le_length (by rw [List.length_drop]; omega)]

/-- `gr_read` behind its 64-bit reserve reads the code at the head of the stream (44_golomb_rice.md R213). -/
theorem grRead_stream {s : State} (h : s.CanRead) {m : Nat} (hm : m ≤ 31) (hr : 64 ≤ s.reader.rsvd) :
    ∃ x esc rest t, decodeGr m (streamAhead s) = .ok (x, esc, rest) ∧ grRead m s = .ok x t ∧
      ReadOn s t 0 rest ∧ t.reader.rsvd + ((streamAhead s).length - rest.length) = s.reader.rsvd ∧
      t.CanRead := by
  have hlen := reservedBits_length h.reader
  obtain ⟨x, esc, rest, hd, happ⟩ := decodeGr_append (bs := reservedBits s) hm (by omega)
  obtain ⟨t, ht, hc, hb⟩ := (grRead_cases h.reader h.rcur hm (by omega)).1 x esc rest hd
  have hv := hc.rsvd
  have hro : ReadOn s t 0 (rest ++ unfetchedBits s) := by
    refine ⟨hc.others, hc.reader, ?_⟩
    rw [streamAhead, hb]
    congr 1
    rw [hc.others]
    rfl
  refine ⟨x, esc, rest ++ unfetchedBits s, t, happ _, ht, hro, ?_, hro.canRead h h.rcur⟩
  have h2 : (streamAhead s).length = (reservedBits s).length + (unfetchedBits s).length := by
    rw [streamAhead, List.length_append]
  rw [h2, List.length_append]
  omega

/-- `DEC.GET` in Direct state (46_rlgr_decoder.md R262). -/
theorem getDirect_ok {s : State} (h : s.CanRead) (hd : s.dec.Inv)
    (hl : s.psRcur + pagesNeeded 64 s.reader.rsvd ≤ s.psWcur) :
    ∃ u esc rest t, decodeGr (width s.dec.kr) (streamAhead s) = .ok (u, esc, rest) ∧
      ReadOn s t (pagesNeeded 64 s.reader.rsvd) rest ∧
      getDirect s = .ok u { t with dec := { s.dec with
        kr := adaptKr s.params s.dec.kr u
        k := adaptKDirect s.params s.dec.k u
        rem := s.dec.rem - 1 } } := by
  have hw := width_le hd.kr_le
  obtain ⟨a, ha, hA, -, hr, hca⟩ := rReserve64_ok h (n := 64) (le_refl _) hl
  obtain ⟨u, esc, rest, t, hdec, ht, hB, -, -⟩ := grRead_stream hca (m := width s.dec.kr) (by omega) hr
  rw [hA.ahead] at hdec
  have hC := hA.trans hB
  have ht' : grRead (width a.dec.kr) a = .ok u t := by rw [hA.dec]; exact ht
  refine ⟨u, esc, rest, t, hdec, hC, ?_⟩
  unfold getDirect
  rw [ha, andThen_ok, ht', andThen_ok, directDone, hC.dec, hC.params]

/-- The flag of a run code behind its reserve (46_rlgr_decoder.md R262). -/
theorem readFlag_ok {s : State} (h : s.CanRead) (hd : s.dec.Inv) {b : Bool} {rest : List Bool}
    (hb : streamAhead s = b :: rest)
    (hl : s.psRcur + pagesNeeded (1 + width s.dec.k) s.reader.rsvd ≤ s.psWcur) :
    ∃ a t, rReserve (1 + width s.dec.k) s = .ok () a ∧ readField 1 a = .ok b.toNat t ∧
      ReadOn s t (pagesNeeded (1 + width s.dec.k) s.reader.rsvd) rest ∧
      t.reader.rsvd + 1 = s.reader.rsvd + 64 * pagesNeeded (1 + width s.dec.k) s.reader.rsvd ∧
      t.CanRead := by
  have hw := width_le hd.k_le
  obtain ⟨a, ha, hA, hv, hr, hca⟩ := rReserve64_ok h (n := 1 + width s.dec.k) (by omega) hl
  obtain ⟨t, ht, hB, hv', hcb⟩ := readField_stream hca (n := 1) (by decide) (by omega)
  rw [hA.ahead, hb] at ht hB
  refine ⟨a, t, ha, ?_, hA.trans hB, by omega, hcb⟩
  rw [ht]
  cases b <;> rfl

/-- `DEC.GET` at a full-window code (46_rlgr_decoder.md R262). -/
theorem getRun_full {s : State} (h : s.CanRead) (hd : s.dec.Inv) {rest : List Bool}
    (hb : streamAhead s = false :: rest)
    (hl : s.psRcur + pagesNeeded (1 + width s.dec.k) s.reader.rsvd ≤ s.psWcur) :
    ∃ t, ReadOn s t (pagesNeeded (1 + width s.dec.k) s.reader.rsvd) rest ∧ getRun s = runFullDone t := by
  obtain ⟨a, t, ha, ht, hR, -, -⟩ := readFlag_ok h hd hb hl
  refine ⟨t, hR, ?_⟩
  unfold getRun
  rw [ha, andThen_ok, ht, andThen_ok]
  rfl

/-- `DEC.GET` at a run terminator: the run length is read, then the count decides (46_rlgr_decoder.md R262,
R266). -/
theorem getRun_term {s : State} (h : s.CanRead) (hd : s.dec.Inv) {rest : List Bool}
    (hb : streamAhead s = true :: rest)
    (hl : s.psRcur + pagesNeeded (1 + width s.dec.k) s.reader.rsvd ≤ s.psWcur) :
    ∃ t, ReadOn s t (pagesNeeded (1 + width s.dec.k) s.reader.rsvd) (rest.drop (width s.dec.k)) ∧
      t.reader.rsvd = s.reader.rsvd + 64 * pagesNeeded (1 + width s.dec.k) s.reader.rsvd -
        (1 + width s.dec.k) ∧ t.CanRead ∧
      getRun s = getTerminator (natOfBits (rest.take (width s.dec.k))) t := by
  have hw := width_le hd.k_le
  obtain ⟨a, b, ha, hb', hR, hv, hcb⟩ := readFlag_ok h hd hb hl
  have hge := le_pagesNeeded (1 + width s.dec.k) s.reader.rsvd
  obtain ⟨t, ht, hB, hv', hct⟩ := readField_stream hcb (n := width s.dec.k) (by omega) (by omega)
  rw [hR.ahead] at ht hB
  refine ⟨t, hR.trans hB, by omega, hct, ?_⟩
  have ht' : readField (width b.dec.k) b = .ok (natOfBits (rest.take (width s.dec.k))) t := by
    rw [hR.dec]; exact ht
  unfold getRun
  rw [ha, andThen_ok, hb', andThen_ok, if_neg (by decide), ht', andThen_ok]

/-- The four branches of `DEC.GET` (46_rlgr_decoder.md R262; 10_state.md R43). -/
theorem decGet_eq {s : State} (ha : s.dec.act = true) (hr : 0 < s.dec.rem) : decGet s =
    if 0 < s.dec.rl then getZero s else if s.dec.pend = true then getPending s
    else if s.dec.k = 0 then getDirect s else getRun s := by
  unfold decGet requireDecoder
  rw [if_pos ⟨ha, hr⟩, andThen_ok]

/-- At a code boundary the last two remain. -/
theorem decGet_reads {s : State} (h : decoderReads s = true) : decGet s =
    if s.dec.k = 0 then getDirect s else getRun s := by
  simp only [decoderReads, Decoder.atBoundary, Bool.and_eq_true, decide_eq_true_eq, Bool.not_eq_true'] at h
  obtain ⟨⟨ha, hr⟩, hrl, hp⟩ := h
  rw [decGet_eq ha hr, if_neg (by omega), hp]
  rfl

/-! ## The stream codes as instructions -/

/-- What a stream code can do: refused in the fault state, a fault of the command that meets it, a stop where
the stream holds another code, or the command's procedure on it. -/
theorem runCode_cases (before : State → Res Unit) (ctx : CodeCtx) (i : Instr) (p : State → Res Nat)
    (s : State) :
    (s.fault ≠ 0 ∧ runCode before ctx i p s = .next s.refuse) ∨
    (s.fault = 0 ∧ ∃ f info, before s = .raise f info ∧
      runCode before ctx i p s = .next (takeFault f info s)) ∨
    (s.fault = 0 ∧ (∃ t, before s = .ok () t) ∧ codeAhead ctx i s = false ∧
      runCode before ctx i p s = .fault .codeNotAhead) ∨
    (s.fault = 0 ∧ (∃ t, before s = .ok () t) ∧ codeAhead ctx i s = true ∧
      runCode before ctx i p s = runProc (numResult p) s) := by
  unfold runCode
  by_cases hf : s.fault = 0
  · rw [if_neg (by simp [hf])]
    cases hb : before s with
    | raise f info => exact .inr (.inl ⟨hf, f, info, rfl, rfl⟩)
    | ok a t =>
      cases hc : codeAhead ctx i s with
      | false => exact .inr (.inr (.inl ⟨hf, ⟨t, rfl⟩, rfl, rfl⟩))
      | true => exact .inr (.inr (.inr ⟨hf, ⟨t, rfl⟩, rfl, rfl⟩))
  · exact .inl ⟨hf, by rw [if_pos hf]⟩

/-- A code is ahead exactly where its bit string in the context is. -/
theorem codeAhead_iff {ctx : CodeCtx} {i : Instr} {s : State} :
    codeAhead ctx i s = true ↔ ∃ bits, encodeCode ctx i = some bits ∧ bits <+: streamAhead s := by
  unfold codeAhead
  cases encodeCode ctx i <;> simp

theorem runCode_live {before : State → Res Unit} {ctx : CodeCtx} {i : Instr} {p : State → Res Nat}
    {s t : State} {bits : List Bool} (hf : s.fault = 0) (hb : before s = .ok () t)
    (he : encodeCode ctx i = some bits) (ha : bits <+: streamAhead s) :
    runCode before ctx i p s = runProc (numResult p) s := by
  have hc : codeAhead ctx i s = true := codeAhead_iff.mpr ⟨bits, he, ha⟩
  unfold runCode
  rw [if_neg (by simp [hf]), hb]
  simp [hc]

/-- At a code boundary the decoder goes on to the code, where the first reserve finds its page. -/
theorem runDecoderCode_live {i : Instr} {p : State → Res Nat} {s t : State} {bits : List Bool}
    (hf : s.fault = 0) (hr : decoderReads s = true) (hb : rReserve (codeReserve s.dec) s = .ok () t)
    (he : encodeCode (decoderCtx s) i = some bits) (ha : bits <+: streamAhead s) :
    runDecoderCode i p s = runProc (numResult p) s := by
  simp only [decoderReads, Bool.and_eq_true, decide_eq_true_eq] at hr
  obtain ⟨⟨hact, hrem⟩, hbd⟩ := hr
  have hbefore : decoderBefore s = .ok () t := by
    unfold decoderBefore requireDecoder
    rw [if_pos ⟨hact, hrem⟩, andThen_ok, if_pos hbd, hb]
  have hmeets : numResult (decoderMeets p) s = numResult p s := by
    simp only [Decoder.atBoundary, Bool.and_eq_true, decide_eq_true_eq, Bool.not_eq_true'] at hbd
    unfold numResult decoderMeets
    rw [if_neg (by omega), hbd.2]
    rfl
  unfold runDecoderCode
  rw [runCode_live hf hbefore he ha]
  unfold runProc
  rw [hmeets]

end Sys2Proof.Machine
end

