-- ==== Sys2Proof/Laws/PerInstr.lean ====
section
/-! SUPPORT. Encoding and decoding, instruction by instruction: a packet's command and a code's bits decode
back to the instruction (30_encoding.md). -/

namespace Sys2Proof

open Sys2Proof.Machine

/-! ## Packets -/

/-- Five fields in a row, for packets and for masks. -/
def fields (op imm : BitVec 8) (rsv : BitVec 16) (aux : Half) (data : Page) : Packet :=
  op ++ imm ++ rsv ++ aux ++ data

theorem packet_eq (op imm : BitVec 8) (aux : Half) (data : Page) :
    packet op imm aux data = fields op imm 0 aux data := rfl

/-- Masking a packet masks its fields. -/
theorem fields_and (op imm op' imm' : BitVec 8) (rsv rsv' : BitVec 16) (aux aux' : Half)
    (data data' : Page) : fields op imm rsv aux data &&& fields op' imm' rsv' aux' data' =
      fields (op &&& op') (imm &&& imm') (rsv &&& rsv') (aux &&& aux') (data &&& data') := by
  apply BitVec.eq_of_getLsbD_eq
  intro i hi
  simp only [fields, BitVec.getLsbD_and, BitVec.getLsbD_append]
  split_ifs <;> rfl

theorem imm8_packet (op imm : BitVec 8) (aux : Half) (data : Page) :
    imm8 (packet op imm aux data) = imm := by
  apply BitVec.eq_of_getLsbD_eq
  intro i hi
  simp only [imm8, packet, BitVec.getLsbD_extractLsb', BitVec.getLsbD_append]
  rw [if_neg (by omega), if_neg (by omega), if_neg (by omega), if_pos (by omega)]
  simp only [hi, decide_true, Bool.true_and]
  congr 1
  omega

theorem aux32_packet (op imm : BitVec 8) (aux : Half) (data : Page) :
    aux32 (packet op imm aux data) = aux := by
  apply BitVec.eq_of_getLsbD_eq
  intro i hi
  simp only [aux32, packet, BitVec.getLsbD_extractLsb', BitVec.getLsbD_append]
  rw [if_neg (by omega), if_pos (by omega)]
  simp [hi]

theorem data64_packet (op imm : BitVec 8) (aux : Half) (data : Page) :
    data64 (packet op imm aux data) = data := by
  apply BitVec.eq_of_getLsbD_eq
  intro i hi
  simp only [data64, packet, BitVec.getLsbD_extractLsb', BitVec.getLsbD_append]
  rw [if_pos (by omega)]
  simp [hi]

theorem val32_packet (op imm : BitVec 8) (aux val : Half) :
    val32 (packet op imm aux (val.setWidth 64)) = val := by
  apply BitVec.eq_of_getLsbD_eq
  intro i hi
  simp only [val32, packet, BitVec.getLsbD_extractLsb', BitVec.getLsbD_append]
  rw [if_pos (by omega)]
  simp [hi]
  omega

theorem setWidth_and_high (v : Half) : v.setWidth 64 &&& 0xFFFFFFFF00000000 = 0 := by
  apply BitVec.eq_of_getLsbD_eq
  intro i hi
  have hm : (0xFFFFFFFF00000000 : BitVec 64) = (0xFFFFFFFF : BitVec 32) ++ (0 : BitVec 32) := by decide
  rw [hm, BitVec.getLsbD_and, BitVec.getLsbD_setWidth, BitVec.getLsbD_append]
  by_cases h : i < 32
  · simp [h]
  · rw [BitVec.getLsbD_of_ge v i (by omega)]
    simp

/-! ## One row matches -/

theorem opcodes_distinct : opcodeMap.Pairwise fun r s => opField r.matchBits ≠ opField s.matchBits := by
  decide

/-- Every row's mask covers the opcode. -/
theorem opField_of_matches {r : Row} (hr : r ∈ opcodeMap) {p : Packet} (h : r.matches p = true) :
    opField p = opField r.matchBits := by
  have hm : ∀ r ∈ opcodeMap, opField r.maskBits = 0xFF := by decide
  simp only [Row.matches, beq_iff_eq] at h
  rw [← h]
  have := hm r hr
  unfold opField at *
  rw [BitVec.extractLsb'_and, this]
  exact (BitVec.and_allOnes).symm

theorem find?_distinct {α β : Type} {f : α → β} {l : List α} {P : α → Bool}
    (hl : l.Pairwise fun a b => f a ≠ f b) {r : α} (hr : r ∈ l) (hP : P r = true)
    (hf : ∀ a ∈ l, P a = true → f a = f r) : l.find? P = some r := by
  induction l with
  | nil => simp at hr
  | cons a l ih =>
    rw [List.pairwise_cons] at hl
    rcases List.mem_cons.mp hr with rfl | hr
    · exact List.find?_cons_of_pos hP
    · have ha : ¬ P a = true := fun h => hl.1 r hr (hf a List.mem_cons_self h)
      rw [List.find?_cons_of_neg ha]
      exact ih hl.2 hr fun b hb => hf b (List.mem_cons_of_mem a hb)

/-- A packet that matches a row decodes to the row's command (30_encoding.md R94). -/
theorem decode_of_matches {r : Row} (hr : r ∈ opcodeMap) {p : Packet} (h : r.matches p = true) :
    decode p = .ok (r.build p) := by
  have := find?_distinct (P := fun r => r.matches p) opcodes_distinct hr h
    fun a ha hp => (opField_of_matches ha hp).symm.trans (opField_of_matches hr h)
  rw [decode, this]

/-- A packet decodes to the command of a row whose match is its opcode alone, where its fields vanish under
the row's mask (30_encoding.md R91, R94). -/
theorem decode_packet {op imm mi : BitVec 8} {aux ma : Half} {data md : Page} {b : Packet → Instr}
    {mask : Packet} (hm : mask = fields 0xFF mi 0xFFFF ma md)
    (hr : (⟨packetF0 op, mask, b⟩ : Row) ∈ opcodeMap) (hi : imm &&& mi = 0) (ha : aux &&& ma = 0)
    (hd : data &&& md = 0) : decode (packet op imm aux data) = .ok (b (packet op imm aux data)) := by
  refine decode_of_matches hr ?_
  simp only [Row.matches, beq_iff_eq]
  rw [hm, packet_eq, fields_and, hi, ha, hd, packetF0, packet_eq]
  congr 1
  exact BitVec.and_allOnes

/-! ## Golomb-Rice codes -/

theorem takeNum_bitsOf (n v : Nat) (rest : List Bool) :
    takeNum n (bitsOf n v ++ rest) = .ok (v % 2 ^ n, rest) := by
  rw [takeNum, if_neg (by simp), List.take_left' (bitsOf_length _ _), List.drop_left' (bitsOf_length _ _),
    natOfBits_bitsOf]

theorem leadingOnes_replicate (n q : Nat) (h : q < n) (rest : List Bool) :
    leadingOnes n (List.replicate q true ++ false :: rest) = q := by
  induction q generalizing n with
  | zero =>
    cases n with
    | zero => omega
    | succ n => simp [leadingOnes]
  | succ q ih =>
    cases n with
    | zero => omega
    | succ n => simp [List.replicate_succ, leadingOnes, ih n (by omega)]

/-- A Golomb-Rice code decodes to its value, whatever follows it (44_golomb_rice.md R214). -/
theorem decodeGr_grBits {x m : Nat} (hx : x < 2 ^ 32) (rest : List Bool) :
    decodeGr m (grBits x m ++ rest) = .ok (x, decide (32 ≤ x >>> m), rest) := by
  unfold decodeGr grBits
  by_cases hq : x >>> m < 32
  · have e : List.replicate (x >>> m) true ++ [false] ++ bitsOf m (x % 2 ^ m) ++ rest =
        List.replicate (x >>> m) true ++ false :: (bitsOf m (x % 2 ^ m) ++ rest) := by simp
    have hd : (List.replicate (x >>> m) true ++ false :: (bitsOf m (x % 2 ^ m) ++ rest)).drop
        (x >>> m + 1) = bitsOf m (x % 2 ^ m) ++ rest := by
      rw [List.drop_append, List.drop_of_length_le (by simp), List.length_replicate]
      simp
    simp only [Config.escQ]
    rw [if_pos hq, e, leadingOnes_replicate 32 _ hq, if_neg (by omega), if_neg (by simp), hd, takeNum_bitsOf,
      decide_eq_false (by omega)]
    simp only [Nat.mod_mod]
    rw [Nat.add_comm, Nat.shiftLeft_eq, Nat.shiftRight_eq_div_pow, Nat.mul_comm, Nat.div_add_mod,
      Nat.mod_eq_of_lt hx]
  · have h1 : leadingOnes 32 (List.replicate 32 true ++ bitsOf 32 x ++ rest) = 32 := by
      rw [leadingOnes_eq_iff, List.append_assoc, List.take_left' (by simp)]
    have h2 : (List.replicate 32 true ++ bitsOf 32 x ++ rest).drop 32 = bitsOf 32 x ++ rest := by
      rw [List.append_assoc, List.drop_left' (by simp)]
    simp only [Config.escQ]
    rw [if_neg hq, h1, if_pos rfl, h2, takeNum_bitsOf, Nat.mod_eq_of_lt hx, decide_eq_true (by omega)]

/-! ## The family -/

/-- An instruction's packet decodes to it, and so do its bits in any context whose count tells it, whatever
follows them; the commands are the instructions that have a packet. -/
def Laws.EncodingRoundTrip.Statement (i : Instr) : Prop :=
  (∀ p, encode i = some p → decode p = .ok i) ∧
  (∀ ctx bits rest, encodeCode ctx i = some bits → ctx.tells i = true →
    decodeCode ctx (bits ++ rest) = .ok (i, rest)) ∧
  (i.isCommand = (encode i).isSome)

theorem statement_of_command {i : Instr} {p : Packet} (hc : i.isCommand = true) (he : encode i = some p)
    (hd : decode p = .ok i) : Laws.EncodingRoundTrip.Statement i := by
  refine ⟨fun q hq => ?_, fun ctx bits rest h _ => ?_, by rw [hc, he]; rfl⟩
  · rw [he, Option.some.injEq] at hq
    rw [← hq, hd]
  · cases ctx <;> cases i <;> simp [Instr.isCommand, encodeCode] at hc h

theorem statement_of_code {i : Instr} (hc : i.isCommand = false)
    (h : ∀ ctx bits rest, encodeCode ctx i = some bits → ctx.tells i = true →
      decodeCode ctx (bits ++ rest) = .ok (i, rest)) :
    Laws.EncodingRoundTrip.Statement i := by
  refine ⟨fun p hp => ?_, h, ?_⟩ <;> cases i <;> simp_all [Instr.isCommand, encode]

namespace Laws.EncodingRoundTrip

theorem psAcq : Statement .psAcq :=
  statement_of_command rfl rfl (decode_packet (mask := 0xFFFFFFFFFFFFFFFFFFFFFFFFFFFFFFFF)
    (b := fun _ => .psAcq) (mi := 0xFF) (ma := 0xFFFFFFFF) (md := 0xFFFFFFFFFFFFFFFF) rfl
    (List.mem_of_getElem? (i := 0) rfl) rfl rfl rfl)

theorem psNext : Statement .psNext :=
  statement_of_command rfl rfl (decode_packet (mask := 0xFFFFFFFFFFFFFFFFFFFFFFFFFFFFFFFF)
    (b := fun _ => .psNext) (mi := 0xFF) (ma := 0xFFFFFFFF) (md := 0xFFFFFFFFFFFFFFFF) rfl
    (List.mem_of_getElem? (i := 1) rfl) rfl rfl rfl)

theorem psGet (h : Half) : Statement (.psGet h) := by
  refine statement_of_command rfl rfl ?_
  rw [packetFA, decode_packet (mask := 0xFFFFFFFF00000000FFFFFFFFFFFFFFFF)
    (b := fun p => .psGet (aux32 p)) (mi := 0xFF) (ma := 0) (md := 0xFFFFFFFFFFFFFFFF) rfl
    (List.mem_of_getElem? (i := 2) rfl) rfl BitVec.and_zero rfl, aux32_packet]

theorem psSet (h : Half) (page : Page) : Statement (.psSet h page) := by
  refine statement_of_command rfl rfl ?_
  rw [packetFAD, decode_packet (mask := 0xFFFFFFFF000000000000000000000000)
    (b := fun p => .psSet (aux32 p) (data64 p)) (mi := 0xFF) (ma := 0) (md := 0) rfl
    (List.mem_of_getElem? (i := 3) rfl) rfl BitVec.and_zero BitVec.and_zero, aux32_packet, data64_packet]

theorem psLen : Statement .psLen :=
  statement_of_command rfl rfl (decode_packet (mask := 0xFFFFFFFFFFFFFFFFFFFFFFFFFFFFFFFF)
    (b := fun _ => .psLen) (mi := 0xFF) (ma := 0xFFFFFFFF) (md := 0xFFFFFFFFFFFFFFFF) rfl
    (List.mem_of_getElem? (i := 4) rfl) rfl rfl rfl)

theorem wRsv (minBits : Half) : Statement (.wRsv minBits) := by
  refine statement_of_command rfl rfl ?_
  rw [packetFA, decode_packet (mask := 0xFFFFFFFF00000000FFFFFFFFFFFFFFFF)
    (b := fun p => .wRsv (aux32 p)) (mi := 0xFF) (ma := 0) (md := 0xFFFFFFFFFFFFFFFF) rfl
    (List.mem_of_getElem? (i := 5) rfl) rfl BitVec.and_zero rfl, aux32_packet]

theorem wAvail : Statement .wAvail :=
  statement_of_command rfl rfl (decode_packet (mask := 0xFFFFFFFFFFFFFFFFFFFFFFFFFFFFFFFF)
    (b := fun _ => .wAvail) (mi := 0xFF) (ma := 0xFFFFFFFF) (md := 0xFFFFFFFFFFFFFFFF) rfl
    (List.mem_of_getElem? (i := 6) rfl) rfl rfl rfl)

theorem wPut (n : Byte) (value : Half) : Statement (.wPut n value) := by
  refine statement_of_command rfl rfl ?_
  rw [packetFIV, decode_packet (mask := 0xFF00FFFFFFFFFFFFFFFFFFFF00000000)
    (b := fun p => .wPut (imm8 p) (val32 p)) (mi := 0) (ma := 0xFFFFFFFF) (md := 0xFFFFFFFF00000000) rfl
    (List.mem_of_getElem? (i := 7) rfl) BitVec.and_zero rfl (setWidth_and_high _), imm8_packet, val32_packet]

theorem wAlign : Statement .wAlign :=
  statement_of_command rfl rfl (decode_packet (mask := 0xFFFFFFFFFFFFFFFFFFFFFFFFFFFFFFFF)
    (b := fun _ => .wAlign) (mi := 0xFF) (ma := 0xFFFFFFFF) (md := 0xFFFFFFFFFFFFFFFF) rfl
    (List.mem_of_getElem? (i := 8) rfl) rfl rfl rfl)

theorem wFlush : Statement .wFlush :=
  statement_of_command rfl rfl (decode_packet (mask := 0xFFFFFFFFFFFFFFFFFFFFFFFFFFFFFFFF)
    (b := fun _ => .wFlush) (mi := 0xFF) (ma := 0xFFFFFFFF) (md := 0xFFFFFFFFFFFFFFFF) rfl
    (List.mem_of_getElem? (i := 9) rfl) rfl rfl rfl)

theorem rRsv (minBits : Half) : Statement (.rRsv minBits) := by
  refine statement_of_command rfl rfl ?_
  rw [packetFA, decode_packet (mask := 0xFFFFFFFF00000000FFFFFFFFFFFFFFFF)
    (b := fun p => .rRsv (aux32 p)) (mi := 0xFF) (ma := 0) (md := 0xFFFFFFFFFFFFFFFF) rfl
    (List.mem_of_getElem? (i := 10) rfl) rfl BitVec.and_zero rfl, aux32_packet]

theorem rAvail : Statement .rAvail :=
  statement_of_command rfl rfl (decode_packet (mask := 0xFFFFFFFFFFFFFFFFFFFFFFFFFFFFFFFF)
    (b := fun _ => .rAvail) (mi := 0xFF) (ma := 0xFFFFFFFF) (md := 0xFFFFFFFFFFFFFFFF) rfl
    (List.mem_of_getElem? (i := 11) rfl) rfl rfl rfl)

theorem rPeek32 : Statement .rPeek32 :=
  statement_of_command rfl rfl (decode_packet (mask := 0xFFFFFFFFFFFFFFFFFFFFFFFFFFFFFFFF)
    (b := fun _ => .rPeek32) (mi := 0xFF) (ma := 0xFFFFFFFF) (md := 0xFFFFFFFFFFFFFFFF) rfl
    (List.mem_of_getElem? (i := 12) rfl) rfl rfl rfl)

theorem rPeek (n : Byte) : Statement (.rPeek n) := by
  refine statement_of_command rfl rfl ?_
  rw [packetFI, decode_packet (mask := 0xFF00FFFFFFFFFFFFFFFFFFFFFFFFFFFF)
    (b := fun p => .rPeek (imm8 p)) (mi := 0) (ma := 0xFFFFFFFF) (md := 0xFFFFFFFFFFFFFFFF) rfl
    (List.mem_of_getElem? (i := 13) rfl) BitVec.and_zero rfl rfl, imm8_packet]

theorem rSkip (n : Byte) : Statement (.rSkip n) := by
  refine statement_of_command rfl rfl ?_
  rw [packetFI, decode_packet (mask := 0xFF00FFFFFFFFFFFFFFFFFFFFFFFFFFFF)
    (b := fun p => .rSkip (imm8 p)) (mi := 0) (ma := 0xFFFFFFFF) (md := 0xFFFFFFFFFFFFFFFF) rfl
    (List.mem_of_getElem? (i := 14) rfl) BitVec.and_zero rfl rfl, imm8_packet]

theorem grWr (m : Byte) (x : Half) : Statement (.grWr m x) := by
  refine statement_of_command rfl rfl ?_
  rw [packetFIV, decode_packet (mask := 0xFF00FFFFFFFFFFFFFFFFFFFF00000000)
    (b := fun p => .grWr (imm8 p) (val32 p)) (mi := 0) (ma := 0xFFFFFFFF) (md := 0xFFFFFFFF00000000) rfl
    (List.mem_of_getElem? (i := 15) rfl) BitVec.and_zero rfl (setWidth_and_high _), imm8_packet, val32_packet]

theorem grRd (m : Byte) : Statement (.grRd m) := by
  refine statement_of_command rfl rfl ?_
  rw [packetFI, decode_packet (mask := 0xFF00FFFFFFFFFFFFFFFFFFFFFFFFFFFF)
    (b := fun p => .grRd (imm8 p)) (mi := 0) (ma := 0xFFFFFFFF) (md := 0xFFFFFFFFFFFFFFFF) rfl
    (List.mem_of_getElem? (i := 16) rfl) BitVec.and_zero rfl rfl, imm8_packet]

theorem zzEnc (v : Half) : Statement (.zzEnc v) := by
  refine statement_of_command rfl rfl ?_
  rw [packetFV, decode_packet (mask := 0xFFFFFFFFFFFFFFFFFFFFFFFF00000000)
    (b := fun p => .zzEnc (val32 p)) (mi := 0xFF) (ma := 0xFFFFFFFF) (md := 0xFFFFFFFF00000000) rfl
    (List.mem_of_getElem? (i := 17) rfl) rfl rfl (setWidth_and_high _), val32_packet]

theorem zzDec (u : Half) : Statement (.zzDec u) := by
  refine statement_of_command rfl rfl ?_
  rw [packetFV, decode_packet (mask := 0xFFFFFFFFFFFFFFFFFFFFFFFF00000000)
    (b := fun p => .zzDec (val32 p)) (mi := 0xFF) (ma := 0xFFFFFFFF) (md := 0xFFFFFFFF00000000) rfl
    (List.mem_of_getElem? (i := 18) rfl) rfl rfl (setWidth_and_high _), val32_packet]

theorem encNew : Statement .encNew :=
  statement_of_command rfl rfl (decode_packet (mask := 0xFFFFFFFFFFFFFFFFFFFFFFFFFFFFFFFF)
    (b := fun _ => .encNew) (mi := 0xFF) (ma := 0xFFFFFFFF) (md := 0xFFFFFFFFFFFFFFFF) rfl
    (List.mem_of_getElem? (i := 19) rfl) rfl rfl rfl)

theorem encPut (u : Half) : Statement (.encPut u) := by
  refine statement_of_command rfl rfl ?_
  rw [packetFV, decode_packet (mask := 0xFFFFFFFFFFFFFFFFFFFFFFFF00000000)
    (b := fun p => .encPut (val32 p)) (mi := 0xFF) (ma := 0xFFFFFFFF) (md := 0xFFFFFFFF00000000) rfl
    (List.mem_of_getElem? (i := 20) rfl) rfl rfl (setWidth_and_high _), val32_packet]

theorem encFlush : Statement .encFlush :=
  statement_of_command rfl rfl (decode_packet (mask := 0xFFFFFFFFFFFFFFFFFFFFFFFFFFFFFFFF)
    (b := fun _ => .encFlush) (mi := 0xFF) (ma := 0xFFFFFFFF) (md := 0xFFFFFFFFFFFFFFFF) rfl
    (List.mem_of_getElem? (i := 21) rfl) rfl rfl rfl)

theorem decNew (count : Half) : Statement (.decNew count) := by
  refine statement_of_command rfl rfl ?_
  rw [packetFA, decode_packet (mask := 0xFFFFFFFF00000000FFFFFFFFFFFFFFFF)
    (b := fun p => .decNew (aux32 p)) (mi := 0xFF) (ma := 0) (md := 0xFFFFFFFFFFFFFFFF) rfl
    (List.mem_of_getElem? (i := 22) rfl) rfl BitVec.and_zero rfl, aux32_packet]

theorem decGet : Statement .decGet :=
  statement_of_command rfl rfl (decode_packet (mask := 0xFFFFFFFFFFFFFFFFFFFFFFFFFFFFFFFF)
    (b := fun _ => .decGet) (mi := 0xFF) (ma := 0xFFFFFFFF) (md := 0xFFFFFFFFFFFFFFFF) rfl
    (List.mem_of_getElem? (i := 23) rfl) rfl rfl rfl)

theorem csrRd (idx : Half) : Statement (.csrRd idx) := by
  refine statement_of_command rfl rfl ?_
  rw [packetFA, decode_packet (mask := 0xFFFFFFFF00000000FFFFFFFFFFFFFFFF)
    (b := fun p => .csrRd (aux32 p)) (mi := 0xFF) (ma := 0) (md := 0xFFFFFFFFFFFFFFFF) rfl
    (List.mem_of_getElem? (i := 24) rfl) rfl BitVec.and_zero rfl, aux32_packet]

theorem cwGr (m : Byte) (x : Half) : Statement (.cwGr m x) := by
  refine statement_of_code rfl fun ctx bits rest h _ => ?_
  cases ctx <;> simp only [encodeCode, reduceCtorEq] at h
  split at h <;> simp only [Option.some.injEq, reduceCtorEq] at h
  rename_i hc
  rw [← h, decodeCode, decodeGr_grBits x.isLt, decide_eq_false (by simpa using hc.2.2)]
  simp [← hc.1]

theorem cwEsc (x : Half) : Statement (.cwEsc x) := by
  refine statement_of_code rfl fun ctx bits rest h _ => ?_
  cases ctx <;> simp only [encodeCode, reduceCtorEq] at h
  split at h <;> simp only [Option.some.injEq, reduceCtorEq] at h
  rename_i hc
  rw [← h, decodeCode, decodeGr_grBits x.isLt, decide_eq_true hc.2]
  simp

theorem cwRunfull : Statement .cwRunfull := by
  refine statement_of_code rfl fun ctx bits rest h _ => ?_
  cases ctx <;> simp only [encodeCode, reduceCtorEq, Option.some.injEq] at h
  rw [← h, List.singleton_append, decodeCode]

theorem cwRunterm (rl u : Half) : Statement (.cwRunterm rl u) := by
  refine statement_of_code rfl fun ctx bits rest h ht => ?_
  cases ctx <;> simp only [encodeCode, reduceCtorEq] at h
  split at h <;> simp only [Option.some.injEq, reduceCtorEq] at h
  rename_i hc
  obtain ⟨-, h1, h3⟩ := hc
  have hu : 1 ≤ u.toNat := by
    rcases Nat.eq_zero_or_pos u.toNat with h0 | h0
    · exact absurd (BitVec.eq_of_toNat_eq h0) h3
    · exact h0
  have hlt := u.isLt
  rw [← h, List.cons_append, List.append_assoc, decodeCode, takeNum_bitsOf, Nat.mod_eq_of_lt h1]
  simp only
  rw [if_neg (of_decide_eq_true ht), decodeGr_grBits (by omega)]
  simp only
  rw [if_neg (by omega), Nat.sub_add_cancel hu]
  simp

theorem cwRunend (rl : Half) : Statement (.cwRunend rl) := by
  refine statement_of_code rfl fun ctx bits rest h ht => ?_
  cases ctx <;> simp only [encodeCode, reduceCtorEq] at h
  split at h <;> simp only [Option.some.injEq, reduceCtorEq] at h
  rename_i hc
  rw [← h, List.cons_append, decodeCode, takeNum_bitsOf, Nat.mod_eq_of_lt hc.2]
  simp only
  rw [if_pos (of_decide_eq_true ht)]
  simp

theorem cwDirect (u : Half) : Statement (.cwDirect u) := by
  refine statement_of_code rfl fun ctx bits rest h _ => ?_
  cases ctx <;> simp only [encodeCode, reduceCtorEq] at h
  split at h <;> simp only [Option.some.injEq, reduceCtorEq] at h
  rw [← h, decodeCode, decodeGr_grBits u.isLt]
  simp

end Laws.EncodingRoundTrip

end Sys2Proof
end

