-- ==== Sys2Proof/Laws/Safety.lean ====
section
/-! SUPPORT. A check of `State.Ready` that runs, for showing that a concrete state is a good one. -/

namespace Sys2Proof.Machine

/-- `handlesBelow` as a check. -/
def handlesBelowB (n : Nat) (win : List Nat) : Bool := decide (win.Pairwise (· < ·)) && win.all (· < n)

/-- The writer's invariants as a check. -/
def Writer.check (w : Writer) (cap pages : Nat) : Bool :=
  decide (w.left ≤ 64) && decide (w.buf.toNat < 2 ^ (64 - w.left)) &&
  decide (w.rsvd + 64 = 64 * w.win.length + w.left) && decide (w.win.length ≤ cap) &&
  handlesBelowB pages w.win

/-- The reader's invariants as a check. -/
def Reader.check (r : Reader) (cap fetched : Nat) : Bool :=
  decide (r.bv = min 32 r.rsvd) && decide (r.bv64 ≤ 64) &&
  decide (r.buf32.toNat % 2 ^ (32 - r.bv) = 0) && decide (r.buf64.toNat % 2 ^ (64 - r.bv64) = 0) &&
  decide (r.rsvd = r.bv + r.bv64 + 64 * r.win.length) && !r.moves && decide (r.win.length ≤ cap) &&
  handlesBelowB fetched r.win

/-- The encoder's and the decoder's invariants as a check. -/
def coderCheck (e : Encoder) (d : Decoder) : Bool :=
  decide (e.k ≤ 240) && decide (e.kr ≤ 240) && decide (e.rl < 2 ^ width e.k) &&
  decide (d.k ≤ 240) && decide (d.kr ≤ 240) && decide (d.rl < 2 ^ 30) &&
  decide (d.pend = false ↔ d.pv = 0) && decide (d.rl + d.pend.toNat ≤ d.rem) && decide (d.rem < 2 ^ 32)

/-- `State.Ready` as a check. -/
def State.check (s : State) : Bool :=
  s.params.legal && s.mem.wf && decide (s.fault = 0) && decide (s.finfo = 0) &&
  decide (s.psRcur ≤ s.psWcur) && decide (s.psWcur ≤ s.params.pageLimit) &&
  memBelow (8 * s.psWcur) s.mem && s.writer.check s.params.winCap s.psWcur &&
  s.reader.check s.params.winCap s.psRcur && coderCheck s.enc s.dec

theorem handlesBelow_of_check {n : Nat} {win : List Nat} (h : handlesBelowB n win = true) :
    handlesBelow n win := by
  simp only [handlesBelowB, Bool.and_eq_true, decide_eq_true_eq, List.all_eq_true] at h
  exact h

theorem Writer.inv_of_check {w : Writer} {cap pages : Nat} (h : w.check cap pages = true) :
    w.Inv cap pages := by
  simp only [Writer.check, Bool.and_eq_true, decide_eq_true_eq] at h
  obtain ⟨⟨⟨⟨h1, h2⟩, h3⟩, h4⟩, h5⟩ := h
  exact ⟨h1, h2, h3, h4, handlesBelow_of_check h5⟩

theorem Reader.inv_of_check {r : Reader} {cap fetched : Nat} (h : r.check cap fetched = true) :
    r.Inv cap fetched := by
  simp only [Reader.check, Bool.and_eq_true, decide_eq_true_eq, Bool.not_eq_true'] at h
  obtain ⟨⟨⟨⟨⟨⟨⟨h1, h2⟩, h3⟩, h4⟩, h5⟩, h6⟩, h7⟩, h8⟩ := h
  exact ⟨h1, h2, h3, h4, h5, h6, h7, handlesBelow_of_check h8⟩

/-- The check is right. -/
theorem ready_of_check {s : State} (h : s.check = true) : s.Ready := by
  simp only [State.check, coderCheck, Bool.and_eq_true, decide_eq_true_eq] at h
  obtain ⟨⟨⟨⟨⟨⟨⟨⟨⟨hp, hm⟩, hf⟩, hfi⟩, hr⟩, hw⟩, hb⟩, hwr⟩, hrd⟩,
    ⟨⟨⟨⟨⟨⟨⟨⟨e1, e2⟩, e3⟩, d1⟩, d2⟩, d3⟩, d4⟩, d5⟩, d6⟩⟩ := h
  exact ⟨⟨hp, hm, by rw [hf]; decide, fun _ => hfi, fun _ => ⟨⟨hr, hw, hb⟩, Writer.inv_of_check hwr,
    Reader.inv_of_check hrd, ⟨e1, e2, e3⟩, ⟨d1, d2, d3, d4, d5, d6⟩⟩⟩, hf⟩

end Sys2Proof.Machine
end

