-- ==== Sys2Proof/Tests/Slice0.lean ====
section
/-! SUPPORT. Tests on fixed values. Expected values are the spec's own: 95_test_vectors.md (T.., P..) and the
examples of 30_encoding.md, or worked out by hand from a rule that the test names. The last part shows, for
every obligation with hypotheses, a state and operands that meet them. -/

namespace Sys2Proof.Tests

open Sys2Proof.Machine

/-! ## Helpers -/

/-- The next state of a command. -/
def nextOf : CommandOutcome → Option State
  | .next t => some t
  | _ => none

/-- The model's own stop. -/
def stopOf : CommandOutcome → Option (Fault ⊕ Refusal)
  | .next _ => none
  | .fault f => some (.inl f)
  | .refused r => some (.inr r)

/-- The state after a list of commands from a state. -/
def after (is : List Instr) (s : State) : State := ((runAll is s).map (·.2)).getD s

/-- The state after a list of commands from reset. -/
def fromReset (is : List Instr) : State := after is State.reset

/-- Some fields of the state one command leaves. -/
def look {α : Type} (i : Instr) (s : State) (f : State → α) : Option α := (nextOf (exec i s)).map f

/-- The writer's registers, as the columns of T20. -/
def writerOf (s : State) : Page × Nat × Nat × List Nat :=
  (s.writer.buf, s.writer.left, s.writer.rsvd, s.writer.win)

/-- The reader's registers and the read cursor, as the columns of T30. -/
def readerOf (s : State) : Half × Nat × Page × Nat × Nat × Nat :=
  (s.reader.buf32, s.reader.bv, s.reader.buf64, s.reader.bv64, s.reader.rsvd, s.psRcur)

/-- The encoder's registers and `W_RSVD`, as columns of T40. -/
def encoderOf (s : State) : Nat × Nat × Nat × Nat := (s.enc.k, s.enc.kr, s.enc.rl, s.writer.rsvd)

/-- The decoder's registers, as columns of T40, and the symbol returned. -/
def decoderOf (s : State) : List Nat :=
  [s.dec.k, s.dec.kr, s.dec.rl, s.dec.pv.toNat, s.dec.rem, (s.response.getD default).result.toNat]

/-- The fault registers. -/
def faultOf (s : State) : BitVec 8 × BitVec 64 := (s.fault, s.finfo)

/-- The reset state of a block with these parameters changed. -/
def smallStore : State := State.resetWith { Params.default with maxPages := some 1 }

/-- A command that answers a next state does so with some state. -/
theorem exists_next {o : CommandOutcome} (P : State → Prop) [DecidablePred P]
    (h : (nextOf o).any (fun t => decide (P t)) = true) : ∃ t, o = .next t ∧ P t := by
  cases o with
  | next t => exact ⟨t, rfl, by simpa [nextOf] using h⟩
  | fault f => simp [nextOf] at h
  | refused r => simp [nextOf] at h

/-- Room in the store, by evaluation. -/
theorem room_of {s : State} {n : Nat} (h : decide (s.psWcur + n ≤ s.params.pageLimit) = true) : s.roomFor n := by
  simpa [State.roomFor] using h

/-- An option that is there and meets a condition. -/
theorem exists_some {α : Type} {o : Option α} (P : α → Prop) [DecidablePred P]
    (h : o.any (fun x => decide (P x)) = true) : ∃ x, o = some x ∧ P x := by
  cases o with
  | some x => exact ⟨x, rfl, by simpa using h⟩
  | none => simp at h

/-- A value read without an error that meets a condition. -/
theorem exists_ok {ε α : Type} {o : Except ε α} (P : α → Prop) [DecidablePred P]
    (h : o.toOption.any (fun x => decide (P x)) = true) : ∃ x, o = .ok x ∧ P x := by
  cases o with
  | ok x => exact ⟨x, rfl, by simpa [Except.toOption] using h⟩
  | error e => simp [Except.toOption] at h

/-! ## Well-formedness: a term each check refuses (R102, R103, R105, R106) -/

theorem test_wf_gr_parameter : (Instr.cwGr 32 0).wellFormed = false := by decide
theorem test_wf_gr_quotient : (Instr.cwGr 0 32).wellFormed = false := by decide
theorem test_wf_esc_quotient : (Instr.cwEsc 31).wellFormed = false := by decide
theorem test_wf_runterm_run : (Instr.cwRunterm (BitVec.ofNat 32 (2 ^ 30)) 1).wellFormed = false := by decide
theorem test_wf_runterm_symbol : (Instr.cwRunterm 0 0).wellFormed = false := by decide
theorem test_wf_runend_empty : (Instr.cwRunend 0).wellFormed = false := by decide
theorem test_wf_runend_run : (Instr.cwRunend (BitVec.ofNat 32 (2 ^ 30))).wellFormed = false := by decide
theorem test_wf_boundaries : (Instr.cwGr 31 0xFFFFFFFF).wellFormed = true ∧ (Instr.cwGr 3 255).wellFormed = true ∧
    (Instr.cwEsc 32).wellFormed = true ∧
    (Instr.cwRunterm (BitVec.ofNat 32 (2 ^ 30 - 1)) 1).wellFormed = true := by decide

/-! ## Decoding: a word of every command, written out from R90, R91, R94 -/

/-- The packet decoder's answer, as data. -/
def read (p : Packet) : Option Instr := (decode p).toOption

theorem test_decode_page_storage :
    read 0x01000000000000000000000000000000 = some .psAcq ∧
    read 0x02000000000000000000000000000000 = some .psNext ∧
    read 0x03000000000000010000000000000000 = some (.psGet 1) ∧
    read 0x0400000080000002000000000000CF0B = some (.psSet 0x80000002 0xCF0B) ∧
    read 0x05000000000000000000000000000000 = some .psLen := by decide

theorem test_decode_writer :
    read 0x10000000000000400000000000000000 = some (.wRsv 64) ∧
    read 0x11000000000000000000000000000000 = some .wAvail ∧
    read 0x122000000000000000000000DEADBEEF = some (.wPut 32 0xDEADBEEF) ∧
    read 0x13000000000000000000000000000000 = some .wAlign ∧
    read 0x14000000000000000000000000000000 = some .wFlush := by decide

theorem test_decode_reader :
    read 0x20000000000000230000000000000000 = some (.rRsv 35) ∧
    read 0x21000000000000000000000000000000 = some .rAvail ∧
    read 0x22000000000000000000000000000000 = some .rPeek32 ∧
    read 0x23030000000000000000000000000000 = some (.rPeek 3) ∧
    read 0x24200000000000000000000000000000 = some (.rSkip 32) := by decide

theorem test_decode_golomb :
    read 0x300300000000000000000000000000FF = some (.grWr 3 255) ∧
    read 0x31030000000000000000000000000000 = some (.grRd 3) ∧
    read 0x320000000000000000000000FFFFFFFD = some (.zzEnc 0xFFFFFFFD) ∧
    read 0x33000000000000000000000000000005 = some (.zzDec 5) := by decide

theorem test_decode_rlgr_and_system :
    read 0x40000000000000000000000000000000 = some .encNew ∧
    read 0x41000000000000000000000000000005 = some (.encPut 5) ∧
    read 0x42000000000000000000000000000000 = some .encFlush ∧
    read 0x480000000000000A0000000000000000 = some (.decNew 10) ∧
    read 0x49000000000000000000000000000000 = some .decGet ∧
    read 0x7F000000000000210000000000000000 = some (.csrRd 0x21) := by decide

/-- T15: the packets that match no row, and one bit too many in each remaining format. -/
theorem test_decode_refuses :
    decode 0x00000000000000000000000000000000 = .error (.unassignedOpcode 0x00) ∧
    decode 0x06000000000000000000000000000000 = .error (.unassignedOpcode 0x06) ∧
    decode 0x14010000000000000000000000000000 = .error (.reservedBitSet 0x14) ∧
    decode 0x10000001000000400000000000000000 = .error (.reservedBitSet 0x10) ∧
    decode 0x03000000000000000000000000000001 = .error (.reservedBitSet 0x03) ∧
    decode 0x12030000000000000000000100000005 = .error (.reservedBitSet 0x12) ∧
    decode 0x23030000000000010000000000000000 = .error (.reservedBitSet 0x23) ∧
    decode 0x41010000000000000000000000000005 = .error (.reservedBitSet 0x41) ∧
    decode 0x0401000000000002000000000000CF0B = .error (.reservedBitSet 0x04) := by decide

/-! ## Decoding: a bit string of every code, from R102 to R107 and the rows of T40, T42, T46 -/

/-- The code decoder's answer, as data. -/
def readCode (ctx : CodeCtx) (bs : List Bool) : Option (Instr × List Bool) := (decodeCode ctx bs).toOption

/-- `n` bits of a number, first bit most significant, for writing a bit string down. -/
def b (n v : Nat) : List Bool := bitsOf n v

/-- R102: `111110` is 5 with `m = 0`, `1001` is 5 with `m = 2`; 31 ones, `0`, `111` is 255 with `m = 3`. -/
theorem test_decode_cw_gr :
    readCode (.golomb 0) [true, true, true, true, true, false] = some (.cwGr 0 5, []) ∧
    readCode (.golomb 2) [true, false, false, true, true] = some (.cwGr 2 5, [true]) ∧
    readCode (.golomb 3) (b 31 0x7FFFFFFF ++ b 4 7) = some (.cwGr 3 255, []) := by decide

/-- R103: 32 ones and 256 in 32 bits. -/
theorem test_decode_cw_esc :
    readCode (.golomb 3) (b 32 0xFFFFFFFF ++ b 32 0x100) = some (.cwEsc 256, []) := by decide

/-- T40, sixth and tenth rows: `1 0 11110` is the symbol 5 after no zero, `1 1 110` the symbol 3 after one;
T46: `1 1 110 00` is 9 after one zero with `m = 2`. -/
theorem test_decode_cw_runterm :
    readCode (.run 1 0 5) [true, false, true, true, true, true, false] = some (.cwRunterm 0 5, []) ∧
    readCode (.run 1 0 2) [true, true, true, true, false] = some (.cwRunterm 1 3, []) ∧
    readCode (.run 1 2 2) [true, true, true, true, false, false, false] = some (.cwRunterm 1 9, []) := by decide

/-- R104: the bit `0`, whatever the count. T42: `1 1` with one symbol expected is the trailing run; with two it
is the opening of a terminator with its symbol (T49 (b)). -/
theorem test_decode_cw_run_flags :
    readCode (.run 1 0 2) [false] = some (.cwRunfull, []) ∧
    readCode (.run 1 0 1) [false] = some (.cwRunfull, []) ∧
    readCode (.run 1 0 1) [true, true] = some (.cwRunend 1, []) ∧
    readCode (.run 1 0 2) [true, true, false] = some (.cwRunterm 1 1, []) := by decide

/-- R107, T40 and T44: in Direct state `0` is the symbol 0, `0 0` with `m = 1` too. -/
theorem test_decode_cw_direct :
    readCode (.direct 0) [false] = some (.cwDirect 0, []) ∧
    readCode (.direct 1) [false, false] = some (.cwDirect 0, []) := by decide

/-- The words of the two stream-code rows of fixed length (log 8). -/
theorem test_decode_table_words :
    decodeTableWord 64 0xFFFFFFFF00000100 = some (.cwEsc 256) ∧ decodeTableWord 8 0 = some .cwRunfull ∧
    decodeTableWord 128 0x01000000000000000000000000000000 = some .psAcq := by decide

/-! ## Page Storage (T10 to T12) -/

/-- T10 up to `PS.SET 1, 0x1122334455667788`. -/
def t10 : State := fromReset [.psAcq, .psAcq, .psSet 1 0x1122334455667788]

theorem test_ps_acq : look .psAcq t10 (fun t => (t.response, t.psWcur)) = some (okWith 2, 3) := by decide +kernel
theorem test_ps_acq_full :
    look .psAcq (after [.psAcq] smallStore) faultOf = some (10, 1) := by decide +kernel
theorem test_ps_next : look .psNext t10 (fun t => (t.response, t.psRcur)) = some (okWith 0, 1) := by decide +kernel
theorem test_ps_next_past :
    look .psNext (after [.psNext, .psNext] t10) faultOf = some (2, 2) := by decide +kernel
theorem test_ps_get : look (.psGet 1) t10 (·.response) = some (okWith 0x1122334455667788) := by decide +kernel
theorem test_ps_get_bad : look (.psGet 2) t10 faultOf = some (6, 2) := by decide +kernel
/-- T10: the wire is `8877665544332211` in page 1. -/
theorem test_ps_set_wire :
    (List.range 16).map (wireByte t10) = ([0, 0, 0, 0, 0, 0, 0, 0, 0x88, 0x77, 0x66, 0x55, 0x44, 0x33, 0x22, 0x11] :
      List Byte).map some := by decide +kernel
theorem test_ps_set_bad : look (.psSet 0 1) State.reset faultOf = some (6, 0) := by decide +kernel
theorem test_ps_len : look .psLen t10 (·.response) = some (okWith 2) := by decide +kernel

/-! ## Reservation windows and the writer (T20 to T23) -/

/-- T20 up to row 4. -/
def t20 : State := fromReset [.wRsv 64, .wPut 3 5, .wPut 32 0xDEADBEEF, .wPut 29 0x12345678]

/-- T21 up to row 3. -/
def t21 : State := fromReset [.wRsv 96, .wPut 32 0x11111111, .wPut 20 0xABCDE]

theorem test_w_rsv : look (.wRsv 8) t20 writerOf = some (0xBBD5B7DDF2345678, 0, 64, [0, 1]) := by decide +kernel
theorem test_w_rsv_overflow : look (.wRsv 257) (fromReset [.wRsv 256]) faultOf = some (1, 257) := by decide +kernel
theorem test_w_avail : look .wAvail t21 (·.response) = some (okWith 76) := by decide +kernel
theorem test_w_put_straddle :
    look (.wPut 32 0x89ABCDEF) t21 (fun t => (writerOf t, pageRead t.mem 0)) =
      some ((0xBCDEF, 44, 44, [1]), 0x9AE8CDAB11111111) := by decide +kernel
theorem test_w_put_order : look (.wPut 4 16) State.reset faultOf = some (4, 16) := by decide +kernel
theorem test_w_align :
    look .wAlign (after [.wPut 32 0x89ABCDEF] t21) writerOf = some (0xBCDEF0, 40, 40, [1]) := by decide +kernel
theorem test_w_align_seven :
    look .wAlign (after [.wPut 32 0x89ABCDEF, .wAlign, .wPut 1 1] t21) writerOf =
      some (0xBCDEF080, 32, 32, [1]) := by decide +kernel
/-- T20, rows 6 and 7. -/
theorem test_w_flush :
    look .wFlush (after [.wRsv 8, .wPut 8 0xA5] t20)
      (fun t => (writerOf t, pageRead t.mem 0, pageRead t.mem 1)) =
      some ((0, 64, 0, []), 0x785634F2DDB7D5BB, 0xA5) := by decide +kernel

/-! ## The reader (T30 to T33) -/

/-- The set-up of T30 and T31. -/
def t30 : State := fromReset [.psAcq, .psSet 0 0xEFCDAB8967452301, .psAcq, .psSet 1 0x1032547698BADCFE]

theorem test_r_rsv : look (.rRsv 1) t30 readerOf = some (0x01234567, 32, 0x89ABCDEF00000000, 32, 64, 1) := by
  decide +kernel
/-- T31, row 5: the glue step. -/
theorem test_r_rsv_glue :
    look (.rRsv 32) (after [.rRsv 64, .rSkip 32, .rSkip 20] t30) readerOf =
      some (0xDEFFEDCB, 32, 0xA987654321000000, 44, 76, 2) := by decide +kernel
theorem test_r_avail : look .rAvail (after [.rRsv 64, .rSkip 32] t30) (·.response) = some (okWith 32) := by
  decide +kernel
theorem test_r_peek32 : look .rPeek32 (after [.rRsv 1] t30) (·.response) = some (okWith 0x01234567) := by
  decide +kernel
theorem test_r_peek32_short :
    look .rPeek32 (after [.rRsv 64, .rSkip 32, .rSkip 20] t30) faultOf = some (3, 32) := by decide +kernel
theorem test_r_peek :
    look (.rPeek 12) (after [.rRsv 64, .rSkip 32, .rSkip 20] t30) (·.response) = some (okWith 0xDEF) := by
  decide +kernel
theorem test_r_peek_zero : look (.rPeek 0) (after [.rRsv 8] t30) faultOf = some (5, 0) := by decide +kernel
/-- T30, row 5: across the registers. -/
theorem test_r_skip :
    look (.rSkip 32) (after [.rRsv 1, .rSkip 4] t30) readerOf = some (0x9ABCDEF0, 28, 0, 0, 28, 1) := by
  decide +kernel
theorem test_r_skip_operand : look (.rSkip 33) t30 faultOf = some (5, 33) := by decide +kernel

/-! ## Golomb-Rice and zig-zag (T50 to T60) -/

/-- T50, the row (255, 3). -/
theorem test_gr_wr :
    look (.grWr 3 255) (fromReset [.wRsv 64]) (fun t => (t.writer.rsvd, pageRead (after [.wFlush] t).mem 0)) =
      some (29, 0x000000E0FEFFFFFF) := by decide +kernel
/-- T50, the row (256, 3): escaped. -/
theorem test_gr_wr_escape :
    look (.grWr 3 256) (fromReset [.wRsv 64]) (fun t => pageRead (after [.wFlush] t).mem 0) =
      some 0x00010000FFFFFFFF := by decide +kernel
/-- T53: a value truncated to 32 bits. -/
theorem test_gr_rd_truncates :
    look (.grRd 31) (fromReset [.psAcq, .psSet 0 0xFEFFFFFF, .rRsv 64]) (fun t => (t.response, t.reader.rsvd)) =
      some (okWith 0x80000000, 1) := by decide +kernel
theorem test_gr_rd_escape :
    look (.grRd 3) (fromReset [.wRsv 64, .grWr 3 256, .wFlush, .rRsv 64]) (·.response) =
      some (okWith 256) := by decide +kernel
theorem test_zz_enc :
    look (.zzEnc 0xFFFFFFFD) State.reset (·.response) = some (okWith 5) ∧
    look (.zzEnc 0x80000000) State.reset (·.response) = some (okWith 0xFFFFFFFF) := by decide +kernel
theorem test_zz_dec :
    look (.zzDec 5) State.reset (·.response) = some (okWith 0xFFFFFFFD) ∧
    look (.zzDec 0xFFFFFFFE) State.reset (·.response) = some (okWith 0x7FFFFFFF) := by decide +kernel

/-! ## The RLGR coder (T40, T42, T46, T49) -/

/-- T40 after the first `n` symbols. -/
def t40 (n : Nat) : State :=
  fromReset (.encNew :: (([0, 0, 0, 0, 0, 5, 0, 0, 0, 3] : List Half).take n).map .encPut)

/-- T40's stream loaded as in P5 (a), decoded up to the `n`-th symbol. -/
def p5 (n : Nat) : State :=
  fromReset ([.psAcq, .psSet 0 0xCF0B, .psAcq, .decNew 10] ++ List.replicate n .decGet)

/-- T42's stream, six zeros, before its flush. -/
def t42 : State := fromReset (.encNew :: List.replicate 6 (.encPut 0))

/-- T42's stream loaded, and the first five symbols decoded. -/
def d42 : State := fromReset ([.psAcq, .psSet 0 0xC, .decNew 6] ++ List.replicate 5 .decGet)

theorem test_enc_new :
    look .encNew (t40 10) (fun t => (encoderOf t, writerOf t)) = some ((0, 0, 0, 0), (0, 64, 0, [])) := by
  decide +kernel
theorem test_enc_put_term :
    look (.encPut 5) (t40 5) (fun t => (encoderOf t, t.writer.win)) = some ((9, 5, 0, 117), [0, 1]) := by
  decide +kernel
theorem test_enc_put_window :
    look (.encPut 0) (t40 4) encoderOf = some (15, 0, 0, 60) ∧
    look (.encPut 0) (t40 3) encoderOf = some (11, 0, 1, 61) := by decide +kernel
theorem test_enc_flush :
    look .encFlush (t40 10) (fun t => (encoderOf t, t.enc.act, t.writer.win, pageRead t.mem 0)) =
      some ((7, 8, 0, 64), false, [1], 0xCF0B) := by decide +kernel
theorem test_enc_flush_run :
    look .encFlush t42 (fun t => (t.writer.win, pageRead t.mem 0)) = some ([], 0xC) := by decide +kernel
theorem test_dec_new :
    look (.decNew 10) (p5 3) decoderOf = some [0, 0, 0, 0, 10, 0] ∧
    look (.decNew 10) (p5 3) readerOf = some (0, 0, 0, 0, 0, 1) := by decide +kernel
theorem test_dec_get_term : look .decGet (p5 5) decoderOf = some [9, 5, 0, 0, 4, 5] := by decide +kernel
theorem test_dec_get_pending :
    look .decGet (p5 8) decoderOf = some [7, 8, 0, 3, 1, 0] ∧
    look .decGet (p5 9) decoderOf = some [7, 8, 0, 0, 0, 3] := by decide +kernel

/-! ## `CSR.RD`, illegal packets, the fault state (T15, T40, P4) -/

theorem test_csr_rd : look (.csrRd 0x43) (after [.encFlush] (t40 10)) (·.response) = some (okWith 0b010) := by
  decide +kernel
theorem test_csr_rd_undefined : look (.csrRd 0x02) State.reset faultOf = some (5, 2) := by decide +kernel
theorem test_illegal_packet :
    (nextOf (step { State.reset with program := [0x10000001000000400000000000000000] })).map
      (fun t => (faultOf t, t.pos)) = some ((7, 0x1000000100000040), 1) := by decide +kernel

/-! ## The codes as instructions: what `DEC.GET` and `GR.RD` do where they meet them (log 6) -/

/-- T50's reader before a code `x` with parameter `m`. -/
def reading (m : Byte) (x : Half) : State := fromReset [.wRsv 64, .grWr m x, .wFlush, .rRsv 64]

/-- T46's stream loaded, with its initial parameters, and the first two symbols decoded. -/
def d46 : State :=
  after ([.psAcq, .psSet 0 0x78, .psAcq, .decNew 5] ++ List.replicate 2 .decGet)
    (State.resetWith { Params.default with kInit := 8, krInit := 16 })

theorem test_cw_gr :
    look (.cwGr 3 255) (reading 3 255) (fun t => (t.response, t.reader.rsvd)) = some (okWith 255, 29) ∧
    stopOf (exec (.cwGr 3 255) (reading 3 256)) = some (.inl .codeNotAhead) := by decide +kernel
theorem test_cw_esc :
    look (.cwEsc 256) (reading 3 256) (fun t => (t.response, t.reader.rsvd)) = some (okWith 256, 0) := by
  decide +kernel
/-- T40's decoder, row 3; T49 (a), the fourth symbol of a zero page. -/
theorem test_cw_runfull :
    look .cwRunfull (p5 3) decoderOf = some [15, 0, 1, 0, 6, 0] ∧
    look .cwRunfull (fromReset [.psAcq, .decNew 4, .decGet, .decGet, .decGet]) faultOf = some (9, 2) := by
  decide +kernel
/-- T46's decoder: the terminator with one zero and the symbol 9. -/
theorem test_cw_runterm :
    look (.cwRunterm 1 9) d46 decoderOf = some [6, 18, 0, 9, 2, 0] := by decide +kernel
/-- T42's decoder, the last symbol; T49 (b), the same bits where more symbols are expected. -/
theorem test_cw_runend :
    look (.cwRunend 1) d42 (fun t => (decoderOf t, t.reader.rsvd)) = some ([15, 0, 0, 0, 0, 0], 58) ∧
    look (.cwRunend 1) (fromReset ([.psAcq, .psSet 0 0xC, .decNew 8] ++ List.replicate 5 .decGet)) faultOf =
      some (2, 1) := by decide +kernel
theorem test_cw_direct :
    look (.cwDirect 0) (p5 0) decoderOf = some [3, 0, 0, 0, 9, 0] ∧
    stopOf (exec (.cwDirect 0) (p5 1)) = some (.inl .codeNotAhead) := by decide +kernel

/-- The host's words: a step runs each as the first instruction after reset (log 5, log 8). -/
theorem test_fetch_words :
    (nextOf (step (State.reset.withFetchWord 128 0x01000000000000000000000000000000))).map (·.psWcur) = some 1 ∧
    (nextOf (step (State.reset.withFetchWord 64 0xFFFFFFFF00000100))).map (·.response) = some (okWith 256) ∧
    (nextOf (step (State.reset.withFetchWord 8 0))).map decoderOf = some [5, 0, 0, 0, 0, 0] := by decide +kernel

/-! ## The hypotheses of the obligations can be met

One theorem for each obligation with hypotheses: a state and operands that meet all of them, for each clause,
at the edge of the clause's range. -/

/-- A block with one packet to run. -/
def issuing (p : Packet) : State := { State.reset with program := [p] }

/-- A block in the fault state with one packet to run. -/
def faulted (p : Packet) : State := { State.reset with program := [p], fault := 3, finfo := 1 }

/-- A block whose initial parameters are these. -/
def withInit (k kr : Nat) (maxPages : Option Nat) : State :=
  State.resetWith { Params.default with kInit := k, krInit := kr, maxPages := maxPages }

theorem test_witness_PacketRoundTrip :
    (Instr.psSet 0xFFFFFFFF 1).isCommand = true ∧
    decode 0x04000000FFFFFFFF0000000000000001 = .ok (.psSet 0xFFFFFFFF 1) := by decide

theorem test_witness_FormatsDecideLegality :
    opField 0x49000000000000000000000000000000 = 0x49 ∧ opField 0x7F000000000000010000000000000000 = 0x7F ∧
    opField 0x04000000000000000000000000000001 = 0x04 ∧ opField 0x31010000000000000000000000000000 = 0x31 ∧
    opField 0x30010000000000000000000000000001 = 0x30 ∧ opField 0x41000000000000000000000000000001 = 0x41 ∧
    opField 0x06000000000000000000000000000000 ∉ opcodes := by decide

/-- The all-zero packet, the highest bit of a format's zero bits, the lowest one, and a bit of `rsv`. -/
theorem test_witness_IllegalPacketFaults :
    ((issuing 0).fault = 0 ∧ (issuing 0).program[(issuing 0).pos]? = some 0 ∧ opField 0 ∉ opcodes ∧
      ∀ r ∈ opcodeMap, (0 : Packet) &&& r.maskBits ≠ r.matchBits) ∧
    (∃ r ∈ opcodeMap, opField 0x14800000000000000000000000000000 = opField r.matchBits ∧
      ((0x14800000000000000000000000000000 : Packet) &&& r.maskBits).extractLsb' 0 120 ≠ 0) ∧
    (∃ r ∈ opcodeMap, opField 0x03000000000000000000000000000001 = opField r.matchBits ∧
      ((0x03000000000000000000000000000001 : Packet) &&& r.maskBits).extractLsb' 0 120 ≠ 0) ∧
    (0x10000001000000400000000000000000 : Packet).extractLsb' 96 16 ≠ 0 := by decide +kernel

theorem test_witness_CodeRoundTrip :
    ((Instr.cwRunfull).wellFormed = true ∧ (Instr.cwRunfull).isCommand = false) ∧
    (encodeCode (.run 1 2 2) (.cwRunterm 1 9) = some [true, true, true, true, false, false, false] ∧
      (CodeCtx.run 1 2 2).tells (.cwRunterm 1 9) = true) ∧
    (encodeCode (.run 1 2 1) (.cwRunend 1) = some [true, true] ∧
      (CodeCtx.run 1 2 1).tells (.cwRunend 1) = true) ∧
    encodeCode (.run 1 2 (1 : Half).toNat) (.cwRunterm 1 9) =
      some [true, true, true, true, false, false, false] := by decide

theorem test_witness_StepRunsDecoded :
    (issuing 0x05000000000000000000000000000000).program[(issuing 0x05000000000000000000000000000000).pos]? =
      some 0x05000000000000000000000000000000 ∧
    decode 0x05000000000000000000000000000000 = .ok .psLen := by decide

theorem test_witness_StepWaits : State.reset.program[State.reset.pos]? = none := by decide

theorem test_witness_InvAtReset :
    Params.legal ⟨32, some (2 ^ 32), 240, 240, 240, 240, 240, 240, 240⟩ = true ∧
    Params.legal ⟨4, some 1, 1, 1, 1, 1, 1, 0, 0⟩ = true := by decide

theorem test_witness_StepKeepsInv :
    ((issuing 0x40000000000000000000000000000000).Ready ∧
      ∃ t, step (issuing 0x40000000000000000000000000000000) = .next t ∧ t.enc.act = true) ∧
    (t40 5).Ready ∧ ∃ t, exec (.encPut 5) (t40 5) = .next t ∧ t.fault = 0 :=
  ⟨⟨ready_of_check (by decide +kernel), exists_next _ (by decide +kernel)⟩,
    ready_of_check (by decide +kernel), exists_next _ (by decide +kernel)⟩

theorem test_witness_FaultEntry : t10.mem.wf = true ∧ t10.mem ≠ [] := by decide +kernel

theorem test_witness_CommandsAnswer : Instr.decGet.isCommand = true := by decide

theorem test_witness_FaultStateRefuses :
    (faulted 0x7F000000000000000000000000000000).fault ≠ 0 ∧
    (faulted 0x7F000000000000000000000000000000).program[(faulted 0x7F000000000000000000000000000000).pos]? =
      some 0x7F000000000000000000000000000000 ∧
    (faulted 0x7F000000000000010000000000000000).program[(faulted 0x7F000000000000010000000000000000).pos]? =
      some 0x7F000000000000010000000000000000 ∧
    (faulted 0x7F000000000000020000000000000000).program[(faulted 0x7F000000000000020000000000000000).pos]? =
      some 0x7F000000000000020000000000000000 := by decide

theorem test_witness_FaultIsForever : (faulted 0).fault ≠ 0 := by decide

theorem test_witness_RaisesOnlyItsFaults : (Instr.encPut 5).isCommand = true ∧ (t40 5).Ready :=
  ⟨by decide, ready_of_check (by decide +kernel)⟩

/-- The reader with 31 and the writer with 0 bits reserved: the edges of the checks. -/
theorem test_witness_OperandCheckOrder :
    let s := fromReset [.psAcq, .rRsv 64, .rSkip 32, .rSkip 1]
    s.fault = 0 ∧ s.reader.rsvd = 31 ∧ s.writer.rsvd = 0 ∧ 32 < (33 : Byte).toNat ∧
    (31 : Byte).toNat ≤ 32 ∧ 2 ^ (31 : Byte).toNat ≤ (0x80000000 : Half).toNat ∧
    (1 : Byte).toNat ≤ 32 ∧ (1 : Half).toNat < 2 ^ (1 : Byte).toNat ∧ s.writer.rsvd < (1 : Byte).toNat ∧
    s.reader.rsvd < (32 : Byte).toNat ∧ (0 : Byte).toNat = 0 ∧ s.reader.rsvd < 32 ∧
    (31 : Byte).toNat ≤ 31 ∧ 31 < (32 : Byte).toNat := by decide +kernel

theorem test_witness_PsAcqAppends : smallStore.Ready ∧ smallStore.roomFor 1 :=
  ⟨ready_of_check (by decide), room_of (by decide)⟩

theorem test_witness_PsNextAdvances :
    (after [.psNext] t10).fault = 0 ∧ (after [.psNext] t10).psRcur + 1 = (after [.psNext] t10).psWcur ∧
    State.reset.fault = 0 ∧ State.reset.psWcur ≤ State.reset.psRcur := by decide +kernel

theorem test_witness_PsGetReads :
    t10.fault = 0 ∧ (1 : Half).toNat < t10.psWcur ∧ t10.psWcur ≤ (2 : Half).toNat := by decide +kernel

theorem test_witness_PsSetStores :
    t10.fault = 0 ∧ t10.mem.wf = true ∧ (1 : Half).toNat < t10.psWcur ∧ t10.psWcur ≤ (2 : Half).toNat := by
  decide +kernel

theorem test_witness_LengthsAndAvailable : t20.fault = 0 := by decide +kernel

/-- One page with 63 bits left, in Direct state. -/
def fullDirect : State := after [.encNew, .wRsv 64, .wPut 1 0] smallStore

/-- One page, in Run state with window 2 and one zero counted: 1 bit left, and 65 of the 66 bits a terminator
with its symbol can need. -/
def fullRun (bits : List Instr) : State :=
  after ([.encNew, .wRsv 64] ++ bits ++ [.encPut 0]) (withInit 8 0 (some 1))

theorem test_witness_FullStoreFaults :
    (fullDirect.Ready ∧ fullDirect.params.maxPages = some 1 ∧ fullDirect.psWcur = 1 ∧
      fullDirect.writer.rsvd < (64 : Half).toNat ∧ fullDirect.writer.win.length < fullDirect.params.winCap ∧
      fullDirect.enc.act = true ∧ fullDirect.enc.k = 0 ∧
      1 < fullDirect.psWcur + pagesNeeded 64 fullDirect.writer.rsvd) ∧
    (let s := fullRun [.wPut 32 0, .wPut 31 0]
     s.Ready ∧ s.params.maxPages = some 1 ∧ s.enc.act = true ∧ 0 < s.enc.k ∧ 0 < s.enc.rl ∧
     s.enc.rl + 1 = 2 ^ (s.enc.k / 8) ∧ s.writer.rsvd = 1 ∧
     1 < s.psWcur + pagesNeeded (1 + s.enc.k / 8) s.writer.rsvd) ∧
    (let s := fullRun []
     s.Ready ∧ s.params.maxPages = some 1 ∧ s.enc.act = true ∧ 0 < s.enc.k ∧ (1 : Half) ≠ 0 ∧
     1 + s.enc.k / 8 ≤ s.writer.rsvd ∧ 1 < s.psWcur + termPages (s.enc.k / 8) s.writer.rsvd) :=
  ⟨⟨ready_of_check (by decide +kernel), by decide +kernel⟩,
    ⟨ready_of_check (by decide +kernel), by decide +kernel⟩,
    ready_of_check (by decide +kernel), by decide +kernel⟩

theorem test_witness_WireFormat :
    t10.mem.wf = true ∧ 63 < 64 ∧ 7 < 8 ∧ (1 : Nat) ≠ 0 ∧ 15 < 8 * t10.psWcur ∧ 8 * t10.psWcur ≤ 16 := by
  decide +kernel

theorem test_witness_WRsvReserves :
    State.reset.Ready ∧
    State.reset.writer.win.length + pagesNeeded (256 : Half).toNat State.reset.writer.rsvd =
      State.reset.params.winCap ∧
    State.reset.roomFor (pagesNeeded (256 : Half).toNat State.reset.writer.rsvd) :=
  ⟨ready_of_check (by decide), by decide, room_of (by decide)⟩

theorem test_witness_ReserveFaults :
    (State.reset.Ready ∧
      State.reset.params.winCap + 1 =
        State.reset.writer.win.length + pagesNeeded (257 : Half).toNat State.reset.writer.rsvd ∧
      State.reset.roomFor (State.reset.params.winCap - State.reset.writer.win.length) ∧
      64 * State.reset.params.winCap < (257 : Half).toNat) ∧
    (smallStore.Ready ∧ smallStore.params.maxPages = some 1 ∧
      1 < smallStore.psWcur + pagesNeeded (65 : Half).toNat smallStore.writer.rsvd ∧
      smallStore.writer.win.length + (1 - smallStore.psWcur) < smallStore.params.winCap) ∧
    (let s := fromReset [.psAcq, .psAcq, .psAcq, .psAcq]
     s.Ready ∧ s.params.winCap < s.reader.win.length + pagesNeeded (257 : Half).toNat s.reader.rsvd ∧
     s.psRcur + (s.params.winCap - s.reader.win.length) = s.psWcur) ∧
    (let s := fromReset [.psAcq]
     s.Ready ∧ s.psWcur < s.psRcur + pagesNeeded (65 : Half).toNat s.reader.rsvd ∧
     s.reader.win.length + (s.psWcur - s.psRcur) < s.params.winCap) :=
  ⟨⟨ready_of_check (by decide), by decide, room_of (by decide), by decide⟩,
    ⟨ready_of_check (by decide), by decide⟩,
    ⟨ready_of_check (by decide +kernel), by decide +kernel⟩,
    ready_of_check (by decide +kernel), by decide +kernel⟩

theorem test_witness_RRsvFetches :
    t30.Ready ∧ t30.reader.win.length + pagesNeeded (128 : Half).toNat t30.reader.rsvd ≤ t30.params.winCap ∧
    t30.psRcur + pagesNeeded (128 : Half).toNat t30.reader.rsvd = t30.psWcur :=
  ⟨ready_of_check (by decide +kernel), by decide +kernel⟩

theorem test_witness_WPutAppends :
    (let s := fromReset [.wRsv 64, .wPut 32 0]
     s.Ready ∧ (32 : Byte).toNat ≤ 32 ∧ (0xFFFFFFFF : Half).toNat < 2 ^ (32 : Byte).toNat ∧
     (32 : Byte).toNat = s.writer.rsvd) ∧
    (State.reset.Ready ∧ (0 : Half).toNat < 2 ^ (0 : Byte).toNat ∧ (0 : Byte).toNat ≤ State.reset.writer.rsvd) :=
  ⟨⟨ready_of_check (by decide +kernel), by decide +kernel⟩, ready_of_check (by decide), by decide⟩

theorem test_witness_WAlignAligns : t21.Ready := ready_of_check (by decide +kernel)

theorem test_witness_WFlushCommits : t21.Ready ∧ State.reset.Ready :=
  ⟨ready_of_check (by decide +kernel), ready_of_check (by decide)⟩

/-- Exactly 32 bits reserved for the reader, as T31 row 2. -/
def r32 : State := after [.rRsv 64, .rSkip 32] t30

theorem test_witness_PeekReturnsNextBits :
    r32.Ready ∧ 1 ≤ (1 : Byte).toNat ∧ (32 : Byte).toNat ≤ 32 ∧ (32 : Byte).toNat = r32.reader.rsvd :=
  ⟨ready_of_check (by decide +kernel), by decide +kernel⟩

theorem test_witness_SkipConsumes :
    r32.Ready ∧ (32 : Byte).toNat ≤ 32 ∧ (32 : Byte).toNat ≤ r32.reader.rsvd ∧
    State.reset.Ready ∧ (0 : Byte).toNat ≤ State.reset.reader.rsvd :=
  ⟨ready_of_check (by decide +kernel), by decide, by decide +kernel, ready_of_check (by decide), by decide⟩

theorem test_witness_GrWrAppends :
    let s := fromReset [.wRsv 64]
    s.Ready ∧ (31 : Byte).toNat ≤ 31 ∧ lenGr (0xFFFFFFFF : Half).toNat (31 : Byte).toNat ≤ s.writer.rsvd ∧
    lenGr (0xFFFFFFFF : Half).toNat (0 : Byte).toNat = s.writer.rsvd :=
  ⟨ready_of_check (by decide +kernel), by decide +kernel⟩

theorem test_witness_GrWrFaults :
    (let s := fromReset [.wRsv 64, .wPut 1 0]
     s.Ready ∧ 32 ≤ (32 : Half).toNat >>> (0 : Byte).toNat ∧ s.writer.rsvd = 63) ∧
    (let s := fromReset [.wRsv 64, .wPut 32 0, .wPut 1 0]
     s.Ready ∧ (31 : Half).toNat >>> (0 : Byte).toNat < 32 ∧ s.writer.rsvd = 31 ∧
     s.writer.rsvd < (31 : Half).toNat >>> (0 : Byte).toNat + 1) ∧
    (let s := fromReset [.wRsv 64, .wPut 32 0, .wPut 31 0]
     s.Ready ∧ (1 : Byte).toNat ≤ 31 ∧ (0 : Half).toNat >>> (1 : Byte).toNat + 1 = s.writer.rsvd ∧
     s.writer.rsvd < (0 : Half).toNat >>> (1 : Byte).toNat + 1 + (1 : Byte).toNat) :=
  ⟨⟨ready_of_check (by decide +kernel), by decide +kernel⟩,
    ⟨ready_of_check (by decide +kernel), by decide +kernel⟩,
    ready_of_check (by decide +kernel), by decide +kernel⟩

/-- 32 one-bits reserved: an escape marker whose value is missing. -/
def ones32 : State := fromReset [.psAcq, .psSet 0 0xFFFFFFFFFFFFFFFF, .rRsv 64, .rSkip 32]

theorem test_witness_GrRdReadsCode :
    (r32.Ready ∧ (31 : Byte).toNat ≤ 31 ∧ 32 ≤ r32.reader.rsvd ∧
      ∃ c, decodeGr 0 (reservedBits r32) = .ok c ∧ c.1 = 1) ∧
    (ones32.Ready ∧ 32 ≤ ones32.reader.rsvd ∧ decodeGr 0 (reservedBits ones32) = .error .outOfBits) :=
  ⟨⟨ready_of_check (by decide +kernel), by decide, by decide +kernel, exists_ok _ (by decide +kernel)⟩,
    ready_of_check (by decide +kernel), by decide +kernel⟩

theorem test_witness_GolombRoundTrip :
    smallStore.Ready ∧ (31 : Byte).toNat ≤ 31 ∧ smallStore.roomFor 1 ∧ smallStore.writer = freshWriter ∧
    smallStore.reader = freshReader ∧ smallStore.psRcur = smallStore.psWcur :=
  ⟨ready_of_check (by decide), by decide, room_of (by decide), by decide⟩

theorem test_witness_ZigzagEncodes : State.reset.fault = 0 := by decide

theorem test_witness_ZigzagDecodes : (t40 3).fault = 0 := by decide +kernel

theorem test_witness_AdaptKrRule :
    (240 ≤ 240 ∧ 5 / 2 ^ (240 / 8) = 0) ∧ (0 ≤ 240 ∧ 1 / 2 ^ (0 / 8) = 1) ∧ (0 ≤ 240 ∧ 1 < 2 / 2 ^ (0 / 8)) := by
  decide

theorem test_witness_CodersStartFresh : (t40 5).fault = 0 := by decide +kernel

theorem test_witness_EncPutDirect :
    let s := after [.encNew] smallStore
    s.Ready ∧ s.enc.act = true ∧ s.enc.k = 0 ∧ s.roomFor (pagesNeeded 64 s.writer.rsvd) :=
  ⟨ready_of_check (by decide +kernel), by decide +kernel, by decide +kernel, room_of (by decide +kernel)⟩

theorem test_witness_EncPutRunZero :
    ((t40 3).Ready ∧ (t40 3).enc.act = true ∧ 0 < (t40 3).enc.k ∧
      (t40 3).enc.rl + 1 < 2 ^ ((t40 3).enc.k / 8)) ∧
    ((t40 4).Ready ∧ (t40 4).enc.act = true ∧ 0 < (t40 4).enc.k ∧
      (t40 4).enc.rl + 1 = 2 ^ ((t40 4).enc.k / 8) ∧
      (t40 4).roomFor (pagesNeeded (1 + (t40 4).enc.k / 8) (t40 4).writer.rsvd)) :=
  ⟨⟨ready_of_check (by decide +kernel), by decide +kernel⟩, ready_of_check (by decide +kernel),
    by decide +kernel, by decide +kernel, by decide +kernel, room_of (by decide +kernel)⟩

theorem test_witness_EncPutRunNonzero :
    (t40 5).Ready ∧ (t40 5).enc.act = true ∧ 0 < (t40 5).enc.k ∧ (5 : Half) ≠ 0 ∧
    (t40 5).roomFor (termPages ((t40 5).enc.k / 8) (t40 5).writer.rsvd) :=
  ⟨ready_of_check (by decide +kernel), by decide +kernel, by decide +kernel, by decide, room_of (by decide +kernel)⟩

theorem test_witness_EncFlushEnds :
    ((t40 10).Ready ∧ (t40 10).enc.act = true ∧ (t40 10).enc.rl = 0) ∧
    (t42.Ready ∧ t42.enc.act = true ∧ 0 < t42.enc.rl ∧
      t42.roomFor (pagesNeeded (1 + t42.enc.k / 8) t42.writer.rsvd)) :=
  ⟨⟨ready_of_check (by decide +kernel), by decide +kernel⟩, ready_of_check (by decide +kernel),
    by decide +kernel, by decide +kernel, room_of (by decide +kernel)⟩

theorem test_witness_CoderStateFaults :
    State.reset.fault = 0 ∧ State.reset.enc.act = false ∧ State.reset.dec.act = false ∧
    (p5 10).fault = 0 ∧ (p5 10).dec.act = true ∧ (p5 10).dec.rem = 0 := by decide +kernel

theorem test_witness_DecGetHeld :
    ((p5 4).fault = 0 ∧ (p5 4).dec.act = true ∧ 0 < (p5 4).dec.rem ∧ 0 < (p5 4).dec.rl) ∧
    ((p5 9).fault = 0 ∧ (p5 9).dec.act = true ∧ 0 < (p5 9).dec.rem ∧ (p5 9).dec.rl = 0 ∧
      (p5 9).dec.pend = true) := by decide +kernel

/-- What `DecGetParsesCode` asks: the next code is this one, it fits, and its reserves find their pages. -/
def Parses (s : State) (i : Instr) : Prop :=
  s.Ready ∧ decoderReads s = true ∧ ∃ c, decodeCode (decoderCtx s) (streamAhead s) = .ok c ∧
    (c.1 = i ∧ codeFits s.dec c.1 = true ∧ s.psRcur + codePages s.dec s.reader.rsvd c.1 ≤ s.psWcur)

/-- The Direct code, the full window (T40), the terminator with its symbol (T46), the trailing run (T42). -/
theorem test_witness_DecGetParsesCode :
    Parses (p5 0) (.cwDirect 0) ∧ Parses (p5 3) .cwRunfull ∧ Parses d46 (.cwRunterm 1 9) ∧
    Parses d42 (.cwRunend 1) :=
  ⟨⟨ready_of_check (by decide +kernel), by decide +kernel, exists_ok _ (by decide +kernel)⟩,
    ⟨ready_of_check (by decide +kernel), by decide +kernel, exists_ok _ (by decide +kernel)⟩,
    ⟨ready_of_check (by decide +kernel), by decide +kernel, exists_ok _ (by decide +kernel)⟩,
    ready_of_check (by decide +kernel), by decide +kernel, exists_ok _ (by decide +kernel)⟩

/-- A decoder of `count` symbols in front of these pages, with these initial parameters. -/
def decoding (k : Nat) (pages : List Page) (count : Half) : State :=
  after ((List.range pages.length).flatMap (fun i => [.psAcq, .psSet (BitVec.ofNat 32 i) (pages.getD i 0)]) ++
    [.decNew count]) (withInit k 0 none)

/-- Both `F_READ_PAST_WRITE` at the first reserve, in Direct and in Run state. -/
theorem test_witness_DecGetFaults_reserve :
    (let s := decoding 0 [] 1
     s.Ready ∧ decoderReads s = true ∧ s.psRcur = s.psWcur ∧ s.dec.k = 0 ∧ s.reader.rsvd < 64) ∧
    (let s := decoding 8 [] 1
     s.Ready ∧ decoderReads s = true ∧ s.psRcur = s.psWcur ∧ 0 < s.dec.k ∧ s.reader.rsvd < 1 + s.dec.k / 8) :=
  ⟨⟨ready_of_check (by decide +kernel), by decide +kernel⟩,
    ready_of_check (by decide +kernel), by decide +kernel⟩

/-- A window of 2 and a run of 2 where 1 symbol is expected, and a second reserve without its page. -/
theorem test_witness_DecGetFaults_run :
    (let s := decoding 8 [0] 1
     s.Ready ∧ decoderReads s = true ∧ 0 < s.dec.k ∧
     s.psRcur + pagesNeeded (1 + s.dec.k / 8) s.reader.rsvd ≤ s.psWcur ∧
     streamAhead s = false :: (streamAhead s).tail ∧ s.dec.rem < 2 ^ (s.dec.k / 8)) ∧
    (let s := decoding 16 [0xC0] 1
     s.Ready ∧ decoderReads s = true ∧ 0 < s.dec.k ∧
     s.psRcur + pagesNeeded (1 + s.dec.k / 8) s.reader.rsvd ≤ s.psWcur ∧ 2 < 2 ^ (s.dec.k / 8) ∧
     streamAhead s = true :: (bitsOf (s.dec.k / 8) 2 ++ (streamAhead s).drop 3) ∧ s.dec.rem < 2) ∧
    (let s := decoding 8 [0x80] 5
     s.Ready ∧ decoderReads s = true ∧ 0 < s.dec.k ∧ 0 < 2 ^ (s.dec.k / 8) ∧
     streamAhead s = true :: (bitsOf (s.dec.k / 8) 0 ++ (streamAhead s).drop 2) ∧ 0 < s.dec.rem ∧
     s.psRcur + pagesNeeded (1 + s.dec.k / 8) s.reader.rsvd = s.psWcur ∧
     s.reader.rsvd + 64 * pagesNeeded (1 + s.dec.k / 8) s.reader.rsvd < 1 + s.dec.k / 8 + 64) :=
  ⟨⟨ready_of_check (by decide +kernel), by decide +kernel⟩,
    ⟨ready_of_check (by decide +kernel), by decide +kernel⟩,
    ready_of_check (by decide +kernel), by decide +kernel⟩

/-- Two pages of ones in Run state with window 1: the coded quantity `0xFFFFFFFF`. -/
theorem test_witness_DecGetFaults_symbol :
    let s := decoding 1 [0xFFFFFFFFFFFFFFFF, 0xFFFFFFFFFFFFFFFF] 1
    s.Ready ∧ decoderReads s = true ∧ 0 < s.dec.k ∧
    s.psRcur + pagesNeeded (1 + s.dec.k / 8) s.reader.rsvd ≤ s.psWcur ∧ 0 < 2 ^ (s.dec.k / 8) ∧
    streamAhead s = true :: (bitsOf (s.dec.k / 8) 0 ++ (streamAhead s).tail) ∧ 0 < s.dec.rem ∧
    s.psRcur + termPages (s.dec.k / 8) s.reader.rsvd = s.psWcur ∧
    decodeGr (s.dec.kr / 8) (streamAhead s).tail = .ok (0xFFFFFFFF, true, (streamAhead s).drop 65) :=
  ⟨ready_of_check (by decide +kernel), by decide +kernel⟩

/-- What `DecoderCodesComplete` asks of a code that fits. -/
def CodeReady (s : State) (i : Instr) : Prop :=
  s.Ready ∧ decoderReads s = true ∧ ∃ bits, encodeCode (decoderCtx s) i = some bits ∧
    (bits <+: streamAhead s ∧ codeFits s.dec i = true ∧
      s.psRcur + codePages s.dec s.reader.rsvd i ≤ s.psWcur)

theorem test_witness_DecoderCodesComplete :
    CodeReady (p5 0) (.cwDirect 0) ∧ CodeReady (p5 3) .cwRunfull ∧ CodeReady d46 (.cwRunterm 1 9) ∧
    CodeReady d42 (.cwRunend 1) :=
  ⟨⟨ready_of_check (by decide +kernel), by decide +kernel, exists_some _ (by decide +kernel)⟩,
    ⟨ready_of_check (by decide +kernel), by decide +kernel, exists_some _ (by decide +kernel)⟩,
    ⟨ready_of_check (by decide +kernel), by decide +kernel, exists_some _ (by decide +kernel)⟩,
    ready_of_check (by decide +kernel), by decide +kernel, exists_some _ (by decide +kernel)⟩

/-- The bits of a terminator with the symbol 1 where its one zero is all that is expected: T42's last code. -/
theorem test_witness_DecoderCodesComplete_trailing :
    d42.Ready ∧ decoderReads d42 = true ∧ (1 : Half).toNat = d42.dec.rem ∧
    ∃ bits, encodeCode (decoderCtx d42) (.cwRunterm 1 1) = some bits ∧ bits <+: streamAhead d42 :=
  ⟨ready_of_check (by decide +kernel), by decide +kernel, by decide +kernel, exists_some _ (by decide +kernel)⟩

theorem test_witness_GolombCodesComplete :
    ((reading 3 255).Ready ∧ 32 ≤ (reading 3 255).reader.rsvd ∧
      ∃ bits, encodeCode (.golomb (3 : Byte).toNat) (.cwGr 3 255) = some bits ∧
        bits <+: reservedBits (reading 3 255)) ∧
    ((reading 3 256).Ready ∧ 32 ≤ (reading 3 256).reader.rsvd ∧
      ∃ bits, encodeCode (.golomb (3 : Byte).toNat) (.cwEsc 256) = some bits ∧
        bits <+: reservedBits (reading 3 256)) :=
  ⟨⟨ready_of_check (by decide +kernel), by decide +kernel, exists_some _ (by decide +kernel)⟩,
    ready_of_check (by decide +kernel), by decide +kernel, exists_some _ (by decide +kernel)⟩

/-- The checks of `GR.RD` and `DEC.GET`, at the edges: 31 bits reserved, an idle and an exhausted decoder, and
the first reserve without its page in Direct and in Run state. -/
theorem test_witness_CodesTakeTheReadersFaults :
    (let s := fromReset [.psAcq, .rRsv 64, .rSkip 32, .rSkip 1]
     s.fault = 0 ∧ 31 < (32 : Byte).toNat ∧ (31 : Byte).toNat ≤ 31 ∧ s.reader.rsvd < 32) ∧
    (State.reset.fault = 0 ∧ State.reset.dec.act = false) ∧ ((p5 10).fault = 0 ∧ (p5 10).dec.rem = 0) ∧
    (let s := decoding 0 [] 1
     s.Ready ∧ decoderReads s = true ∧ s.psRcur = s.psWcur ∧
     s.reader.rsvd < (if s.dec.k = 0 then 64 else 1 + s.dec.k / 8)) ∧
    (let s := decoding 8 [] 1
     s.Ready ∧ decoderReads s = true ∧ s.psRcur = s.psWcur ∧
     s.reader.rsvd < (if s.dec.k = 0 then 64 else 1 + s.dec.k / 8)) :=
  ⟨by decide +kernel, by decide, by decide +kernel, ⟨ready_of_check (by decide +kernel), by decide +kernel⟩,
    ready_of_check (by decide +kernel), by decide +kernel⟩

/-- T49 (a), and both terminators of 2 zeros where 1 symbol is expected. -/
theorem test_witness_CodesTakeTheReadersFaults_desync :
    (let s := fromReset [.psAcq, .decNew 4, .decGet, .decGet, .decGet]
     s.Ready ∧ decoderReads s = true ∧ 0 < s.dec.k ∧
     s.psRcur + pagesNeeded (1 + s.dec.k / 8) s.reader.rsvd ≤ s.psWcur ∧ [false] <+: streamAhead s ∧
     s.dec.rem < 2 ^ (s.dec.k / 8)) ∧
    (let s := decoding 16 [0xC0] 1
     s.Ready ∧ decoderReads s = true ∧ 0 < s.dec.k ∧
     s.psRcur + pagesNeeded (1 + s.dec.k / 8) s.reader.rsvd ≤ s.psWcur ∧
     encodeCode (decoderCtx s) (.cwRunterm 2 1) = some [true, true, false, false] ∧
     encodeCode (decoderCtx s) (.cwRunend 2) = some [true, true, false] ∧
     [true, true, false, false] <+: streamAhead s ∧ [true, true, false] <+: streamAhead s ∧
     s.dec.rem < (2 : Half).toNat) :=
  ⟨⟨ready_of_check (by decide +kernel), by decide +kernel⟩,
    ready_of_check (by decide +kernel), by decide +kernel⟩

/-- A code with other bits, one with none, a code of the other state, and a code behind held symbols. -/
theorem test_witness_CodesNotAheadStop :
    ((p5 1).Ready ∧ (0 : Byte).toNat ≤ 31 ∧ 32 ≤ (p5 1).reader.rsvd ∧
      encodeCode (.golomb (0 : Byte).toNat) (.cwGr 0 1) = some [true, false] ∧
      ¬ [true, false] <+: streamAhead (p5 1) ∧
      encodeCode (.golomb (0 : Byte).toNat) (.cwGr 0 32) = none ∧ encodeCode (.golomb 0) (.cwEsc 31) = none ∧
      (p5 1).dec.act = true ∧ 0 < (p5 1).dec.rem ∧ (p5 1).dec.atBoundary = true ∧
      (p5 1).psRcur + pagesNeeded (if (p5 1).dec.k = 0 then 64 else 1 + (p5 1).dec.k / 8)
        (p5 1).reader.rsvd ≤ (p5 1).psWcur ∧
      encodeCode (decoderCtx (p5 1)) (.cwDirect 0) = none) ∧
    ((p5 4).Ready ∧ (p5 4).dec.act = true ∧ 0 < (p5 4).dec.rem ∧ (p5 4).dec.atBoundary = false ∧
      encodeCode (decoderCtx (p5 4)) .cwRunfull = some [false] ∧ ¬ [false] <+: streamAhead (p5 4)) :=
  ⟨⟨ready_of_check (by decide +kernel), by decide +kernel⟩,
    ready_of_check (by decide +kernel), by decide +kernel⟩

/-- At a boundary, behind a held zero, and for `GR.RD`. -/
theorem test_witness_ReadersRunTheCodeAhead :
    ((p5 0).Ready ∧ ∃ bits, encodeCode (decoderCtx (p5 0)) (.cwDirect 0) = some bits ∧
      bits <+: streamAhead (p5 0)) ∧
    ((p5 4).Ready ∧ 0 < (p5 4).dec.rl ∧ ∃ bits, encodeCode (decoderCtx (p5 4)) (.cwRunterm 0 5) = some bits ∧
      bits <+: streamAhead (p5 4)) ∧
    ((reading 3 255).Ready ∧ ∃ bits, encodeCode (.golomb (3 : Byte).toNat) (.cwGr 3 255) = some bits ∧
        bits <+: streamAhead (reading 3 255)) :=
  ⟨⟨ready_of_check (by decide +kernel), exists_some _ (by decide +kernel)⟩,
    ⟨ready_of_check (by decide +kernel), by decide +kernel, exists_some _ (by decide +kernel)⟩,
    ready_of_check (by decide +kernel), exists_some _ (by decide +kernel)⟩

/-- T40's encoder and decoder before the symbol 5. -/
theorem test_witness_LockStepOnOneCode :
    (t40 5).Ready ∧ (p5 5).Ready ∧ (t40 5).params = (p5 5).params ∧ (t40 5).enc.act = true ∧
    decoderReads (p5 5) = true ∧ (p5 5).dec.k = (t40 5).enc.k ∧ (p5 5).dec.kr = (t40 5).enc.kr ∧
    (t40 5).enc.rl < (p5 5).dec.rem ∧
    ∃ s', exec (.encPut 5) (t40 5) = .next s' ∧ (s'.fault = 0 ∧ s'.enc.rl = 0) :=
  ⟨ready_of_check (by decide +kernel), ready_of_check (by decide +kernel), by decide +kernel,
    by decide +kernel, by decide +kernel, by decide +kernel, by decide +kernel, by decide +kernel,
    exists_next _ (by decide +kernel)⟩

theorem test_witness_StreamRoundTrip :
    State.reset.Ready ∧ State.reset.psRcur = State.reset.psWcur ∧
    ([0, 0, 0, 5] : List Half).length < 2 ^ 32 ∧
    ∃ r, runAll (Instr.encNew :: (([0, 0, 0, 5] : List Half).map Instr.encPut ++ [Instr.encFlush])) State.reset =
      some r ∧ r.2.fault = 0 :=
  ⟨ready_of_check (by decide), by decide, by decide, exists_some _ (by decide +kernel)⟩

/-- A number outside the register map. -/
abbrev OutsideTheMap (idx : Half) : Prop :=
  idx ∉ ([0x00, 0x01, 0x10, 0x11, 0x20, 0x21, 0x22, 0x23, 0x30, 0x31, 0x32, 0x33, 0x34, 0x35, 0x40, 0x41,
    0x42, 0x43, 0x48, 0x49, 0x4A, 0x4B, 0x4C, 0x4D] : List Half) ∧
  ¬ (0x100 ≤ idx.toNat ∧ idx.toNat < 0x120) ∧ ¬ (0x140 ≤ idx.toNat ∧ idx.toNat < 0x160)

theorem test_witness_CsrRdReadsTheMap :
    (faulted 0).fault ≠ 0 ∧ State.reset.fault = 0 ∧ 31 < 32 ∧ OutsideTheMap 0x02 ∧ OutsideTheMap 0xFF ∧ OutsideTheMap 0x120 ∧
    OutsideTheMap 0x13F ∧ OutsideTheMap 0x160 ∧ OutsideTheMap 0xFFFFFFFF := by decide +kernel

/-- A state without a fault, whose flag registers are not zero. -/
theorem test_witness_FlagRegisters :
    (t40 5).fault = 0 ∧ eFlags (t40 5).enc ≠ 0 := by decide +kernel

theorem test_witness_OnlyNamedCommandsWrite :
    (t40 5).fault = 0 ∧ (∃ t, exec .psLen (t40 5) = .next t ∧ t.fault = 0) ∧
    writesWriter .psLen = false ∧ writesReader .psLen = false ∧ writesEncoder .psLen = false ∧
    writesDecoder .psLen = false ∧ acquiresPages .psLen = false ∧ fetchesPages .psLen = false :=
  ⟨by decide +kernel, exists_next _ (by decide +kernel), by decide⟩

theorem test_witness_CursorsOnlyGrow :
    (t40 5).Ready ∧ ∃ t, exec (.encPut 5) (t40 5) = .next t ∧ t.fault = 0 :=
  ⟨ready_of_check (by decide +kernel), exists_next _ (by decide +kernel)⟩

/-- Byte 0 of the store changes by a commit (T21, row 4) and by `PS.SET`. -/
theorem test_witness_StoreWritesOnlyReservedPages :
    (t21.Ready ∧ ∃ t, exec (.wPut 32 0x89ABCDEF) t21 = .next t ∧
      (t.fault = 0 ∧ memRead t.mem 0 ≠ memRead t21.mem 0)) ∧
    (t30.Ready ∧ ∃ t, exec (.psSet 0 0) t30 = .next t ∧
      (t.fault = 0 ∧ memRead t.mem 0 ≠ memRead t30.mem 0)) :=
  ⟨⟨ready_of_check (by decide +kernel), exists_next _ (by decide +kernel)⟩,
    ready_of_check (by decide +kernel), exists_next _ (by decide +kernel)⟩

theorem test_witness_SidesAreIndependent :
    ((t40 5).fault = 0 ∧ writesWriter (.encPut 5) = true ∧
      ∃ t, exec (.encPut 5) (t40 5) = .next t ∧ t.fault = 0) ∧
    ((p5 5).fault = 0 ∧ writesReader .decGet = true ∧ ∃ t, exec .decGet (p5 5) = .next t ∧ t.fault = 0) :=
  ⟨⟨by decide +kernel, by decide, exists_next _ (by decide +kernel)⟩, by decide +kernel, by decide,
    exists_next _ (by decide +kernel)⟩

end Sys2Proof.Tests
end

/-! PROOF. How much of the state a procedure looks at, and from it that the encoder side and the decoder
side leave each other alone (10_state.md R36; 70_reset_and_hazards.md R360). -/

namespace Sys2Proof.Machine

/-! ## Procedures that commute with a change of state -/

/-- The end of a procedure with its state replaced; a raise has no state. -/
def Res.mapState {α : Type} (f : State → State) : Res α → Res α
  | .ok a s => .ok a (f s)
  | .raise g info => .raise g info

/-- The procedure neither reads nor writes what `f` replaces: run from the replaced state it ends in the same
way, with the same value or the same raise, and leaves the replacement in place. -/
def Blind {α : Type} (f : State → State) (p : State → Res α) : Prop := ∀ s, p (f s) = (p s).mapState f

section Combinators

variable {α β : Type} {f : State → State}

theorem Blind.ok {p : State → Res α} (hp : Blind f p) {s u : State} {a : α} (h : p s = .ok a u) :
    p (f s) = .ok a (f u) := by
  rw [hp s, h, Res.mapState]

theorem andThen_mapState {r r' : Res α} {k k' : α → State → Res β} (hr : r' = r.mapState f)
    (hk : ∀ a t, k' a (f t) = (k a t).mapState f) : r'.andThen k' = (r.andThen k).mapState f := by
  subst hr
  cases r with
  | ok a t => exact hk a t
  | raise g info => rfl

theorem ite_mapState {c : Prop} [Decidable c] {r₁ r₁' r₂ r₂' : Res α} (h₁ : r₁' = r₁.mapState f)
    (h₂ : r₂' = r₂.mapState f) : (if c then r₁' else r₂') = (if c then r₁ else r₂).mapState f := by
  subst h₁ h₂
  split <;> rfl

theorem noResult_blind {p : State → Res Unit} (hp : Blind f p) : Blind f (noResult p) := fun s =>
  andThen_mapState (hp s) fun _ _ => rfl

theorem numResult_blind {p : State → Res Nat} (hp : Blind f p) : Blind f (numResult p) := fun s =>
  andThen_mapState (hp s) fun _ _ => rfl

/-! The operand checks look at no state at all. -/

theorem requireCount_blind (n : Nat) : Blind f (requireCount n) := fun _ => ite_mapState rfl rfl

theorem requirePeekCount_blind (n : Nat) : Blind f (requirePeekCount n) := fun _ => ite_mapState rfl rfl

theorem requireRice_blind (m : Nat) : Blind f (requireRice m) := fun _ => ite_mapState rfl rfl

theorem requireWidth_blind (n v : Nat) : Blind f (requireWidth n v) := fun _ => ite_mapState rfl rfl

end Combinators

/-! ## Commands that commute with a change of state -/

/-- A replacement of registers other than `FAULT` and the model's own response. -/
structure KeepsPort (f : State → State) : Prop where
  fault : ∀ s, (f s).fault = s.fault
  answer : ∀ s v, (f s).answer v = f (s.answer v)

/-- Where the instruction ends without a fault, it does the same after the replacement, which stays. -/
def Unaffected (f : State → State) (m : State → CommandOutcome) : Prop :=
  ∀ s t, s.fault = 0 → m s = .next t → t.fault = 0 → m (f s) = .next (f t)

section Commands

variable {f : State → State}

theorem runProc_unaffected (hf : KeepsPort f) {p : State → Res (BitVec 64)} (hp : Blind f p) :
    Unaffected f (runProc p) := by
  intro s t _ h ht
  rcases runProc_next h with ⟨v, u, hu, rfl⟩ | ⟨g, info, _, rfl⟩
  · rw [runProc_ok (hp.ok hu), hf.answer]
  · exact absurd ht (faultCode_ne_zero g)

theorem runCommand_unaffected (hf : KeepsPort f) {p : State → Res (BitVec 64)} (hp : Blind f p) :
    Unaffected f (runCommand p) := by
  intro s t hs h ht
  rw [runCommand_live hs] at h
  rw [runCommand_live ((hf.fault s).trans hs)]
  exact runProc_unaffected hf hp s t hs h ht

theorem runCode_unaffected (hf : KeepsPort f) {before : State → Res Unit} {ctx : State → CodeCtx} {i : Instr}
    {p : State → Res Nat} (hb : Blind f before) (hctx : ∀ s, ctx (f s) = ctx s)
    (ha : ∀ c s, codeAhead c i (f s) = codeAhead c i s) (hp : Blind f p) :
    Unaffected f fun s => runCode before (ctx s) i p s := by
  intro s t hs h ht
  rcases runCode_cases before (ctx s) i p s with ⟨hs', _⟩ | ⟨_, g, info, _, hr⟩ | ⟨_, _, _, hr⟩ |
    ⟨_, ⟨u, hu⟩, hc, hr⟩
  · exact absurd hs hs'
  · obtain rfl : takeFault g info s = t := by simpa [hr] using h
    exact absurd ht (faultCode_ne_zero g)
  · simp [hr] at h
  · obtain ⟨bits, he, hbits⟩ := codeAhead_iff.mp ((ha (ctx s) s).trans hc)
    show runCode before (ctx (f s)) i p (f s) = .next (f t)
    rw [hctx, runCode_live ((hf.fault s).trans hs) (hb.ok hu) he hbits]
    exact runProc_unaffected hf (numResult_blind hp) s t hs (hr.symm.trans h) ht

end Commands

/-! ## The encoder side is blind to the reader, the decoder and the read cursor -/

/-- The state with another decoder side: reader, decoder and read cursor. -/
def swapDecoderSide (r : Reader) (d : Decoder) (c : Nat) (s : State) : State :=
  { s with reader := r, dec := d, psRcur := c }

section EncoderSide

variable {r : Reader} {d : Decoder} {c : Nat}

theorem swapDecoderSide_keepsPort : KeepsPort (swapDecoderSide r d c) := ⟨fun _ => rfl, fun _ _ => rfl⟩

theorem psAcquire_blind : Blind (swapDecoderSide r d c) psAcquire := fun _ => ite_mapState rfl rfl

theorem pageSet_blind (h : Nat) (v : Page) : Blind (swapDecoderSide r d c) (pageSet h v) := fun _ =>
  ite_mapState rfl rfl

theorem wTake_blind : Blind (swapDecoderSide r d c) wTake := by
  intro s
  obtain ⟨_, _, _, _, ⟨_, _, _, win⟩, _⟩ := s
  cases win <;> rfl

theorem wReserveTurn_blind (minBits : Nat) : Blind (swapDecoderSide r d c) (wReserveTurn minBits) := fun s =>
  ite_mapState (andThen_mapState (psAcquire_blind s) fun _ _ => rfl) rfl

theorem wReserveLoop_blind (minBits n : Nat) : Blind (swapDecoderSide r d c) (wReserveLoop minBits n) := by
  induction n with
  | zero => exact fun _ => ite_mapState rfl rfl
  | succ n ih => exact fun s => ite_mapState (andThen_mapState (wReserveTurn_blind minBits s) fun _ t => ih t) rfl

theorem wReserve_blind (minBits : Nat) : Blind (swapDecoderSide r d c) (wReserve minBits) := fun s =>
  wReserveLoop_blind minBits _ s

theorem commit_blind (word : Page) : Blind (swapDecoderSide r d c) (commit word) := fun s =>
  andThen_mapState (wTake_blind s) fun h t => pageSet_blind h _ t

theorem putBits_blind (n value : Nat) : Blind (swapDecoderSide r d c) (putBits n value) := fun s =>
  ite_mapState rfl (andThen_mapState (commit_blind _ s) fun _ _ => rfl)

theorem requireWritable_blind (n : Nat) : Blind (swapDecoderSide r d c) (requireWritable n) := fun _ =>
  ite_mapState rfl rfl

theorem wPut_blind (n value : Nat) : Blind (swapDecoderSide r d c) (wPut n value) := fun s =>
  andThen_mapState (requireCount_blind n s) fun _ s =>
  andThen_mapState (requireWidth_blind n value s) fun _ s =>
  andThen_mapState (requireWritable_blind n s) fun _ s => putBits_blind n value s

theorem wFlush_blind : Blind (swapDecoderSide r d c) wFlush := fun s =>
  ite_mapState (andThen_mapState (commit_blind _ s) fun _ _ => rfl) rfl

theorem grWriteEscape_blind (x : Nat) : Blind (swapDecoderSide r d c) (grWriteEscape x) := fun s =>
  andThen_mapState (wPut_blind 32 _ s) fun _ s => wPut_blind 32 x s

theorem writeField_blind (n value : Nat) : Blind (swapDecoderSide r d c) (writeField n value) := fun s =>
  ite_mapState (wPut_blind n value s) rfl

theorem grWritePlain_blind (x m : Nat) : Blind (swapDecoderSide r d c) (grWritePlain x m) := fun s =>
  andThen_mapState (wPut_blind _ _ s) fun _ s => writeField_blind m _ s

theorem grWrite_blind (x m : Nat) : Blind (swapDecoderSide r d c) (grWrite x m) := fun s =>
  andThen_mapState (requireRice_blind m s) fun _ s =>
    ite_mapState (grWriteEscape_blind x s) (grWritePlain_blind x m s)

theorem requireEncoder_blind : Blind (swapDecoderSide r d c) requireEncoder := fun _ => ite_mapState rfl rfl

theorem putDirect_blind (u : Nat) : Blind (swapDecoderSide r d c) (putDirect u) := fun s =>
  andThen_mapState (wReserve_blind _ s) fun _ s =>
  andThen_mapState (grWrite_blind u _ s) fun _ _ => rfl

theorem putRunZero_blind : Blind (swapDecoderSide r d c) putRunZero := fun s =>
  ite_mapState
    (andThen_mapState (wReserve_blind _ s) fun _ s => andThen_mapState (wPut_blind 1 0 s) fun _ _ => rfl)
    rfl

theorem putTerminator_blind : Blind (swapDecoderSide r d c) putTerminator := fun s =>
  andThen_mapState (wReserve_blind _ s) fun _ s =>
  andThen_mapState (wPut_blind 1 1 s) fun _ s => writeField_blind _ _ s

theorem putRunNonzero_blind (u : Nat) : Blind (swapDecoderSide r d c) (putRunNonzero u) := fun s =>
  andThen_mapState (putTerminator_blind s) fun _ s =>
  andThen_mapState (wReserve_blind _ s) fun _ s =>
  andThen_mapState (grWrite_blind _ _ s) fun _ _ => rfl

theorem encPut_blind (u : Nat) : Blind (swapDecoderSide r d c) (encPut u) := fun s =>
  andThen_mapState (requireEncoder_blind s) fun _ s =>
    ite_mapState (putDirect_blind u s) (ite_mapState (putRunZero_blind s) (putRunNonzero_blind u s))

theorem flushRun_blind : Blind (swapDecoderSide r d c) flushRun := fun s =>
  ite_mapState (andThen_mapState (putTerminator_blind s) fun _ _ => rfl) rfl

theorem encFlush_blind : Blind (swapDecoderSide r d c) encFlush := fun s =>
  andThen_mapState (requireEncoder_blind s) fun _ s =>
  andThen_mapState (flushRun_blind s) fun _ s =>
  andThen_mapState (wFlush_blind s) fun _ _ => rfl

theorem encoderCommand_unaffected {p : State → Res Unit} (hp : Blind (swapDecoderSide r d c) p) :
    Unaffected (swapDecoderSide r d c) (runCommand (noResult p)) :=
  runCommand_unaffected swapDecoderSide_keepsPort (noResult_blind hp)

/-- Every encoder-side instruction, case by case, is unaffected by the decoder side. -/
theorem encoderSide_unaffected {i : Instr} (hi : writesWriter i = true) :
    Unaffected (swapDecoderSide r d c) (exec i) := by
  cases i with
  | wRsv n => exact encoderCommand_unaffected (wReserve_blind _)
  | wPut n v => exact encoderCommand_unaffected (wPut_blind _ _)
  | wAlign => exact encoderCommand_unaffected fun _ => rfl
  | wFlush => exact encoderCommand_unaffected wFlush_blind
  | grWr m x => exact encoderCommand_unaffected (grWrite_blind _ _)
  | encNew => exact encoderCommand_unaffected fun _ => rfl
  | encPut u => exact encoderCommand_unaffected (encPut_blind _)
  | encFlush => exact encoderCommand_unaffected encFlush_blind
  | _ => cases hi

end EncoderSide

/-! ## The decoder side is blind to the writer and the encoder -/

/-- The state with another encoder side: writer and encoder. -/
def swapEncoderSide (w : Writer) (e : Encoder) (s : State) : State := { s with writer := w, enc := e }

section DecoderSide

variable {w : Writer} {e : Encoder}

theorem swapEncoderSide_keepsPort : KeepsPort (swapEncoderSide w e) := ⟨fun _ => rfl, fun _ _ => rfl⟩

theorem psReadNext_blind : Blind (swapEncoderSide w e) psReadNext := fun _ => ite_mapState rfl rfl

theorem pageGet_blind (h : Nat) : Blind (swapEncoderSide w e) (pageGet h) := fun _ => ite_mapState rfl rfl

theorem rTake_blind : Blind (swapEncoderSide w e) rTake := by
  intro s
  obtain ⟨_, _, _, _, _, ⟨_, _, _, _, _, win⟩, _⟩ := s
  cases win <;> rfl

theorem refillFetch_blind : Blind (swapEncoderSide w e) refillFetch := fun s =>
  ite_mapState
    (andThen_mapState (rTake_blind s) fun h t => andThen_mapState (pageGet_blind h t) fun _ _ => rfl) rfl

theorem refillPass_blind : Blind (swapEncoderSide w e) refillPass := fun s =>
  andThen_mapState (refillFetch_blind s) fun _ _ => rfl

theorem rRefill_blind : Blind (swapEncoderSide w e) rRefill := fun s =>
  andThen_mapState (refillPass_blind s) fun _ t => refillPass_blind t

theorem rReserveTurn_blind (minBits : Nat) : Blind (swapEncoderSide w e) (rReserveTurn minBits) := fun s =>
  ite_mapState (andThen_mapState (psReadNext_blind s) fun _ _ => rfl) rfl

theorem rReserveLoop_blind (minBits n : Nat) : Blind (swapEncoderSide w e) (rReserveLoop minBits n) := by
  induction n with
  | zero => exact fun _ => ite_mapState rfl rfl
  | succ n ih => exact fun s => ite_mapState (andThen_mapState (rReserveTurn_blind minBits s) fun _ t => ih t) rfl

theorem rReserve_blind (minBits : Nat) : Blind (swapEncoderSide w e) (rReserve minBits) := fun s =>
  andThen_mapState (rReserveLoop_blind minBits _ s) fun _ t => rRefill_blind t

theorem requireReadable_blind (n : Nat) : Blind (swapEncoderSide w e) (requireReadable n) := fun _ =>
  ite_mapState rfl rfl

theorem rPeek_blind (n : Nat) : Blind (swapEncoderSide w e) (rPeek n) := fun s =>
  andThen_mapState (requirePeekCount_blind n s) fun _ s =>
  andThen_mapState (requireReadable_blind n s) fun _ _ => rfl

theorem rSkip_blind (n : Nat) : Blind (swapEncoderSide w e) (rSkip n) := fun s =>
  andThen_mapState (requireCount_blind n s) fun _ s =>
  andThen_mapState (requireReadable_blind n s) fun _ s => rRefill_blind { s with reader := dropBits n s.reader }

theorem readField_blind (n : Nat) : Blind (swapEncoderSide w e) (readField n) := fun s =>
  ite_mapState
    (andThen_mapState (rPeek_blind n s) fun _ s => andThen_mapState (rSkip_blind n s) fun _ _ => rfl) rfl

theorem grReadEscape_blind : Blind (swapEncoderSide w e) grReadEscape := fun s =>
  andThen_mapState (rSkip_blind 32 s) fun _ s =>
  andThen_mapState (rPeek_blind 32 s) fun _ s =>
  andThen_mapState (rSkip_blind 32 s) fun _ _ => rfl

theorem grReadPlain_blind (v m : Nat) : Blind (swapEncoderSide w e) (grReadPlain v m) := fun s =>
  andThen_mapState (rSkip_blind _ s) fun _ s => andThen_mapState (readField_blind m s) fun _ _ => rfl

theorem grRead_blind (m : Nat) : Blind (swapEncoderSide w e) (grRead m) := fun s =>
  andThen_mapState (requireRice_blind m s) fun _ s =>
  andThen_mapState (rPeek_blind 32 s) fun v s =>
    ite_mapState (grReadEscape_blind s) (grReadPlain_blind v m s)

/-! The decoder. -/

theorem requireDecoder_blind : Blind (swapEncoderSide w e) requireDecoder := fun _ => ite_mapState rfl rfl

theorem requireRemaining_blind (v : Nat) : Blind (swapEncoderSide w e) (requireRemaining v) := fun _ =>
  ite_mapState rfl rfl

theorem directDone_blind (u : Nat) : Blind (swapEncoderSide w e) (directDone u) := fun _ => rfl

theorem runFullDone_blind : Blind (swapEncoderSide w e) runFullDone := fun s =>
  andThen_mapState (requireRemaining_blind _ s) fun _ _ => rfl

theorem runEndDone_blind (rl : Nat) : Blind (swapEncoderSide w e) (runEndDone rl) := fun _ => rfl

theorem runTermDone_blind (rl x : Nat) : Blind (swapEncoderSide w e) (runTermDone rl x) := fun _ =>
  ite_mapState rfl (ite_mapState rfl rfl)

theorem getDirect_blind : Blind (swapEncoderSide w e) getDirect := fun s =>
  andThen_mapState (rReserve_blind _ s) fun _ s =>
  andThen_mapState (grRead_blind _ s) fun u s => directDone_blind u s

theorem getTerminator_blind (rl : Nat) : Blind (swapEncoderSide w e) (getTerminator rl) := fun s =>
  andThen_mapState (requireRemaining_blind rl s) fun _ s =>
    ite_mapState (runEndDone_blind rl s)
      (andThen_mapState (rReserve_blind _ s) fun _ s =>
       andThen_mapState (grRead_blind _ s) fun x s => runTermDone_blind rl x s)

theorem getRun_blind : Blind (swapEncoderSide w e) getRun := fun s =>
  andThen_mapState (rReserve_blind _ s) fun _ s =>
  andThen_mapState (readField_blind 1 s) fun _ s =>
    ite_mapState (runFullDone_blind s)
      (andThen_mapState (readField_blind _ s) fun rl s => getTerminator_blind rl s)

theorem decoderMeets_blind {p : State → Res Nat} (hp : Blind (swapEncoderSide w e) p) :
    Blind (swapEncoderSide w e) (decoderMeets p) := fun s => ite_mapState rfl (ite_mapState rfl (hp s))

theorem decGet_blind : Blind (swapEncoderSide w e) decGet := fun s =>
  andThen_mapState (requireDecoder_blind s) fun _ s =>
    ite_mapState rfl (ite_mapState rfl (ite_mapState (getDirect_blind s) (getRun_blind s)))

theorem decoderCommand_unaffected {p : State → Res (BitVec 64)} (hp : Blind (swapEncoderSide w e) p) :
    Unaffected (swapEncoderSide w e) (runCommand p) := runCommand_unaffected swapEncoderSide_keepsPort hp

/-! The codes of the stream as instructions. -/

theorem decoderBefore_blind : Blind (swapEncoderSide w e) decoderBefore := fun s =>
  andThen_mapState (requireDecoder_blind s) fun _ s => ite_mapState (rReserve_blind _ s) rfl

theorem golombBefore_blind : Blind (swapEncoderSide w e) golombBefore := requireReadable_blind 32

theorem skipField_blind (n : Nat) : Blind (swapEncoderSide w e) (skipField n) := fun s =>
  ite_mapState (rSkip_blind n s) rfl

theorem skipEscape_blind : Blind (swapEncoderSide w e) skipEscape := fun s =>
  andThen_mapState (requireReadable_blind 32 s) fun _ s =>
  andThen_mapState (rSkip_blind 32 s) fun _ s => rSkip_blind 32 s

theorem skipPlain_blind (x m : Nat) : Blind (swapEncoderSide w e) (skipPlain x m) := fun s =>
  andThen_mapState (requireReadable_blind 32 s) fun _ s =>
  andThen_mapState (rSkip_blind _ s) fun _ s => skipField_blind m s

theorem skipGr_blind (x m : Nat) : Blind (swapEncoderSide w e) (skipGr x m) := fun s =>
  ite_mapState (skipEscape_blind s) (skipPlain_blind x m s)

theorem skipFlag_blind : Blind (swapEncoderSide w e) skipFlag := fun s =>
  andThen_mapState (rReserve_blind _ s) fun _ s => rSkip_blind 1 s

theorem skipTerminator_blind : Blind (swapEncoderSide w e) skipTerminator := fun s =>
  andThen_mapState (skipFlag_blind s) fun _ s => skipField_blind _ s

/-- The stream ahead of the reader is in the store and the reader. -/
theorem codeAhead_swapEncoderSide (ctx : CodeCtx) (i : Instr) (s : State) :
    codeAhead ctx i (swapEncoderSide w e s) = codeAhead ctx i s := rfl

theorem golombCode_unaffected (ctx : CodeCtx) (i : Instr) {before : State → Res Unit} {p : State → Res Nat}
    (hb : Blind (swapEncoderSide w e) before) (hp : Blind (swapEncoderSide w e) p) :
    Unaffected (swapEncoderSide w e) (runCode before ctx i p) :=
  runCode_unaffected (ctx := fun _ => ctx) swapEncoderSide_keepsPort hb (fun _ => rfl)
    (codeAhead_swapEncoderSide · i ·) hp

theorem decoderCode_unaffected (i : Instr) {p : State → Res Nat} (hp : Blind (swapEncoderSide w e) p) :
    Unaffected (swapEncoderSide w e) (runDecoderCode i p) :=
  runCode_unaffected (ctx := decoderCtx) swapEncoderSide_keepsPort decoderBefore_blind (fun _ => rfl)
    (codeAhead_swapEncoderSide · i ·) (decoderMeets_blind hp)

/-- Every decoder-side instruction, case by case, is unaffected by the encoder side. -/
theorem decoderSide_unaffected {i : Instr} (hi : writesReader i = true) :
    Unaffected (swapEncoderSide w e) (exec i) := by
  cases i with
  | rRsv n => exact decoderCommand_unaffected (noResult_blind (rReserve_blind _))
  | rSkip n => exact decoderCommand_unaffected (noResult_blind (rSkip_blind _))
  | grRd m => exact decoderCommand_unaffected (numResult_blind (grRead_blind _))
  | decNew n => exact decoderCommand_unaffected (noResult_blind fun _ => rfl)
  | decGet => exact decoderCommand_unaffected (numResult_blind decGet_blind)
  | cwGr m x =>
    exact golombCode_unaffected _ _
      (fun s => andThen_mapState (requireRice_blind _ s) fun _ s => golombBefore_blind s)
      (fun s => andThen_mapState (skipPlain_blind _ _ s) fun _ _ => rfl)
  | cwEsc x =>
    exact golombCode_unaffected _ _ golombBefore_blind
      (fun s => andThen_mapState (skipEscape_blind s) fun _ _ => rfl)
  | cwRunfull =>
    exact decoderCode_unaffected _ fun s =>
      andThen_mapState (skipFlag_blind s) fun _ s => runFullDone_blind s
  | cwRunterm rl u =>
    exact decoderCode_unaffected _ fun s =>
      andThen_mapState (skipTerminator_blind s) fun _ s =>
      andThen_mapState (requireRemaining_blind _ s) fun _ s =>
        ite_mapState (runEndDone_blind _ s)
          (andThen_mapState (rReserve_blind _ s) fun _ s =>
           andThen_mapState (skipGr_blind _ _ s) fun _ s => runTermDone_blind _ _ s)
  | cwRunend rl =>
    exact decoderCode_unaffected _ fun s =>
      andThen_mapState (skipTerminator_blind s) fun _ s => getTerminator_blind _ s
  | cwDirect u =>
    exact decoderCode_unaffected _ fun s =>
      andThen_mapState (rReserve_blind _ s) fun _ s =>
      andThen_mapState (skipGr_blind _ _ s) fun _ s => directDone_blind _ s
  | _ => cases hi

end DecoderSide

/-- Settles O60: every procedure of one side commutes with a replacement of the other side. -/
theorem sidesAreIndependent : Obligations.SidesAreIndependent := by
  intro i s t hs h ht
  exact ⟨fun hi _ _ _ => encoderSide_unaffected hi s t hs h ht,
    fun hi _ _ => decoderSide_unaffected hi s t hs h ht⟩

end Sys2Proof.Machine

/-! PROOF. The step, the reset state, the register map and the flag registers (10_state.md R27 to R29, R51;
47_system.md R290). -/

namespace Sys2Proof.Machine

/-! ## The step -/

/-- Settles O6: `State.advance` is the position advanced by one. -/
theorem stepRunsDecoded : Obligations.StepRunsDecoded := by
  intro s p i hp hi
  simp only [step, fetchPacket, hp, hi, State.advance]

/-! ## Reset -/

theorem wireByte_eq_none_of_empty {s : State} (h : s.psWcur = 0) (i : Nat) : wireByte s i = none := by
  rw [wireByte, if_neg (by omega)]

/-- Settles O8, from the fields of the reset state. -/
theorem resetState : Obligations.ResetState := fun p =>
  ⟨⟨resetWith_mem p, resetWith_psWcur p, resetWith_psRcur p, wireByte_eq_none_of_empty (resetWith_psWcur p)⟩,
    resetWith_writer p, resetWith_reader p, resetWith_enc p, resetWith_dec p, resetWith_fault p,
    resetWith_finfo p⟩

/-! ## `CSR.RD` -/

theorem csrInFaultState_iff {idx : Half} : csrInFaultState (auxOperand idx) = true ↔ idx = 0 ∨ idx = 1 := by
  simp [csrInFaultState, auxOperand, BitVec.toNat_eq]

/-- `CSR.RD` of a number of the map, where it is not refused (47_system.md R290; 60_exceptions.md R311). -/
theorem exec_csrRd_of_read {s : State} {idx : Half} {v : BitVec 64} (hf : s.fault = 0 ∨ idx = 0 ∨ idx = 1)
    (h : csrRead idx.toNat s = some v) :
    exec (.csrRd idx) s = .next { s with response := okWith v } := by
  have hp : csrProc (auxOperand idx) s = .ok v s := by simp [csrProc, auxOperand, h]
  show execCsrRd idx s = .next (s.answer v)
  unfold execCsrRd
  split
  · exact runProc_ok hp
  · rename_i hi
    have hf : s.fault = 0 := hf.resolve_right (mt csrInFaultState_iff.mpr hi)
    rw [runCommand_live hf, runProc_ok hp]

/-- A table of registers is read row by row. -/
theorem exec_csrRd_of_rows {s : State} (hf : s.fault = 0) {rows : List (Half × BitVec 64)}
    (h : rows.map (fun r => csrRead r.1.toNat s) = rows.map fun r => some r.2) :
    ∀ r ∈ rows, exec (.csrRd r.1) s = .next { s with response := okWith r.2 } := fun r hr =>
  exec_csrRd_of_read (.inl hf) (List.map_inj_left.mp h r hr)

theorem exec_csrRd_of_undefined {s : State} {idx : Half} (hf : s.fault = 0) (h : csrRead idx.toNat s = none) :
    exec (.csrRd idx) s = .next (takeFault .badOperand idx.toNat s) := by
  have hp : csrProc (auxOperand idx) s = .raise .badOperand idx.toNat := by simp [csrProc, auxOperand, h]
  show execCsrRd idx s = _
  rw [execCsrRd, runCommand_live hf, runProc_raise hp, ite_self]

theorem exec_csrRd_refused {s : State} {idx : Half} (hf : s.fault ≠ 0) (h0 : idx ≠ 0) (h1 : idx ≠ 1) :
    exec (.csrRd idx) s = .next s.refuse := by
  show execCsrRd idx s = _
  rw [execCsrRd, if_neg (csrInFaultState_iff.not.mpr (not_or.mpr ⟨h0, h1⟩)), runCommand_faulted hf]

theorem csrRead_fault {s : State} (hf : s.fault = 0) : csrRead (0 : Half).toNat s = some 0 := by
  show some (s.fault.setWidth 64) = some 0
  rw [hf]
  rfl

theorem csrRead_writerWindow (s : State) {i : Nat} (hi : i < 32) :
    csrRead (BitVec.ofNat 32 (0x100 + i)).toNat s = some (BitVec.ofNat 64 (s.writer.win.getD i 0)) := by
  have hn : (BitVec.ofNat 32 (0x100 + i)).toNat = 0x100 + i := by
    rw [BitVec.toNat_ofNat]
    omega
  rw [hn, csrRead, if_pos (by omega), windowEntry, Nat.add_sub_cancel_left]

theorem csrRead_readerWindow (s : State) {i : Nat} (hi : i < 32) :
    csrRead (BitVec.ofNat 32 (0x140 + i)).toNat s = some (BitVec.ofNat 64 (s.reader.win.getD i 0)) := by
  have hn : (BitVec.ofNat 32 (0x140 + i)).toNat = 0x140 + i := by
    rw [BitVec.toNat_ofNat]
    omega
  rw [hn, csrRead, if_neg (by omega), if_pos (by omega), windowEntry, Nat.add_sub_cancel_left]

/-- The numbers of the registers below the windows (10_state.md R29). -/
def csrNumbers : List Half :=
  [0x00, 0x01, 0x10, 0x11, 0x20, 0x21, 0x22, 0x23, 0x30, 0x31, 0x32, 0x33, 0x34, 0x35, 0x40, 0x41, 0x42, 0x43,
    0x48, 0x49, 0x4A, 0x4B, 0x4C, 0x4D]

/-- No register but those of `csrNumbers` has a name. -/
theorem csrNamed_eq_none {s : State} {n : Nat} (h : n ∉ csrNumbers.map BitVec.toNat) : csrNamed n s = none := by
  unfold csrNamed
  split
  case h_25 => rfl
  all_goals exact absurd (by decide) h

theorem csrRead_eq_none {s : State} {idx : Half} (hn : idx ∉ csrNumbers)
    (hw : ¬ (0x100 ≤ idx.toNat ∧ idx.toNat < 0x120)) (hr : ¬ (0x140 ≤ idx.toNat ∧ idx.toNat < 0x160)) :
    csrRead idx.toNat s = none := by
  have hm : idx.toNat ∉ csrNumbers.map BitVec.toNat := by
    rwa [List.mem_map_of_injective fun _ _ => BitVec.eq_of_toNat_eq]
  rw [csrRead, if_neg hw, if_neg hr, csrNamed_eq_none hm]

/-- Settles O55: in the fault state by the two numbers that still read, without a fault by the parts of the
map. -/
theorem csrRdReadsTheMap : Obligations.CsrRdReadsTheMap := by
  refine ⟨fun s idx hf => ?_, fun s hf => ⟨?_, fun i hi => ⟨?_, ?_⟩, fun idx hn hw hr => ?_⟩⟩
  · split
    · subst idx
      exact exec_csrRd_of_read (.inr (.inl rfl)) rfl
    · split
      · subst idx
        exact exec_csrRd_of_read (.inr (.inr rfl)) rfl
      · exact exec_csrRd_refused hf ‹_› ‹_›
  · exact List.forall_mem_cons.mpr ⟨exec_csrRd_of_read (.inl hf) (csrRead_fault hf),
      exec_csrRd_of_rows hf rfl⟩
  · exact exec_csrRd_of_read (.inl hf) (csrRead_writerWindow s hi)
  · exact exec_csrRd_of_read (.inl hf) (csrRead_readerWindow s hi)
  · exact exec_csrRd_of_undefined hf (csrRead_eq_none hn hw hr)

/-! ## The flag registers -/

/-- A flag register as a number in binary, the bits put in front one after another. -/
theorem flagBits_eq_bit (b0 b1 b2 b3 : Bool) :
    flagBits b0 b1 b2 b3 = BitVec.ofNat 64 (Nat.bit b0 (Nat.bit b1 (Nat.bit b2 (Nat.bit b3 0)))) := by
  rw [flagBits]
  congr 1
  simp only [Nat.bit_val]
  omega

theorem flagBits_getLsbD (b0 b1 b2 b3 : Bool) (j : Nat) : (flagBits b0 b1 b2 b3).getLsbD j =
    if j = 0 then b0 else if j = 1 then b1 else if j = 2 then b2 else if j = 3 then b3 else false := by
  rw [flagBits_eq_bit, BitVec.getLsbD_ofNat]
  match j with
  | 0 | 1 | 2 | 3 | j + 4 => simp [Nat.testBit_bit_succ]

/-- Settles O56: the bits of `flagBits`, and the register map at the two numbers. -/
theorem flagRegisters : Obligations.FlagRegisters := by
  refine ⟨fun e j => ?_, fun d j => ?_, fun s hf => ⟨?_, ?_⟩, fun p => ⟨rfl, rfl⟩⟩
  · rw [eFlags, flagBits_getLsbD, ite_self]
    rfl
  · rw [dFlags, flagBits_getLsbD]
    rfl
  · exact exec_csrRd_of_read (.inl hf) rfl
  · exact exec_csrRd_of_read (.inl hf) rfl

end Sys2Proof.Machine

/-! PROOF. The wire format (20_memory.md R60 to R62). -/

namespace Sys2Proof.Machine

/-- Bit `i` of a page of the store is bit `i mod 8` of its wire byte `i / 8`. -/
theorem getLsbD_pageRead (m : Memory) (h : Nat) {i : Nat} (hi : i < 64) :
    (pageRead m h).getLsbD i = (memRead m (8 * h + i / 8)).getLsbD (i % 8) :=
  getLsbD_pageOfBytes (fun j => memRead m (8 * h + j)) hi

/-- In the stream word the bytes of the page are reversed: bit `i` is in wire byte `7 - i / 8`. -/
theorem getLsbD_streamWord (m : Memory) (h : Nat) {i : Nat} (hi : i < 64) :
    (streamWord m h).getLsbD i = (memRead m (8 * h + (7 - i / 8))).getLsbD (i % 8) := by
  have hbyte : (8 * (7 - i / 8) + i % 8) / 8 = 7 - i / 8 := by omega
  have hbit : (8 * (7 - i / 8) + i % 8) % 8 = i % 8 := by omega
  rw [streamWord, getLsbD_bswap64 _ hi, getLsbD_pageRead m h (by omega), hbyte, hbit]

theorem pageBits_getElem? (m : Memory) (h : Nat) {t : Nat} (ht : t < 64) :
    (pageBits m h)[t]? = some ((memRead m (8 * h + t / 8)).getLsbD (7 - t % 8)) := by
  have hlen : t < (pageBits m h).length := by rwa [pageBits, bitsOf_length]
  have hbyte : 7 - (63 - t) / 8 = t / 8 := by omega
  have hbit : (63 - t) % 8 = 7 - t % 8 := by omega
  rw [List.getElem?_eq_getElem hlen]
  congr 1
  calc (pageBits m h)[t]
      = (streamWord m h).getLsbD (63 - t) := bitsOf_getElem _ _ _ hlen
    _ = (memRead m (8 * h + t / 8)).getLsbD (7 - t % 8) := by
        rw [getLsbD_streamWord m h (by omega), hbyte, hbit]

theorem pageByte_pageRead (m : Memory) (h : Nat) {j : Nat} (hj : j < 8) :
    pageByte (pageRead m h) j = memRead m (8 * h + j) := by
  apply BitVec.eq_of_getLsbD_eq
  intro i hi
  rw [getLsbD_pageByte _ _ hi, getLsbD_pageRead m h (by omega)]
  congr 2 <;> omega

theorem extractLsb'_streamWord (m : Memory) (h : Nat) {j : Nat} (hj : j < 8) :
    (streamWord m h).extractLsb' (56 - 8 * j) 8 = memRead m (8 * h + j) := by
  apply BitVec.eq_of_getLsbD_eq
  intro i hi
  rw [BitVec.getLsbD_extractLsb', decide_eq_true hi, Bool.true_and, getLsbD_streamWord m h (by omega)]
  congr 2 <;> omega

theorem wireByte_of_lt {s : State} {i : Nat} (h : i < 8 * s.psWcur) : wireByte s i = some (memRead s.mem i) :=
  if_pos h

theorem wireByte_of_le {s : State} {i : Nat} (h : 8 * s.psWcur ≤ i) : wireByte s i = none :=
  if_neg (Nat.not_lt.mpr h)

/-- Settles O23: the bit and byte forms from the bits of the stream word, the extent of the image from
`wireByte`, the stored word from the rules of a page write. -/
theorem wireFormat : Obligations.WireFormat :=
  ⟨fun m h _ ht => pageBits_getElem? m h ht,
    fun m h _ hj => ⟨pageByte_pageRead m h hj, (extractLsb'_streamWord m h hj).symm⟩,
    fun _ _ => ⟨wireByte_of_lt, wireByte_of_le⟩,
    fun _ h _ word hm => ⟨streamWord_pageWrite hm h word, pageRead_pageWrite_same hm h (bswap64 word),
      fun hg => pageRead_pageWrite_other hm hg (bswap64 word)⟩⟩

end Sys2Proof.Machine

/-! PROOF. Which groups of registers an instruction writes (10_state.md section 5; 20_memory.md R66): every
procedure changes only the groups its instruction names, whatever the state it runs in. -/

namespace Sys2Proof.Machine

/-! ## The frame of an instruction -/

/-- From `s` to `t` nothing changed but the store, `FAULT`, the response and the groups of registers that `i`
names. -/
structure Frame (i : Instr) (s t : State) : Prop where
  params : t.params = s.params := by rfl
  finfo : t.finfo = s.finfo := by rfl
  program : t.program = s.program := by rfl
  pos : t.pos = s.pos := by rfl
  writer : writesWriter i = false → t.writer = s.writer := by exact fun _ => rfl
  reader : writesReader i = false → t.reader = s.reader := by exact fun _ => rfl
  enc : writesEncoder i = false → t.enc = s.enc := by exact fun _ => rfl
  dec : writesDecoder i = false → t.dec = s.dec := by exact fun _ => rfl
  wcur : acquiresPages i = false → t.psWcur = s.psWcur := by exact fun _ => rfl
  rcur : fetchesPages i = false → t.psRcur = s.psRcur := by exact fun _ => rfl

namespace Frame

variable {i : Instr} {s t u : State}

theorem refl (s : State) : Frame i s s := {}

theorem trans (h : Frame i s t) (h' : Frame i t u) : Frame i s u where
  params := h'.params.trans h.params
  finfo := h'.finfo.trans h.finfo
  program := h'.program.trans h.program
  pos := h'.pos.trans h.pos
  writer hi := (h'.writer hi).trans (h.writer hi)
  reader hi := (h'.reader hi).trans (h.reader hi)
  enc hi := (h'.enc hi).trans (h.enc hi)
  dec hi := (h'.dec hi).trans (h.dec hi)
  wcur hi := (h'.wcur hi).trans (h.wcur hi)
  rcur hi := (h'.rcur hi).trans (h.rcur hi)

/-! A write to one group is in the frame of an instruction that names it. -/

theorem setMem (m : Memory) : Frame i s { s with mem := m } := {}

theorem setWriter (hi : writesWriter i = true) (w : Writer) : Frame i s { s with writer := w } where
  writer h := Bool.noConfusion (hi.symm.trans h)

theorem setReader (hi : writesReader i = true) (r : Reader) : Frame i s { s with reader := r } where
  reader h := Bool.noConfusion (hi.symm.trans h)

theorem setEnc (hi : writesEncoder i = true) (e : Encoder) : Frame i s { s with enc := e } where
  enc h := Bool.noConfusion (hi.symm.trans h)

theorem setDec (hi : writesDecoder i = true) (d : Decoder) : Frame i s { s with dec := d } where
  dec h := Bool.noConfusion (hi.symm.trans h)

theorem setPages (hi : acquiresPages i = true) (m : Memory) (n : Nat) :
    Frame i s { s with mem := m, psWcur := n } where
  wcur h := Bool.noConfusion (hi.symm.trans h)

theorem setRcur (hi : fetchesPages i = true) (n : Nat) : Frame i s { s with psRcur := n } where
  rcur h := Bool.noConfusion (hi.symm.trans h)

theorem answer (v : BitVec 64) : Frame i s (s.answer v) := {}

end Frame

/-! ## Procedures confined to a frame -/

/-- If the procedure begun in `s` ends normally, it ends in the frame of `i`. -/
def Res.InFrame {α : Type} (i : Instr) (s : State) (r : Res α) : Prop := ∀ a t, r = .ok a t → Frame i s t

/-- The procedure writes only what `i` names, from every state. -/
def Confined {α : Type} (i : Instr) (p : State → Res α) : Prop := ∀ s, (p s).InFrame i s

section Combinators

variable {α β : Type} {i : Instr} {s t : State}

theorem ok_inFrame {a : α} (h : Frame i s t) : (Res.ok a t).InFrame i s := by
  rintro _ _ ⟨⟩
  exact h

theorem raise_inFrame {f : FaultName} {info : Nat} : (Res.raise f info : Res α).InFrame i s := by
  rintro _ _ ⟨⟩

theorem andThen_inFrame {r : Res α} {k : α → State → Res β} (hr : r.InFrame i s) (hk : ∀ a, Confined i (k a)) :
    (r.andThen k).InFrame i s := by
  intro b u h
  obtain ⟨a, t, hrt, hku⟩ := andThen_eq_ok.mp h
  exact (hr a t hrt).trans (hk a t b u hku)

theorem ite_inFrame {c : Prop} [Decidable c] {r₁ r₂ : Res α} (h₁ : r₁.InFrame i s) (h₂ : r₂.InFrame i s) :
    (if c then r₁ else r₂).InFrame i s := by
  split
  · exact h₁
  · exact h₂

/-- A procedure that leaves the state as it is. -/
theorem ok_confined (f : State → α) : Confined i fun s => .ok (f s) s := fun s => ok_inFrame (.refl s)

/-- A check leaves the state as it is. -/
theorem check_inFrame {c : Prop} [Decidable c] {a : α} {f : FaultName} {info : Nat} :
    (if c then Res.ok a s else .raise f info).InFrame i s := ite_inFrame (ok_inFrame (.refl s)) raise_inFrame

theorem noResult_confined {p : State → Res Unit} (hp : Confined i p) : Confined i (noResult p) := fun s =>
  andThen_inFrame (hp s) fun _ => ok_confined _

theorem numResult_confined {p : State → Res Nat} (hp : Confined i p) : Confined i (numResult p) := fun s =>
  andThen_inFrame (hp s) fun _ => ok_confined _

end Combinators

/-! The operand checks and the checks of the coders. -/

section Checks

variable {i : Instr}

theorem requireCount_confined (n : Nat) : Confined i (requireCount n) := fun _ => check_inFrame

theorem requirePeekCount_confined (n : Nat) : Confined i (requirePeekCount n) := fun _ => check_inFrame

theorem requireRice_confined (m : Nat) : Confined i (requireRice m) := fun _ => check_inFrame

theorem requireWidth_confined (n v : Nat) : Confined i (requireWidth n v) := fun _ => check_inFrame

theorem requireWritable_confined (n : Nat) : Confined i (requireWritable n) := fun _ => check_inFrame

theorem requireReadable_confined (n : Nat) : Confined i (requireReadable n) := fun _ => check_inFrame

theorem requireEncoder_confined : Confined i requireEncoder := fun _ => check_inFrame

theorem requireDecoder_confined : Confined i requireDecoder := fun _ => check_inFrame

theorem requireRemaining_confined (v : Nat) : Confined i (requireRemaining v) := fun _ => check_inFrame

theorem pageGet_confined (h : Nat) : Confined i (pageGet h) := fun _ => check_inFrame

theorem pageSet_confined (h : Nat) (v : Page) : Confined i (pageSet h v) := fun _ =>
  ite_inFrame (ok_inFrame (.setMem _)) raise_inFrame

theorem rPeek_confined (n : Nat) : Confined i (rPeek n) := fun s =>
  andThen_inFrame (requirePeekCount_confined n s) fun _ s =>
  andThen_inFrame (requireReadable_confined n s) fun _ => ok_confined _

theorem csrProc_confined (idx : Nat) : Confined i (csrProc idx) := by
  intro s
  unfold csrProc
  split
  · exact ok_inFrame (.refl s)
  · exact raise_inFrame

end Checks

/-! ## The writer -/

section Writer

variable {i : Instr} (hw : writesWriter i = true)
include hw

theorem wTake_confined : Confined i wTake := by
  intro s h t ht
  obtain ⟨rest, _, rfl⟩ := wTake_eq_ok.mp ht
  exact .setWriter hw _

theorem commit_confined (word : Page) : Confined i (commit word) := fun s =>
  andThen_inFrame (wTake_confined hw s) fun h => pageSet_confined h _

theorem putBits_confined (n value : Nat) : Confined i (putBits n value) := fun s =>
  ite_inFrame (ok_inFrame (.setWriter hw _))
    (andThen_inFrame (commit_confined hw _ s) fun _ _ => ok_inFrame (.setWriter hw _))

theorem wPut_confined (n value : Nat) : Confined i (wPut n value) := fun s =>
  andThen_inFrame (requireCount_confined n s) fun _ s =>
  andThen_inFrame (requireWidth_confined n value s) fun _ s =>
  andThen_inFrame (requireWritable_confined n s) fun _ => putBits_confined hw n value

theorem wFlush_confined : Confined i wFlush := fun s =>
  ite_inFrame (andThen_inFrame (commit_confined hw _ s) fun _ _ => ok_inFrame (.setWriter hw _))
    (ok_inFrame (.refl s))

theorem writeField_confined (n value : Nat) : Confined i (writeField n value) := fun s =>
  ite_inFrame (wPut_confined hw n value s) (ok_inFrame (.refl s))

theorem grWrite_confined (x m : Nat) : Confined i (grWrite x m) := fun s =>
  andThen_inFrame (requireRice_confined m s) fun _ s =>
    ite_inFrame (andThen_inFrame (wPut_confined hw _ _ s) fun _ => wPut_confined hw _ _)
      (andThen_inFrame (wPut_confined hw _ _ s) fun _ => writeField_confined hw _ _)

end Writer

/-! ## The acquisition of pages and the encoder -/

theorem psAcquire_confined {i : Instr} (ha : acquiresPages i = true) : Confined i psAcquire := fun _ =>
  ite_inFrame (ok_inFrame (.setPages ha _ _)) raise_inFrame

section Encoder

variable {i : Instr} (hw : writesWriter i = true) (ha : acquiresPages i = true)
include hw ha

theorem wReserveTurn_confined (minBits : Nat) : Confined i (wReserveTurn minBits) := fun s =>
  ite_inFrame (andThen_inFrame (psAcquire_confined ha s) fun _ _ => ok_inFrame (.setWriter hw _)) raise_inFrame

theorem wReserveLoop_confined (minBits n : Nat) : Confined i (wReserveLoop minBits n) := by
  induction n with
  | zero => exact fun s => ite_inFrame raise_inFrame (ok_inFrame (.refl s))
  | succ n ih =>
    exact fun s => ite_inFrame (andThen_inFrame (wReserveTurn_confined hw ha minBits s) fun _ => ih)
      (ok_inFrame (.refl s))

theorem wReserve_confined (minBits : Nat) : Confined i (wReserve minBits) := fun s =>
  wReserveLoop_confined hw ha minBits _ s

theorem putTerminator_confined : Confined i putTerminator := fun s =>
  andThen_inFrame (wReserve_confined hw ha _ s) fun _ s =>
  andThen_inFrame (wPut_confined hw 1 1 s) fun _ s => writeField_confined hw _ _ s

variable (he : writesEncoder i = true)
include he

theorem putDirect_confined (u : Nat) : Confined i (putDirect u) := fun s =>
  andThen_inFrame (wReserve_confined hw ha _ s) fun _ s =>
  andThen_inFrame (grWrite_confined hw u _ s) fun _ _ => ok_inFrame (.setEnc he _)

theorem putRunZero_confined : Confined i putRunZero := fun s =>
  ite_inFrame
    (andThen_inFrame (wReserve_confined hw ha _ s) fun _ s =>
     andThen_inFrame (wPut_confined hw 1 0 s) fun _ _ => ok_inFrame (.setEnc he _))
    (ok_inFrame (.setEnc he _))

theorem putRunNonzero_confined (u : Nat) : Confined i (putRunNonzero u) := fun s =>
  andThen_inFrame (putTerminator_confined hw ha s) fun _ s =>
  andThen_inFrame (wReserve_confined hw ha _ s) fun _ s =>
  andThen_inFrame (grWrite_confined hw _ _ s) fun _ _ => ok_inFrame (.setEnc he _)

theorem encPut_confined (u : Nat) : Confined i (encPut u) := fun s =>
  andThen_inFrame (requireEncoder_confined s) fun _ s =>
    ite_inFrame (putDirect_confined hw ha he u s)
      (ite_inFrame (putRunZero_confined hw ha he s) (putRunNonzero_confined hw ha he u s))

theorem flushRun_confined : Confined i flushRun := fun s =>
  ite_inFrame (andThen_inFrame (putTerminator_confined hw ha s) fun _ _ => ok_inFrame (.setEnc he _))
    (ok_inFrame (.refl s))

theorem encFlush_confined : Confined i encFlush := fun s =>
  andThen_inFrame (requireEncoder_confined s) fun _ s =>
  andThen_inFrame (flushRun_confined hw ha he s) fun _ s =>
  andThen_inFrame (wFlush_confined hw s) fun _ _ => ok_inFrame (.setEnc he _)

end Encoder

/-! ## The reader -/

section Reader

variable {i : Instr} (hr : writesReader i = true)
include hr

theorem rTake_confined : Confined i rTake := by
  intro s h t ht
  obtain ⟨rest, _, rfl⟩ := rTake_eq_ok.mp ht
  exact .setReader hr _

theorem refillFetch_confined : Confined i refillFetch := fun s =>
  ite_inFrame
    (andThen_inFrame (rTake_confined hr s) fun h t =>
     andThen_inFrame (pageGet_confined h t) fun _ _ => ok_inFrame (.setReader hr _))
    (ok_inFrame (.refl s))

theorem refillPass_confined : Confined i refillPass := fun s =>
  andThen_inFrame (refillFetch_confined hr s) fun _ _ => ok_inFrame (.setReader hr _)

theorem rRefill_confined : Confined i rRefill := fun s =>
  andThen_inFrame (refillPass_confined hr s) fun _ => refillPass_confined hr

theorem rSkip_confined (n : Nat) : Confined i (rSkip n) := fun s =>
  andThen_inFrame (requireCount_confined n s) fun _ s =>
  andThen_inFrame (requireReadable_confined n s) fun _ _ a u h =>
    (Frame.setReader hr _).trans (rRefill_confined hr _ a u h)

theorem readField_confined (n : Nat) : Confined i (readField n) := fun s =>
  ite_inFrame
    (andThen_inFrame (rPeek_confined n s) fun _ s =>
     andThen_inFrame (rSkip_confined hr n s) fun _ => ok_confined _)
    (ok_inFrame (.refl s))

theorem grReadEscape_confined : Confined i grReadEscape := fun s =>
  andThen_inFrame (rSkip_confined hr 32 s) fun _ s =>
  andThen_inFrame (rPeek_confined 32 s) fun _ s =>
  andThen_inFrame (rSkip_confined hr 32 s) fun _ => ok_confined _

theorem grReadPlain_confined (w m : Nat) : Confined i (grReadPlain w m) := fun s =>
  andThen_inFrame (rSkip_confined hr _ s) fun _ s =>
  andThen_inFrame (readField_confined hr m s) fun _ => ok_confined _

theorem grRead_confined (m : Nat) : Confined i (grRead m) := fun s =>
  andThen_inFrame (requireRice_confined m s) fun _ s =>
  andThen_inFrame (rPeek_confined 32 s) fun w s =>
    ite_inFrame (grReadEscape_confined hr s) (grReadPlain_confined hr w m s)

theorem skipField_confined (n : Nat) : Confined i (skipField n) := fun s =>
  ite_inFrame (rSkip_confined hr n s) (ok_inFrame (.refl s))

theorem skipEscape_confined : Confined i skipEscape := fun s =>
  andThen_inFrame (requireReadable_confined 32 s) fun _ s =>
  andThen_inFrame (rSkip_confined hr 32 s) fun _ => rSkip_confined hr 32

theorem skipPlain_confined (x m : Nat) : Confined i (skipPlain x m) := fun s =>
  andThen_inFrame (requireReadable_confined 32 s) fun _ s =>
  andThen_inFrame (rSkip_confined hr _ s) fun _ => skipField_confined hr m

theorem skipGr_confined (x m : Nat) : Confined i (skipGr x m) := fun s =>
  ite_inFrame (skipEscape_confined hr s) (skipPlain_confined hr x m s)

end Reader

/-! ## The fetching of pages and the decoder -/

theorem psReadNext_confined {i : Instr} (hf : fetchesPages i = true) : Confined i psReadNext := fun _ =>
  ite_inFrame (ok_inFrame (.setRcur hf _)) raise_inFrame

section Fetch

variable {i : Instr} (hr : writesReader i = true) (hf : fetchesPages i = true)
include hr hf

theorem rReserveTurn_confined (minBits : Nat) : Confined i (rReserveTurn minBits) := fun s =>
  ite_inFrame (andThen_inFrame (psReadNext_confined hf s) fun _ _ => ok_inFrame (.setReader hr _)) raise_inFrame

theorem rReserveLoop_confined (minBits n : Nat) : Confined i (rReserveLoop minBits n) := by
  induction n with
  | zero => exact fun s => ite_inFrame raise_inFrame (ok_inFrame (.refl s))
  | succ n ih =>
    exact fun s => ite_inFrame (andThen_inFrame (rReserveTurn_confined hr hf minBits s) fun _ => ih)
      (ok_inFrame (.refl s))

theorem rReserve_confined (minBits : Nat) : Confined i (rReserve minBits) := fun s =>
  andThen_inFrame (rReserveLoop_confined hr hf minBits _ s) fun _ => rRefill_confined hr

theorem skipFlag_confined : Confined i skipFlag := fun s =>
  andThen_inFrame (rReserve_confined hr hf _ s) fun _ => rSkip_confined hr 1

theorem skipTerminator_confined : Confined i skipTerminator := fun s =>
  andThen_inFrame (skipFlag_confined hr hf s) fun _ s => skipField_confined hr _ s

end Fetch

section Decoder

variable {i : Instr} (hd : writesDecoder i = true)
include hd

theorem directDone_confined (u : Nat) : Confined i (directDone u) := fun _ => ok_inFrame (.setDec hd _)

theorem runFullDone_confined : Confined i runFullDone := fun s =>
  andThen_inFrame (requireRemaining_confined _ s) fun _ _ => ok_inFrame (.setDec hd _)

theorem runEndDone_confined (rl : Nat) : Confined i (runEndDone rl) := fun _ => ok_inFrame (.setDec hd _)

theorem runTermDone_confined (rl x : Nat) : Confined i (runTermDone rl x) := fun _ =>
  ite_inFrame raise_inFrame (ite_inFrame (ok_inFrame (.setDec hd _)) (ok_inFrame (.setDec hd _)))

/-- What an earlier code left is returned, or a confined procedure meets the next code. -/
theorem decoderMeets_confined {p : State → Res Nat} (hp : Confined i p) : Confined i (decoderMeets p) := fun s =>
  ite_inFrame (ok_inFrame (.setDec hd _)) (ite_inFrame (ok_inFrame (.setDec hd _)) (hp s))

variable (hr : writesReader i = true) (hf : fetchesPages i = true)
include hr hf

theorem getDirect_confined : Confined i getDirect := fun s =>
  andThen_inFrame (rReserve_confined hr hf _ s) fun _ s =>
  andThen_inFrame (grRead_confined hr _ s) fun u => directDone_confined hd u

theorem getTerminator_confined (rl : Nat) : Confined i (getTerminator rl) := fun s =>
  andThen_inFrame (requireRemaining_confined rl s) fun _ s =>
    ite_inFrame (runEndDone_confined hd rl s)
      (andThen_inFrame (rReserve_confined hr hf _ s) fun _ s =>
       andThen_inFrame (grRead_confined hr _ s) fun x => runTermDone_confined hd rl x)

theorem getRun_confined : Confined i getRun := fun s =>
  andThen_inFrame (rReserve_confined hr hf _ s) fun _ s =>
  andThen_inFrame (readField_confined hr 1 s) fun _ s =>
    ite_inFrame (runFullDone_confined hd s)
      (andThen_inFrame (readField_confined hr _ s) fun rl => getTerminator_confined hd hr hf rl)

theorem decGet_confined : Confined i decGet := fun s =>
  andThen_inFrame (requireDecoder_confined s) fun _ =>
    decoderMeets_confined hd fun s =>
      ite_inFrame (getDirect_confined hd hr hf s) (getRun_confined hd hr hf s)

end Decoder

/-! ## Instructions confined to their frames -/

/-- Where the instruction's meaning goes from a state without a fault to one without, it stays in the frame
of `i`. -/
def KeepsFrame (i : Instr) (m : State → CommandOutcome) : Prop :=
  ∀ s t, s.fault = 0 → m s = .next t → t.fault = 0 → Frame i s t

section Commands

variable {i : Instr}

theorem runProc_keepsFrame {p : State → Res (BitVec 64)} (hp : Confined i p) : KeepsFrame i (runProc p) := by
  intro s t _ h ht
  rcases runProc_next h with ⟨v, u, hu, rfl⟩ | ⟨f, info, _, rfl⟩
  · exact (hp s v u hu).trans (.answer v)
  · exact absurd ht (faultCode_ne_zero f)

theorem runCommand_keepsFrame {p : State → Res (BitVec 64)} (hp : Confined i p) : KeepsFrame i (runCommand p) := by
  intro s t hs h ht
  rw [runCommand_live hs] at h
  exact runProc_keepsFrame hp s t hs h ht

theorem procedure_keepsFrame {p : State → Res Unit} (hp : Confined i p) :
    KeepsFrame i (runCommand (noResult p)) := runCommand_keepsFrame (noResult_confined hp)

theorem number_keepsFrame {p : State → Res Nat} (hp : Confined i p) : KeepsFrame i (runCommand (numResult p)) :=
  runCommand_keepsFrame (numResult_confined hp)

theorem execCsrRd_keepsFrame (idx : Half) : KeepsFrame i (execCsrRd idx) := by
  intro s t hs h ht
  unfold execCsrRd at h
  split at h
  · exact runProc_keepsFrame (csrProc_confined _) s t hs h ht
  · exact runCommand_keepsFrame (csrProc_confined _) s t hs h ht

/-- A stream code, in whatever context the state gives, changes what its procedure changes. -/
theorem runCode_keepsFrame (before : State → Res Unit) (ctx : State → CodeCtx) {p : State → Res Nat}
    (hp : Confined i p) : KeepsFrame i fun s => runCode before (ctx s) i p s := by
  intro s t hs h ht
  rcases runCode_cases before (ctx s) i p s with ⟨hs', _⟩ | ⟨_, f, info, _, hr⟩ | ⟨_, _, _, hr⟩ | ⟨_, _, _, hr⟩
  · exact absurd hs hs'
  · obtain rfl : takeFault f info s = t := by simpa [hr] using h
    exact absurd ht (faultCode_ne_zero f)
  · simp [hr] at h
  · exact runProc_keepsFrame (numResult_confined hp) s t hs (hr.symm.trans h) ht

theorem runDecoderCode_keepsFrame (hd : writesDecoder i = true) {p : State → Res Nat} (hp : Confined i p) :
    KeepsFrame i (runDecoderCode i p) :=
  runCode_keepsFrame decoderBefore decoderCtx (decoderMeets_confined hd hp)

end Commands

/-- Every instruction, case by case, writes only the groups it names. -/
theorem exec_keepsFrame (i : Instr) : KeepsFrame i (exec i) := by
  cases i with
  | psAcq => exact number_keepsFrame (psAcquire_confined rfl)
  | psNext => exact number_keepsFrame (psReadNext_confined rfl)
  | psGet h => exact runCommand_keepsFrame (pageGet_confined _)
  | psSet h v => exact procedure_keepsFrame (pageSet_confined _ v)
  | psLen | wAvail | rAvail => exact number_keepsFrame (ok_confined _)
  | wRsv n => exact procedure_keepsFrame (wReserve_confined rfl rfl _)
  | wPut n v => exact procedure_keepsFrame (wPut_confined rfl _ _)
  | wAlign => exact procedure_keepsFrame fun _ => ok_inFrame (.setWriter rfl _)
  | wFlush => exact procedure_keepsFrame (wFlush_confined rfl)
  | rRsv n => exact procedure_keepsFrame (rReserve_confined rfl rfl _)
  | rPeek32 | rPeek n => exact number_keepsFrame (rPeek_confined _)
  | rSkip n => exact procedure_keepsFrame (rSkip_confined rfl _)
  | grWr m x => exact procedure_keepsFrame (grWrite_confined rfl _ _)
  | grRd m => exact number_keepsFrame (grRead_confined rfl _)
  | zzEnc v | zzDec u => exact runCommand_keepsFrame (ok_confined _)
  | encNew =>
    exact procedure_keepsFrame fun _ => ok_inFrame ((Frame.setWriter rfl freshWriter).trans (.setEnc rfl _))
  | encPut u => exact procedure_keepsFrame (encPut_confined rfl rfl rfl _)
  | encFlush => exact procedure_keepsFrame (encFlush_confined rfl rfl rfl)
  | decNew n =>
    exact procedure_keepsFrame fun _ => ok_inFrame ((Frame.setReader rfl freshReader).trans (.setDec rfl _))
  | decGet => exact number_keepsFrame (decGet_confined rfl rfl rfl)
  | csrRd idx => exact execCsrRd_keepsFrame idx
  | cwGr m x =>
    exact runCode_keepsFrame _ (fun _ => _) fun s =>
      andThen_inFrame (skipPlain_confined rfl _ _ s) fun _ => ok_confined _
  | cwEsc x =>
    exact runCode_keepsFrame _ (fun _ => _) fun s =>
      andThen_inFrame (skipEscape_confined rfl s) fun _ => ok_confined _
  | cwRunfull =>
    exact runDecoderCode_keepsFrame rfl fun s =>
      andThen_inFrame (skipFlag_confined rfl rfl s) fun _ => runFullDone_confined rfl
  | cwRunterm rl u =>
    exact runDecoderCode_keepsFrame rfl fun s =>
      andThen_inFrame (skipTerminator_confined rfl rfl s) fun _ s =>
      andThen_inFrame (requireRemaining_confined _ s) fun _ s =>
        ite_inFrame (runEndDone_confined rfl _ s)
          (andThen_inFrame (rReserve_confined rfl rfl _ s) fun _ s =>
           andThen_inFrame (skipGr_confined rfl _ _ s) fun _ => runTermDone_confined rfl _ _)
  | cwRunend rl =>
    exact runDecoderCode_keepsFrame rfl fun s =>
      andThen_inFrame (skipTerminator_confined rfl rfl s) fun _ => getTerminator_confined rfl rfl rfl _
  | cwDirect u =>
    exact runDecoderCode_keepsFrame rfl fun s =>
      andThen_inFrame (rReserve_confined rfl rfl _ s) fun _ s =>
      andThen_inFrame (skipGr_confined rfl _ _ s) fun _ => directDone_confined rfl _

/-- Settles O57: the parts of the frame of the instruction. -/
theorem onlyNamedCommandsWrite : Obligations.OnlyNamedCommandsWrite := by
  intro i s t hs h ht
  have hframe := exec_keepsFrame i s t hs h ht
  exact ⟨hframe.params, hframe.finfo, hframe.program, hframe.pos, hframe.writer, hframe.reader, hframe.enc,
    hframe.dec, hframe.wcur, hframe.rcur⟩

end Sys2Proof.Machine

/-! PROOF. The packet decoder (30_encoding.md Part A): a format's zero bits decide whether a packet is legal,
and a legal packet is the one the encoder writes. -/

namespace Sys2Proof

open Sys2Proof.Machine

/-! ## What the decoder answers -/

/-- Every instruction's packet or bits decode back to it. -/
theorem encodingRoundTrip : ∀ i : Instr, Laws.EncodingRoundTrip.Statement i
  | .psAcq => Laws.EncodingRoundTrip.psAcq
  | .psNext => Laws.EncodingRoundTrip.psNext
  | .psGet h => Laws.EncodingRoundTrip.psGet h
  | .psSet h page => Laws.EncodingRoundTrip.psSet h page
  | .psLen => Laws.EncodingRoundTrip.psLen
  | .wRsv n => Laws.EncodingRoundTrip.wRsv n
  | .wAvail => Laws.EncodingRoundTrip.wAvail
  | .wPut n v => Laws.EncodingRoundTrip.wPut n v
  | .wAlign => Laws.EncodingRoundTrip.wAlign
  | .wFlush => Laws.EncodingRoundTrip.wFlush
  | .rRsv n => Laws.EncodingRoundTrip.rRsv n
  | .rAvail => Laws.EncodingRoundTrip.rAvail
  | .rPeek32 => Laws.EncodingRoundTrip.rPeek32
  | .rPeek n => Laws.EncodingRoundTrip.rPeek n
  | .rSkip n => Laws.EncodingRoundTrip.rSkip n
  | .grWr m x => Laws.EncodingRoundTrip.grWr m x
  | .grRd m => Laws.EncodingRoundTrip.grRd m
  | .zzEnc v => Laws.EncodingRoundTrip.zzEnc v
  | .zzDec u => Laws.EncodingRoundTrip.zzDec u
  | .encNew => Laws.EncodingRoundTrip.encNew
  | .encPut u => Laws.EncodingRoundTrip.encPut u
  | .encFlush => Laws.EncodingRoundTrip.encFlush
  | .decNew n => Laws.EncodingRoundTrip.decNew n
  | .decGet => Laws.EncodingRoundTrip.decGet
  | .csrRd idx => Laws.EncodingRoundTrip.csrRd idx
  | .cwGr m x => Laws.EncodingRoundTrip.cwGr m x
  | .cwEsc x => Laws.EncodingRoundTrip.cwEsc x
  | .cwRunfull => Laws.EncodingRoundTrip.cwRunfull
  | .cwRunterm rl u => Laws.EncodingRoundTrip.cwRunterm rl u
  | .cwRunend rl => Laws.EncodingRoundTrip.cwRunend rl
  | .cwDirect u => Laws.EncodingRoundTrip.cwDirect u

theorem decode_of_encode {i : Instr} {p : Packet} (h : encode i = some p) : decode p = .ok i :=
  (encodingRoundTrip i).1 p h

theorem isCommand_iff_encode {i : Instr} : i.isCommand = true ↔ ∃ p, encode i = some p := by
  rw [(encodingRoundTrip i).2.2, Option.isSome_iff_exists]

/-- A packet is legal exactly where a row matches it, and is then the row's command (30_encoding.md R94). -/
theorem decode_eq_ok_iff {p : Packet} {i : Instr} :
    decode p = .ok i ↔ ∃ r ∈ opcodeMap, r.matches p = true ∧ r.build p = i := by
  constructor
  · intro h
    unfold decode at h
    split at h
    · rename_i r hr
      exact ⟨r, List.mem_of_find?_eq_some hr, by simpa using List.find?_some hr, by simpa using h⟩
    · split at h <;> cases h
  · rintro ⟨r, hr, hm, rfl⟩
    exact decode_of_matches hr hm

theorem decode_of_unassigned {p : Packet} (h : opField p ∉ opcodes) :
    decode p = .error (.unassignedOpcode (opField p)) := by
  have hnone : opcodeMap.find? (fun r => r.matches p) = none := by
    refine List.find?_eq_none.mpr fun r hr hm => h ?_
    rw [opField_of_matches hr hm]
    exact List.mem_map_of_mem hr
  rw [decode, hnone]
  simp [h]

/-- Only the row of the packet's opcode can match it. -/
theorem decode_isOk_iff_matches {r : Row} {p : Packet} (hr : r ∈ opcodeMap)
    (hop : opField p = opField r.matchBits) : (∃ i, decode p = .ok i) ↔ r.matches p = true := by
  constructor
  · rintro ⟨i, hi⟩
    obtain ⟨r', hr', hm, -⟩ := decode_eq_ok_iff.mp hi
    have hnodup : (opcodeMap.map fun r => opField r.matchBits).Nodup := List.pairwise_map.mpr opcodes_distinct
    rwa [List.inj_on_of_nodup_map hnodup hr hr' (hop.symm.trans (opField_of_matches hr' hm))]
  · exact fun hm => ⟨_, decode_of_matches hr hm⟩

/-! ## Ranges of bits -/

/-- A range of bits is zero where each of its bits is. -/
theorem extractLsb'_eq_zero_iff {w : Nat} {x : BitVec w} {lo n : Nat} :
    x.extractLsb' lo n = 0 ↔ ∀ i < n, x.getLsbD (lo + i) = false := by
  refine ⟨fun h i hi => ?_, fun h => BitVec.eq_of_getLsbD_eq fun i hi => ?_⟩
  · have hbit := congrArg (BitVec.getLsbD · i) h
    simpa [hi] using hbit
  · simp [h i hi]

/-- A field inside a range of zeros is zero. -/
theorem extractLsb'_eq_zero_of_range {w : Nat} {x : BitVec w} {lo n lo' n' : Nat} (h : x.extractLsb' lo n = 0)
    (hlo : lo ≤ lo') (hn : lo' + n' ≤ lo + n) : x.extractLsb' lo' n' = 0 := by
  rw [extractLsb'_eq_zero_iff] at h ⊢
  intro i hi
  have hbit := h (lo' - lo + i) (by omega)
  rwa [← Nat.add_assoc, Nat.add_sub_cancel' hlo] at hbit

/-- The mask of the `n` bits from bit `lo` up. -/
def rangeMask (lo n : Nat) : Packet := (BitVec.allOnes n).setWidth 128 <<< lo

theorem getLsbD_rangeMask (lo n i : Nat) :
    (rangeMask lo n).getLsbD i = (decide (i < 128) && decide (lo ≤ i) && decide (i < lo + n)) := by
  simp only [rangeMask, BitVec.getLsbD_shiftLeft, BitVec.getLsbD_setWidth, BitVec.getLsbD_allOnes]
  by_cases h : lo ≤ i
  · have hsub : i - lo < n ↔ i < lo + n := by omega
    have hlt : i < 128 → i - lo < 128 := by omega
    grind
  · grind

theorem and_rangeMask_eq_zero {p : Packet} {lo n : Nat} (h : lo + n ≤ 128) :
    p &&& rangeMask lo n = 0 ↔ p.extractLsb' lo n = 0 := by
  rw [extractLsb'_eq_zero_iff]
  refine ⟨fun hz i hi => ?_, fun hz => BitVec.eq_of_getLsbD_eq fun i hi => ?_⟩
  · have hbit : (p &&& rangeMask lo n).getLsbD (lo + i) = false := by rw [hz]; exact BitVec.getLsbD_zero
    rw [BitVec.getLsbD_and, getLsbD_rangeMask] at hbit
    grind
  · rw [BitVec.getLsbD_and, getLsbD_rangeMask]
    by_cases hr : lo ≤ i ∧ i < lo + n
    · have hbit := hz (i - lo) (by omega)
      rw [Nat.add_sub_cancel' hr.1] at hbit
      simp [hbit]
    · grind

/-! ## Formats (R91) -/

/-- The six formats of a packet (30_encoding.md R91). -/
inductive PacketFormat where
  /-- `op` alone. -/
  | f0
  /-- `op`, `aux32`. -/
  | fa
  /-- `op`, `aux32`, `data64`. -/
  | fad
  /-- `op`, `imm8`. -/
  | fi
  /-- `op`, `imm8`, `val32`. -/
  | fiv
  /-- `op`, `val32`. -/
  | fv
  deriving DecidableEq

/-- The bits below the opcode that the format requires to be zero, as a mask. -/
def PacketFormat.zeroMask : PacketFormat → Packet
  | .f0 => rangeMask 0 120
  | .fa => rangeMask 96 24 ||| rangeMask 0 64
  | .fad => rangeMask 96 24
  | .fi => rangeMask 0 112
  | .fiv => rangeMask 32 80
  | .fv => rangeMask 32 88

/-- Those bits of the packet are zero. -/
def PacketFormat.zeros : PacketFormat → Packet → Prop
  | .f0, p => p.extractLsb' 0 120 = 0
  | .fa, p => p.extractLsb' 96 24 = 0 ∧ p.extractLsb' 0 64 = 0
  | .fad, p => p.extractLsb' 96 24 = 0
  | .fi, p => p.extractLsb' 0 112 = 0
  | .fiv, p => p.extractLsb' 32 80 = 0
  | .fv, p => p.extractLsb' 32 88 = 0

/-- The packet the encoder writes in this format, with the operands of `p`. -/
def PacketFormat.packet : PacketFormat → BitVec 8 → Packet → Packet
  | .f0, op, _ => packetF0 op
  | .fa, op, p => packetFA op (aux32 p)
  | .fad, op, p => packetFAD op (aux32 p) (data64 p)
  | .fi, op, p => packetFI op (imm8 p)
  | .fiv, op, p => packetFIV op (imm8 p) (val32 p)
  | .fv, op, p => packetFV op (val32 p)

/-- The opcode and the format of every command, in the order of the opcode map (30_encoding.md R94). -/
def packetFormats : List (BitVec 8 × PacketFormat) :=
  [(0x01, .f0), (0x02, .f0), (0x03, .fa), (0x04, .fad), (0x05, .f0),
   (0x10, .fa), (0x11, .f0), (0x12, .fiv), (0x13, .f0), (0x14, .f0),
   (0x20, .fa), (0x21, .f0), (0x22, .f0), (0x23, .fi), (0x24, .fi),
   (0x30, .fiv), (0x31, .fi), (0x32, .fv), (0x33, .fv),
   (0x40, .f0), (0x41, .fv), (0x42, .f0), (0x48, .fa), (0x49, .f0), (0x7F, .fa)]

/-- The opcode map row by row: the match is the opcode, the mask is the opcode's bits and the format's zero
bits, and the row's command is encoded in the row's format. -/
theorem opcodeMap_formats (p : Packet) :
    opcodeMap.map (fun r => (r.matchBits, r.maskBits, encode (r.build p))) =
      packetFormats.map fun e => (packetF0 e.1, packetF0 0xFF ||| e.2.zeroMask, some (e.2.packet e.1 p)) := rfl

theorem exists_row_of_format {op : BitVec 8} {f : PacketFormat} (h : (op, f) ∈ packetFormats) :
    ∃ r ∈ opcodeMap, r.matchBits = packetF0 op ∧ r.maskBits = packetF0 0xFF ||| f.zeroMask := by
  have hmem := List.mem_map_of_mem (f := fun e => (packetF0 e.1, packetF0 0xFF ||| e.2.zeroMask,
    some (e.2.packet e.1 0))) h
  rw [← opcodeMap_formats 0] at hmem
  obtain ⟨r, hr, he⟩ := List.mem_map.mp hmem
  simp only [Prod.mk.injEq] at he
  obtain ⟨hm, hk, -⟩ := he
  exact ⟨r, hr, hm, hk⟩

theorem exists_format_of_row {r : Row} (hr : r ∈ opcodeMap) (p : Packet) :
    ∃ (op : BitVec 8) (f : PacketFormat), r.matchBits = packetF0 op ∧
      r.maskBits = packetF0 0xFF ||| f.zeroMask ∧ encode (r.build p) = some (f.packet op p) := by
  have hmem := List.mem_map_of_mem (f := fun r => (r.matchBits, r.maskBits, encode (r.build p))) hr
  rw [opcodeMap_formats p] at hmem
  obtain ⟨⟨op, f⟩, -, h⟩ := List.mem_map.mp hmem
  simp only [Prod.mk.injEq] at h
  obtain ⟨hm, hk, he⟩ := h
  exact ⟨op, f, hm.symm, hk.symm, he.symm⟩

/-! ## The zero bits decide -/

theorem and_zeroMask_eq_zero (f : PacketFormat) (p : Packet) : p &&& f.zeroMask = 0 ↔ f.zeros p := by
  cases f with
  | fa =>
    rw [PacketFormat.zeroMask, PacketFormat.zeros, BitVec.and_or_distrib_left, ← and_rangeMask_eq_zero (by omega),
      ← and_rangeMask_eq_zero (by omega)]
    exact BitVec.or_eq_zero_iff
  | _ => exact and_rangeMask_eq_zero (by omega)

theorem getLsbD_packetF0 (op : BitVec 8) (i : Nat) :
    (packetF0 op).getLsbD i = (decide (120 ≤ i) && op.getLsbD (i - 120)) := by
  simp only [packetF0, packet, BitVec.getLsbD_append, BitVec.ofNat_eq_ofNat, BitVec.getLsbD_zero]
  grind

theorem opField_packetF0 (op : BitVec 8) : opField (packetF0 op) = op := by
  apply BitVec.eq_of_getLsbD_eq
  intro i hi
  simp [opField, getLsbD_packetF0, hi]

/-- Under the opcode's mask a packet is its opcode alone. -/
theorem and_packetF0_ones (p : Packet) : p &&& packetF0 0xFF = packetF0 (opField p) := by
  apply BitVec.eq_of_getLsbD_eq
  intro i hi
  rw [BitVec.getLsbD_and, getLsbD_packetF0, getLsbD_packetF0]
  by_cases h : 120 ≤ i
  · have hones : (0xFF : BitVec 8).getLsbD (i - 120) = true := by
      rw [show (0xFF : BitVec 8) = BitVec.allOnes 8 from rfl, BitVec.getLsbD_allOnes]
      exact decide_eq_true (by omega)
    rw [hones, opField, BitVec.getLsbD_extractLsb', Nat.add_sub_cancel' h]
    simp [h, show i - 120 < 8 by omega]
  · simp [h]

theorem packetF0_low (op : BitVec 8) : (packetF0 op).extractLsb' 0 120 = 0 :=
  extractLsb'_eq_zero_iff.mpr fun i hi => by rw [getLsbD_packetF0, decide_eq_false (by omega), Bool.false_and]

/-- No format asks a bit of the opcode to be zero. -/
theorem packetF0_and_zeroMask (op : BitVec 8) (f : PacketFormat) : packetF0 op &&& f.zeroMask = 0 := by
  rw [and_zeroMask_eq_zero]
  have hlow := packetF0_low op
  cases f with
  | fa =>
    exact ⟨extractLsb'_eq_zero_of_range hlow (by omega) (by omega),
      extractLsb'_eq_zero_of_range hlow (by omega) (by omega)⟩
  | _ => exact extractLsb'_eq_zero_of_range hlow (by omega) (by omega)

/-- A row matches a packet of its opcode exactly where the zero bits of its format are zero. -/
theorem matches_iff_zeros {r : Row} {f : PacketFormat} {p : Packet} (hm : r.matchBits = packetF0 (opField p))
    (hk : r.maskBits = packetF0 0xFF ||| f.zeroMask) : r.matches p = true ↔ f.zeros p := by
  rw [Row.matches, beq_iff_eq, hm, hk, BitVec.and_or_distrib_left, and_packetF0_ones, ← and_zeroMask_eq_zero]
  constructor
  · intro h
    have hdisjoint := packetF0_and_zeroMask (opField p) f
    rw [← h, BitVec.and_or_distrib_right, BitVec.and_assoc, BitVec.and_self] at hdisjoint
    exact (BitVec.or_eq_zero_iff.mp hdisjoint).2
  · intro h
    rw [h]
    exact BitVec.or_zero

/-- A packet with an assigned opcode is legal exactly where its format's zero bits are zero
(30_encoding.md R91). -/
theorem decode_isOk_iff_zeros {p : Packet} {f : PacketFormat} (h : (opField p, f) ∈ packetFormats) :
    (∃ i, decode p = .ok i) ↔ f.zeros p := by
  obtain ⟨r, hr, hm, hk⟩ := exists_row_of_format h
  rw [decode_isOk_iff_matches hr (by rw [hm, opField_packetF0]), matches_iff_zeros hm hk]

theorem decode_isOk_iff_of_opcodes (f : PacketFormat) {ops : List (BitVec 8)}
    (hops : ∀ op ∈ ops, (op, f) ∈ packetFormats) {p : Packet} (hp : opField p ∈ ops) :
    (∃ i, decode p = .ok i) ↔ f.zeros p := decode_isOk_iff_zeros (hops _ hp)

/-- Settles O3: every opcode of a list has the list's format, and the format's zero bits decide. -/
theorem formatsDecideLegality : Obligations.FormatsDecideLegality := fun _ =>
  ⟨decode_isOk_iff_of_opcodes .f0 (by decide), decode_isOk_iff_of_opcodes .fa (by decide),
    fun hp => decode_isOk_iff_of_opcodes .fad (ops := [0x04]) (by decide) (List.mem_singleton.mpr hp),
    decode_isOk_iff_of_opcodes .fi (by decide), decode_isOk_iff_of_opcodes .fiv (by decide),
    decode_isOk_iff_of_opcodes .fv (by decide), decode_of_unassigned⟩

/-! ## The round trip -/

theorem packet_fields {p : Packet} (h : p.extractLsb' 96 16 = 0) :
    packet (opField p) (imm8 p) (aux32 p) (data64 p) = p := by
  apply BitVec.eq_of_getLsbD_eq
  intro i hi
  rw [extractLsb'_eq_zero_iff] at h
  simp only [packet, opField, imm8, aux32, data64, BitVec.getLsbD_append, BitVec.getLsbD_extractLsb',
    BitVec.ofNat_eq_ofNat, BitVec.getLsbD_zero]
  have hrsv := h (i - 96)
  grind

theorem val32_setWidth {p : Packet} (h : p.extractLsb' 32 32 = 0) : (val32 p).setWidth 64 = data64 p := by
  apply BitVec.eq_of_getLsbD_eq
  intro i hi
  rw [extractLsb'_eq_zero_iff] at h
  simp only [val32, data64, BitVec.getLsbD_setWidth, BitVec.getLsbD_extractLsb']
  have hhigh := h (i - 32)
  grind

/-- Every format requires `rsv` to be zero. -/
theorem rsv_of_zeros {f : PacketFormat} {p : Packet} (h : f.zeros p) : p.extractLsb' 96 16 = 0 := by
  cases f with
  | fa => exact extractLsb'_eq_zero_of_range h.1 (by omega) (by omega)
  | _ => exact extractLsb'_eq_zero_of_range h (by omega) (by omega)

/-- A packet whose zero bits are zero is its operands' packet: the fields the format does not use are zero. -/
theorem packet_of_zeros {f : PacketFormat} {p : Packet} (h : f.zeros p) : f.packet (opField p) p = p := by
  have hp := packet_fields (rsv_of_zeros h)
  cases f with
  | f0 =>
    have himm : imm8 p = 0 := extractLsb'_eq_zero_of_range h (by omega) (by omega)
    have haux : aux32 p = 0 := extractLsb'_eq_zero_of_range h (by omega) (by omega)
    have hdata : data64 p = 0 := extractLsb'_eq_zero_of_range h (by omega) (by omega)
    rwa [himm, haux, hdata] at hp
  | fa =>
    have himm : imm8 p = 0 := extractLsb'_eq_zero_of_range h.1 (by omega) (by omega)
    have hdata : data64 p = 0 := h.2
    rwa [himm, hdata] at hp
  | fad =>
    have himm : imm8 p = 0 := extractLsb'_eq_zero_of_range h (by omega) (by omega)
    rwa [himm] at hp
  | fi =>
    have haux : aux32 p = 0 := extractLsb'_eq_zero_of_range h (by omega) (by omega)
    have hdata : data64 p = 0 := extractLsb'_eq_zero_of_range h (by omega) (by omega)
    rwa [haux, hdata] at hp
  | fiv =>
    have haux : aux32 p = 0 := extractLsb'_eq_zero_of_range h (by omega) (by omega)
    rwa [haux, ← val32_setWidth (extractLsb'_eq_zero_of_range h (by omega) (by omega))] at hp
  | fv =>
    have himm : imm8 p = 0 := extractLsb'_eq_zero_of_range h (by omega) (by omega)
    have haux : aux32 p = 0 := extractLsb'_eq_zero_of_range h (by omega) (by omega)
    rwa [himm, haux, ← val32_setWidth (extractLsb'_eq_zero_of_range h (by omega) (by omega))] at hp

/-- A legal packet has its format's zero bits zero, and its command is encoded in that format. -/
theorem exists_format_of_decode {p : Packet} {i : Instr} (h : decode p = .ok i) :
    ∃ f : PacketFormat, f.zeros p ∧ encode i = some (f.packet (opField p) p) := by
  obtain ⟨r, hr, hmatch, rfl⟩ := decode_eq_ok_iff.mp h
  obtain ⟨op, f, hm, hk, he⟩ := exists_format_of_row hr p
  obtain rfl : opField p = op := by rw [opField_of_matches hr hmatch, hm, opField_packetF0]
  exact ⟨f, (matches_iff_zeros hm hk).mp hmatch, he⟩

/-- A legal packet is the one the encoder writes for its command. -/
theorem encode_of_decode {p : Packet} {i : Instr} (h : decode p = .ok i) : encode i = some p := by
  obtain ⟨f, hz, he⟩ := exists_format_of_decode h
  rw [he, packet_of_zeros hz]

theorem wellFormed_of_isCommand {i : Instr} (h : i.isCommand = true) : i.wellFormed = true := by
  cases i with
  | cwGr _ _ | cwEsc _ | cwRunfull | cwRunterm _ _ | cwRunend _ | cwDirect _ => cases h
  | _ => rfl

/-- Settles O2: from the round trip of every instruction, and from the format of the row that matches. -/
theorem packetRoundTrip : Obligations.PacketRoundTrip := by
  refine ⟨fun i hi => ⟨wellFormed_of_isCommand hi, ?_⟩, fun p i h => ?_⟩
  · obtain ⟨p, hp⟩ := isCommand_iff_encode.mp hi
    exact ⟨p, hp, decode_of_encode hp⟩
  · have hp := encode_of_decode h
    exact ⟨hp, isCommand_iff_encode.mpr ⟨p, hp⟩⟩

/-- Settles O1: each word is the encoder's packet of its command; the two others match no row. -/
theorem decodesRuleWords : Obligations.DecodesRuleWords :=
  ⟨decode_of_encode rfl, decode_of_encode rfl, decode_of_encode rfl, decode_of_encode rfl, decode_of_encode rfl,
    decode_of_encode rfl, decode_of_encode rfl, decode_of_encode rfl, decode_of_encode rfl, decode_of_encode rfl,
    rfl, rfl⟩

/-! ## Illegal packets -/

/-- A packet that is no command raises `F_ILLEGAL_CMD` (30_encoding.md R96). -/
theorem step_of_illegal {s : State} {p : Packet} (hs : s.fault = 0) (hp : s.program[s.pos]? = some p)
    (h : ¬ ∃ i, decode p = .ok i) :
    step s = .next (takeFault .illegalCmd (p.extractLsb' 64 64).toNat { s with pos := s.pos + 1 }) := by
  cases hd : decode p with
  | ok i => exact absurd ⟨i, hd⟩ h
  | error e =>
    simp only [step, fetchPacket, hp, hd, illegalPacket]
    rw [runCommand_live (by exact hs), runProc_raise rfl, State.advance]

theorem rsv_of_decode {p : Packet} {i : Instr} (h : decode p = .ok i) : p.extractLsb' 96 16 = 0 := by
  obtain ⟨f, hz, -⟩ := exists_format_of_decode h
  exact rsv_of_zeros hz

/-- The low 120 bits of every row's match are zero. -/
theorem matchBits_low {r : Row} (hr : r ∈ opcodeMap) : r.matchBits.extractLsb' 0 120 = 0 := by
  obtain ⟨op, -, hm, -⟩ := exists_format_of_row hr 0
  rw [hm]
  exact packetF0_low op

/-- Settles O4: in each of the cases no row matches the packet. -/
theorem illegalPacketFaults : Obligations.IllegalPacketFaults := by
  intro s p hs hp
  have illegal := step_of_illegal hs hp
  refine ⟨fun h => illegal ?_, fun h => illegal ?_, fun r hr hop h => illegal ?_,
    fun h => illegal fun ⟨_, hi⟩ => h (rsv_of_decode hi), rfl, ?_⟩
  · rintro ⟨i, hi⟩
    obtain ⟨r, hr, hmatch, -⟩ := decode_eq_ok_iff.mp hi
    exact h r hr (beq_iff_eq.mp hmatch)
  · rintro ⟨i, hi⟩
    rw [decode_of_unassigned h] at hi
    cases hi
  · rw [decode_isOk_iff_matches hr hop, Row.matches, beq_iff_eq]
    intro hmatch
    rw [hmatch] at h
    exact h (matchBits_low hr)
  · by_cases hok : ∃ i, decode p = .ok i
    · obtain ⟨i, hi⟩ := hok
      exact .inl ⟨i, isCommand_iff_encode.mpr ⟨p, encode_of_decode hi⟩, hi⟩
    · exact .inr (illegal hok)

end Sys2Proof

/-! PROOF. The codes of the bit stream decode back from their bits (30_encoding.md Part B). -/

namespace Sys2Proof

open Sys2Proof.Machine

/-- Every well-formed stream code has a context that tells it and in which it has bits: a Golomb-Rice reader
with its parameter, Direct state, or Run state with the widest run-length field (30_encoding.md R102 to
R107). -/
theorem exists_context_of_code {i : Instr} (hw : i.wellFormed = true) (hc : i.isCommand = false) :
    ∃ ctx bits, encodeCode ctx i = some bits ∧ ctx.tells i = true := by
  cases i with
  | cwGr m x =>
    simp only [Instr.wellFormed, Bool.and_eq_true, decide_eq_true_eq] at hw
    exact ⟨.golomb m.toNat, _, if_pos ⟨rfl, hw⟩, rfl⟩
  | cwEsc x =>
    simp only [Instr.wellFormed, decide_eq_true_eq] at hw
    exact ⟨.golomb 0, _, if_pos ⟨Nat.zero_le _, hw⟩, rfl⟩
  | cwRunfull => exact ⟨.run 0 0 1, _, rfl, rfl⟩
  | cwRunterm rl u =>
    simp only [Instr.wellFormed, Bool.and_eq_true, decide_eq_true_eq] at hw
    exact ⟨.run (Config.kpMax >>> Config.ls) 0 (rl.toNat + 1), _, if_pos ⟨Nat.zero_le _, hw⟩,
      decide_eq_true (Nat.ne_of_lt (Nat.lt_succ_self _))⟩
  | cwRunend rl =>
    simp only [Instr.wellFormed, Bool.and_eq_true, decide_eq_true_eq] at hw
    exact ⟨.run (Config.kpMax >>> Config.ls) 0 rl.toNat, _, if_pos hw, decide_eq_true rfl⟩
  | cwDirect u => exact ⟨.direct 0, _, rfl, rfl⟩
  | _ => cases hc

theorem encodeCode_cwRunterm_eq_some {s m rem : Nat} {rl u : Half} {bits : List Bool} :
    encodeCode (.run s m rem) (.cwRunterm rl u) = some bits ↔
      (m ≤ Config.mMax ∧ rl.toNat < 2 ^ s ∧ u ≠ 0) ∧
        true :: (bitsOf s rl.toNat ++ grBits (u.toNat - 1) m) = bits := by
  simp [encodeCode]

/-- A run as long as the symbols expected is taken for the trailing run, whatever follows its field
(30_encoding.md R101, R106). -/
theorem decodeCode_run_of_eq_rem {s m : Nat} {rl : Half} (hrl : rl.toNat < 2 ^ s) (rest : List Bool) :
    decodeCode (.run s m rl.toNat) (true :: (bitsOf s rl.toNat ++ rest)) = .ok (.cwRunend rl, rest) := by
  rw [decodeCode, takeNum_bitsOf, Nat.mod_eq_of_lt hrl]
  simp

/-- Settles O5: the contexts, the round trip of every instruction, and the run-length field alone where the
run is as long as the symbols expected. -/
theorem codeRoundTrip : Obligations.CodeRoundTrip := by
  refine ⟨fun _ => exists_context_of_code, fun ctx i bits rest => (encodingRoundTrip i).2.1 ctx bits rest,
    fun s m rl u bits rest h => ?_⟩
  obtain ⟨⟨-, hrl, -⟩, rfl⟩ := encodeCode_cwRunterm_eq_some.mp h
  rw [List.cons_append, List.append_assoc]
  exact decodeCode_run_of_eq_rem hrl _

end Sys2Proof

/-! PROOF. How a command answers (30_encoding.md R92). No procedure of a command reads or writes `FAULT`: only
the end of a command does (60_exceptions.md R310, R311). -/

namespace Sys2Proof.Machine

/-! ## The procedures are blind to `FAULT` -/

/-- The state with another fault register. -/
def withFault (c : BitVec 8) (s : State) : State := { s with fault := c }

/-- The procedure neither reads nor writes `FAULT`. -/
def IgnoresFault {α : Type} (p : State → Res α) : Prop := ∀ c, Blind (withFault c) p

/-! ### The Page Storage -/

theorem psAcquire_ignoresFault : IgnoresFault psAcquire := fun _ _ => ite_mapState rfl rfl

theorem psReadNext_ignoresFault : IgnoresFault psReadNext := fun _ _ => ite_mapState rfl rfl

theorem pageGet_ignoresFault (h : Nat) : IgnoresFault (pageGet h) := fun _ _ => ite_mapState rfl rfl

theorem pageSet_ignoresFault (h : Nat) (v : Page) : IgnoresFault (pageSet h v) := fun _ _ => ite_mapState rfl rfl

/-! ### The writer and the encoder -/

theorem wTake_ignoresFault : IgnoresFault wTake := by
  intro c s
  obtain ⟨_, _, _, _, ⟨_, _, _, win⟩, _⟩ := s
  cases win <;> rfl

theorem wReserveLoop_ignoresFault (minBits n : Nat) : IgnoresFault (wReserveLoop minBits n) := by
  intro c
  induction n with
  | zero => exact fun _ => ite_mapState rfl rfl
  | succ n ih =>
    have hturn : Blind (withFault c) (wReserveTurn minBits) := fun s =>
      ite_mapState (andThen_mapState (psAcquire_ignoresFault c s) fun _ _ => rfl) rfl
    exact fun s => ite_mapState (andThen_mapState (hturn s) fun _ t => ih t) rfl

theorem wReserve_ignoresFault (minBits : Nat) : IgnoresFault (wReserve minBits) := fun c s =>
  wReserveLoop_ignoresFault minBits _ c s

theorem commit_ignoresFault (word : Page) : IgnoresFault (commit word) := fun c s =>
  andThen_mapState (wTake_ignoresFault c s) fun h t => pageSet_ignoresFault h _ c t

theorem requireWritable_ignoresFault (n : Nat) : IgnoresFault (requireWritable n) := fun _ _ => ite_mapState rfl rfl

theorem putBits_ignoresFault (n value : Nat) : IgnoresFault (putBits n value) := fun c s =>
  ite_mapState rfl (andThen_mapState (commit_ignoresFault _ c s) fun _ _ => rfl)

theorem wPut_ignoresFault (n value : Nat) : IgnoresFault (wPut n value) := fun c s =>
  andThen_mapState (requireCount_blind n s) fun _ s =>
  andThen_mapState (requireWidth_blind n value s) fun _ s =>
  andThen_mapState (requireWritable_ignoresFault n c s) fun _ s => putBits_ignoresFault n value c s

theorem wFlush_ignoresFault : IgnoresFault wFlush := fun c s =>
  ite_mapState (andThen_mapState (commit_ignoresFault _ c s) fun _ _ => rfl) rfl

theorem writeField_ignoresFault (n value : Nat) : IgnoresFault (writeField n value) := fun c s =>
  ite_mapState (wPut_ignoresFault n value c s) rfl

theorem grWrite_ignoresFault (x m : Nat) : IgnoresFault (grWrite x m) := fun c s =>
  andThen_mapState (requireRice_blind m s) fun _ s =>
    ite_mapState
      (andThen_mapState (wPut_ignoresFault 32 _ c s) fun _ s => wPut_ignoresFault 32 x c s)
      (andThen_mapState (wPut_ignoresFault _ _ c s) fun _ s => writeField_ignoresFault m _ c s)

theorem requireEncoder_ignoresFault : IgnoresFault requireEncoder := fun _ _ => ite_mapState rfl rfl

theorem putDirect_ignoresFault (u : Nat) : IgnoresFault (putDirect u) := fun c s =>
  andThen_mapState (wReserve_ignoresFault _ c s) fun _ s =>
  andThen_mapState (grWrite_ignoresFault u _ c s) fun _ _ => rfl

theorem putRunZero_ignoresFault : IgnoresFault putRunZero := fun c s =>
  ite_mapState
    (andThen_mapState (wReserve_ignoresFault _ c s) fun _ s =>
     andThen_mapState (wPut_ignoresFault 1 0 c s) fun _ _ => rfl)
    rfl

theorem putTerminator_ignoresFault : IgnoresFault putTerminator := fun c s =>
  andThen_mapState (wReserve_ignoresFault _ c s) fun _ s =>
  andThen_mapState (wPut_ignoresFault 1 1 c s) fun _ s => writeField_ignoresFault _ _ c s

theorem putRunNonzero_ignoresFault (u : Nat) : IgnoresFault (putRunNonzero u) := fun c s =>
  andThen_mapState (putTerminator_ignoresFault c s) fun _ s =>
  andThen_mapState (wReserve_ignoresFault _ c s) fun _ s =>
  andThen_mapState (grWrite_ignoresFault _ _ c s) fun _ _ => rfl

theorem encPut_ignoresFault (u : Nat) : IgnoresFault (encPut u) := fun c s =>
  andThen_mapState (requireEncoder_ignoresFault c s) fun _ s =>
    ite_mapState (putDirect_ignoresFault u c s)
      (ite_mapState (putRunZero_ignoresFault c s) (putRunNonzero_ignoresFault u c s))

theorem flushRun_ignoresFault : IgnoresFault flushRun := fun c s =>
  ite_mapState (andThen_mapState (putTerminator_ignoresFault c s) fun _ _ => rfl) rfl

theorem encFlush_ignoresFault : IgnoresFault encFlush := fun c s =>
  andThen_mapState (requireEncoder_ignoresFault c s) fun _ s =>
  andThen_mapState (flushRun_ignoresFault c s) fun _ s =>
  andThen_mapState (wFlush_ignoresFault c s) fun _ _ => rfl

/-! ### The reader and the decoder -/

theorem rTake_ignoresFault : IgnoresFault rTake := by
  intro c s
  obtain ⟨_, _, _, _, _, ⟨_, _, _, _, _, win⟩, _⟩ := s
  cases win <;> rfl

theorem refillFetch_ignoresFault : IgnoresFault refillFetch := fun c s =>
  ite_mapState
    (andThen_mapState (rTake_ignoresFault c s) fun h t =>
     andThen_mapState (pageGet_ignoresFault h c t) fun _ _ => rfl)
    rfl

theorem rRefill_ignoresFault : IgnoresFault rRefill := by
  intro c s
  have hpass : Blind (withFault c) refillPass := fun s =>
    andThen_mapState (refillFetch_ignoresFault c s) fun _ _ => rfl
  exact andThen_mapState (hpass s) fun _ t => hpass t

theorem rReserveLoop_ignoresFault (minBits n : Nat) : IgnoresFault (rReserveLoop minBits n) := by
  intro c
  induction n with
  | zero => exact fun _ => ite_mapState rfl rfl
  | succ n ih =>
    have hturn : Blind (withFault c) (rReserveTurn minBits) := fun s =>
      ite_mapState (andThen_mapState (psReadNext_ignoresFault c s) fun _ _ => rfl) rfl
    exact fun s => ite_mapState (andThen_mapState (hturn s) fun _ t => ih t) rfl

theorem rReserve_ignoresFault (minBits : Nat) : IgnoresFault (rReserve minBits) := fun c s =>
  andThen_mapState (rReserveLoop_ignoresFault minBits _ c s) fun _ t => rRefill_ignoresFault c t

theorem requireReadable_ignoresFault (n : Nat) : IgnoresFault (requireReadable n) := fun _ _ => ite_mapState rfl rfl

theorem rPeek_ignoresFault (n : Nat) : IgnoresFault (rPeek n) := fun c s =>
  andThen_mapState (requirePeekCount_blind n s) fun _ s =>
  andThen_mapState (requireReadable_ignoresFault n c s) fun _ _ => rfl

theorem rSkip_ignoresFault (n : Nat) : IgnoresFault (rSkip n) := fun c s =>
  andThen_mapState (requireCount_blind n s) fun _ s =>
  andThen_mapState (requireReadable_ignoresFault n c s) fun _ s =>
    rRefill_ignoresFault c { s with reader := dropBits n s.reader }

theorem readField_ignoresFault (n : Nat) : IgnoresFault (readField n) := fun c s =>
  ite_mapState
    (andThen_mapState (rPeek_ignoresFault n c s) fun _ s =>
     andThen_mapState (rSkip_ignoresFault n c s) fun _ _ => rfl)
    rfl

theorem grReadEscape_ignoresFault : IgnoresFault grReadEscape := fun c s =>
  andThen_mapState (rSkip_ignoresFault 32 c s) fun _ s =>
  andThen_mapState (rPeek_ignoresFault 32 c s) fun _ s =>
  andThen_mapState (rSkip_ignoresFault 32 c s) fun _ _ => rfl

theorem grReadPlain_ignoresFault (v m : Nat) : IgnoresFault (grReadPlain v m) := fun c s =>
  andThen_mapState (rSkip_ignoresFault _ c s) fun _ s =>
  andThen_mapState (readField_ignoresFault m c s) fun _ _ => rfl

theorem grRead_ignoresFault (m : Nat) : IgnoresFault (grRead m) := fun c s =>
  andThen_mapState (requireRice_blind m s) fun _ s =>
  andThen_mapState (rPeek_ignoresFault 32 c s) fun v s =>
    ite_mapState (grReadEscape_ignoresFault c s) (grReadPlain_ignoresFault v m c s)

theorem requireDecoder_ignoresFault : IgnoresFault requireDecoder := fun _ _ => ite_mapState rfl rfl

theorem requireRemaining_ignoresFault (v : Nat) : IgnoresFault (requireRemaining v) := fun _ _ =>
  ite_mapState rfl rfl

theorem getDirect_ignoresFault : IgnoresFault getDirect := fun c s =>
  andThen_mapState (rReserve_ignoresFault _ c s) fun _ s =>
  andThen_mapState (grRead_ignoresFault _ c s) fun _ _ => rfl

theorem runTermDone_ignoresFault (rl x : Nat) : IgnoresFault (runTermDone rl x) := fun _ _ =>
  ite_mapState rfl (ite_mapState rfl rfl)

theorem getTerminator_ignoresFault (rl : Nat) : IgnoresFault (getTerminator rl) := fun c s =>
  andThen_mapState (requireRemaining_ignoresFault rl c s) fun _ s =>
    ite_mapState rfl
      (andThen_mapState (rReserve_ignoresFault _ c s) fun _ s =>
       andThen_mapState (grRead_ignoresFault _ c s) fun x s => runTermDone_ignoresFault rl x c s)

theorem runFullDone_ignoresFault : IgnoresFault runFullDone := fun c s =>
  andThen_mapState (requireRemaining_ignoresFault _ c s) fun _ _ => rfl

theorem getRun_ignoresFault : IgnoresFault getRun := fun c s =>
  andThen_mapState (rReserve_ignoresFault _ c s) fun _ s =>
  andThen_mapState (readField_ignoresFault 1 c s) fun _ s =>
    ite_mapState (runFullDone_ignoresFault c s)
      (andThen_mapState (readField_ignoresFault _ c s) fun rl s => getTerminator_ignoresFault rl c s)

theorem decGet_ignoresFault : IgnoresFault decGet := fun c s =>
  andThen_mapState (requireDecoder_ignoresFault c s) fun _ s =>
    ite_mapState rfl
      (ite_mapState rfl (ite_mapState (getDirect_ignoresFault c s) (getRun_ignoresFault c s)))

/-! ## How a command answers -/

/-- From every state the command ends in a next state with one of the three responses of 30_encoding.md R92. -/
def Answers (m : State → CommandOutcome) : Prop :=
  ∀ s, ∃ t r, m s = .next t ∧ t.response = some r ∧
    ((r.status = 0 ∧ t.fault = s.fault) ∨
      (s.fault = 0 ∧ ∃ f : FaultName, t.fault = faultCode f ∧ r = { status := faultCode f, result := 0 }) ∨
      (s.fault ≠ 0 ∧ t = { s with response := some r } ∧ r = { status := 0xFF, result := 0 }))

/-- The procedure leaves `FAULT` as it was where it ends normally. -/
def KeepsFault {α : Type} (p : State → Res α) : Prop := ∀ s t a, p s = .ok a t → t.fault = s.fault

/-- What a procedure ignores it leaves as it was. -/
theorem IgnoresFault.keepsFault {α : Type} {p : State → Res α} (hp : IgnoresFault p) : KeepsFault p := by
  intro s t a h
  have hok : Res.ok a t = Res.ok a (withFault s.fault t) := h.symm.trans ((hp s.fault).ok h)
  calc t.fault = (withFault s.fault t).fault := congrArg State.fault (Res.ok.inj hok).2
    _ = s.fault := rfl

/-- The register map shows `FAULT`, but reading it changes nothing. -/
theorem csrProc_keepsFault (idx : Nat) : KeepsFault (csrProc idx) := by
  intro s t v h
  unfold csrProc at h
  split at h
  · rw [(Res.ok.inj h).2]
  · cases h

theorem runCommand_answers {p : State → Res (BitVec 64)} (hp : KeepsFault p) : Answers (runCommand p) := by
  intro s
  obtain ⟨t, ht⟩ := runCommand_ends p s
  rcases runCommand_next ht with ⟨hs, rfl⟩ | ⟨_, v, u, hu, rfl⟩ | ⟨hs, f, info, _, rfl⟩
  · exact ⟨_, _, ht, rfl, .inr (.inr ⟨hs, rfl, rfl⟩)⟩
  · exact ⟨_, _, ht, rfl, .inl ⟨rfl, hp s u v hu⟩⟩
  · exact ⟨_, _, ht, rfl, .inr (.inl ⟨hs, f, rfl, rfl⟩)⟩

theorem procedure_answers {p : State → Res Unit} (hp : IgnoresFault p) : Answers (runCommand (noResult p)) :=
  runCommand_answers fun _ _ _ h => hp.keepsFault _ _ _ (noResult_eq_ok.mp h).1

theorem number_answers {p : State → Res Nat} (hp : IgnoresFault p) : Answers (runCommand (numResult p)) :=
  runCommand_answers fun _ _ _ h =>
    have ⟨_, hn, _⟩ := numResult_eq_ok.mp h
    hp.keepsFault _ _ _ hn

/-- The two numbers that read in the fault state always have a value; every other number is a command like
the others (60_exceptions.md R311). -/
theorem execCsrRd_answers (idx : Half) : Answers (execCsrRd idx) := by
  by_cases hi : idx = 0 ∨ idx = 1
  · intro s
    obtain ⟨v, hv⟩ : ∃ v, csrRead idx.toNat s = some v := by
      rcases hi with rfl | rfl
      · exact ⟨_, rfl⟩
      · exact ⟨_, rfl⟩
    exact ⟨_, _, exec_csrRd_of_read (.inr hi) hv, rfl, .inl ⟨rfl, rfl⟩⟩
  · intro s
    rw [execCsrRd, if_neg (csrInFaultState_iff.not.mpr hi)]
    exact runCommand_answers (csrProc_keepsFault _) s

/-- A command runs a procedure that ignores `FAULT`, or reads a register. -/
theorem exec_answers {i : Instr} (hi : i.isCommand = true) : Answers (exec i) := by
  cases i with
  | psAcq => exact number_answers psAcquire_ignoresFault
  | psNext => exact number_answers psReadNext_ignoresFault
  | psGet h => exact runCommand_answers (pageGet_ignoresFault _).keepsFault
  | psSet h v => exact procedure_answers (pageSet_ignoresFault _ v)
  | psLen | wAvail | rAvail => exact number_answers fun _ _ => rfl
  | wRsv n => exact procedure_answers (wReserve_ignoresFault _)
  | wPut n v => exact procedure_answers (wPut_ignoresFault _ _)
  | wAlign | encNew | decNew n => exact procedure_answers fun _ _ => rfl
  | wFlush => exact procedure_answers wFlush_ignoresFault
  | rRsv n => exact procedure_answers (rReserve_ignoresFault _)
  | rPeek32 | rPeek n => exact number_answers (rPeek_ignoresFault _)
  | rSkip n => exact procedure_answers (rSkip_ignoresFault _)
  | grWr m x => exact procedure_answers (grWrite_ignoresFault _ _)
  | grRd m => exact number_answers (grRead_ignoresFault _)
  | zzEnc v | zzDec u => exact runCommand_answers (IgnoresFault.keepsFault fun _ _ => rfl)
  | encPut u => exact procedure_answers (encPut_ignoresFault _)
  | encFlush => exact procedure_answers encFlush_ignoresFault
  | decGet => exact number_answers decGet_ignoresFault
  | csrRd idx => exact execCsrRd_answers idx
  | cwGr _ _ | cwEsc _ | cwRunfull | cwRunterm _ _ | cwRunend _ | cwDirect _ => cases hi

/-- Settles O12, from the answer of every command. -/
theorem commandsAnswer : Obligations.CommandsAnswer := fun _ s hi => exec_answers hi s

end Sys2Proof.Machine

/-! PROOF. The Page Storage commands and the lengths (40_page_storage.md R131 to R135; 41_reservation_window.md
R157, R158): each runs one procedure, whose end is the end of the command. -/

namespace Sys2Proof.Machine

/-! ## How a command ends where no fault has occurred -/

section Ends

variable {s t : State} (hs : s.fault = 0)
include hs

theorem number_of_ok {p : State → Res Nat} {n : Nat} (h : p s = .ok n t) :
    runCommand (numResult p) s = .next (t.answer (BitVec.ofNat 64 n)) := by
  rw [runCommand_live hs, runProc_ok (numResult_eq_ok.mpr ⟨n, h, rfl⟩)]

theorem number_of_raise {p : State → Res Nat} {f : FaultName} {info : Nat} (h : p s = .raise f info) :
    runCommand (numResult p) s = .next (takeFault f info s) := by
  rw [runCommand_live hs, runProc_raise (numResult_eq_raise.mpr h)]

theorem procedure_of_ok {p : State → Res Unit} (h : p s = .ok () t) :
    runCommand (noResult p) s = .next (t.answer 0) := by
  rw [runCommand_live hs, runProc_ok (noResult_eq_ok.mpr ⟨h, rfl⟩)]

theorem procedure_of_raise {p : State → Res Unit} {f : FaultName} {info : Nat} (h : p s = .raise f info) :
    runCommand (noResult p) s = .next (takeFault f info s) := by
  rw [runCommand_live hs, runProc_raise (noResult_eq_raise.mpr h)]

end Ends

/-! ## The commands -/

/-- Settles O17: nothing is stored beyond the write cursor, so the page reads 0 before it is written with 0. -/
theorem psAcqAppends : Obligations.PsAcqAppends := by
  intro s hs hroom
  have hbelow := (hs.inv.live hs.no_fault).pages.mem_below
  exact ⟨number_of_ok hs.no_fault (psAcquire_ok hs.inv.mem_wf hbelow hroom),
    pageRead_of_memBelow hbelow (le_refl _)⟩

/-- Settles O18: the two ends of `ps_read_next()`. -/
theorem psNextAdvances : Obligations.PsNextAdvances := fun _ hs =>
  ⟨fun h => number_of_ok hs (psReadNext_eq_ok.mpr ⟨h, rfl, rfl⟩),
    fun h => number_of_raise hs (psReadNext_eq_raise.mpr ⟨h, rfl, rfl⟩)⟩

/-- Settles O19: the value is the page read, whose bytes are the wire bytes. -/
theorem psGetReads : Obligations.PsGetReads := by
  refine fun h s hs => ⟨fun hlt => ⟨pageRead s.mem h.toNat, ?_, fun j => pageByte_pageRead s.mem h.toNat⟩,
    fun hle => ?_⟩
  · exact (runCommand_live hs).trans (runProc_ok (pageGet_eq_ok.mpr ⟨hlt, rfl, rfl⟩))
  · exact (runCommand_live hs).trans (runProc_raise (pageGet_eq_raise.mpr ⟨hle, rfl, rfl⟩))

theorem memRead_pageWrite_byte {m : Memory} (hm : m.wf = true) (h : Nat) (v : Page) {j : Nat} (hj : j < 8) :
    memRead (pageWrite m h v) (8 * h + j) = pageByte v j := by
  rw [memRead_pageWrite hm, if_pos (by omega), Nat.add_sub_cancel_left]

/-- Settles O20: the new memory is the page write, known by its bytes. -/
theorem psSetStores : Obligations.PsSetStores := by
  refine fun h v s hs => ⟨fun hm hlt => ⟨pageWrite s.mem h.toNat v, ?_, pageWrite_wf hm _ v,
    fun j => memRead_pageWrite_byte hm h.toNat v, fun a ha => memRead_pageWrite_frame hm ha v⟩, fun hle => ?_⟩
  · exact procedure_of_ok hs (pageSet_eq_ok.mpr ⟨hlt, rfl⟩)
  · exact procedure_of_raise hs (pageSet_eq_raise.mpr ⟨hle, rfl, rfl⟩)

/-- Settles O21: each procedure answers its register in the state it runs in. -/
theorem lengthsAndAvailable : Obligations.LengthsAndAvailable := fun _ hs =>
  ⟨number_of_ok hs rfl, number_of_ok hs rfl, number_of_ok hs rfl⟩

end Sys2Proof.Machine

/-! PROOF. The full store (40_page_storage.md R131; 45_rlgr_encoder.md section 2): where a reserve of the encoder
needs more pages than the store can still hold, the procedure around it ends there. -/

namespace Sys2Proof.Machine

/-- The flag and the run-length field fit a coder's reserve. -/
theorem flagAndRun_le {e : Encoder} (he : e.Inv) : 1 + width e.k ≤ 64 := by
  have := width_le he.k_le
  omega

section FullStore

variable {s : State} (h : s.CanWrite) (hp : s.psWcur ≤ s.params.pageLimit)
include h hp

/-- What would follow a reserve that finds the store full is not run. -/
theorem reserve64_then_full {α : Type} {n : Nat} (hn : n ≤ 64) (hl : ¬ s.roomFor (pagesNeeded n s.writer.rsvd))
    (k : Unit → State → Res α) : (wReserve n s).andThen k = .raise .storeFull s.params.pageLimit := by
  rw [wReserve64_full h hn hp hl, andThen_raise]

theorem putDirect_full (u : Nat) (hl : ¬ s.roomFor (pagesNeeded 64 s.writer.rsvd)) :
    putDirect u s = .raise .storeFull s.params.pageLimit := reserve64_then_full h hp (le_refl 64) hl _

variable (he : s.enc.Inv)
include he

theorem putRunZero_storeFull (hf : s.enc.rl + 1 = 2 ^ width s.enc.k)
    (hl : ¬ s.roomFor (pagesNeeded (1 + width s.enc.k) s.writer.rsvd)) :
    putRunZero s = .raise .storeFull s.params.pageLimit := by
  rw [putRunZero, if_pos hf]
  exact reserve64_then_full h hp (flagAndRun_le he) hl _

theorem putTerminator_full (hl : ¬ s.roomFor (pagesNeeded (1 + width s.enc.k) s.writer.rsvd)) :
    putTerminator s = .raise .storeFull s.params.pageLimit := reserve64_then_full h hp (flagAndRun_le he) hl _

theorem flushRun_full (hrl : 0 < s.enc.rl) (hl : ¬ s.roomFor (pagesNeeded (1 + width s.enc.k) s.writer.rsvd)) :
    flushRun s = .raise .storeFull s.params.pageLimit := by
  rw [flushRun, if_pos hrl, putTerminator_full h hp he hl, andThen_raise]

/-- The store is full at the terminator's reserve, or at the symbol's reserve after it. -/
theorem putRunNonzero_full (u : Nat) (hl : ¬ s.roomFor (termPages (width s.enc.k) s.writer.rsvd)) :
    putRunNonzero u s = .raise .storeFull s.params.pageLimit := by
  by_cases hfirst : s.roomFor (pagesNeeded (1 + width s.enc.k) s.writer.rsvd)
  · obtain ⟨t, ht, ha⟩ := putTerminator_ok h he hfirst
    have hcw : t.CanWrite := ha.canWrite (wReserve64_ok h (flagAndRun_le he) hfirst).2
    have hpar : t.params = s.params := by rw [ha.others]; rfl
    have hpw : t.psWcur = s.psWcur + pagesNeeded (1 + width s.enc.k) s.writer.rsvd := by rw [ha.others]; rfl
    have hrs : t.writer.rsvd = s.writer.rsvd + 64 * pagesNeeded (1 + width s.enc.k) s.writer.rsvd -
        (1 + width s.enc.k) := by
      have := ha.rsvd
      simp only [State.withReserved, List.length_cons, bitsOf_length] at this
      omega
    have hsecond : ¬ t.roomFor (pagesNeeded 64 t.writer.rsvd) := by
      rw [State.roomFor, hpw, hrs, hpar, Nat.add_assoc]
      exact hl
    rw [putRunNonzero, ht, andThen_ok, ← hpar]
    exact reserve64_then_full hcw (by rw [hpw, hpar]; exact hfirst) (le_refl 64) hsecond _
  · rw [putRunNonzero, putTerminator_full h hp he hfirst, andThen_raise]

end FullStore

/-- Settles O22: in a bounded store the limit is `MAX_PAGES`, and each command ends where its reserve does. -/
theorem fullStoreFaults : Obligations.FullStoreFaults := by
  intro s n u m hs hmax
  obtain rfl : s.params.pageLimit = m := by rw [Params.pageLimit, hmax]
  have hlive := hs.inv.live hs.no_fault
  have hp := hlive.pages.wcur_le
  have hnoRoom {k : Nat} (hk : s.params.pageLimit < s.psWcur + k) : ¬ s.roomFor k := Nat.not_le.mpr hk
  rw [← width_eq s.enc.k]
  refine ⟨fun hfull => ?_, fun hfull hn hwin => ?_, fun hact hk hroom => ?_, fun hact hk hrl hroom => ?_,
    fun hact hk hu hroom => ?_, fun hact hrl hroom => ?_⟩
  · exact number_of_raise hs.no_fault (psAcquire_eq_raise.mpr ⟨hfull.ge, rfl, hfull.symm⟩)
  · have hneed : pagesNeeded n.toNat s.writer.rsvd ≠ 0 := mt pagesNeeded_eq_zero.mp (Nat.not_le.mpr hn)
    have hroom : s.params.pageLimit < s.psWcur + pagesNeeded n.toNat s.writer.rsvd := by omega
    exact procedure_of_raise hs.no_fault
      (wReserve_full hs.inv.mem_wf hlive.pages.mem_below hp hroom (by omega))
  · refine procedure_of_raise hs.no_fault ?_
    rw [encPut_eq hact, if_pos hk]
    exact putDirect_full hs.canWrite hp _ (hnoRoom hroom)
  · refine procedure_of_raise hs.no_fault ?_
    rw [encPut_eq hact, if_neg hk.ne', if_pos (show valueOperand 0 = 0 from rfl)]
    exact putRunZero_storeFull hs.canWrite hp hlive.enc hrl (hnoRoom hroom)
  · have hu' : valueOperand u ≠ 0 := fun h0 => hu (BitVec.eq_of_toNat_eq h0)
    refine procedure_of_raise hs.no_fault ?_
    rw [encPut_eq hact, if_neg hk.ne', if_neg hu']
    exact putRunNonzero_full hs.canWrite hp hlive.enc _ (hnoRoom hroom)
  · refine procedure_of_raise hs.no_fault ?_
    rw [encFlush, requireEncoder_ok hact, andThen_ok,
      flushRun_full hs.canWrite hp hlive.enc hrl (hnoRoom hroom), andThen_raise]

end Sys2Proof.Machine

/-! PROOF. The page cursors (10_state.md R31, R32; 40_page_storage.md R130): only an acquisition and a fetch move
them, and each moves one of them by one page, behind its check. -/

namespace Sys2Proof.Machine

/-! ## Cursors that only grow -/

/-- From `s` to `t` neither cursor falls, and the two bounds on them are kept. -/
structure Grows (s t : State) : Prop where
  params : t.params = s.params := by rfl
  wcur_le : s.psWcur ≤ t.psWcur := by exact le_refl _
  rcur_le : s.psRcur ≤ t.psRcur := by exact le_refl _
  ordered : s.psRcur ≤ s.psWcur → t.psRcur ≤ t.psWcur := by exact id
  bounded : s.psWcur ≤ s.params.pageLimit → t.psWcur ≤ s.params.pageLimit := by exact id

theorem Grows.refl (s : State) : Grows s s := {}

theorem Grows.trans {s t u : State} (h : Grows s t) (h' : Grows t u) : Grows s u where
  params := h'.params.trans h.params
  wcur_le := h.wcur_le.trans h'.wcur_le
  rcur_le := h.rcur_le.trans h'.rcur_le
  ordered hs := h'.ordered (h.ordered hs)
  bounded hs := h.params ▸ h'.bounded (h.params.symm ▸ h.bounded hs)

/-- Outside the instructions that acquire or fetch pages the cursors stay where they are. -/
theorem Frame.grows {i : Instr} {s t : State} (h : Frame i s t) (ha : acquiresPages i = false)
    (hf : fetchesPages i = false) : Grows s t where
  params := h.params
  wcur_le := (h.wcur ha).ge
  rcur_le := (h.rcur hf).ge
  ordered hs := by rwa [h.wcur ha, h.rcur hf]
  bounded hs := by rwa [h.wcur ha]

/-- If the procedure begun in `s` ends normally, the cursors have only grown. -/
def Res.GrowsFrom {α : Type} (s : State) (r : Res α) : Prop := ∀ a t, r = .ok a t → Grows s t

/-- From every state the procedure only lets the cursors grow. -/
def Growing {α : Type} (p : State → Res α) : Prop := ∀ s, (p s).GrowsFrom s

section Combinators

variable {α β : Type} {s t : State}

theorem ok_grows {a : α} (h : Grows s t) : (Res.ok a t).GrowsFrom s := by
  rintro _ _ ⟨⟩
  exact h

theorem raise_grows {f : FaultName} {info : Nat} : (Res.raise f info : Res α).GrowsFrom s := by
  rintro _ _ ⟨⟩

theorem andThen_grows {r : Res α} {k : α → State → Res β} (hr : r.GrowsFrom s) (hk : ∀ a, Growing (k a)) :
    (r.andThen k).GrowsFrom s := by
  intro b u h
  obtain ⟨a, t, hrt, hku⟩ := andThen_eq_ok.mp h
  exact (hr a t hrt).trans (hk a t b u hku)

theorem ite_grows {c : Prop} [Decidable c] {r₁ r₂ : Res α} (h₁ : r₁.GrowsFrom s) (h₂ : r₂.GrowsFrom s) :
    (if c then r₁ else r₂).GrowsFrom s := by
  split
  · exact h₁
  · exact h₂

/-- A procedure confined to the frame of an instruction that neither acquires nor fetches pages. -/
theorem Confined.growing {i : Instr} {p : State → Res α} (hp : Confined i p) (ha : acquiresPages i = false)
    (hf : fetchesPages i = false) : Growing p := fun s a t h => (hp s a t h).grows ha hf

end Combinators

/-! ## Acquisition and the encoder -/

theorem psAcquire_growing : Growing psAcquire := by
  intro s h t ht
  obtain ⟨hroom, -, rfl⟩ := psAcquire_eq_ok.mp ht
  exact { wcur_le := Nat.le_succ _, ordered := Nat.le_succ_of_le, bounded := fun _ => hroom }

theorem wReserveLoop_growing (minBits n : Nat) : Growing (wReserveLoop minBits n) := by
  have hturn : Growing (wReserveTurn minBits) := fun s =>
    ite_grows (andThen_grows (psAcquire_growing s) fun _ _ => ok_grows {}) raise_grows
  induction n with
  | zero => exact fun s => ite_grows raise_grows (ok_grows (.refl s))
  | succ n ih => exact fun s => ite_grows (andThen_grows (hturn s) fun _ => ih) (ok_grows (.refl s))

theorem wReserve_growing (minBits : Nat) : Growing (wReserve minBits) := fun s => wReserveLoop_growing minBits _ s

theorem wPut_growing (n value : Nat) : Growing (wPut n value) :=
  (wPut_confined (i := .wFlush) rfl n value).growing rfl rfl

theorem grWrite_growing (x m : Nat) : Growing (grWrite x m) :=
  (grWrite_confined (i := .wFlush) rfl x m).growing rfl rfl

theorem putDirect_growing (u : Nat) : Growing (putDirect u) := fun s =>
  andThen_grows (wReserve_growing _ s) fun _ s =>
  andThen_grows (grWrite_growing u _ s) fun _ _ => ok_grows {}

theorem putRunZero_growing : Growing putRunZero := fun s =>
  ite_grows
    (andThen_grows (wReserve_growing _ s) fun _ s =>
     andThen_grows (wPut_growing 1 0 s) fun _ _ => ok_grows {})
    (ok_grows {})

theorem putTerminator_growing : Growing putTerminator := fun s =>
  andThen_grows (wReserve_growing _ s) fun _ s =>
  andThen_grows (wPut_growing 1 1 s) fun _ s =>
    ite_grows (wPut_growing _ _ s) (ok_grows (.refl s))

theorem putRunNonzero_growing (u : Nat) : Growing (putRunNonzero u) := fun s =>
  andThen_grows (putTerminator_growing s) fun _ s =>
  andThen_grows (wReserve_growing _ s) fun _ s =>
  andThen_grows (grWrite_growing _ _ s) fun _ _ => ok_grows {}

theorem requireEncoder_growing : Growing requireEncoder := fun s => ite_grows (ok_grows (.refl s)) raise_grows

theorem encPut_growing (u : Nat) : Growing (encPut u) := fun s =>
  andThen_grows (requireEncoder_growing s) fun _ s =>
    ite_grows (putDirect_growing u s) (ite_grows (putRunZero_growing s) (putRunNonzero_growing u s))

theorem encFlush_growing : Growing encFlush := by
  have hrun : Growing flushRun := fun s =>
    ite_grows (andThen_grows (putTerminator_growing s) fun _ _ => ok_grows {}) (ok_grows (.refl s))
  have hflush : Growing wFlush := (wFlush_confined (i := .wFlush) rfl).growing rfl rfl
  exact fun s =>
    andThen_grows (requireEncoder_growing s) fun _ s =>
    andThen_grows (hrun s) fun _ s =>
    andThen_grows (hflush s) fun _ _ => ok_grows {}

/-! ## The fetch and the decoder -/

theorem psReadNext_growing : Growing psReadNext := by
  intro s h t ht
  obtain ⟨hunread, -, rfl⟩ := psReadNext_eq_ok.mp ht
  exact { rcur_le := Nat.le_succ _, ordered := fun _ => hunread }

theorem rReserveLoop_growing (minBits n : Nat) : Growing (rReserveLoop minBits n) := by
  have hturn : Growing (rReserveTurn minBits) := fun s =>
    ite_grows (andThen_grows (psReadNext_growing s) fun _ _ => ok_grows {}) raise_grows
  induction n with
  | zero => exact fun s => ite_grows raise_grows (ok_grows (.refl s))
  | succ n ih => exact fun s => ite_grows (andThen_grows (hturn s) fun _ => ih) (ok_grows (.refl s))

theorem rReserve_growing (minBits : Nat) : Growing (rReserve minBits) := fun s =>
  andThen_grows (rReserveLoop_growing minBits _ s) fun _ =>
    (rRefill_confined (i := .rSkip 0) rfl).growing rfl rfl

theorem rSkip_growing (n : Nat) : Growing (rSkip n) := (rSkip_confined (i := .rSkip 0) rfl n).growing rfl rfl

theorem readField_growing (n : Nat) : Growing (readField n) :=
  (readField_confined (i := .rSkip 0) rfl n).growing rfl rfl

theorem grRead_growing (m : Nat) : Growing (grRead m) := (grRead_confined (i := .rSkip 0) rfl m).growing rfl rfl

theorem skipGr_growing (x m : Nat) : Growing (skipGr x m) :=
  (skipGr_confined (i := .rSkip 0) rfl x m).growing rfl rfl

theorem requireRemaining_growing (v : Nat) : Growing (requireRemaining v) := fun s =>
  ite_grows (ok_grows (.refl s)) raise_grows

theorem directDone_growing (u : Nat) : Growing (directDone u) := fun _ => ok_grows {}

theorem runFullDone_growing : Growing runFullDone := fun s =>
  andThen_grows (requireRemaining_growing _ s) fun _ _ => ok_grows {}

theorem runEndDone_growing (rl : Nat) : Growing (runEndDone rl) := fun _ => ok_grows {}

theorem runTermDone_growing (rl x : Nat) : Growing (runTermDone rl x) := fun _ =>
  ite_grows raise_grows (ite_grows (ok_grows {}) (ok_grows {}))

theorem getDirect_growing : Growing getDirect := fun s =>
  andThen_grows (rReserve_growing _ s) fun _ s =>
  andThen_grows (grRead_growing _ s) fun u => directDone_growing u

theorem getTerminator_growing (rl : Nat) : Growing (getTerminator rl) := fun s =>
  andThen_grows (requireRemaining_growing rl s) fun _ s =>
    ite_grows (runEndDone_growing rl s)
      (andThen_grows (rReserve_growing _ s) fun _ s =>
       andThen_grows (grRead_growing _ s) fun x => runTermDone_growing rl x)

theorem getRun_growing : Growing getRun := fun s =>
  andThen_grows (rReserve_growing _ s) fun _ s =>
  andThen_grows (readField_growing 1 s) fun _ s =>
    ite_grows (runFullDone_growing s)
      (andThen_grows (readField_growing _ s) fun rl => getTerminator_growing rl)

/-- What an earlier code left is returned with the cursors as they are. -/
theorem decoderMeets_growing {p : State → Res Nat} (hp : Growing p) : Growing (decoderMeets p) := fun s =>
  ite_grows (ok_grows {}) (ite_grows (ok_grows {}) (hp s))

theorem decGet_growing : Growing decGet := fun s =>
  andThen_grows (ite_grows (ok_grows (.refl s)) raise_grows) fun _ =>
    decoderMeets_growing fun s => ite_grows (getDirect_growing s) (getRun_growing s)

theorem skipFlag_growing : Growing skipFlag := fun s =>
  andThen_grows (rReserve_growing _ s) fun _ => rSkip_growing 1

theorem skipTerminator_growing : Growing skipTerminator := fun s =>
  andThen_grows (skipFlag_growing s) fun _ s => ite_grows (rSkip_growing _ s) (ok_grows (.refl s))

/-! ## The instructions -/

/-- Where the instruction goes from a state without a fault to one without, the cursors only grow. -/
def CursorsGrow (m : State → CommandOutcome) : Prop :=
  ∀ s t, s.fault = 0 → m s = .next t → t.fault = 0 → Grows s t

theorem runProc_cursorsGrow {p : State → Res (BitVec 64)} (hp : Growing p) : CursorsGrow (runProc p) := by
  intro s t _ h ht
  rcases runProc_next h with ⟨v, u, hu, rfl⟩ | ⟨f, info, _, rfl⟩
  · exact (hp s v u hu).trans {}
  · exact absurd ht (faultCode_ne_zero f)

theorem number_growing {p : State → Res Nat} (hp : Growing p) : Growing (numResult p) := fun s =>
  andThen_grows (hp s) fun _ s => ok_grows (.refl s)

theorem number_cursorsGrow {p : State → Res Nat} (hp : Growing p) : CursorsGrow (runCommand (numResult p)) := by
  intro s t hs h ht
  rw [runCommand_live hs] at h
  exact runProc_cursorsGrow (number_growing hp) s t hs h ht

theorem procedure_cursorsGrow {p : State → Res Unit} (hp : Growing p) :
    CursorsGrow (runCommand (noResult p)) := by
  intro s t hs h ht
  rw [runCommand_live hs] at h
  exact runProc_cursorsGrow (fun s => andThen_grows (hp s) fun _ s => ok_grows (.refl s)) s t hs h ht

theorem runDecoderCode_cursorsGrow {i : Instr} {p : State → Res Nat} (hp : Growing p) :
    CursorsGrow (runDecoderCode i p) := by
  intro s t hs h ht
  rcases runCode_cases decoderBefore (decoderCtx s) i (decoderMeets p) s with ⟨hs', _⟩ | ⟨_, f, info, _, hr⟩ |
    ⟨_, _, _, hr⟩ | ⟨_, _, _, hr⟩
  · exact absurd hs hs'
  · obtain rfl : takeFault f info s = t := by simpa [runDecoderCode, hr] using h
    exact absurd ht (faultCode_ne_zero f)
  · simp [runDecoderCode, hr] at h
  · exact runProc_cursorsGrow (number_growing (decoderMeets_growing hp)) s t hs (hr.symm.trans h) ht

/-- Any other instruction leaves the cursors as they are: its frame says so. -/
theorem exec_cursorsGrow_of_frame {i : Instr} (ha : acquiresPages i = false) (hf : fetchesPages i = false) :
    CursorsGrow (exec i) := fun s t hs h ht => (exec_keepsFrame i s t hs h ht).grows ha hf

theorem exec_cursorsGrow (i : Instr) : CursorsGrow (exec i) := by
  cases i with
  | psAcq => exact number_cursorsGrow psAcquire_growing
  | wRsv n => exact procedure_cursorsGrow (wReserve_growing _)
  | encPut u => exact procedure_cursorsGrow (encPut_growing _)
  | encFlush => exact procedure_cursorsGrow encFlush_growing
  | psNext => exact number_cursorsGrow psReadNext_growing
  | rRsv n => exact procedure_cursorsGrow (rReserve_growing _)
  | decGet => exact number_cursorsGrow decGet_growing
  | cwRunfull =>
    exact runDecoderCode_cursorsGrow fun s =>
      andThen_grows (skipFlag_growing s) fun _ => runFullDone_growing
  | cwRunterm rl u =>
    exact runDecoderCode_cursorsGrow fun s =>
      andThen_grows (skipTerminator_growing s) fun _ s =>
      andThen_grows (requireRemaining_growing _ s) fun _ s =>
        ite_grows (runEndDone_growing _ s)
          (andThen_grows (rReserve_growing _ s) fun _ s =>
           andThen_grows (skipGr_growing _ _ s) fun _ => runTermDone_growing _ _)
  | cwRunend rl =>
    exact runDecoderCode_cursorsGrow fun s =>
      andThen_grows (skipTerminator_growing s) fun _ => getTerminator_growing _
  | cwDirect u =>
    exact runDecoderCode_cursorsGrow fun s =>
      andThen_grows (rReserve_growing _ s) fun _ s =>
      andThen_grows (skipGr_growing _ _ s) fun _ => directDone_growing _
  | psGet _ | psSet _ _ | psLen | wAvail | wPut _ _ | wAlign | wFlush | rAvail | rPeek32 | rPeek _ | rSkip _
  | grWr _ _ | grRd _ | zzEnc _ | zzDec _ | encNew | decNew _ | csrRd _ | cwGr _ _ | cwEsc _ =>
    exact exec_cursorsGrow_of_frame rfl rfl

/-- Settles O58: the bounds hold in a good state, and cursors that only grow keep them. -/
theorem cursorsOnlyGrow : Obligations.CursorsOnlyGrow := by
  intro i s t hs h ht
  have hpages := (hs.inv.live hs.no_fault).pages
  have hgrows := exec_cursorsGrow i s t hs.no_fault h ht
  exact ⟨hgrows.wcur_le, hgrows.rcur_le, hgrows.ordered hpages.rcur_le, hgrows.bounded hpages.wcur_le⟩

end Sys2Proof.Machine

/-! PROOF. The reserves as commands (41_reservation_window.md R152 to R156): where the window and the store have
room `W.RSV` and `R.RSV` get the pages they need, else they fault on the first of the two that ends. -/

namespace Sys2Proof.Machine

/-- Settles O24: the reserve has room, and the pages it acquires lie beyond the stored bytes. -/
theorem wRsvReserves : Obligations.WRsvReserves := by
  intro n s hs hwin hroom
  have hbelow := (hs.inv.live hs.no_fault).pages.mem_below
  exact ⟨procedure_of_ok hs.no_fault (wReserve_ok hs.inv.mem_wf hbelow hwin hroom),
    le_pagesNeeded n.toNat s.writer.rsvd, fun k _ => pageRead_of_memBelow hbelow (Nat.le_add_right _ k)⟩

/-- The reserved bits all lie in the window's pages (10_state.md R33). -/
theorem Writer.Inv.rsvd_le {w : Writer} {cap pages : Nat} (hw : w.Inv cap pages) :
    w.rsvd ≤ 64 * w.win.length := by
  have hrsvd := hw.rsvd_eq
  have hleft := hw.left_le
  omega

/-- More bits than a window's pages can hold need more entries than the window has (41_reservation_window.md
R155). -/
theorem Writer.Inv.cap_lt_needed {w : Writer} {cap pages n : Nat} (hw : w.Inv cap pages) (hn : 64 * cap < n) :
    cap < w.win.length + pagesNeeded n w.rsvd := by
  have hrsvd := hw.rsvd_le
  have hneed := le_pagesNeeded n w.rsvd
  omega

/-- Settles O25: each command ends where its reserve does; in a bounded store the limit is `MAX_PAGES`. -/
theorem reserveFaults : Obligations.ReserveFaults := by
  intro n s hs
  obtain ⟨hpages, hwriter, hreader, -, -⟩ := hs.inv.live hs.no_fault
  refine ⟨fun hwin hroom => ?_, hwriter.cap_lt_needed, fun m hmax hfull hwin => ?_,
    fun hwin hunread => ?_, fun hend hwin => ?_⟩
  · exact procedure_of_raise hs.no_fault
      (wReserve_overflow hs.inv.mem_wf hpages.mem_below hwriter.win_le hwin hroom)
  · obtain rfl : s.params.pageLimit = m := by rw [Params.pageLimit, hmax]
    exact procedure_of_raise hs.no_fault
      (wReserve_full hs.inv.mem_wf hpages.mem_below hpages.wcur_le hfull hwin)
  · exact procedure_of_raise hs.no_fault (rReserve_overflow hreader.win_le hwin hunread)
  · exact procedure_of_raise hs.no_fault (rReserve_pastWrite hpages.rcur_le hend hwin)

/-- Settles O26: the window has room and the pages are there to be fetched, so the reserve ends normally. -/
theorem rRsvFetches : Obligations.RRsvFetches := by
  intro n s hs hwin hunread
  obtain ⟨t, hreserve, hread, hrsvd, hbits⟩ :=
    rReserve_ok (hs.inv.live hs.no_fault).reader hwin hunread
  have henough : n.toNat ≤ t.reader.rsvd := hrsvd ▸ le_pagesNeeded n.toNat s.reader.rsvd
  exact ⟨t, procedure_of_ok hs.no_fault hreserve, hread, hrsvd, henough, hbits⟩

end Sys2Proof.Machine

/-! PROOF. The Bit Writer commands (42_bit_writer.md R172, R174, R175): in a good state each runs its procedure
to a normal end, and the procedure's law in Laws/Writer.lean is its effect. -/

namespace Sys2Proof.Machine

/-- Settles O27: the operands pass the three checks, and the put appends the value's bits. -/
theorem wPutAppends : Obligations.WPutAppends := by
  intro n v s hs hn hv hreserved
  obtain ⟨t, hput, happended⟩ :=
    wPut_ok (hs.inv.live hs.no_fault).writer hs.inv.mem_wf hn hv hreserved
  exact ⟨t, procedure_of_ok hs.no_fault hput, happended⟩

/-- Pages are whole bytes, so the reserved bits and the free bits of the current word end at the same place in
a byte (10_state.md R33, R48). -/
theorem Writer.Inv.rsvd_mod_eight {w : Writer} {cap pages : Nat} (hw : w.Inv cap pages) :
    w.rsvd % 8 = w.left % 8 := by
  have hrsvd := hw.rsvd_eq
  omega

theorem alignWriter_left_mod_eight (w : Writer) : (alignWriter w).left % 8 = 0 := by
  simp only [alignWriter]
  omega

theorem alignWriter_rsvd_mod_eight {w : Writer} (h : w.rsvd % 8 = w.left % 8) :
    (alignWriter w).rsvd % 8 = 0 := by
  simp only [alignWriter]
  omega

/-- Settles O28: the skipped bits are the same remainder of `W_LEFT` and of `W_RSVD`, so both become multiples
of 8; a shift of the accumulator touches neither the window nor the store. -/
theorem wAlignAligns : Obligations.WAlignAligns := by
  intro s hs
  have hwriter := (hs.inv.live hs.no_fault).writer
  have hmod := hwriter.rsvd_mod_eight
  exact ⟨{ s with writer := alignWriter s.writer }, procedure_of_ok hs.no_fault rfl,
    alignWriter_appended hwriter hs.inv.mem_wf, alignWriter_left_mod_eight s.writer,
    alignWriter_rsvd_mod_eight hmod, rfl, rfl, hmod⟩

/-- Settles O29: with bits buffered the window has an entry, so the flush finds its page. -/
theorem wFlushCommits : Obligations.WFlushCommits := by
  intro s hs
  obtain ⟨t, hflush, hflushed⟩ := wFlush_ok (hs.inv.live hs.no_fault).writer hs.inv.mem_wf
  exact ⟨t, procedure_of_ok hs.no_fault hflush, hflushed⟩

end Sys2Proof.Machine

/-! PROOF. The Bit Reader commands (43_bit_reader.md R190, R193 to R195): with its bits reserved each runs its
procedure to a normal end, and the procedure's law in Laws/Reader.lean is its effect. -/

namespace Sys2Proof.Machine

/-- A peek of reserved bits, run as a command, answers them and leaves the machine as it is (43_bit_reader.md
R194). -/
theorem peekCommand_of_reserved {s : State} {n : Nat} (hs : s.Ready) (hpos : 1 ≤ n) (hmax : n ≤ 32)
    (hreserved : n ≤ s.reader.rsvd) : runCommand (numResult (rPeek n)) s =
      .next (s.answer (BitVec.ofNat 64 (natOfBits ((reservedBits s).take n)))) :=
  number_of_ok hs.no_fault (rPeek_ok (hs.inv.live hs.no_fault).reader hpos hmax hreserved)

/-- Settles O30: `R.PEEK n` and `R.PEEK32` are one peek, of `n` and of 32 bits, and a peek needs its bits
reserved. -/
theorem peekReturnsNextBits : Obligations.PeekReturnsNextBits := by
  intro n s hs
  refine ⟨reservedBits_length (hs.inv.live hs.no_fault).reader, fun hpos hmax hreserved => ?_,
    fun hreserved => ?_⟩
  · exact peekCommand_of_reserved hs hpos hmax hreserved
  · exact peekCommand_of_reserved hs (by decide) (le_refl 32) hreserved

/-- Settles O31: the skipped bits leave the look-ahead, and the refill finds its pages below the write cursor,
for none was fetched beyond it. -/
theorem skipConsumes : Obligations.SkipConsumes := by
  intro n s hs hmax hreserved
  obtain ⟨hpages, -, hreader, -, -⟩ := hs.inv.live hs.no_fault
  obtain ⟨t, hskip, hconsumed⟩ := rSkip_ok hreader hpages.rcur_le hmax hreserved
  exact ⟨t, procedure_of_ok hs.no_fault hskip, hconsumed⟩

end Sys2Proof.Machine

/-! PROOF. The Golomb-Rice and zig-zag commands (44_golomb_rice.md R211, R213, R216). A code is written in two
puts, so a missing reserve is found by the first put or by the one behind it; what a whole code does is the law of
its procedure in Laws/Golomb.lean. -/

namespace Sys2Proof.Machine

/-! ## `GR.WR` -/

/-- Settles O32: the parameter is legal and the whole code is reserved, so both puts end normally. -/
theorem grWrAppends : Obligations.GrWrAppends := by
  intro m x s hs hm hreserved
  obtain ⟨t, hwrite, happended⟩ :=
    grWrite_ok (hs.inv.live hs.no_fault).writer hs.inv.mem_wf hm x.isLt hreserved
  exact ⟨t, procedure_of_ok hs.no_fault hwrite, happended⟩

/-- With a legal parameter the quotient alone decides how the code is written. -/
theorem grWrite_eq {x m : Nat} {s : State} (hm : m ≤ 31) :
    grWrite x m s = if 32 ≤ x >>> m then grWriteEscape x s else grWritePlain x m s := by
  rw [grWrite, requireRice_eq_ok.mpr ⟨hm, rfl⟩, andThen_ok]

/-- The prefix of `q` one-bits and a zero fits its put. -/
theorem unary_lt (q : Nat) : 2 ^ (q + 1) - 2 < 2 ^ (q + 1) :=
  Nat.sub_lt (Nat.two_pow_pos _) Nat.two_pos

section Unreserved

variable {s : State}

/-- Of two puts the second is the one that faults where only the first has its bits: the first has used up
`n₁` of them. -/
theorem wPut_then_unreserved {cap n₁ v₁ n₂ v₂ : Nat} (hi : s.writer.Inv cap s.psWcur) (hwf : s.mem.wf = true)
    (hn₁ : n₁ ≤ 32) (hv₁ : v₁ < 2 ^ n₁) (hn₂ : n₂ ≤ 32) (hv₂ : v₂ < 2 ^ n₂)
    (hfirst : n₁ ≤ s.writer.rsvd) (hboth : s.writer.rsvd < n₁ + n₂) :
    ((wPut n₁ v₁ s).andThen fun _ t => wPut n₂ v₂ t) = .raise .unreserved n₂ := by
  obtain ⟨t, hput, happended⟩ := wPut_ok hi hwf hn₁ hv₁ hfirst
  have hrsvd : t.writer.rsvd + n₁ = s.writer.rsvd := by simpa using happended.rsvd
  rw [hput, andThen_ok, wPut_unreserved hn₂ hv₂ (by omega)]

/-- The marker and the value are 32 bits each, so either put faults with the same information. -/
theorem grWriteEscape_unreserved {cap x : Nat} (hi : s.writer.Inv cap s.psWcur) (hwf : s.mem.wf = true)
    (hx : x < 2 ^ 32) (hr : s.writer.rsvd < 64) : grWriteEscape x s = .raise .unreserved 32 := by
  rcases Nat.lt_or_ge s.writer.rsvd 32 with hmarker | hmarker
  · rw [grWriteEscape, wPut_unreserved (le_refl 32) (by decide) hmarker, andThen_raise]
  · exact wPut_then_unreserved hi hwf (le_refl 32) (by decide) (le_refl 32) hx hmarker hr

theorem grWritePlain_prefix_unreserved {x m : Nat} (hq : x >>> m < 32) (hr : s.writer.rsvd < x >>> m + 1) :
    grWritePlain x m s = .raise .unreserved (x >>> m + 1) := by
  rw [grWritePlain, wPut_unreserved hq (unary_lt _) hr, andThen_raise]

/-- A remainder whose bits are missing is not empty, so it is put. -/
theorem grWritePlain_remainder_unreserved {cap x m : Nat} (hi : s.writer.Inv cap s.psWcur)
    (hwf : s.mem.wf = true) (hm : m ≤ 31) (hq : x >>> m < 32) (hprefix : x >>> m + 1 ≤ s.writer.rsvd)
    (hr : s.writer.rsvd < x >>> m + 1 + m) : grWritePlain x m s = .raise .unreserved m := by
  have hm0 : 0 < m := by omega
  simp only [grWritePlain, if_pos hm0]
  exact wPut_then_unreserved hi hwf hq (unary_lt _) (by omega) (Nat.mod_lt _ (Nat.two_pow_pos m)) hprefix hr

end Unreserved

/-- Settles O33: the escape's two puts, the prefix of an unescaped code, its remainder. -/
theorem grWrFaults : Obligations.GrWrFaults := by
  intro m x s hs hm
  have hwriter := (hs.inv.live hs.no_fault).writer
  refine ⟨fun hq hr => ?_, fun hq hr => ?_, fun hq hprefix hr => ?_⟩ <;>
    refine procedure_of_raise hs.no_fault ((grWrite_eq hm).trans ?_)
  · exact (if_pos hq).trans (grWriteEscape_unreserved hwriter hs.inv.mem_wf x.isLt hr)
  · exact (if_neg hq.not_ge).trans (grWritePlain_prefix_unreserved hq hr)
  · exact (if_neg hq.not_ge).trans
      (grWritePlain_remainder_unreserved hwriter hs.inv.mem_wf hm hq hprefix hr)

/-! ## `GR.RD` -/

/-- Settles O34: the command reads the code at the head of the reserved bits, or finds bits of it missing. -/
theorem grRdReadsCode : Obligations.GrRdReadsCode := by
  intro m s hs hm hreserved
  obtain ⟨hpages, -, hreader, -, -⟩ := hs.inv.live hs.no_fault
  obtain ⟨hcode, hmissing⟩ := grRead_cases hreader hpages.rcur_le hm hreserved
  refine ⟨fun x esc rest hdec => ?_, fun e hdec => number_of_raise hs.no_fault (hmissing e hdec)⟩
  obtain ⟨t, hread, hconsumed, hrest⟩ := hcode x esc rest hdec
  exact ⟨t, number_of_ok hs.no_fault hread, hconsumed, hrest⟩

/-! ## `ZZ.ENC` -/

theorem ushiftRight_31_eq_zero {v : Half} (h : v.msb = false) : v >>> 31 = 0 := by
  apply BitVec.eq_of_toNat_eq
  rw [BitVec.toNat_ushiftRight, Nat.shiftRight_eq_div_pow]
  exact Nat.div_eq_of_lt (BitVec.toNat_lt_of_msb_false h)

/-- The copies of a clear sign bit change nothing. -/
theorem zigzagEnc_of_msb_false {v : Half} (h : v.msb = false) : zigzagEnc v = v <<< 1 := by
  rw [zigzagEnc, BitVec.sshiftRight_eq_of_msb_false h, ushiftRight_31_eq_zero h]
  exact BitVec.xor_zero

/-- The copies of a set sign bit complement every bit. -/
theorem zigzagEnc_of_msb_true {v : Half} (h : v.msb = true) : zigzagEnc v = ~~~(v <<< 1) := by
  have hnot : (~~~v).msb = false := by rw [BitVec.msb_not, h]; rfl
  rw [zigzagEnc, BitVec.sshiftRight_eq_of_msb_true h, ushiftRight_31_eq_zero hnot]
  exact BitVec.xor_allOnes

/-- A value below `2^31` loses no bit when it is doubled. -/
theorem zigzagEnc_of_nonneg {v : Half} (hv : 0 ≤ v.toInt) : ((zigzagEnc v).toNat : Int) = 2 * v.toInt := by
  have hmsb : v.msb = false := by rwa [BitVec.msb_eq_toInt, decide_eq_false_iff_not, not_lt]
  have hlt := BitVec.toNat_lt_of_msb_false hmsb
  rw [zigzagEnc_of_msb_false hmsb, BitVec.toInt_eq_toNat_of_msb hmsb, BitVec.toNat_shiftLeft, Nat.shiftLeft_eq]
  omega

/-- A value from `2^31` on loses its sign bit, worth `2^32` once doubled, before the complement. -/
theorem zigzagEnc_of_neg {v : Half} (hv : v.toInt < 0) :
    ((zigzagEnc v).toNat : Int) = -2 * v.toInt - 1 := by
  have hmsb : v.msb = true := by rwa [BitVec.msb_eq_toInt, decide_eq_true_iff]
  have hge := BitVec.le_toNat_of_msb_true hmsb
  rw [zigzagEnc_of_msb_true hmsb, BitVec.toInt_eq_msb_cond, if_pos hmsb, BitVec.toNat_not,
    BitVec.toNat_shiftLeft, Nat.shiftLeft_eq]
  omega

/-- Settles O36: the two branches of the closed form are the two signs of `v`. -/
theorem zigzagEncodes : Obligations.ZigzagEncodes := by
  intro v s hs
  refine ⟨zigzagEnc v, (runCommand_live hs).trans (runProc_ok rfl), ?_⟩
  split
  next hv => exact zigzagEnc_of_nonneg hv
  next hv => exact zigzagEnc_of_neg (not_le.mp hv)

end Sys2Proof.Machine

/-! PROOF. The RLGR encoder's commands (45_rlgr_encoder.md R231 to R237): where the store has room each runs its
procedure to a normal end, and the procedure's law in Laws/Encoder.lean is its effect. -/

namespace Sys2Proof.Machine

/-! ## The adaptation -/

/-- The three cases of `vk`, each with its one clamp (45_rlgr_encoder.md R236). -/
theorem adaptKr_eq (p : Params) {kr : Nat} (u : Nat) (h : kr ≤ 240) : adaptKr p kr u =
    if u / 2 ^ (kr / 8) = 0 then kr - p.downKRice
    else if 1 < u / 2 ^ (kr / 8) then min 240 (kr + u / 2 ^ (kr / 8))
    else kr := by
  unfold adaptKr
  simp only [width_eq, Nat.shiftRight_eq_div_pow, clamp240_sub kr p.downKRice h, clamp240_add]

/-- Settles O38: each case of `vk` is one branch of the adaptation. -/
theorem adaptKrRule : Obligations.AdaptKrRule := by
  intro p kr u hkr
  rw [adaptKr_eq p u hkr]
  refine ⟨fun hzero => if_pos hzero, fun hone => ?_, fun hmany => ?_⟩
  · rw [hone, if_neg one_ne_zero, if_neg (lt_irrefl 1)]
  · rw [if_neg (by omega), if_pos hmany]

/-- In Direct state only a zero symbol moves `k`, which is at its lower clamp (45_rlgr_encoder.md R233). -/
theorem adaptKDirect_zero (p : Params) (u : Nat) :
    adaptKDirect p 0 u = if u = 0 then min 240 p.upKDirect else 0 := by
  rw [adaptKDirect_eq p u (Nat.zero_le 240), Nat.zero_add, Nat.zero_sub]

/-! ## `ENC.NEW` and `DEC.NEW` -/

theorem exec_encNew {s : State} (hs : s.fault = 0) : exec .encNew s =
    .next (State.answer { s with writer := freshWriter, enc := freshEncoder s.params } 0) :=
  procedure_of_ok hs rfl

theorem exec_decNew {s : State} (hs : s.fault = 0) (count : Half) : exec (.decNew count) s =
    .next (State.answer { s with reader := freshReader, dec := freshDecoder s.params (auxOperand count) } 0) :=
  procedure_of_ok hs rfl

/-- Settles O39: each procedure has one end, the fresh coder with its fresh side of the stream. -/
theorem codersStartFresh : Obligations.CodersStartFresh := fun count _ hs =>
  ⟨exec_encNew hs, exec_decNew hs count⟩

/-! ## `ENC.PUT` -/

theorem valueOperand_eq_zero {u : Half} : valueOperand u = 0 ↔ u = 0 :=
  ⟨fun h => BitVec.eq_of_toNat_eq h, fun h => by rw [h]; rfl⟩

/-- Settles O40: with `E_K = 0` the symbol's code is put behind its reserve. -/
theorem encPutDirect : Obligations.EncPutDirect := by
  intro u s hs hact hk hroom
  have henc := (hs.inv.live hs.no_fault).enc
  obtain ⟨t, happended, hput⟩ := putDirect_ok (u := valueOperand u) hs.canWrite henc u.isLt hroom
  rw [width_eq] at happended
  have hdirect : encPut (valueOperand u) s = putDirect (valueOperand u) s := by rw [encPut_eq hact, if_pos hk]
  simp only [hk, adaptKDirect_zero, valueOperand_eq_zero] at hput
  exact ⟨t, happended, procedure_of_ok hs.no_fault (hdirect.trans hput)⟩

/-- Settles O41: the zero that fills the window puts the flag 0, every other one is counted. -/
theorem encPutRunZero : Obligations.EncPutRunZero := by
  intro s hs hact hk
  have henc := (hs.inv.live hs.no_fault).enc
  have hzero : encPut (valueOperand 0) s = putRunZero s := by
    rw [encPut_eq hact, if_neg hk.ne', if_pos (valueOperand_eq_zero.mpr rfl)]
  rw [← width_eq]
  refine ⟨fun hcount => ?_, fun hfull hroom => ?_⟩
  · exact procedure_of_ok hs.no_fault (hzero.trans (putRunZero_counts hcount.ne))
  · obtain ⟨t, happended, hput⟩ := putRunZero_full hs.canWrite henc hfull hroom
    rw [adaptKFull_eq] at hput
    exact ⟨t, happended, procedure_of_ok hs.no_fault (hzero.trans hput)⟩

/-- Settles O42: the terminator and the symbol's code are put one behind the other. -/
theorem encPutRunNonzero : Obligations.EncPutRunNonzero := by
  intro u s hs hact hk hu hroom
  have henc := (hs.inv.live hs.no_fault).enc
  rw [← width_eq] at hroom
  obtain ⟨t, happended, hput⟩ := putRunNonzero_ok hs.canWrite henc u.isLt hroom
  rw [width_eq, width_eq] at happended
  rw [adaptKTerm_eq s.params henc.k_le] at hput
  have hnonzero : encPut (valueOperand u) s = putRunNonzero (valueOperand u) s := by
    rw [encPut_eq hact, if_neg hk.ne', if_neg (mt valueOperand_eq_zero.mp hu)]
  exact ⟨t, happended, procedure_of_ok hs.no_fault (hnonzero.trans hput)⟩

/-! ## `ENC.FLUSH` -/

/-- A flush leaves the encoder as it is (42_bit_writer.md R175). -/
theorem Flushed.enc {s t : State} (h : Flushed s t) : t.enc = s.enc := by
  unfold Flushed at h
  split at h
  · rw [h]
  · rw [h.others]

/-- What a flush does is about the writer and the store, whatever encoder stands beside them. -/
theorem Flushed.setEncoder {s t : State} (h : Flushed s t) (e : Encoder) :
    Flushed { s with enc := e } { t with enc := e } := by
  unfold Flushed at h ⊢
  split at h
  next hempty => rw [if_pos hempty, h]
  next hbuffered =>
    rw [if_neg hbuffered]
    exact ⟨congrArg (fun u : State => { u with enc := e }) h.others, h.page, h.mem_wf⟩

/-- What follows the trailing run, whether there was one or not: the word is flushed and the stream ends
(45_rlgr_encoder.md R237). -/
theorem encFlush_of_flushRun {s r : State} {cap : Nat} (hact : s.enc.act = true)
    (hrun : flushRun s = .ok () r) (hi : r.writer.Inv cap r.psWcur) (hwf : r.mem.wf = true) :
    ∃ t, Flushed r t ∧ encFlush s = .ok () { t with enc := { r.enc with act := false } } := by
  obtain ⟨t, hflush, hflushed⟩ := wFlush_ok hi hwf
  refine ⟨t, hflushed, ?_⟩
  rw [encFlush, requireEncoder_ok hact, andThen_ok, hrun, andThen_ok, hflush, andThen_ok, hflushed.enc]

/-- Settles O43: the flush runs beside the encoder whose run length has just been cleared, and does to the
stream what it does to the state the terminator left. -/
theorem encFlushEnds : Obligations.EncFlushEnds := by
  intro s hs hact
  have henc := (hs.inv.live hs.no_fault).enc
  rw [← width_eq]
  refine ⟨fun hnoRun => ?_, fun hrun hroom => ?_⟩
  · obtain ⟨t, hflushed, hend⟩ :=
      encFlush_of_flushRun hact (flushRun_none hnoRun) hs.canWrite.writer hs.inv.mem_wf
    exact ⟨t, hflushed, procedure_of_ok hs.no_fault hend⟩
  · obtain ⟨r, happended, hterminated⟩ := flushRun_ok hs.canWrite henc hrun hroom
    have hreserved := (wReserve64_ok hs.canWrite (flagAndRun_le henc) hroom).2
    have hr := happended.canWrite hreserved
    obtain ⟨t, hflushed, hend⟩ := encFlush_of_flushRun hact hterminated hr.writer hr.wf
    exact ⟨r, { t with enc := r.enc }, happended, hflushed.setEncoder r.enc,
      procedure_of_ok hs.no_fault hend⟩

end Sys2Proof.Machine

/-! PROOF. `DEC.GET` (46_rlgr_decoder.md R262, R266, R267): away from a code boundary it returns what is held; at
one it reads the code ahead through the reserves of its rule, and each check on the way ends it with its fault. -/

namespace Sys2Proof.Machine

/-! ## Away from a code boundary -/

/-- Settles O45: the first two branches of `DEC.GET`, neither of which reads. -/
theorem decGetHeld : Obligations.DecGetHeld := by
  intro s hs hact hrem
  have hget := decGet_eq hact hrem
  refine ⟨fun hrl => number_of_ok hs (hget.trans (if_pos hrl)), fun hrl hpend => ?_⟩
  have hpending : decGet s = getPending s := by rw [hget, if_neg hrl.not_gt, if_pos hpend]
  rw [← BitVec.ofNat_toNat]
  exact number_of_ok hs hpending

/-! ## The codes a stream can begin with -/

theorem takeNum_eq_ok {n v : Nat} {bs rest : List Bool} (h : takeNum n bs = .ok (v, rest)) :
    v < 2 ^ n ∧ bs = bitsOf n v ++ rest := by
  unfold takeNum at h
  split at h
  next => cases h
  next hlen =>
    cases h
    have htake : (bs.take n).length = n := List.length_take_of_le (not_lt.mp hlen)
    have hlt := natOfBits_lt (bs.take n)
    have hbits := bitsOf_natOfBits (bs.take n)
    rw [htake] at hlt hbits
    exact ⟨hlt, by rw [hbits, List.take_append_drop]⟩

/-- A decoded value has 32 bits, escaped or not (44_golomb_rice.md R213). -/
theorem decodeGr_lt {m x : Nat} {esc : Bool} {bs rest : List Bool} (h : decodeGr m bs = .ok (x, esc, rest)) :
    x < 2 ^ 32 := by
  unfold decodeGr at h
  simp only at h
  split at h
  next =>
    split at h
    next hnum => cases h; exact (takeNum_eq_ok hnum).1
    next => cases h
  next =>
    split at h
    next => cases h
    next =>
      split at h
      next => cases h; exact Nat.mod_lt _ (Nat.two_pow_pos 32)
      next => cases h

theorem decodeCode_direct_eq_ok {m : Nat} {i : Instr} {bs rest : List Bool}
    (h : decodeCode (.direct m) bs = .ok (i, rest)) :
    ∃ u esc, decodeGr m bs = .ok (u, esc, rest) ∧ i = .cwDirect (BitVec.ofNat 32 u) := by
  rw [decodeCode] at h
  split at h
  next u esc _ hgr => cases h; exact ⟨u, esc, hgr, rfl⟩
  next => cases h

/-- In Run state with window `2^s`, Rice parameter `m` and `rem` symbols expected, the bits begin with this code
and go on with `rest` (30_encoding.md R104 to R106). -/
inductive RunCodeAhead (s m rem : Nat) (rest : List Bool) : List Bool → Instr → Prop
  /-- The flag 0. -/
  | full : RunCodeAhead s m rem rest (false :: rest) .cwRunfull
  /-- A run as long as the symbols expected. -/
  | last (hlt : rem < 2 ^ s) :
    RunCodeAhead s m rem rest (true :: (bitsOf s rem ++ rest)) (.cwRunend (BitVec.ofNat 32 rem))
  /-- Any other run, with its symbol. -/
  | term {r x : Nat} {esc : Bool} {tail : List Bool} (hlt : r < 2 ^ s) (hne : r ≠ rem)
      (hgr : decodeGr m tail = .ok (x, esc, rest)) (hx : x ≠ 0xFFFFFFFF) :
    RunCodeAhead s m rem rest (true :: (bitsOf s r ++ tail))
      (.cwRunterm (BitVec.ofNat 32 r) (BitVec.ofNat 32 (x + 1)))

theorem runCodeAhead_of_decodeCode {s m rem : Nat} {i : Instr} {bs rest : List Bool}
    (h : decodeCode (.run s m rem) bs = .ok (i, rest)) : RunCodeAhead s m rem rest bs i := by
  rcases bs with _ | ⟨_ | _, bs⟩
  · cases h
  · cases h
    exact .full
  · rw [decodeCode] at h
    split at h
    next => cases h
    next r tail hfield =>
      obtain ⟨hlt, rfl⟩ := takeNum_eq_ok hfield
      split at h
      next hlast =>
        cases h
        subst hlast
        exact .last hlt
      next hne =>
        split at h
        next => cases h
        next x esc _ hgr =>
          split at h
          next => cases h
          next hx => cases h; exact .term hlt hne hgr hx

theorem decoderCtx_direct {s : State} (hk : s.dec.k = 0) : decoderCtx s = .direct (width s.dec.kr) := if_pos hk

theorem decoderCtx_run {s : State} (hk : s.dec.k ≠ 0) :
    decoderCtx s = .run (width s.dec.k) (width s.dec.kr) s.dec.rem := if_neg hk

/-! ## The ends of a code -/

/-- `DEC.GET` ends normally with the first symbol of the code `i`, its registers as the code leaves them. -/
def delivered (i : Instr) (t : State) : Res Nat :=
  .ok (codeResult t.params t.dec i).1 { t with dec := (codeResult t.params t.dec i).2 }

theorem requireRemaining_ok {v : Nat} {s : State} (h : v ≤ s.dec.rem) : requireRemaining v s = .ok () s := if_pos h

theorem requireRemaining_raise {v : Nat} {s : State} (h : s.dec.rem < v) :
    requireRemaining v s = .raise .desync v := if_neg h.not_ge

theorem directDone_delivers {u : Nat} {t : State} (hk : t.dec.k ≤ 240) (hu : u < 2 ^ 32) :
    directDone u t = delivered (.cwDirect (BitVec.ofNat 32 u)) t := by
  have htoNat : (BitVec.ofNat 32 u).toNat = u := Nat.mod_eq_of_lt hu
  have hzero : BitVec.ofNat 32 u = 0 ↔ u = 0 := by rw [← valueOperand_eq_zero, valueOperand, htoNat]
  simp only [directDone, delivered, codeResult, htoNat, hzero, adaptKDirect_eq t.params u hk]

theorem runFullDone_delivers {t : State} (h : 2 ^ width t.dec.k ≤ t.dec.rem) :
    runFullDone t = delivered .cwRunfull t := by
  rw [runFullDone, requireRemaining_ok h, andThen_ok, adaptKFull_eq, width_eq]
  rfl

theorem runFullDone_desync {t : State} (h : t.dec.rem < 2 ^ width t.dec.k) :
    runFullDone t = .raise .desync (2 ^ width t.dec.k) := by
  rw [runFullDone, requireRemaining_raise h, andThen_raise]

theorem runEndDone_delivers {r : Nat} {t : State} (hr : r < 2 ^ 32) :
    runEndDone r t = delivered (.cwRunend (BitVec.ofNat 32 r)) t := by
  have htoNat : (BitVec.ofNat 32 r).toNat = r := Nat.mod_eq_of_lt hr
  simp only [runEndDone, delivered, codeResult, htoNat]

theorem runTermDone_delivers {r x : Nat} {t : State} (hk : t.dec.k ≤ 240) (hr : r < 2 ^ 32) (hx : x < 2 ^ 32)
    (hsymbol : x ≠ 0xFFFFFFFF) :
    runTermDone r x t = delivered (.cwRunterm (BitVec.ofNat 32 r) (BitVec.ofNat 32 (x + 1))) t := by
  have hrun : (BitVec.ofNat 32 r).toNat = r := Nat.mod_eq_of_lt hr
  have hu : (BitVec.ofNat 32 (x + 1)).toNat = x + 1 := Nat.mod_eq_of_lt (by omega)
  have hzero : BitVec.ofNat 32 r = 0 ↔ r = 0 := by rw [← valueOperand_eq_zero, valueOperand, hrun]
  rw [runTermDone, if_neg hsymbol, adaptKTerm_eq t.params hk]
  rcases Nat.eq_zero_or_pos r with hempty | hzeros
  · simp only [delivered, codeResult, hu, hrun, if_pos (hzero.mpr hempty), if_neg hempty.not_gt]
  · simp only [delivered, codeResult, hu, hrun, if_neg (mt hzero.mp hzeros.ne'), if_pos hzeros]

/-! ## A run terminator -/

theorem ReadOn.psRcur {s t : State} {n : Nat} {rest : List Bool} (h : ReadOn s t n rest) :
    t.psRcur = s.psRcur + n := by rw [h.others]

theorem ReadOn.psWcur {s t : State} {n : Nat} {rest : List Bool} (h : ReadOn s t n rest) :
    t.psWcur = s.psWcur := by rw [h.others]

theorem getTerminator_desync {r : Nat} {s : State} (h : s.dec.rem < r) :
    getTerminator r s = .raise .desync r := by
  rw [getTerminator, requireRemaining_raise h, andThen_raise]

theorem getTerminator_last (s : State) : getTerminator s.dec.rem s = runEndDone s.dec.rem s := by
  rw [getTerminator, requireRemaining_ok (le_refl _), andThen_ok, if_pos rfl]

/-- A shorter run has its symbol behind a reserve of its own (46_rlgr_decoder.md R262). -/
theorem getTerminator_symbol {r : Nat} {s : State} (h : r < s.dec.rem) : getTerminator r s =
    (rReserve Config.maxCode s).andThen fun _ s =>
      (grRead (width s.dec.kr) s).andThen fun x s => runTermDone r x s := by
  rw [getTerminator, requireRemaining_ok h.le, andThen_ok, if_neg h.ne]

theorem getTerminator_pastWrite {r : Nat} {s : State} (h : s.CanRead) (hr : r < s.dec.rem)
    (hend : s.psWcur < s.psRcur + pagesNeeded 64 s.reader.rsvd) :
    getTerminator r s = .raise .readPastWrite s.psWcur := by
  rw [getTerminator_symbol hr, Config.maxCode, rReserve64_pastWrite h (le_refl 64) hend, andThen_raise]

theorem getTerminator_reads {r x : Nat} {esc : Bool} {rest : List Bool} {s : State} (h : s.CanRead)
    (hd : s.dec.Inv) (hr : r < s.dec.rem) (hgr : decodeGr (width s.dec.kr) (streamAhead s) = .ok (x, esc, rest))
    (hroom : s.psRcur + pagesNeeded 64 s.reader.rsvd ≤ s.psWcur) :
    ∃ t, ReadOn s t (pagesNeeded 64 s.reader.rsvd) rest ∧ getTerminator r s = runTermDone r x t := by
  have hm := width_le hd.kr_le
  obtain ⟨a, hreserve, hfetched, -, henough, ha⟩ := rReserve64_ok h (le_refl 64) hroom
  obtain ⟨y, esc', rest', t, hgr', hread, hon, -, -⟩ := grRead_stream ha (m := width a.dec.kr)
    (by rw [hfetched.dec]; omega) henough
  rw [hfetched.ahead, hfetched.dec, hgr] at hgr'
  cases hgr'
  refine ⟨t, hfetched.trans hon, ?_⟩
  rw [getTerminator_symbol hr, Config.maxCode, hreserve, andThen_ok, hread, andThen_ok]

/-- Up to the run length `r` of a terminator. -/
theorem getRun_of_terminator {s : State} (h : s.CanRead) (hd : s.dec.Inv) {r : Nat} {tail : List Bool}
    (hr : r < 2 ^ width s.dec.k) (hahead : streamAhead s = true :: (bitsOf (width s.dec.k) r ++ tail))
    (hroom : s.psRcur + pagesNeeded (1 + width s.dec.k) s.reader.rsvd ≤ s.psWcur) :
    ∃ t, ReadOn s t (pagesNeeded (1 + width s.dec.k) s.reader.rsvd) tail ∧
      t.reader.rsvd = s.reader.rsvd + 64 * pagesNeeded (1 + width s.dec.k) s.reader.rsvd -
        (1 + width s.dec.k) ∧ t.CanRead ∧ getRun s = getTerminator r t := by
  obtain ⟨t, hon, hrsvd, ht, hget⟩ := getRun_term h hd hahead hroom
  rw [List.drop_left' (bitsOf_length _ _)] at hon
  rw [List.take_left' (bitsOf_length _ _), natOfBits_bitsOf_lt hr] at hget
  exact ⟨t, hon, hrsvd, ht, hget⟩

/-- A whole terminator, through both of its reserves. -/
theorem getRun_symbol {s : State} (h : s.CanRead) (hd : s.dec.Inv) {r x : Nat} {esc : Bool}
    {tail rest : List Bool} (hr : r < 2 ^ width s.dec.k) (hrem : r < s.dec.rem)
    (hahead : streamAhead s = true :: (bitsOf (width s.dec.k) r ++ tail))
    (hgr : decodeGr (width s.dec.kr) tail = .ok (x, esc, rest))
    (hroom : s.psRcur + termPages (width s.dec.k) s.reader.rsvd ≤ s.psWcur) :
    ∃ t, ReadOn s t (termPages (width s.dec.k) s.reader.rsvd) rest ∧ getRun s = runTermDone r x t := by
  simp only [termPages] at hroom ⊢
  obtain ⟨a, hon, hrsvd, ha, hget⟩ := getRun_of_terminator h hd hr hahead (by omega)
  rw [← hrsvd] at hroom ⊢
  obtain ⟨t, hon', hget'⟩ := getTerminator_reads (r := r) ha (hon.dec ▸ hd) (hon.dec ▸ hrem)
    (by rw [hon.dec, hon.ahead, hgr]) (by rw [hon.psRcur, hon.psWcur]; omega)
  exact ⟨t, hon.trans hon', hget.trans hget'⟩

/-! ## A code that is ahead and fits -/

theorem getDirect_parses {s : State} (h : s.CanRead) (hd : s.dec.Inv) {i : Instr} {rest : List Bool}
    (hcode : decodeCode (.direct (width s.dec.kr)) (streamAhead s) = .ok (i, rest))
    (hroom : s.psRcur + codePages s.dec s.reader.rsvd i ≤ s.psWcur) :
    ∃ t, ReadOn s t (codePages s.dec s.reader.rsvd i) rest ∧ getDirect s = delivered i t := by
  obtain ⟨u, esc, hgr, rfl⟩ := decodeCode_direct_eq_ok hcode
  obtain ⟨v, esc', rest', t, hgr', hon, hget⟩ := getDirect_ok h hd hroom
  rw [hgr] at hgr'
  cases hgr'
  refine ⟨t, hon, ?_⟩
  rw [← directDone_delivers (hon.dec ▸ hd.k_le) (decodeGr_lt hgr), hget, directDone, hon.dec, hon.params]

theorem getRun_parses {s : State} (h : s.CanRead) (hd : s.dec.Inv) {i : Instr} {rest : List Bool}
    (hcode : decodeCode (.run (width s.dec.k) (width s.dec.kr) s.dec.rem) (streamAhead s) = .ok (i, rest))
    (hfits : codeFits s.dec i = true) (hroom : s.psRcur + codePages s.dec s.reader.rsvd i ≤ s.psWcur) :
    ∃ t, ReadOn s t (codePages s.dec s.reader.rsvd i) rest ∧ getRun s = delivered i t := by
  have hw := width_le hd.k_le
  have hwindow : 2 ^ width s.dec.k ≤ 2 ^ 32 := Nat.pow_le_pow_right Nat.two_pos (by omega)
  have hcase := runCodeAhead_of_decodeCode hcode
  generalize hahead : streamAhead s = bs at hcase
  cases hcase with
  | full =>
    simp only [codeFits, codePages, decide_eq_true_eq, ← width_eq] at hfits hroom ⊢
    obtain ⟨t, hon, hget⟩ := getRun_full h hd hahead hroom
    exact ⟨t, hon, hget.trans (runFullDone_delivers (hon.dec ▸ hfits))⟩
  | last hlt =>
    simp only [codePages, ← width_eq] at hroom ⊢
    obtain ⟨t, hon, -, -, hget⟩ := getRun_of_terminator h hd hlt hahead hroom
    refine ⟨t, hon, ?_⟩
    rw [hget, ← hon.dec, getTerminator_last, runEndDone_delivers (hon.dec ▸ hd.rem_lt)]
  | term hlt hne hgr hx =>
    have hr := hlt.trans_le hwindow
    simp only [codeFits, codePages, decide_eq_true_eq, BitVec.toNat_ofNat, Nat.mod_eq_of_lt hr,
      ← width_eq] at hfits hroom ⊢
    obtain ⟨t, hon, hget⟩ := getRun_symbol h hd hlt hfits hahead hgr hroom
    exact ⟨t, hon, hget.trans (runTermDone_delivers (hon.dec ▸ hd.k_le) hr (decodeGr_lt hgr) hx)⟩

/-- At a code boundary `DEC.GET` delivers the code ahead, in whichever state the coder is. -/
theorem decGet_parses {s : State} (h : s.CanRead) (hd : s.dec.Inv) {i : Instr} {rest : List Bool}
    (hreads : decoderReads s = true) (hcode : decodeCode (decoderCtx s) (streamAhead s) = .ok (i, rest))
    (hfits : codeFits s.dec i = true) (hroom : s.psRcur + codePages s.dec s.reader.rsvd i ≤ s.psWcur) :
    ∃ t, ReadOn s t (codePages s.dec s.reader.rsvd i) rest ∧ decGet s = delivered i t := by
  rw [decGet_reads hreads]
  by_cases hk : s.dec.k = 0
  · rw [if_pos hk]
    exact getDirect_parses h hd (decoderCtx_direct hk ▸ hcode) hroom
  · rw [if_neg hk]
    exact getRun_parses h hd (decoderCtx_run hk ▸ hcode) hfits hroom

/-- Settles O46: the code is delivered from the state its reserves and its bits lead to. -/
theorem decGetParsesCode : Obligations.DecGetParsesCode := by
  intro s i rest hs hreads hcode hfits hroom
  obtain ⟨t, hon, hget⟩ :=
    decGet_parses hs.canRead (hs.inv.live hs.no_fault).dec hreads hcode hfits hroom
  refine ⟨t, hon, ?_⟩
  rw [← hon.params, ← hon.dec]
  exact number_of_ok hs.no_fault hget

/-! ## The faults at a code boundary -/

/-- The first reserve of either coder state without its page. -/
theorem decGet_pastWrite {s : State} (h : s.CanRead) (hd : s.dec.Inv) (hreads : decoderReads s = true)
    (hend : s.psWcur < s.psRcur + pagesNeeded (codeReserve s.dec) s.reader.rsvd) :
    decGet s = .raise .readPastWrite s.psWcur := by
  have hw := width_le hd.k_le
  rw [decGet_reads hreads]
  unfold codeReserve at hend
  split at hend
  next hk =>
    rw [if_pos hk, getDirect, rReserve64_pastWrite h (le_refl 64) hend, andThen_raise]
  next hk =>
    rw [if_neg hk, getRun, rReserve64_pastWrite h (by omega) hend, andThen_raise]

/-- Settles O47: both reserves, the window's check, the run's, and the symbol's behind a code that is read. -/
theorem decGetFaults : Obligations.DecGetFaults := by
  intro s r rest hs hreads
  have h := hs.canRead
  have hd := (hs.inv.live hs.no_fault).dec
  simp only [← width_eq]
  refine ⟨fun hend hrsvd => ?_, fun hk hroom => ?_⟩
  · have hneed : pagesNeeded (codeReserve s.dec) s.reader.rsvd ≠ 0 := mt pagesNeeded_eq_zero.mp hrsvd.not_ge
    rw [hend]
    exact number_of_raise hs.no_fault (decGet_pastWrite h hd hreads (by omega))
  have hrun : decGet s = getRun s := by rw [decGet_reads hreads, if_neg hk.ne']
  refine ⟨fun hahead hwindow => ?_, fun hr hahead => ?_⟩
  · obtain ⟨t, hon, hget⟩ := getRun_full h hd hahead hroom
    rw [← hon.dec] at hwindow ⊢
    exact number_of_raise hs.no_fault (hrun.trans (hget.trans (runFullDone_desync hwindow)))
  obtain ⟨t, hon, hrsvd, ht, hget⟩ := getRun_of_terminator h hd hr hahead hroom
  refine ⟨fun hlong => ?_, fun hrem hend hshort => ?_, fun esc rest' hrem hgr hroom' => ?_⟩
  · exact number_of_raise hs.no_fault (hrun.trans (hget.trans (getTerminator_desync (hon.dec ▸ hlong))))
  · have hneed : pagesNeeded 64 t.reader.rsvd ≠ 0 := mt pagesNeeded_eq_zero.mp (by omega)
    rw [← hon.psWcur]
    exact number_of_raise hs.no_fault (hrun.trans (hget.trans
      (getTerminator_pastWrite ht (hon.dec ▸ hrem) (by rw [hon.psRcur, hon.psWcur]; omega))))
  · obtain ⟨u, -, hsymbol⟩ := getRun_symbol h hd hr hrem hahead hgr hroom'
    exact number_of_raise hs.no_fault (hrun.trans (hsymbol.trans (if_pos rfl)))

end Sys2Proof.Machine

/-! PROOF. Taking a fault and the fault state (60_exceptions.md R301, R310 to R312): a fault records its code once,
and from then on only the two exact reads execute. -/

namespace Sys2Proof.Machine

/-- Settles O11: the fields of the taken fault; the free bytes are written one by one, which keeps the canonical
form. -/
theorem faultEntry : Obligations.FaultEntry :=
  ⟨rfl, fun f info s => ⟨takeFault_fault s f info, takeFault_finfo s f info, takeFault_response s f info,
    takeFault_params s f info, takeFault_program s f info, takeFault_pos s f info,
    fun hwf => memWriteAll_wf hwf _⟩⟩

/-! ## Every packet but two is refused -/

/-- Every command but the reads of `FAULT` and `FINFO` runs its procedure behind the check of `FAULT`
(60_exceptions.md R320). -/
theorem exec_refused {i : Instr} {s : State} (hi : i.isCommand = true) (hs : s.fault ≠ 0)
    (hfault : i ≠ .csrRd 0) (hfinfo : i ≠ .csrRd 1) : exec i s = .next s.refuse := by
  cases i with
  | csrRd idx =>
    exact exec_csrRd_refused hs (fun h => hfault (congrArg Instr.csrRd h)) fun h => hfinfo (congrArg Instr.csrRd h)
  | cwGr _ _ | cwEsc _ | cwRunfull | cwRunterm _ _ | cwRunend _ | cwDirect _ => cases hi
  | _ => exact runCommand_faulted hs

/-- The packet of a read that executes in the fault state. -/
theorem step_csrRd_of_faulted {s : State} {idx : Half} {p : Packet} {v : BitVec 64} (hidx : idx = 0 ∨ idx = 1)
    (henc : encode (.csrRd idx) = some p) (hp : s.program[s.pos]? = some p)
    (hread : csrRead idx.toNat s.advance = some v) :
    step s = .next { s with pos := s.pos + 1, response := okWith v } :=
  (stepRunsDecoded s p _ hp (decode_of_encode henc)).trans (exec_csrRd_of_read (.inr hidx) hread)

/-- A legal packet is its command's only packet, so a packet other than the two is another command or illegal,
and legality is not examined (60_exceptions.md R311). -/
theorem step_refused {s : State} {p : Packet} (hs : s.fault ≠ 0) (hp : s.program[s.pos]? = some p)
    (hfault : encode (.csrRd 0) ≠ some p) (hfinfo : encode (.csrRd 1) ≠ some p) :
    step s = .next s.advance.refuse := by
  cases hd : decode p with
  | ok i =>
    have henc := encode_of_decode hd
    rw [stepRunsDecoded s p i hp hd]
    exact exec_refused (isCommand_iff_encode.mpr ⟨p, henc⟩) hs (fun h => hfault (h ▸ henc))
      fun h => hfinfo (h ▸ henc)
  | error e =>
    simp only [step, fetchPacket, hp, hd]
    exact runCommand_faulted hs

/-- Settles O13: the two packets are those of the two reads. -/
theorem faultStateRefuses : Obligations.FaultStateRefuses := by
  intro s p hs hp
  refine ⟨fun h => ?_, fun h => ?_, fun hfault hfinfo => ?_⟩
  · exact step_csrRd_of_faulted (.inl rfl) (congrArg some h.symm) hp rfl
  · exact step_csrRd_of_faulted (.inr rfl) (congrArg some h.symm) hp rfl
  · exact step_refused hs hp (fun h => hfault (Option.some.inj h).symm) fun h => hfinfo (Option.some.inj h).symm

/-! ## The fault state is kept -/

/-- From `s` to `t` only the position and the response may differ. -/
def SameBlock (s t : State) : Prop := t = { s with pos := t.pos, response := t.response }

theorem SameBlock.fault {s t : State} (h : SameBlock s t) : t.fault = s.fault := by rw [h]

theorem SameBlock.trans {s t u : State} (h : SameBlock s t) (h' : SameBlock t u) : SameBlock s u := by
  unfold SameBlock at h h' ⊢
  rw [h', h]

/-- A step in the fault state waits, reads one of the two registers, or refuses. -/
theorem step_of_faulted {s : State} (hs : s.fault ≠ 0) : ∃ t, step s = .next t ∧ SameBlock s t := by
  cases hp : s.program[s.pos]? with
  | none => exact ⟨s, by simp only [step, fetchPacket, hp], rfl⟩
  | some p =>
    obtain ⟨hfault, hfinfo, hother⟩ := faultStateRefuses s p hs hp
    by_cases h0 : p = 0x7F000000000000000000000000000000
    · exact ⟨_, hfault h0, rfl⟩
    · by_cases h1 : p = 0x7F000000000000010000000000000000
      · exact ⟨_, hfinfo h1, rfl⟩
      · exact ⟨_, hother h0 h1, rfl⟩

/-- A run goes on from the state its first step leads to. -/
theorem run_succ_of_step {M : Host.Core} {s t : M.State} (h : M.step s = .next t) (n : Nat) :
    M.run (n + 1) s = M.run n t := by
  rw [Host.Core.run, h]

/-- Settles O14, by induction on the number of steps. -/
theorem faultIsForever : Obligations.FaultIsForever := by
  intro n
  induction n with
  | zero => exact fun s _ => ⟨s, rfl, rfl⟩
  | succ n ih =>
    intro s hs
    obtain ⟨t, hstep, hsame⟩ := step_of_faulted hs
    obtain ⟨u, hrun, hsame'⟩ := ih t (hsame.fault ▸ hs)
    exact ⟨u, (run_succ_of_step (M := Sys2Proof.core) hstep n).trans hrun, hsame.trans hsame'⟩

end Sys2Proof.Machine

/-! PROOF. The order of the operand checks (60_exceptions.md R320): a check that fails ends the procedure, whatever
the checks behind it would find. -/

namespace Sys2Proof.Machine

section Checks

variable {s : State} {n : Nat}

theorem wPut_badOperand {v : Nat} (hn : 32 < n) : wPut n v s = .raise .badOperand n := by
  rw [wPut, requireCount_eq_raise.mpr ⟨hn, rfl, rfl⟩, andThen_raise]

theorem wPut_valueWidth {v : Nat} (hn : n ≤ 32) (hv : 2 ^ n ≤ v) : wPut n v s = .raise .valueWidth v := by
  rw [wPut, requireCount_eq_ok.mpr ⟨hn, rfl⟩, andThen_ok, requireWidth_eq_raise.mpr ⟨hv, rfl, rfl⟩, andThen_raise]

theorem rSkip_badOperand (hn : 32 < n) : rSkip n s = .raise .badOperand n := by
  rw [rSkip, requireCount_eq_raise.mpr ⟨hn, rfl, rfl⟩, andThen_raise]

theorem rPeek_badOperand (hn : n = 0 ∨ 32 < n) : rPeek n s = .raise .badOperand n := by
  rw [rPeek, requirePeekCount_eq_raise.mpr ⟨by omega, rfl, rfl⟩, andThen_raise]

theorem grWrite_badOperand {x : Nat} (hn : 31 < n) : grWrite x n s = .raise .badOperand n := by
  rw [grWrite, requireRice_eq_raise.mpr ⟨hn, rfl, rfl⟩, andThen_raise]

theorem grRead_badOperand (hn : 31 < n) : grRead n s = .raise .badOperand n := by
  rw [grRead, requireRice_eq_raise.mpr ⟨hn, rfl, rfl⟩, andThen_raise]

theorem grRead_unreserved (hn : n ≤ 31) (hr : s.reader.rsvd < 32) : grRead n s = .raise .unreserved 32 := by
  rw [grRead, requireRice_eq_ok.mpr ⟨hn, rfl⟩, andThen_ok, rPeek_unreserved (by decide) (le_refl 32) hr,
    andThen_raise]

end Checks

/-- Settles O16: each command ends where its procedure's check does. -/
theorem operandCheckOrder : Obligations.OperandCheckOrder := fun _ _ _ hs =>
  ⟨fun hn => procedure_of_raise hs (wPut_badOperand hn),
    fun hn hv => procedure_of_raise hs (wPut_valueWidth hn hv),
    fun hn hv hr => procedure_of_raise hs (wPut_unreserved hn hv hr),
    fun hn => procedure_of_raise hs (rSkip_badOperand hn),
    fun hn hr => procedure_of_raise hs (rSkip_unreserved hn hr),
    fun hn => number_of_raise hs (rPeek_badOperand hn),
    fun hpos hn hr => number_of_raise hs (rPeek_unreserved hpos hn hr),
    fun hr => number_of_raise hs (rPeek_unreserved (by decide) (le_refl 32) hr),
    fun hm => procedure_of_raise hs (grWrite_badOperand hm),
    fun hm => number_of_raise hs (grRead_badOperand hm),
    fun hm hr => number_of_raise hs (grRead_unreserved hm hr)⟩

end Sys2Proof.Machine

/-! PROOF. Which faults a command can raise (60_exceptions.md R301): in a good state every check of a procedure
that fails raises a fault of its command's row, and where no check fails the procedure ends normally. -/

namespace Sys2Proof.Machine

/-! ## Procedures that raise only some faults -/

/-- If the procedure ends at a raise, it raises a fault of the list. -/
def Res.RaisesIn {α : Type} (F : List FaultName) (r : Res α) : Prop := ∀ f info, r = .raise f info → f ∈ F

section Combinators

variable {α β : Type} {F : List FaultName} {r : Res α} {s t : State}

theorem raisesIn_of_ok {a : α} (h : r = .ok a t) : r.RaisesIn F := by
  subst h
  rintro _ _ ⟨⟩

theorem raisesIn_of_raise {f : FaultName} {info : Nat} (h : r = .raise f info) (hf : f ∈ F) : r.RaisesIn F := by
  subst h
  rintro _ _ ⟨⟩
  exact hf

theorem andThen_raisesIn {k : α → State → Res β} (hr : r.RaisesIn F)
    (hk : ∀ a t, r = .ok a t → (k a t).RaisesIn F) : (r.andThen k).RaisesIn F := by
  intro f info h
  rcases andThen_eq_raise.mp h with h | ⟨a, t, hrt, h⟩
  · exact hr f info h
  · exact hk a t hrt f info h

/-- A check that raises one fault. -/
theorem check_raisesIn {c : Prop} [Decidable c] {a : α} {f : FaultName} {info : Nat} (hf : f ∈ F) :
    (if c then Res.ok a t else .raise f info).RaisesIn F := by
  split
  · exact raisesIn_of_ok rfl
  · exact raisesIn_of_raise rfl hf

theorem noResult_raisesIn {p : State → Res Unit} (h : (p s).RaisesIn F) : (noResult p s).RaisesIn F :=
  andThen_raisesIn h fun _ _ _ => raisesIn_of_ok rfl

theorem numResult_raisesIn {p : State → Res Nat} (h : (p s).RaisesIn F) : (numResult p s).RaisesIn F :=
  andThen_raisesIn h fun _ _ _ => raisesIn_of_ok rfl

end Combinators

/-! ## The writer -/

section Writer

variable {s : State} (h : s.CanWrite)
include h

theorem wReserve_raisesIn (hp : s.psWcur ≤ s.params.pageLimit) (n : Nat) :
    (wReserve n s).RaisesIn [.winOverflow, .storeFull] := by
  rcases wReserve_cases (n := n) h.wf h.below hp h.writer.win_le with ⟨hok, -⟩ | ⟨hraise, -⟩ | ⟨hraise, -⟩
  · exact raisesIn_of_ok hok
  · exact raisesIn_of_raise hraise (by decide)
  · exact raisesIn_of_raise hraise (by decide)

/-- Its three checks passed, a put finds its page (42_bit_writer.md R172). -/
theorem wPut_raisesIn (n v : Nat) : (wPut n v s).RaisesIn [.badOperand, .valueWidth, .unreserved] := by
  rcases Nat.lt_or_ge 32 n with hn | hn
  · exact raisesIn_of_raise (wPut_badOperand hn) (by decide)
  rcases Nat.lt_or_ge v (2 ^ n) with hv | hv
  · rcases Nat.lt_or_ge s.writer.rsvd n with hr | hr
    · exact raisesIn_of_raise (wPut_unreserved hn hv hr) (by decide)
    · obtain ⟨t, hput, -⟩ := wPut_ok h.writer h.wf hn hv hr
      exact raisesIn_of_ok hput
  · exact raisesIn_of_raise (wPut_valueWidth hn hv) (by decide)

theorem wFlush_raisesIn : (wFlush s).RaisesIn [] := by
  obtain ⟨t, hflush, -⟩ := wFlush_ok h.writer h.wf
  exact raisesIn_of_ok hflush

/-- A code whose bits are not all reserved is not written (44_golomb_rice.md R211). -/
theorem grWrite_unreserved {x m : Nat} (hm : m ≤ 31) (hx : x < 2 ^ 32) (hr : s.writer.rsvd < lenGr x m) :
    ∃ info, grWrite x m s = .raise .unreserved info := by
  rw [grWrite_eq hm]
  unfold lenGr at hr
  split at hr
  next hq => exact ⟨_, (if_pos hq).trans (grWriteEscape_unreserved h.writer h.wf hx hr)⟩
  next hq =>
    have hq' : x >>> m < 32 := not_le.mp hq
    rw [if_neg hq]
    rcases Nat.lt_or_ge s.writer.rsvd (x >>> m + 1) with hprefix | hprefix
    · exact ⟨_, grWritePlain_prefix_unreserved hq' hprefix⟩
    · exact ⟨_, grWritePlain_remainder_unreserved h.writer h.wf hm hq' hprefix hr⟩

theorem grWrite_raisesIn {x : Nat} (hx : x < 2 ^ 32) (m : Nat) :
    (grWrite x m s).RaisesIn [.badOperand, .unreserved] := by
  rcases Nat.lt_or_ge 31 m with hm | hm
  · exact raisesIn_of_raise (grWrite_badOperand hm) (by decide)
  rcases Nat.lt_or_ge s.writer.rsvd (lenGr x m) with hr | hr
  · obtain ⟨info, hraise⟩ := grWrite_unreserved h hm hx hr
    exact raisesIn_of_raise hraise (by decide)
  · obtain ⟨t, hwrite, -⟩ := grWrite_ok h.writer h.wf hm hx hr
    exact raisesIn_of_ok hwrite

end Writer

/-! ## The encoder -/

section Encoder

variable {s : State} (h : s.CanWrite) (hp : s.psWcur ≤ s.params.pageLimit) (he : s.enc.Inv)
include h hp he

theorem putDirect_raisesIn {u : Nat} (hu : u < 2 ^ 32) : (putDirect u s).RaisesIn [.coderState, .storeFull] := by
  by_cases hroom : s.roomFor (pagesNeeded 64 s.writer.rsvd)
  · obtain ⟨t, -, hput⟩ := putDirect_ok h he hu hroom
    exact raisesIn_of_ok hput
  · exact raisesIn_of_raise (putDirect_full h hp u hroom) (by decide)

theorem putRunZero_raisesIn : (putRunZero s).RaisesIn [.coderState, .storeFull] := by
  by_cases hfull : s.enc.rl + 1 = 2 ^ width s.enc.k
  · by_cases hroom : s.roomFor (pagesNeeded (1 + width s.enc.k) s.writer.rsvd)
    · obtain ⟨t, -, hput⟩ := putRunZero_full h he hfull hroom
      exact raisesIn_of_ok hput
    · exact raisesIn_of_raise (putRunZero_storeFull h hp he hfull hroom) (by decide)
  · exact raisesIn_of_ok (putRunZero_counts hfull)

theorem putRunNonzero_raisesIn {u : Nat} (hu : u < 2 ^ 32) :
    (putRunNonzero u s).RaisesIn [.coderState, .storeFull] := by
  by_cases hroom : s.roomFor (termPages (width s.enc.k) s.writer.rsvd)
  · obtain ⟨t, -, hput⟩ := putRunNonzero_ok h he hu hroom
    exact raisesIn_of_ok hput
  · exact raisesIn_of_raise (putRunNonzero_full h hp he u hroom) (by decide)

theorem encPut_raisesIn {u : Nat} (hu : u < 2 ^ 32) : (encPut u s).RaisesIn [.coderState, .storeFull] := by
  cases hact : s.enc.act with
  | false => exact raisesIn_of_raise (by rw [encPut, requireEncoder_raise hact, andThen_raise]) (by decide)
  | true =>
    rw [encPut_eq hact]
    split
    · exact putDirect_raisesIn h hp he hu
    · split
      · exact putRunZero_raisesIn h hp he
      · exact putRunNonzero_raisesIn h hp he hu

/-- The trailing run finds the store full, or the flush behind it ends normally (45_rlgr_encoder.md R237). -/
theorem encFlush_raisesIn : (encFlush s).RaisesIn [.coderState, .storeFull] := by
  cases hact : s.enc.act with
  | false => exact raisesIn_of_raise (by rw [encFlush, requireEncoder_raise hact, andThen_raise]) (by decide)
  | true =>
    rcases Nat.eq_zero_or_pos s.enc.rl with hrl | hrl
    · obtain ⟨t, -, hend⟩ := encFlush_of_flushRun hact (flushRun_none hrl) h.writer h.wf
      exact raisesIn_of_ok hend
    · by_cases hroom : s.roomFor (pagesNeeded (1 + width s.enc.k) s.writer.rsvd)
      · obtain ⟨r, happended, hrun⟩ := flushRun_ok h he hrl hroom
        have hr := happended.canWrite (wReserve64_ok h (flagAndRun_le he) hroom).2
        obtain ⟨t, -, hend⟩ := encFlush_of_flushRun hact hrun hr.writer hr.wf
        exact raisesIn_of_ok hend
      · have hfull : encFlush s = .raise .storeFull s.params.pageLimit := by
          rw [encFlush, requireEncoder_ok hact, andThen_ok, flushRun_full h hp he hrl hroom, andThen_raise]
        exact raisesIn_of_raise hfull (by decide)

end Encoder

/-! ## The reader -/

theorem rPeek_raisesIn (n : Nat) (s : State) : (rPeek n s).RaisesIn [.badOperand, .unreserved] :=
  andThen_raisesIn (check_raisesIn (by decide)) fun _ _ _ =>
  andThen_raisesIn (check_raisesIn (by decide)) fun _ _ _ => raisesIn_of_ok rfl

theorem rPeek32_raisesIn (s : State) : (rPeek 32 s).RaisesIn [.unreserved] :=
  andThen_raisesIn (raisesIn_of_ok rfl) fun _ _ _ =>
  andThen_raisesIn (check_raisesIn (by decide)) fun _ _ _ => raisesIn_of_ok rfl

section Reader

variable {s : State} (h : s.CanRead)
include h

theorem rReserve_raisesIn (n : Nat) : (rReserve n s).RaisesIn [.winOverflow, .readPastWrite] := by
  rcases rReserve_cases (n := n) h.reader h.rcur with ⟨t, hok, -⟩ | ⟨hraise, -⟩ | ⟨hraise, -⟩
  · exact raisesIn_of_ok hok
  · exact raisesIn_of_raise hraise (by decide)
  · exact raisesIn_of_raise hraise (by decide)

/-- Its two checks passed, a skip's refill finds its page (43_bit_reader.md R195). -/
theorem rSkip_raisesIn (n : Nat) : (rSkip n s).RaisesIn [.badOperand, .unreserved] := by
  rcases Nat.lt_or_ge 32 n with hn | hn
  · exact raisesIn_of_raise (rSkip_badOperand hn) (by decide)
  rcases Nat.lt_or_ge s.reader.rsvd n with hr | hr
  · exact raisesIn_of_raise (rSkip_unreserved hn hr) (by decide)
  · obtain ⟨t, hskip, -⟩ := rSkip_ok h.reader h.rcur hn hr
    exact raisesIn_of_ok hskip

theorem grRead_raisesIn (m : Nat) : (grRead m s).RaisesIn [.badOperand, .unreserved] := by
  rcases Nat.lt_or_ge 31 m with hm | hm
  · exact raisesIn_of_raise (grRead_badOperand hm) (by decide)
  rcases Nat.lt_or_ge s.reader.rsvd 32 with hr | hr
  · exact raisesIn_of_raise (grRead_unreserved hm hr) (by decide)
  obtain ⟨hcode, hmissing⟩ := grRead_cases h.reader h.rcur hm hr
  cases hdec : decodeGr m (reservedBits s) with
  | ok v =>
    obtain ⟨x, esc, rest⟩ := v
    obtain ⟨t, hread, -⟩ := hcode x esc rest hdec
    exact raisesIn_of_ok hread
  | error e => exact raisesIn_of_raise (hmissing e hdec) (by decide)

end Reader

/-! ## The decoder -/

theorem runFullDone_raisesIn (s : State) : (runFullDone s).RaisesIn [.coderState, .readPastWrite, .desync] :=
  andThen_raisesIn (check_raisesIn (by decide)) fun _ _ _ => raisesIn_of_ok rfl

theorem runTermDone_raisesIn (r x : Nat) (s : State) :
    (runTermDone r x s).RaisesIn [.coderState, .readPastWrite, .desync] := by
  unfold runTermDone
  split
  · exact raisesIn_of_raise rfl (by decide)
  · dsimp only
    split <;> exact raisesIn_of_ok rfl

section Decoder

variable {s : State} (h : s.CanRead) (hd : s.dec.Inv)
include h

/-- Bits that a reserve can get are there (41_reservation_window.md R156). -/
theorem le_length_streamAhead {n : Nat} (hn : n ≤ 64)
    (hroom : s.psRcur + pagesNeeded n s.reader.rsvd ≤ s.psWcur) : n ≤ (streamAhead s).length := by
  obtain ⟨t, -, hon, -, henough, ht⟩ := rReserve64_ok h hn hroom
  rw [← hon.ahead, streamAhead, List.length_append, reservedBits_length ht.reader]
  exact henough.trans (Nat.le_add_right _ _)

include hd

theorem getDirect_raisesIn : (getDirect s).RaisesIn [.coderState, .readPastWrite, .desync] := by
  by_cases hroom : s.psRcur + pagesNeeded 64 s.reader.rsvd ≤ s.psWcur
  · obtain ⟨_, _, _, t, -, -, hget⟩ := getDirect_ok h hd hroom
    exact raisesIn_of_ok hget
  · exact raisesIn_of_raise
      (by rw [getDirect, rReserve64_pastWrite h (le_refl 64) (not_le.mp hroom), andThen_raise]) (by decide)

/-- A run that is too long is out of step, one as long as expected is the last, and the symbol of a shorter one
is behind a reserve, which holds a whole code (46_rlgr_decoder.md R262, R266, R267). -/
theorem getTerminator_raisesIn (r : Nat) :
    (getTerminator r s).RaisesIn [.coderState, .readPastWrite, .desync] := by
  rcases Nat.lt_trichotomy r s.dec.rem with hshort | rfl | hlong
  · by_cases hroom : s.psRcur + pagesNeeded 64 s.reader.rsvd ≤ s.psWcur
    · obtain ⟨x, _, _, -, hgr, -⟩ := getDirect_ok h hd hroom
      obtain ⟨t, -, hget⟩ := getTerminator_reads h hd hshort hgr hroom
      rw [hget]
      exact runTermDone_raisesIn r x t
    · exact raisesIn_of_raise (getTerminator_pastWrite h hshort (not_le.mp hroom)) (by decide)
  · rw [getTerminator_last]
    exact raisesIn_of_ok rfl
  · exact raisesIn_of_raise (getTerminator_desync hlong) (by decide)

theorem getRun_raisesIn : (getRun s).RaisesIn [.coderState, .readPastWrite, .desync] := by
  have hw := width_le hd.k_le
  by_cases hroom : s.psRcur + pagesNeeded (1 + width s.dec.k) s.reader.rsvd ≤ s.psWcur
  · have hlen := le_length_streamAhead h (by omega) hroom
    match hahead : streamAhead s with
    | [] => simp [hahead] at hlen
    | false :: rest =>
      obtain ⟨t, -, hget⟩ := getRun_full h hd hahead hroom
      rw [hget]
      exact runFullDone_raisesIn t
    | true :: rest =>
      obtain ⟨t, hon, -, ht, hget⟩ := getRun_term h hd hahead hroom
      rw [hget]
      exact getTerminator_raisesIn ht (hon.dec ▸ hd) _
  · exact raisesIn_of_raise
      (by rw [getRun, rReserve64_pastWrite h (by omega) (not_le.mp hroom), andThen_raise]) (by decide)

theorem decGet_raisesIn : (decGet s).RaisesIn [.coderState, .readPastWrite, .desync] := by
  by_cases hready : s.dec.act = true ∧ 0 < s.dec.rem
  · obtain ⟨hact, hrem⟩ := hready
    rw [decGet_eq hact hrem]
    split
    · exact raisesIn_of_ok rfl
    split
    · exact raisesIn_of_ok rfl
    split
    · exact getDirect_raisesIn h hd
    · exact getRun_raisesIn h hd
  · exact raisesIn_of_raise (by rw [decGet, requireDecoder, if_neg hready, andThen_raise]) (by decide)

end Decoder

/-! ## The commands -/

/-- A command run in `s` ends normally or takes a fault of the list. -/
def EndsIn (F : List FaultName) (s : State) (o : CommandOutcome) : Prop :=
  (∃ (t : State) (v : BitVec 64), o = .next (t.answer v)) ∨
    ∃ f info, f ∈ F ∧ o = .next (takeFault f info s)

section Ends

variable {F : List FaultName} {s : State}

theorem runProc_endsIn {p : State → Res (BitVec 64)} (h : (p s).RaisesIn F) : EndsIn F s (runProc p s) := by
  cases hp : p s with
  | ok v t => exact .inl ⟨t, v, runProc_ok hp⟩
  | raise f info => exact .inr ⟨f, info, h f info hp, runProc_raise hp⟩

theorem runCommand_endsIn (hs : s.fault = 0) {p : State → Res (BitVec 64)} (h : (p s).RaisesIn F) :
    EndsIn F s (runCommand p s) := by
  rw [runCommand_live hs]
  exact runProc_endsIn h

theorem procedure_endsIn (hs : s.fault = 0) {p : State → Res Unit} (h : (p s).RaisesIn F) :
    EndsIn F s (runCommand (noResult p) s) := runCommand_endsIn hs (noResult_raisesIn h)

theorem number_endsIn (hs : s.fault = 0) {p : State → Res Nat} (h : (p s).RaisesIn F) :
    EndsIn F s (runCommand (numResult p) s) := runCommand_endsIn hs (numResult_raisesIn h)

theorem csrProc_raisesIn (idx : Nat) : (csrProc idx s).RaisesIn [.badOperand] := by
  unfold csrProc
  split
  · exact raisesIn_of_ok rfl
  · exact raisesIn_of_raise rfl (by decide)

theorem execCsrRd_endsIn (hs : s.fault = 0) (idx : Half) : EndsIn [.badOperand] s (execCsrRd idx s) := by
  unfold execCsrRd
  split
  · exact runProc_endsIn (csrProc_raisesIn _)
  · exact runCommand_endsIn hs (csrProc_raisesIn _)

end Ends

/-- Every command, case by case, raises only the faults its row names. -/
theorem exec_endsIn {i : Instr} {s : State} (hi : i.isCommand = true) (hs : s.Ready) :
    EndsIn (faultsOf i) s (exec i s) := by
  have hf := hs.no_fault
  have hw := hs.canWrite
  have hr := hs.canRead
  obtain ⟨hpages, -, -, henc, hdec⟩ := hs.inv.live hf
  have hp := hpages.wcur_le
  cases i with
  | psAcq | psNext => exact number_endsIn hf (check_raisesIn (List.mem_singleton.mpr rfl))
  | psGet h => exact runCommand_endsIn hf (check_raisesIn (List.mem_singleton.mpr rfl))
  | psSet h v => exact procedure_endsIn hf (check_raisesIn (List.mem_singleton.mpr rfl))
  | psLen | wAvail | rAvail => exact number_endsIn hf (raisesIn_of_ok rfl)
  | wRsv n => exact procedure_endsIn hf (wReserve_raisesIn hw hp _)
  | wPut n v => exact procedure_endsIn hf (wPut_raisesIn hw _ _)
  | wAlign | encNew | decNew n => exact procedure_endsIn hf (raisesIn_of_ok rfl)
  | wFlush => exact procedure_endsIn hf (wFlush_raisesIn hw)
  | rRsv n => exact procedure_endsIn hf (rReserve_raisesIn hr _)
  | rPeek32 => exact number_endsIn hf (rPeek32_raisesIn s)
  | rPeek n => exact number_endsIn hf (rPeek_raisesIn _ s)
  | rSkip n => exact procedure_endsIn hf (rSkip_raisesIn hr _)
  | grWr m x => exact procedure_endsIn hf (grWrite_raisesIn hw x.isLt _)
  | grRd m => exact number_endsIn hf (grRead_raisesIn hr _)
  | zzEnc v | zzDec u => exact runCommand_endsIn hf (raisesIn_of_ok rfl)
  | encPut u => exact procedure_endsIn hf (encPut_raisesIn hw hp henc u.isLt)
  | encFlush => exact procedure_endsIn hf (encFlush_raisesIn hw hp henc)
  | decGet => exact number_endsIn hf (decGet_raisesIn hr hdec)
  | csrRd idx => exact execCsrRd_endsIn hf idx
  | cwGr _ _ | cwEsc _ | cwRunfull | cwRunterm _ _ | cwRunend _ | cwDirect _ => cases hi

/-- A normal end leaves `FAULT` at 0: its status is 0, which is no fault's code. -/
theorem fault_of_normalEnd {i : Instr} {s t : State} {v : BitVec 64} (hi : i.isCommand = true)
    (hs : s.fault = 0) (h : exec i s = .next (t.answer v)) : t.fault = 0 := by
  obtain ⟨u, r, hexec, hresponse, hcases⟩ := exec_answers hi s
  obtain rfl : t.answer v = u := by simpa [h] using hexec
  rcases hcases with ⟨-, hfault⟩ | ⟨-, f, -, rfl⟩ | ⟨hfaulted, -⟩
  · exact hfault.trans hs
  · have hstatus : statusOk = faultCode f := congrArg Response.status (Option.some.inj hresponse)
    exact absurd hstatus.symm (faultCode_ne_zero f)
  · exact absurd hs hfaulted

/-- Settles O15: the two ends of a command, and `FAULT` at the normal one. -/
theorem raisesOnlyItsFaults : Obligations.RaisesOnlyItsFaults := by
  intro i s hi hs
  rcases exec_endsIn hi hs with ⟨t, v, hend⟩ | hraise
  · exact .inl ⟨t, v, hend, fault_of_normalEnd hi hs.no_fault hend⟩
  · exact .inr hraise

end Sys2Proof.Machine

/-! PROOF. The step that waits, the invariant at reset, and the coder commands in the wrong phase
(70_reset_and_hazards.md R340, R341; 60_exceptions.md R301). -/

namespace Sys2Proof.Machine

/-- Settles O7: without a packet there is nothing to decode. -/
theorem stepWaits : Obligations.StepWaits := by
  intro s hp
  simp only [step, fetchPacket, hp]

/-! ## Reset -/

theorem handlesBelow_nil (n : Nat) : handlesBelow n [] := ⟨.nil, by simp⟩

theorem freshWriter_inv (cap pages : Nat) : freshWriter.Inv cap pages where
  left_le := le_refl 64
  buf_lt := by decide
  rsvd_eq := rfl
  win_le := Nat.zero_le cap
  win_ok := handlesBelow_nil pages

theorem freshReader_inv (cap fetched : Nat) : freshReader.Inv cap fetched where
  bv_eq := rfl
  bv64_le := Nat.zero_le 64
  buf32_low := rfl
  buf64_low := rfl
  rsvd_eq := rfl
  settled := rfl
  win_le := Nat.zero_le cap
  win_ok := handlesBelow_nil fetched

theorem resetWith_liveInv (p : Params) : (State.resetWith p).LiveInv where
  pages := ⟨le_refl 0, Nat.zero_le _, rfl⟩
  writer := freshWriter_inv _ _
  reader := freshReader_inv _ _
  enc := ⟨Nat.zero_le _, Nat.zero_le _, Nat.two_pow_pos _⟩
  dec := ⟨Nat.zero_le _, Nat.zero_le _, Nat.two_pow_pos _, ⟨fun _ => rfl, fun _ => rfl⟩, le_refl 0,
    Nat.two_pow_pos _⟩

theorem resetWith_inv {p : Params} (hp : p.legal = true) : (State.resetWith p).Inv where
  params_legal := hp
  mem_wf := rfl
  fault_le := Nat.zero_le 10
  finfo_zero _ := rfl
  live _ := resetWith_liveInv p

/-- Settles O9: the default parameters are legal. -/
theorem invAtReset : Obligations.InvAtReset := ⟨resetWith_inv (by decide), fun _ => resetWith_inv⟩

/-! ## The phase of a coder -/

theorem requireDecoder_ok {s : State} (hact : s.dec.act = true) (hrem : 0 < s.dec.rem) :
    requireDecoder s = .ok () s := if_pos ⟨hact, hrem⟩

theorem requireDecoder_raise {s : State} (h : s.dec.act = false ∨ s.dec.rem = 0) :
    requireDecoder s = .raise .coderState 1 := by
  refine if_neg fun ⟨hact, hrem⟩ => ?_
  rcases h with h | h
  · rw [h] at hact; cases hact
  · omega

theorem decGet_coderState {s : State} (h : s.dec.act = false ∨ s.dec.rem = 0) :
    decGet s = .raise .coderState 1 := by
  rw [decGet, requireDecoder_raise h, andThen_raise]

/-- Settles O44: the check of the phase is the first of its procedure. -/
theorem coderStateFaults : Obligations.CoderStateFaults := by
  refine fun u s hs => ⟨fun hact => ⟨?_, ?_⟩, fun h => number_of_raise hs (decGet_coderState h)⟩
  · exact procedure_of_raise hs (by rw [encPut, requireEncoder_raise hact, andThen_raise])
  · exact procedure_of_raise hs (by rw [encFlush, requireEncoder_raise hact, andThen_raise])

end Sys2Proof.Machine

/-! PROOF. The zig-zag mapping and its inverse (44_golomb_rice.md R216, R217). -/

namespace Sys2Proof.Machine

theorem exec_zzEnc {s : State} (hs : s.fault = 0) (v : Half) :
    exec (.zzEnc v) s = .next { s with response := okWith ((zigzagEnc v).setWidth 64) } :=
  (runCommand_live hs).trans (runProc_ok rfl)

theorem exec_zzDec {s : State} (hs : s.fault = 0) (u : Half) :
    exec (.zzDec u) s = .next { s with response := okWith ((zigzagDec u).setWidth 64) } :=
  (runCommand_live hs).trans (runProc_ok rfl)

/-- The bit shifted out of an even image is 0, and nothing is complemented. -/
theorem zigzagDec_of_even {u : Half} (hu : u.toNat % 2 = 0) : (zigzagDec u).toInt = (u.toNat / 2 : Int) := by
  have hbit : u.getLsbD 0 = false := by rw [← BitVec.testBit_toNat, Nat.testBit_zero, hu]; rfl
  have hdec : zigzagDec u = u >>> 1 := by rw [zigzagDec, hbit]; exact BitVec.xor_zero
  have hval : (u >>> 1).toNat = u.toNat / 2 := by rw [BitVec.toNat_ushiftRight, Nat.shiftRight_eq_div_pow, Nat.pow_one]
  have hlt := u.isLt
  rw [hdec, BitVec.toInt_eq_toNat_of_lt (by omega), hval, Int.natCast_ediv]
  rfl

/-- An odd image is shifted and complemented, which makes it negative. -/
theorem zigzagDec_of_odd {u : Half} (hu : u.toNat % 2 = 1) :
    (zigzagDec u).toInt = -((u.toNat + 1) / 2 : Int) := by
  have hbit : u.getLsbD 0 = true := by rw [← BitVec.testBit_toNat, Nat.testBit_zero, hu]; rfl
  have hdec : zigzagDec u = ~~~(u >>> 1) := by rw [zigzagDec, hbit]; exact BitVec.xor_allOnes
  have hval : (u >>> 1).toNat = u.toNat / 2 := by rw [BitVec.toNat_ushiftRight, Nat.shiftRight_eq_div_pow, Nat.pow_one]
  have hlt := u.isLt
  rw [hdec, BitVec.toInt_eq_toNat_cond, BitVec.toNat_not, hval, if_neg (by omega)]
  omega

theorem zigzagDec_toInt (u : Half) : (zigzagDec u).toInt =
    if u.toNat % 2 = 0 then (u.toNat / 2 : Int) else -((u.toNat + 1) / 2 : Int) := by
  split
  next hu => exact zigzagDec_of_even hu
  next hu => exact zigzagDec_of_odd (by omega)

/-- The even images are those of the values from 0 on, the odd ones those of the negative values. -/
theorem zigzagEnc_zigzagDec (u : Half) : zigzagEnc (zigzagDec u) = u := by
  apply BitVec.eq_of_toNat_eq
  rcases Nat.mod_two_eq_zero_or_one u.toNat with hu | hu
  · have hval := zigzagDec_of_even hu
    have henc := zigzagEnc_of_nonneg (v := zigzagDec u) (by omega)
    omega
  · have hval := zigzagDec_of_odd hu
    have henc := zigzagEnc_of_neg (v := zigzagDec u) (by omega)
    omega

theorem zigzagDec_zigzagEnc (v : Half) : zigzagDec (zigzagEnc v) = v := by
  apply BitVec.eq_of_toInt_eq
  rcases lt_or_ge v.toInt 0 with hv | hv
  · have henc := zigzagEnc_of_neg hv
    have hval := zigzagDec_of_odd (u := zigzagEnc v) (by omega)
    omega
  · have henc := zigzagEnc_of_nonneg hv
    have hval := zigzagDec_of_even (u := zigzagEnc v) (by omega)
    omega

/-- Settles O37: the formula by the lowest bit, and the two compositions. -/
theorem zigzagDecodes : Obligations.ZigzagDecodes := by
  intro u s hs
  refine ⟨zigzagDec u, exec_zzDec hs u, zigzagDec_toInt u, ?_, zigzagEnc u, exec_zzEnc hs u, ?_⟩
  · rw [exec_zzEnc hs, zigzagEnc_zigzagDec]
  · rw [exec_zzDec hs, zigzagDec_zigzagEnc]

end Sys2Proof.Machine

/-! PROOF. The codes of the stream as instructions (30_encoding.md Part B): where a code is ahead, consuming its
fields is reading them, so the code does what the command that meets it does. -/

namespace Sys2Proof.Machine

/-! ## Reading a field that is known is consuming it -/

section Fields

variable {s t : State} (h : s.CanRead)
include h

/-- A field whose value is ahead: the read has that value, and leaves what the skip leaves, or both find its
bits missing. -/
theorem readField_eq_skipField {n v : Nat} (hn : n ≤ 32) (hv : v < 2 ^ n)
    (hahead : bitsOf n v <+: streamAhead s) :
    readField n s = (skipField n s).andThen fun _ t => .ok v t := by
  unfold readField skipField
  split
  next hpos =>
    rcases Nat.lt_or_ge s.reader.rsvd n with hr | hr
    · rw [rPeek_unreserved hpos hn hr, rSkip_unreserved hn hr, andThen_raise, andThen_raise]
    · have htake : (streamAhead s).take n = bitsOf n v := by
        rw [List.prefix_iff_eq_take.mp hahead, bitsOf_length]
      rw [rPeek_ok h.reader hpos hn hr, andThen_ok, take_reservedBits h hr, htake, natOfBits_bitsOf_lt hv]
  next hzero =>
    obtain rfl : n = 0 := by omega
    obtain rfl : v = 0 := by omega
    rfl

/-- Where bits can be consumed, the reader stands behind them. -/
theorem rSkip_of_ok {n : Nat} (hskip : rSkip n s = .ok () t) :
    ReadOn s t 0 ((streamAhead s).drop n) ∧ t.CanRead := by
  rcases Nat.lt_or_ge 32 n with hn | hn
  · rw [rSkip_badOperand hn] at hskip; cases hskip
  rcases Nat.lt_or_ge s.reader.rsvd n with hr | hr
  · rw [rSkip_unreserved hn hr] at hskip; cases hskip
  · obtain ⟨u, hu, hconsumed⟩ := rSkip_ok h.reader h.rcur hn hr
    rw [hskip] at hu
    cases hu
    have hon := hconsumed.readOn (by rwa [reservedBits_length h.reader])
    exact ⟨hon, hon.canRead h h.rcur⟩

/-- The same for a field, which may have no bits. -/
theorem skipField_of_ok {n : Nat} (hskip : skipField n s = .ok () t) :
    ReadOn s t 0 ((streamAhead s).drop n) ∧ t.CanRead := by
  unfold skipField at hskip
  split at hskip
  next => exact rSkip_of_ok h hskip
  next hzero =>
    cases hskip
    obtain rfl : n = 0 := by omega
    exact ⟨(Consumed.refl h.reader).readOn (Nat.zero_le _), h⟩

end Fields

theorem isPrefix_drop_of_append {α : Type} {a b l : List α} (h : a ++ b <+: l) : b <+: l.drop a.length := by
  obtain ⟨rest, rfl⟩ := h
  rw [List.append_assoc, List.drop_left]
  exact List.prefix_append _ _

theorem leadingOnes_of_isPrefix {n : Nat} {a l : List Bool} (h : a <+: l) (ha : n ≤ a.length) :
    leadingOnes n l = leadingOnes n a := by
  obtain ⟨rest, rfl⟩ := h
  exact leadingOnes_append ha rest

/-! ## Golomb-Rice codes -/

theorem requireReadable_ok {s : State} {n : Nat} (hr : n ≤ s.reader.rsvd) : requireReadable n s = .ok () s :=
  if_pos hr

section Golomb

variable {s : State} (h : s.CanRead) {x m : Nat} (hm : m ≤ 31)
include h

/-- Behind the escape marker the 32 bits of the value are a field. -/
theorem grReadEscape_eq_skipEscape (hx : x < 2 ^ 32) (hr : 32 ≤ s.reader.rsvd)
    (hahead : List.replicate 32 true ++ bitsOf 32 x <+: streamAhead s) :
    grReadEscape s = (skipEscape s).andThen fun _ t => .ok x t := by
  have hvalue := isPrefix_drop_of_append hahead
  rw [List.length_replicate] at hvalue
  rw [grReadEscape, skipEscape, requireReadable_ok hr, andThen_ok, andThen_assoc]
  cases hmarker : rSkip 32 s with
  | raise f info => rfl
  | ok a t =>
    obtain ⟨hon, ht⟩ := rSkip_of_ok h hmarker
    exact readField_eq_skipField ht (le_refl 32) hx (hon.ahead.symm ▸ hvalue)

include hm

/-- Behind the quotient of an unescaped code the remainder is a field. -/
theorem grReadPlain_eq_skipPlain {w : Nat} (hx : x < 2 ^ 32) (hr : 32 ≤ s.reader.rsvd)
    (hw : clz32 (~~~ BitVec.ofNat 32 w) = x >>> m)
    (hahead : List.replicate (x >>> m) true ++ [false] ++ bitsOf m (x % 2 ^ m) <+: streamAhead s) :
    grReadPlain w m s = (skipPlain x m s).andThen fun _ t => .ok x t := by
  have hremainder := isPrefix_drop_of_append hahead
  rw [List.length_append, List.length_replicate, List.length_singleton] at hremainder
  have hvalue : (x % 2 ^ m + x >>> m <<< m) % 2 ^ 32 = x := by
    rw [Nat.add_comm, Nat.shiftLeft_eq, Nat.shiftRight_eq_div_pow, Nat.mul_comm, Nat.div_add_mod,
      Nat.mod_eq_of_lt hx]
  rw [skipPlain, requireReadable_ok hr, andThen_ok, andThen_assoc]
  simp only [grReadPlain, hw]
  cases hprefix : rSkip (x >>> m + 1) s with
  | raise f info => rfl
  | ok a t =>
    obtain ⟨hon, ht⟩ := rSkip_of_ok h hprefix
    rw [andThen_ok, andThen_ok, readField_eq_skipField ht (by omega) (Nat.mod_lt x (Nat.two_pow_pos m))
      (hon.ahead.symm ▸ hremainder), andThen_assoc]
    simp only [andThen_ok, hvalue]

/-- Where the code of `x` is ahead, `gr_read` reads `x` and leaves what consuming the code leaves, or both find
bits of it missing (44_golomb_rice.md R213, R214). -/
theorem grRead_eq_skipGr (hx : x < 2 ^ 32) (hahead : grBits x m <+: streamAhead s) :
    grRead m s = (skipGr x m s).andThen fun _ t => .ok x t := by
  rcases Nat.lt_or_ge s.reader.rsvd 32 with hr | hr
  · have hmissing : requireReadable 32 s = .raise .unreserved 32 := if_neg hr.not_ge
    rw [grRead_unreserved hm hr, skipGr, skipEscape, skipPlain, hmissing]
    split <;> rfl
  · have hlook : ((streamAhead s).take 32).length = 32 := by
      rw [← take_reservedBits h hr, List.length_take, reservedBits_length h.reader]
      omega
    have hescape := natOfBits_eq_escape _ hlook
    have hprefix := clz32_not _ hlook
    rw [leadingOnes_take] at hescape hprefix
    obtain ⟨rest, hrest⟩ := hahead
    have hread : grRead m s = if natOfBits ((streamAhead s).take 32) = 0xFFFFFFFF then grReadEscape s
        else grReadPlain (natOfBits ((streamAhead s).take 32)) m s := by
      rw [grRead, requireRice_eq_ok.mpr ⟨hm, rfl⟩, andThen_ok,
        rPeek_ok h.reader (by decide) (le_refl 32) hr, andThen_ok, take_reservedBits h hr]
    rw [hread, skipGr]
    by_cases hq : x >>> m < 32
    · rw [grBits, if_pos hq] at hrest
      have hones : leadingOnes 32 (streamAhead s) = x >>> m := by
        rw [← hrest, List.append_assoc, List.append_assoc]
        exact leadingOnes_replicate 32 _ hq _
      rw [hones] at hescape hprefix
      rw [if_neg (mt hescape.mp hq.ne), if_neg hq.not_ge]
      exact grReadPlain_eq_skipPlain h hm hx hr hprefix ⟨rest, hrest⟩
    · rw [grBits, if_neg hq] at hrest
      have hones : leadingOnes 32 (streamAhead s) = 32 := by
        rw [leadingOnes_eq_iff, ← hrest, List.append_assoc, List.take_left' List.length_replicate]
      rw [if_pos (hescape.mpr hones), if_pos (not_lt.mp hq)]
      exact grReadEscape_eq_skipEscape h hx hr ⟨rest, hrest⟩

end Golomb

/-! ## Codes of the decoder -/

/-- The bit strings of the codes of Direct state (30_encoding.md R107). -/
theorem encodeCode_direct_eq_some {m : Nat} {i : Instr} {bits : List Bool}
    (h : encodeCode (.direct m) i = some bits) : ∃ u : Half, i = .cwDirect u ∧ bits = grBits u.toNat m := by
  cases i with
  | cwDirect u =>
    simp only [encodeCode, Option.ite_none_right_eq_some, Option.some.injEq] at h
    exact ⟨u, rfl, h.2.symm⟩
  | _ => cases h

/-- The codes of Run state with window `2^s` and Rice parameter `m`, and their bit strings (30_encoding.md R104
to R106). -/
inductive RunCode (s m : Nat) : Instr → List Bool → Prop
  /-- The flag 0. -/
  | full : RunCode s m .cwRunfull [false]
  /-- The flag 1, a run and a symbol that is not zero. -/
  | term {rl u : Half} (hrl : rl.toNat < 2 ^ s) (hu : u ≠ 0) :
    RunCode s m (.cwRunterm rl u) (true :: (bitsOf s rl.toNat ++ grBits (u.toNat - 1) m))
  /-- The flag 1 and a run that is not empty. -/
  | last {rl : Half} (hpos : 1 ≤ rl.toNat) (hrl : rl.toNat < 2 ^ s) :
    RunCode s m (.cwRunend rl) (true :: bitsOf s rl.toNat)

theorem runCode_of_encodeCode {s m rem : Nat} {i : Instr} {bits : List Bool}
    (h : encodeCode (.run s m rem) i = some bits) : RunCode s m i bits := by
  cases i with
  | cwRunfull => cases h; exact .full
  | cwRunterm rl u =>
    obtain ⟨⟨-, hrl, hu⟩, rfl⟩ := encodeCode_cwRunterm_eq_some.mp h
    exact .term hrl hu
  | cwRunend rl =>
    simp only [encodeCode, Option.ite_none_right_eq_some, Option.some.injEq] at h
    obtain ⟨⟨hpos, hrl⟩, rfl⟩ := h
    exact .last hpos hrl
  | _ => cases h

theorem codeReserve_direct {d : Decoder} (hk : d.k = 0) : codeReserve d = 64 := if_pos hk

theorem codeReserve_run {d : Decoder} (hk : d.k ≠ 0) : codeReserve d = 1 + width d.k := if_neg hk

section Decoder

variable {s : State} (h : s.CanRead) (hd : s.dec.Inv)
include h

/-- A reserve leaves the stream, the decoder and the reader's invariants as they are. -/
theorem rReserve_of_ok {n : Nat} {t : State} (hreserve : rReserve n s = .ok () t) :
    ReadOn s t (pagesNeeded n s.reader.rsvd) (streamAhead s) ∧ t.CanRead := by
  rcases rReserve_cases (n := n) h.reader h.rcur with ⟨u, hu, hon, -, hroom⟩ | ⟨hraise, -⟩ | ⟨hraise, -⟩
  · rw [hreserve] at hu
    cases hu
    exact ⟨hon, hon.canRead h hroom⟩
  · rw [hreserve] at hraise; cases hraise
  · rw [hreserve] at hraise; cases hraise

/-- Reading the flag and consuming it, behind the same reserve. -/
theorem readFlag_eq_skipFlag {b : Bool} (hahead : [b] <+: streamAhead s) :
    ((rReserve (1 + width s.dec.k) s).andThen fun _ t => readField 1 t) =
      (skipFlag s).andThen fun _ t => .ok b.toNat t := by
  unfold skipFlag
  rw [andThen_assoc]
  cases hreserve : rReserve (1 + width s.dec.k) s with
  | raise f info => rfl
  | ok a t =>
    obtain ⟨hon, ht⟩ := rReserve_of_ok h hreserve
    have hflag : [b] = bitsOf 1 b.toNat := by cases b <;> rfl
    rw [andThen_ok, andThen_ok, readField_eq_skipField ht (by decide) b.toNat_lt
      (hflag ▸ hon.ahead.symm ▸ hahead)]
    rfl

theorem skipFlag_of_ok {t : State} (hskip : skipFlag s = .ok () t) :
    ∃ n, ReadOn s t n ((streamAhead s).drop 1) ∧ t.CanRead := by
  obtain ⟨_, a, hreserve, hflag⟩ := andThen_eq_ok.mp hskip
  obtain ⟨hon, ha⟩ := rReserve_of_ok h hreserve
  obtain ⟨hon', ht⟩ := rSkip_of_ok ha hflag
  rw [hon.ahead] at hon'
  exact ⟨_, hon.trans hon', ht⟩

theorem skipTerminator_of_ok {t : State} (hskip : skipTerminator s = .ok () t) :
    ∃ n, ReadOn s t n ((streamAhead s).drop (1 + width s.dec.k)) ∧ t.CanRead := by
  obtain ⟨_, a, hflag, hfield⟩ := andThen_eq_ok.mp hskip
  obtain ⟨n, hon, ha⟩ := skipFlag_of_ok h hflag
  obtain ⟨hon', ht⟩ := skipField_of_ok ha hfield
  rw [hon.ahead, hon.dec, List.drop_drop] at hon'
  exact ⟨_, hon.trans hon', ht⟩

/-- Run state, the flag 0 ahead. -/
theorem getRun_eq_skipFlag (hahead : [false] <+: streamAhead s) :
    getRun s = (skipFlag s).andThen fun _ t => runFullDone t := by
  have hflag := readFlag_eq_skipFlag h hahead
  unfold getRun
  rw [← andThen_assoc, hflag, andThen_assoc]
  rfl

include hd

/-- Direct state, the code of `u` ahead. -/
theorem getDirect_eq_skipGr {u : Nat} (hu : u < 2 ^ 32) (hahead : grBits u (width s.dec.kr) <+: streamAhead s) :
    getDirect s = (rReserve Config.maxCode s).andThen fun _ t =>
      (skipGr u (width t.dec.kr) t).andThen fun _ t => directDone u t := by
  unfold getDirect
  cases hreserve : rReserve Config.maxCode s with
  | raise f info => rfl
  | ok a t =>
    obtain ⟨hon, ht⟩ := rReserve_of_ok h hreserve
    have hm := width_le hd.kr_le
    rw [andThen_ok, andThen_ok, grRead_eq_skipGr ht (by rw [hon.dec]; omega) hu
      (by rwa [hon.ahead, hon.dec]), andThen_assoc]
    rfl

/-- Run state, the flag 1 and the run `r` ahead. -/
theorem getRun_eq_skipTerminator {r : Nat} (hr : r < 2 ^ width s.dec.k)
    (hahead : true :: bitsOf (width s.dec.k) r <+: streamAhead s) :
    getRun s = (skipTerminator s).andThen fun _ t => getTerminator r t := by
  have hflag := readFlag_eq_skipFlag h ((List.prefix_append [true] _).trans hahead)
  unfold getRun skipTerminator
  rw [← andThen_assoc, hflag, andThen_assoc, andThen_assoc]
  cases hskip : skipFlag s with
  | raise f info => rfl
  | ok a t =>
    obtain ⟨n, hon, ht⟩ := skipFlag_of_ok h hskip
    have hk := width_le hd.k_le
    have hrun := isPrefix_drop_of_append (a := [true]) hahead
    simp only [andThen_ok, Bool.toNat_true, if_neg Nat.one_ne_zero]
    rw [readField_eq_skipField ht (v := r) (by rw [hon.dec]; omega) (by rwa [hon.dec])
      (by rw [hon.ahead, hon.dec]; exact hrun), andThen_assoc]
    rfl

/-- Behind a run that is not too long, the code of `x` ahead. -/
theorem getTerminator_eq_skipGr {r x : Nat} (hx : x < 2 ^ 32)
    (hahead : grBits x (width s.dec.kr) <+: streamAhead s) :
    getTerminator r s = (requireRemaining r s).andThen fun _ t =>
      if r = t.dec.rem then runEndDone r t
      else (rReserve Config.maxCode t).andThen fun _ t =>
        (skipGr x (width t.dec.kr) t).andThen fun _ t => runTermDone r x t := by
  unfold getTerminator
  cases hremaining : requireRemaining r s with
  | raise f info => rfl
  | ok a t =>
    obtain rfl : s = t := by
      unfold requireRemaining at hremaining
      split at hremaining <;> cases hremaining
      rfl
    rw [andThen_ok, andThen_ok]
    split
    next => rfl
    next =>
      cases hreserve : rReserve Config.maxCode s with
      | raise f info => rfl
      | ok a t =>
        obtain ⟨hon, ht⟩ := rReserve_of_ok h hreserve
        have hm := width_le hd.kr_le
        rw [andThen_ok, andThen_ok, grRead_eq_skipGr ht (by rw [hon.dec]; omega) hx
          (by rwa [hon.ahead, hon.dec]), andThen_assoc]
        rfl

end Decoder

/-! ## The commands that meet the codes -/

theorem runProc_numResult_congr {p q : State → Res Nat} {s : State} (h : p s = q s) :
    runProc (numResult p) s = runProc (numResult q) s := by
  simp only [runProc, numResult, h]

/-- A code whose check before it fails takes the fault of that check. -/
theorem runCode_of_raise {before : State → Res Unit} {ctx : CodeCtx} {i : Instr} {p : State → Res Nat}
    {s : State} {f : FaultName} {info : Nat} (hs : s.fault = 0) (h : before s = .raise f info) :
    runCode before ctx i p s = .next (takeFault f info s) := by
  unfold runCode
  rw [if_neg (not_not.mpr hs), h]

/-- Without its first reserve neither coder state goes on. -/
theorem decGet_of_reserve_raise {s : State} {f : FaultName} {info : Nat} (hreads : decoderReads s = true)
    (h : rReserve (codeReserve s.dec) s = .raise f info) : decGet s = .raise f info := by
  rw [decGet_reads hreads]
  split
  next hk =>
    rw [codeReserve_direct hk] at h
    rw [getDirect, Config.maxCode, h, andThen_raise]
  next hk =>
    rw [codeReserve_run hk] at h
    rw [getRun, h, andThen_raise]

theorem decoderReads_iff {s : State} :
    decoderReads s = true ↔ (s.dec.act = true ∧ 0 < s.dec.rem) ∧ s.dec.atBoundary = true := by
  simp only [decoderReads, Bool.and_eq_true, decide_eq_true_eq]

theorem decoderBefore_of_reads {s : State} (h : decoderReads s = true) :
    decoderBefore s = rReserve (codeReserve s.dec) s := by
  obtain ⟨⟨hact, hrem⟩, hboundary⟩ := decoderReads_iff.mp h
  rw [decoderBefore, requireDecoder_ok hact hrem, andThen_ok, if_pos hboundary]

theorem decoderBefore_of_held {s : State} (hact : s.dec.act = true) (hrem : 0 < s.dec.rem)
    (hheld : s.dec.atBoundary = false) : decoderBefore s = .ok () s := by
  rw [decoderBefore, requireDecoder_ok hact hrem, andThen_ok, hheld, if_neg (by decide)]

theorem decoderBefore_coderState {s : State} (h : s.dec.act = false ∨ s.dec.rem = 0) :
    decoderBefore s = .raise .coderState 1 := by
  rw [decoderBefore, requireDecoder_raise h, andThen_raise]

/-- What an earlier code left is returned, whatever code is ahead. -/
theorem decoderMeets_of_held {s : State} (p : State → Res Nat) (hact : s.dec.act = true) (hrem : 0 < s.dec.rem)
    (hheld : s.dec.atBoundary = false) : decoderMeets p s = decGet s := by
  rw [decGet_eq hact hrem, decoderMeets]
  split
  next => rfl
  next hrl =>
    have hpend : s.dec.pend = true := by
      simpa [Decoder.atBoundary, Nat.eq_zero_of_not_pos hrl] using hheld
    rw [if_pos hpend, if_pos hpend]

/-- A code that is ahead, and whose procedure at a code boundary does what `DEC.GET` does, is `DEC.GET`: their
checks are the same, and so is what they return away from a boundary. -/
theorem runDecoderCode_eq_decGet {s : State} {i : Instr} {p : State → Res Nat} {bits : List Bool}
    (hs : s.fault = 0) (hcode : encodeCode (decoderCtx s) i = some bits) (hahead : bits <+: streamAhead s)
    (hp : decoderReads s = true → p s = decGet s) : runDecoderCode i p s = exec .decGet s := by
  have hget : exec .decGet s = runProc (numResult decGet) s := runCommand_live hs
  by_cases hready : s.dec.act = true ∧ 0 < s.dec.rem
  · obtain ⟨hact, hrem⟩ := hready
    cases hboundary : s.dec.atBoundary with
    | false =>
      rw [hget, runDecoderCode, runCode_live hs (decoderBefore_of_held hact hrem hboundary) hcode hahead]
      exact runProc_numResult_congr (decoderMeets_of_held p hact hrem hboundary)
    | true =>
      have hreads := decoderReads_iff.mpr ⟨⟨hact, hrem⟩, hboundary⟩
      cases hreserve : rReserve (codeReserve s.dec) s with
      | raise f info =>
        rw [runDecoderCode, runCode_of_raise hs ((decoderBefore_of_reads hreads).trans hreserve)]
        exact (number_of_raise hs (decGet_of_reserve_raise hreads hreserve)).symm
      | ok _ t =>
        rw [hget, runDecoderCode_live hs hreads hreserve hcode hahead]
        exact runProc_numResult_congr (hp hreads)
  · have hphase : s.dec.act = false ∨ s.dec.rem = 0 := by
      rwa [not_and_or, Bool.not_eq_true, Nat.not_lt_eq, Nat.le_zero] at hready
    rw [runDecoderCode, runCode_of_raise hs (decoderBefore_coderState hphase)]
    exact (number_of_raise hs (decGet_coderState hphase)).symm

/-- At a code boundary `DEC.GET` does what the code that is ahead does (46_rlgr_decoder.md R262). -/
theorem exec_decGet_eq_code {s : State} {i : Instr} {bits : List Bool} (hs : s.Ready)
    (hcode : encodeCode (decoderCtx s) i = some bits) (hahead : bits <+: streamAhead s) :
    exec .decGet s = exec i s := by
  have h := hs.canRead
  have hd := (hs.inv.live hs.no_fault).dec
  by_cases hk : s.dec.k = 0
  · have hdirect := decoderCtx_direct hk ▸ hcode
    obtain ⟨u, rfl, rfl⟩ := encodeCode_direct_eq_some hdirect
    refine (runDecoderCode_eq_decGet hs.no_fault hcode hahead fun hreads => ?_).symm
    rw [decGet_reads hreads, if_pos hk, getDirect_eq_skipGr h hd u.isLt hahead]
  · have hrun := runCode_of_encodeCode (decoderCtx_run hk ▸ hcode)
    have hget (hreads : decoderReads s = true) : decGet s = getRun s := by rw [decGet_reads hreads, if_neg hk]
    cases hrun with
    | full =>
      refine (runDecoderCode_eq_decGet hs.no_fault hcode hahead fun hreads => ?_).symm
      rw [hget hreads, getRun_eq_skipFlag h hahead]
    | @last rl hpos hrl =>
      refine (runDecoderCode_eq_decGet hs.no_fault hcode hahead fun hreads => ?_).symm
      rw [hget hreads, getRun_eq_skipTerminator h hd hrl hahead]
    | @term rl u hrl hu =>
      refine (runDecoderCode_eq_decGet hs.no_fault hcode hahead fun hreads => ?_).symm
      have hsymbol := isPrefix_drop_of_append (a := true :: bitsOf (width s.dec.k) rl.toNat) hahead
      rw [List.length_cons, bitsOf_length, Nat.add_comm] at hsymbol
      rw [hget hreads, getRun_eq_skipTerminator h hd hrl
        ((List.prefix_append (true :: bitsOf (width s.dec.k) rl.toNat) _).trans hahead)]
      cases hskip : skipTerminator s with
      | raise f info => rfl
      | ok _ t =>
        obtain ⟨n, hon, ht⟩ := skipTerminator_of_ok h hskip
        have hlt := u.isLt
        exact (getTerminator_eq_skipGr ht (hon.dec ▸ hd) (by omega)
          (by rw [hon.ahead, hon.dec]; exact hsymbol)).symm

/-- The codes a Golomb-Rice reader meets (30_encoding.md R102, R103). -/
inductive GolombCode (m : Byte) (x : Half) : Instr → Prop
  /-- The quotient is below 32. -/
  | plain (hq : x.toNat >>> m.toNat < 32) : GolombCode m x (.cwGr m x)
  /-- The quotient is 32 or above. -/
  | escape (hq : 32 ≤ x.toNat >>> m.toNat) : GolombCode m x (.cwEsc x)

theorem golombCode_of_encodeCode {m : Byte} {i : Instr} {bits : List Bool}
    (h : encodeCode (.golomb m.toNat) i = some bits) :
    ∃ x, GolombCode m x i ∧ m.toNat ≤ 31 ∧ bits = grBits x.toNat m.toNat := by
  cases i with
  | cwGr m' x =>
    simp only [encodeCode, Option.ite_none_right_eq_some, Option.some.injEq] at h
    obtain ⟨⟨hm', hm, hq⟩, rfl⟩ := h
    obtain rfl := BitVec.eq_of_toNat_eq hm'
    exact ⟨x, .plain hq, hm, rfl⟩
  | cwEsc x =>
    simp only [encodeCode, Option.ite_none_right_eq_some, Option.some.injEq] at h
    obtain ⟨⟨hm, hq⟩, rfl⟩ := h
    exact ⟨x, .escape hq, hm, rfl⟩
  | _ => cases h

/-- An escaped code is the same for every parameter (30_encoding.md R103). -/
theorem grBits_escape {x m : Nat} (hq : 32 ≤ x >>> m) : grBits x m = grBits x 0 ∧ 32 ≤ x >>> 0 := by
  have hx : 32 ≤ x := hq.trans (Nat.shiftRight_le x m)
  exact ⟨by rw [grBits, if_neg hq.not_gt, grBits, if_neg (by rw [Nat.shiftRight_zero]; exact hx.not_gt)], hx⟩

theorem exec_cwGr (m : Byte) (x : Half) (s : State) : exec (.cwGr m x) s =
    runCode (fun s => (requireRice m.toNat s).andThen fun _ s => golombBefore s) (.golomb m.toNat) (.cwGr m x)
      (fun s => (skipPlain x.toNat m.toNat s).andThen fun _ s => .ok x.toNat s) s := rfl

/-- With a legal parameter the check of `CW.GR` is that of the reserved bits. -/
theorem riceCheck_eq {m : Byte} (hm : m.toNat ≤ 31) (s : State) :
    ((requireRice m.toNat s).andThen fun _ s => golombBefore s) = requireReadable 32 s := by
  rw [requireRice_eq_ok.mpr ⟨hm, rfl⟩, andThen_ok, golombBefore]

/-- A code that is ahead, with the check of `GR.RD` before it and its procedure, is `GR.RD`. -/
theorem runCode_eq_grRd {s : State} {m : Byte} {before : State → Res Unit} {ctx : CodeCtx} {i : Instr}
    {p : State → Res Nat} {bits : List Bool} (hs : s.fault = 0) (hm : m.toNat ≤ 31)
    (hbefore : before s = requireReadable 32 s) (hcode : encodeCode ctx i = some bits)
    (hahead : bits <+: streamAhead s) (hp : p s = grRead m.toNat s) :
    runCode before ctx i p s = exec (.grRd m) s := by
  rcases Nat.lt_or_ge s.reader.rsvd 32 with hr | hr
  · rw [runCode_of_raise hs (hbefore.trans (if_neg hr.not_ge))]
    exact (number_of_raise hs (grRead_unreserved hm hr)).symm
  · rw [runCode_live hs (hbefore.trans (requireReadable_ok hr)) hcode hahead]
    exact (runProc_numResult_congr hp).trans (runCommand_live hs).symm

/-- `GR.RD` does what the code that is ahead does (44_golomb_rice.md R213). -/
theorem exec_grRd_eq_code {s : State} {m : Byte} {i : Instr} {bits : List Bool} (hs : s.Ready)
    (hcode : encodeCode (.golomb m.toNat) i = some bits) (hahead : bits <+: streamAhead s) :
    exec (.grRd m) s = exec i s := by
  obtain ⟨x, hi, hm, rfl⟩ := golombCode_of_encodeCode hcode
  have hread := grRead_eq_skipGr hs.canRead hm x.isLt hahead
  cases hi with
  | plain hq =>
    rw [skipGr, if_neg hq.not_ge] at hread
    rw [exec_cwGr, runCode_eq_grRd hs.no_fault hm (riceCheck_eq hm s) hcode hahead hread.symm]
  | escape hq =>
    obtain ⟨hbits, hq0⟩ := grBits_escape hq
    have hcode0 : encodeCode (.golomb 0) (.cwEsc x) = some (grBits x.toNat 0) := if_pos ⟨Nat.zero_le _, hq0⟩
    rw [skipGr, if_pos hq] at hread
    exact (runCode_eq_grRd (before := golombBefore) hs.no_fault hm rfl hcode0 (hbits ▸ hahead) hread.symm).symm

/-- Settles O52: the code ahead at either reader. -/
theorem readersRunTheCodeAhead : Obligations.ReadersRunTheCodeAhead := fun _ _ _ _ hs hahead =>
  ⟨fun hcode => exec_decGet_eq_code hs hcode hahead, fun hcode => exec_grRd_eq_code hs hcode hahead⟩

/-! ## The codes where they stand -/

/-- A code that fits is told by the count (30_encoding.md R106). -/
theorem tells_of_codeFits {s : State} {i : Instr} (hfits : codeFits s.dec i = true) :
    (decoderCtx s).tells i = true := by
  unfold decoderCtx
  split
  next => cases i <;> rfl
  next =>
    cases i with
    | cwRunterm rl u =>
      simp only [codeFits, decide_eq_true_eq] at hfits
      exact decide_eq_true hfits.ne
    | cwRunend rl => exact hfits
    | _ => rfl

/-- The bits of a code that fits decode to it, whatever is behind them. -/
theorem decodeCode_of_codeFits {s : State} {i : Instr} {bits : List Bool}
    (hcode : encodeCode (decoderCtx s) i = some bits) (hahead : bits <+: streamAhead s)
    (hfits : codeFits s.dec i = true) :
    decodeCode (decoderCtx s) (streamAhead s) = .ok (i, (streamAhead s).drop bits.length) := by
  obtain ⟨rest, hrest⟩ := hahead
  rw [← hrest, List.drop_left]
  exact codeRoundTrip.2.1 _ _ _ _ hcode (tells_of_codeFits hfits)

/-- A run code of the decoder's context is met in Run state. -/
theorem runCode_of_decoderCtx {s : State} {rl u : Half} {bits : List Bool}
    (h : encodeCode (decoderCtx s) (.cwRunterm rl u) = some bits) :
    s.dec.k ≠ 0 ∧ rl.toNat < 2 ^ width s.dec.k ∧
      bits = true :: (bitsOf (width s.dec.k) rl.toNat ++ grBits (u.toNat - 1) (width s.dec.kr)) := by
  by_cases hk : s.dec.k = 0
  · rw [decoderCtx_direct hk] at h; cases h
  · rw [decoderCtx_run hk] at h
    obtain ⟨⟨-, hrl, -⟩, rfl⟩ := encodeCode_cwRunterm_eq_some.mp h
    exact ⟨hk, hrl, rfl⟩

theorem runEnd_of_decoderCtx {s : State} {rl : Half} {bits : List Bool}
    (h : encodeCode (decoderCtx s) (.cwRunend rl) = some bits) :
    s.dec.k ≠ 0 ∧ rl.toNat < 2 ^ width s.dec.k ∧ bits = true :: bitsOf (width s.dec.k) rl.toNat := by
  by_cases hk : s.dec.k = 0
  · rw [decoderCtx_direct hk] at h; cases h
  · rw [decoderCtx_run hk] at h
    cases runCode_of_encodeCode h with
    | last _ hrl => exact ⟨hk, hrl, rfl⟩

theorem encodeCode_cwRunend {s : State} {rl : Half} (hk : s.dec.k ≠ 0) (hpos : 1 ≤ rl.toNat)
    (hrl : rl.toNat < 2 ^ width s.dec.k) :
    encodeCode (decoderCtx s) (.cwRunend rl) = some (true :: bitsOf (width s.dec.k) rl.toNat) := by
  rw [decoderCtx_run hk]
  exact if_pos ⟨hpos, hrl⟩

/-- Settles O48: `DEC.GET` parses the code, and the code does what `DEC.GET` does. A run as long as the symbols
expected begins with the bits of the trailing run. -/
theorem decoderCodesComplete : Obligations.DecoderCodesComplete := by
  intro s i bits hs hreads hcode hahead
  refine ⟨fun hfits hroom => ?_, fun rl u hi hlast => ?_⟩
  · rw [← exec_decGet_eq_code hs hcode hahead]
    exact decGetParsesCode s i _ hs hreads (decodeCode_of_codeFits hcode hahead hfits) hfits hroom
  · subst hi
    obtain ⟨⟨-, hrem⟩, -⟩ := decoderReads_iff.mp hreads
    obtain ⟨hk, hrl, hbits⟩ := runCode_of_decoderCtx hcode
    have hshort : true :: bitsOf (width s.dec.k) rl.toNat <+: streamAhead s :=
      (List.prefix_append (true :: bitsOf (width s.dec.k) rl.toNat) _).trans (hbits ▸ hahead)
    rw [← exec_decGet_eq_code hs hcode hahead,
      exec_decGet_eq_code hs (encodeCode_cwRunend hk (by omega) hrl) hshort]

/-- A Golomb-Rice code at the head of the reserved bits, met by its reader. -/
theorem exec_golombCode {s : State} {m : Byte} {x : Half} {i : Instr} {bits : List Bool} (hs : s.Ready)
    (hr : 32 ≤ s.reader.rsvd) (hm : m.toNat ≤ 31)
    (hcode : encodeCode (.golomb m.toNat) i = some bits) (hbits : bits = grBits x.toNat m.toNat)
    (hahead : bits <+: reservedBits s) :
    ∃ t, exec i s = .next (t.answer (x.setWidth 64)) ∧ Consumed s t bits.length := by
  obtain ⟨rest, hrest⟩ := hahead
  have hdec : decodeGr m.toNat (reservedBits s) = .ok (x.toNat, decide (32 ≤ x.toNat >>> m.toNat), rest) := by
    rw [← hrest, hbits]
    exact decodeGr_grBits x.isLt rest
  obtain ⟨t, hread, hconsumed, -⟩ := (grRdReadsCode m s hs hm hr).1 _ _ _ hdec
  have hstream : bits <+: streamAhead s := ⟨rest ++ unfetchedBits s, by
    rw [streamAhead, ← hrest, List.append_assoc]⟩
  have hlen : (reservedBits s).length - rest.length = bits.length := by
    rw [← hrest, List.length_append, Nat.add_sub_cancel]
  rw [hlen] at hconsumed
  refine ⟨t, ?_, hconsumed⟩
  rw [← exec_grRd_eq_code hs hcode hstream, hread, BitVec.ofNat_toNat]

/-- Settles O49: either code is met by `GR.RD`, which reads what the code's bits decode to. -/
theorem golombCodesComplete : Obligations.GolombCodesComplete := by
  intro m x s hs hr
  refine ⟨fun bits hcode hahead => ?_, fun bits hcode hahead => ?_⟩ <;>
    obtain ⟨y, hi, hm, hbits⟩ := golombCode_of_encodeCode hcode <;>
    cases hi <;>
    exact exec_golombCode hs hr hm hcode hbits hahead

/-! ## The faults of the command that meets a code -/

/-- Each code of the decoder runs behind the same checks. -/
theorem exec_decoderCode {i : Instr} {rl x : Half}
    (hi : i ∈ [Instr.cwRunfull, .cwRunterm rl x, .cwRunend rl, .cwDirect x]) :
    ∃ p, ∀ s, exec i s = runDecoderCode i p s := by
  simp only [List.mem_cons, List.not_mem_nil, or_false] at hi
  rcases hi with rfl | rfl | rfl | rfl <;> exact ⟨_, fun _ => rfl⟩

theorem codeReserve_eq (d : Decoder) : codeReserve d = if d.k = 0 then 64 else 1 + d.k / 8 := by
  rw [codeReserve, width_eq]

theorem codeReserve_le {d : Decoder} (hd : d.Inv) : codeReserve d ≤ 64 := by
  have hw := width_le hd.k_le
  rw [codeReserve, Config.maxCode]
  split <;> omega

/-- The first reserve without its page, whichever code is asked for. -/
theorem decoderBefore_pastWrite {s : State} (hs : s.Ready) (hreads : decoderReads s = true)
    (hend : s.psRcur = s.psWcur) (hr : s.reader.rsvd < codeReserve s.dec) :
    decoderBefore s = .raise .readPastWrite s.psRcur := by
  have hneed : pagesNeeded (codeReserve s.dec) s.reader.rsvd ≠ 0 := mt pagesNeeded_eq_zero.mp hr.not_ge
  rw [decoderBefore_of_reads hreads, hend]
  exact rReserve64_pastWrite hs.canRead (codeReserve_le (hs.inv.live hs.no_fault).dec) (by omega)

theorem streamAhead_eq_of_isPrefix {s : State} {bits : List Bool} (h : bits <+: streamAhead s) :
    ∃ rest, streamAhead s = bits ++ rest :=
  have ⟨rest, hrest⟩ := h
  ⟨rest, hrest.symm⟩

/-- A terminator whose run is longer than expected, met by `DEC.GET`. -/
theorem exec_terminator_desync {s : State} {i : Instr} {rl : Half} {bits tail : List Bool} (hs : s.Ready)
    (hreads : decoderReads s = true) (hk : 0 < s.dec.k)
    (hroom : s.psRcur + pagesNeeded (1 + s.dec.k / 8) s.reader.rsvd ≤ s.psWcur)
    (hcode : encodeCode (decoderCtx s) i = some bits) (hahead : bits <+: streamAhead s)
    (hrl : rl.toNat < 2 ^ width s.dec.k) (hbits : bits = true :: (bitsOf (width s.dec.k) rl.toNat ++ tail))
    (hlong : s.dec.rem < rl.toNat) : exec i s = .next (takeFault .desync rl.toNat s) := by
  obtain ⟨rest, hrest⟩ := streamAhead_eq_of_isPrefix hahead
  rw [hbits, List.cons_append, List.append_assoc] at hrest
  rw [← exec_decGet_eq_code hs hcode hahead]
  rw [width_eq] at hrl hrest
  exact (((decGetFaults s rl.toNat _ hs hreads).2 hk hroom).2 hrl hrest).1 hlong

/-- Settles O50: the checks before a code are those of its command, and behind them it is its command. -/
theorem codesTakeTheReadersFaults : Obligations.CodesTakeTheReadersFaults := by
  intro m x rl s hs
  refine ⟨fun hm => ?_, fun hm hr => ?_, fun hr => ?_,
    fun i hi => ⟨fun hphase => ?_, fun hready hreads hend hr => ?_⟩,
    fun hready hreads hk hroom => ⟨fun hahead hwindow => ?_, fun i hi bits hcode hahead hlong => ?_⟩⟩
  · have hrice : requireRice m.toNat s = .raise .badOperand m.toNat := requireRice_eq_raise.mpr ⟨hm, rfl, rfl⟩
    rw [exec_cwGr, runCode_of_raise hs (by rw [hrice, andThen_raise])]
  · rw [exec_cwGr, runCode_of_raise hs ((riceCheck_eq hm s).trans (if_neg hr.not_ge))]
  · exact runCode_of_raise hs (if_neg hr.not_ge)
  · obtain ⟨p, hexec⟩ := exec_decoderCode hi
    exact (hexec s).trans (runCode_of_raise hs (decoderBefore_coderState hphase))
  · obtain ⟨p, hexec⟩ := exec_decoderCode hi
    rw [← codeReserve_eq] at hr
    exact (hexec s).trans (runCode_of_raise hs (decoderBefore_pastWrite hready hreads hend hr))
  · obtain ⟨rest, hrest⟩ := streamAhead_eq_of_isPrefix hahead
    have hcode : encodeCode (decoderCtx s) .cwRunfull = some [false] := by rw [decoderCtx_run hk.ne']; rfl
    rw [← exec_decGet_eq_code hready hcode hahead]
    exact ((decGetFaults s 0 rest hready hreads).2 hk hroom).1 hrest hwindow
  · simp only [List.mem_cons, List.not_mem_nil, or_false] at hi
    rcases hi with rfl | rfl
    · obtain ⟨-, hrl, hbits⟩ := runCode_of_decoderCtx hcode
      exact exec_terminator_desync hready hreads hk hroom hcode hahead hrl hbits hlong
    · obtain ⟨-, hrl, hbits⟩ := runEnd_of_decoderCtx hcode
      exact exec_terminator_desync (tail := []) hready hreads hk hroom hcode hahead hrl
        (by rw [hbits, List.append_nil]) hlong

/-! ## A code that is not there -/

/-- The reader looks at the stream, and the bits there are not the code. -/
theorem runCode_notAhead {before : State → Res Unit} {ctx : CodeCtx} {i : Instr} {p : State → Res Nat}
    {s t : State} (hs : s.fault = 0) (hbefore : before s = .ok () t)
    (hnot : ∀ bits, encodeCode ctx i = some bits → ¬ bits <+: streamAhead s) :
    runCode before ctx i p s = .fault .codeNotAhead := by
  have hahead : codeAhead ctx i s = false := by
    rw [Bool.eq_false_iff, ne_eq, codeAhead_iff]
    exact fun ⟨bits, hcode, hprefix⟩ => hnot bits hcode hprefix
  simp only [runCode, hs, hbefore, hahead]
  rfl

/-- The decoder's checks and its first reserve, where they pass. -/
theorem decoderBefore_ok {s : State} (hs : s.Ready) (hact : s.dec.act = true) (hrem : 0 < s.dec.rem)
    (hroom : s.dec.atBoundary = true → s.psRcur + pagesNeeded (codeReserve s.dec) s.reader.rsvd ≤ s.psWcur) :
    ∃ t, decoderBefore s = .ok () t := by
  cases hboundary : s.dec.atBoundary with
  | false => exact ⟨s, decoderBefore_of_held hact hrem hboundary⟩
  | true =>
    obtain ⟨t, hreserve, -⟩ := rReserve64_ok hs.canRead (codeReserve_le (hs.inv.live hs.no_fault).dec)
      (hroom hboundary)
    exact ⟨t, (decoderBefore_of_reads (decoderReads_iff.mpr ⟨⟨hact, hrem⟩, hboundary⟩)).trans hreserve⟩

/-- Settles O51: the checks before the code pass, so its bits are looked for. -/
theorem codesNotAheadStop : Obligations.CodesNotAheadStop := by
  intro m x rl s hs
  refine ⟨fun hm hr hnot => ?_, fun hr hnot => ?_, fun i hi hact hrem hroom hnot => ?_⟩
  · rw [exec_cwGr, runCode_notAhead hs.no_fault ((riceCheck_eq hm s).trans (requireReadable_ok hr)) hnot]
  · exact runCode_notAhead hs.no_fault (requireReadable_ok hr) hnot
  · rw [← codeReserve_eq] at hroom
    obtain ⟨p, hexec⟩ := exec_decoderCode hi
    obtain ⟨t, hbefore⟩ := decoderBefore_ok hs hact hrem hroom
    exact (hexec s).trans (runCode_notAhead hs.no_fault hbefore hnot)

end Sys2Proof.Machine

/-! PROOF. The normal ends of the encoder side (41_reservation_window.md R152; 42_bit_writer.md R172, R175;
45_rlgr_encoder.md R232 to R237): a procedure that does not fault has reserved pages, appended bits and at most
committed the last word. -/

namespace Sys2Proof.Machine

/-! ## Reserved pages and appended bits -/

/-- `t` is `s` after the writer has reserved `n` pages, for which window and store had room, and appended `bits`;
the encoder and the response are not looked at. -/
structure Emits (s t : State) (n : Nat) (bits : List Bool) : Prop where
  room : s.roomFor n
  fits : s.writer.win.length + n ≤ s.params.winCap
  appended : Appended (s.withReserved n) { t with enc := s.enc, response := s.response } bits

/-- What a flush does is about the writer and the store, whatever encoder and response stand beside them. -/
theorem Flushed.setPort {s t : State} (h : Flushed s t) (e : Encoder) (r : Option Response) :
    Flushed { s with enc := e, response := r } { t with enc := e, response := r } := by
  unfold Flushed at h ⊢
  split at h
  next hempty => rw [if_pos hempty, h]
  next hbuffered =>
    rw [if_neg hbuffered]
    exact ⟨congrArg (fun u : State => { u with enc := e, response := r }) h.others, h.page, h.mem_wf⟩

/-- The encoder registers and the response after the writer's part. -/
theorem Appended.emits {s u : State} {n : Nat} {bits : List Bool} (hroom : s.roomFor n)
    (hfits : s.writer.win.length + n ≤ s.params.winCap) (h : Appended (s.withReserved n) u bits) (e : Encoder)
    (r : Option Response) : Emits s { u with enc := e, response := r } n bits where
  room := hroom
  fits := hfits
  appended := by
    have hu : ({ u with enc := s.enc, response := s.response } : State) = u := by rw [h.others]; rfl
    rw [hu]
    exact h

theorem Emits.answer {s t : State} {n : Nat} {bits : List Bool} (h : Emits s t n bits) (v : BitVec 64) :
    Emits s (t.answer v) n bits := ⟨h.room, h.fits, h.appended⟩

section Reserved

variable {s : State} (h : s.CanWrite)
include h

theorem withReserved_writer_inv {n : Nat} (hfits : s.writer.win.length + n ≤ s.params.winCap) :
    (s.withReserved n).writer.Inv s.params.winCap (s.withReserved n).psWcur := h.writer.withReserved n hfits

/-- Both reserves around a terminator with its symbol fit the window (41_reservation_window.md R159). -/
theorem termPages_fits {w : Nat} (hw : w ≤ 30) :
    s.writer.win.length + termPages w s.writer.rsvd ≤ s.params.winCap := by
  have hrsvd := h.writer.rsvd_eq
  have hleft := h.writer.left_le
  have hcap := h.cap
  have hlen := h.writer.win_le
  simp only [termPages, pagesNeeded]
  omega

/-- Without a reserve and without bits the writer has done nothing. -/
theorem emits_nothing (hp : s.psWcur ≤ s.params.pageLimit) (e : Encoder) (r : Option Response) :
    Emits s { s with enc := e, response := r } 0 [] :=
  Appended.emits (n := 0) (show s.roomFor 0 from hp) h.writer.win_le
    (by rw [withReserved_zero]; exact Appended.nil h.writer h.wf) e r

theorem wReserve_of_ok (hp : s.psWcur ≤ s.params.pageLimit) {n : Nat} {t : State}
    (hend : wReserve n s = .ok () t) : t = s.withReserved (pagesNeeded n s.writer.rsvd) ∧
      s.roomFor (pagesNeeded n s.writer.rsvd) ∧
      s.writer.win.length + pagesNeeded n s.writer.rsvd ≤ s.params.winCap := by
  rcases wReserve_cases (n := n) h.wf h.below hp h.writer.win_le with ⟨hok, hfits, hroom⟩ | ⟨hraise, -⟩ |
    ⟨hraise, -⟩
  · rw [hend] at hok
    cases hok
    exact ⟨rfl, hroom, hfits⟩
  · rw [hend] at hraise; cases hraise
  · rw [hend] at hraise; cases hraise

theorem wPut_of_ok {n v : Nat} {t : State} (hend : wPut n v s = .ok () t) : Appended s t (bitsOf n v) := by
  obtain ⟨_, _, hcount, hbehind⟩ := andThen_eq_ok.mp hend
  obtain ⟨_, _, hwidth, -⟩ := andThen_eq_ok.mp hbehind
  have hn := (requireCount_eq_ok.mp hcount).1
  have hv := (requireWidth_eq_ok.mp hwidth).1
  rcases Nat.lt_or_ge s.writer.rsvd n with hr | hr
  · rw [wPut_unreserved hn hv hr] at hend; cases hend
  · obtain ⟨u, hu, happended⟩ := wPut_ok h.writer h.wf hn hv hr
    rw [hend] at hu
    cases hu
    exact happended

theorem grWrite_of_ok {x m : Nat} {t : State} (hx : x < 2 ^ 32) (hend : grWrite x m s = .ok () t) :
    Appended s t (grBits x m) := by
  obtain ⟨_, _, hrice, -⟩ := andThen_eq_ok.mp hend
  have hm := (requireRice_eq_ok.mp hrice).1
  rcases Nat.lt_or_ge s.writer.rsvd (lenGr x m) with hr | hr
  · obtain ⟨info, hraise⟩ := grWrite_unreserved h hm hx hr
    rw [hend] at hraise; cases hraise
  · obtain ⟨u, hu, happended⟩ := grWrite_ok h.writer h.wf hm hx hr
    rw [hend] at hu
    cases hu
    exact happended

theorem wFlush_of_ok {t : State} (hend : wFlush s = .ok () t) : Flushed s t := by
  obtain ⟨u, hu, hflushed⟩ := wFlush_ok h.writer h.wf
  rw [hend] at hu
  cases hu
  exact hflushed

end Reserved

/-! ## `ENC.PUT` -/

/-- The normal ends of `ENC.PUT u`: the four rows of 45_rlgr_encoder.md R230. -/
inductive PutEnd (u : Half) (s t : State) : Prop
  /-- Direct state. -/
  | direct (hk : s.enc.k = 0)
      (hemits : Emits s t (pagesNeeded 64 s.writer.rsvd) (grBits u.toNat (width s.enc.kr)))
      (henc : t.enc = { s.enc with
        kr := adaptKr s.params s.enc.kr u.toNat
        k := adaptKDirect s.params s.enc.k u.toNat })
  /-- Run state, a zero that is counted. -/
  | counted (hk : s.enc.k ≠ 0) (hu : u = 0) (hrl : s.enc.rl + 1 < 2 ^ width s.enc.k)
      (ht : t = { s with enc := { s.enc with rl := s.enc.rl + 1 }, response := t.response })
  /-- Run state, the zero that fills the window. -/
  | window (hk : s.enc.k ≠ 0) (hu : u = 0) (hrl : s.enc.rl + 1 = 2 ^ width s.enc.k)
      (hemits : Emits s t (pagesNeeded (1 + width s.enc.k) s.writer.rsvd) [false])
      (henc : t.enc = { s.enc with rl := 0, k := adaptKFull s.params s.enc.k })
  /-- Run state, a symbol that is not zero. -/
  | symbol (hk : s.enc.k ≠ 0) (hu : u ≠ 0)
      (hemits : Emits s t (termPages (width s.enc.k) s.writer.rsvd)
        (true :: (bitsOf (width s.enc.k) s.enc.rl ++ grBits (u.toNat - 1) (width s.enc.kr))))
      (henc : t.enc = { s.enc with
        kr := adaptKr s.params s.enc.kr u.toNat
        rl := 0
        k := adaptKTerm s.params s.enc.k })

section Encoder

variable {s t : State} (h : s.CanWrite) (hp : s.psWcur ≤ s.params.pageLimit) (he : s.enc.Inv)
include h hp he

/-- A put that does not fault is active and ends in one of the four ways. -/
theorem encPut_of_ok {u : Half} (hend : encPut u.toNat s = .ok () t) (r : Option Response) :
    s.enc.act = true ∧ PutEnd u s { t with response := r } := by
  cases hact : s.enc.act with
  | false => rw [encPut, requireEncoder_raise hact, andThen_raise] at hend; cases hend
  | true =>
    refine ⟨rfl, ?_⟩
    rw [encPut_eq hact] at hend
    split at hend
    next hk =>
      by_cases hroom : s.roomFor (pagesNeeded 64 s.writer.rsvd)
      · obtain ⟨v, happended, hput⟩ := putDirect_ok (u := u.toNat) h he u.isLt hroom
        rw [hend] at hput
        cases hput
        exact .direct hk (happended.emits hroom (reserve64_fits h (le_refl 64)) _ r) rfl
      · rw [putDirect_full h hp _ hroom] at hend; cases hend
    next hk =>
      split at hend
      next hu =>
        have hu' : u = 0 := valueOperand_eq_zero.mp hu
        by_cases hfull : s.enc.rl + 1 = 2 ^ width s.enc.k
        · by_cases hroom : s.roomFor (pagesNeeded (1 + width s.enc.k) s.writer.rsvd)
          · obtain ⟨v, happended, hput⟩ := putRunZero_full h he hfull hroom
            rw [hend] at hput
            cases hput
            exact .window hk hu' hfull (happended.emits hroom (reserve64_fits h (flagAndRun_le he)) _ r) rfl
          · rw [putRunZero_storeFull h hp he hfull hroom] at hend; cases hend
        · rw [putRunZero_counts hfull] at hend
          cases hend
          have hrl := he.rl_lt
          exact .counted hk hu' (by omega) rfl
      next hu =>
        by_cases hroom : s.roomFor (termPages (width s.enc.k) s.writer.rsvd)
        · obtain ⟨v, happended, hput⟩ := putRunNonzero_ok (u := u.toNat) h he u.isLt hroom
          rw [hend] at hput
          cases hput
          exact .symbol hk (mt valueOperand_eq_zero.mpr hu)
            (happended.emits hroom (termPages_fits h (width_le he.k_le)) _ r) rfl
        · rw [putRunNonzero_full h hp he _ hroom] at hend; cases hend

/-! ## `ENC.FLUSH` -/

/-- The bits of the trailing run, where there is one (45_rlgr_encoder.md R237). -/
def trailingBits (e : Encoder) : List Bool := if e.rl = 0 then [] else true :: bitsOf (width e.k) e.rl

/-- The pages their reserve acquires. -/
def trailingPages (e : Encoder) (rsvd : Nat) : Nat := if e.rl = 0 then 0 else pagesNeeded (1 + width e.k) rsvd

/-- The trailing run, if there is one, is put behind its reserve. -/
theorem flushRun_of_ok (hend : flushRun s = .ok () t) :
    Emits s t (trailingPages s.enc s.writer.rsvd) (trailingBits s.enc) ∧ t.enc = { s.enc with rl := 0 } := by
  unfold trailingBits trailingPages
  split
  next hrl =>
    rw [flushRun_none hrl] at hend
    cases hend
    exact ⟨emits_nothing h hp s.enc s.response, by rw [← hrl]⟩
  next hrl =>
    have hpos := Nat.pos_of_ne_zero hrl
    by_cases hroom : s.roomFor (pagesNeeded (1 + width s.enc.k) s.writer.rsvd)
    · obtain ⟨v, happended, hrun⟩ := flushRun_ok h he hpos hroom
      rw [hend] at hrun
      cases hrun
      exact ⟨happended.emits hroom (reserve64_fits h (flagAndRun_le he)) _ _, rfl⟩
    · rw [flushRun_full h hp he hpos hroom] at hend; cases hend

end Encoder

theorem Emits.canWrite {s t : State} {n : Nat} {bits : List Bool} (hemits : Emits s t n bits) (h : s.CanWrite) :
    t.CanWrite := by
  have hreserved : (s.withReserved n).CanWrite :=
    ⟨h.cap, withReserved_writer_inv h hemits.fits, h.wf, memBelow_withReserved h.below n⟩
  have ht := hemits.appended.canWrite hreserved
  exact ⟨ht.cap, ht.writer, ht.wf, ht.below⟩

/-- A flush that does not fault has put the trailing run and then committed the last word. -/
theorem encFlush_of_ok {s t : State} (h : s.CanWrite) (hp : s.psWcur ≤ s.params.pageLimit) (he : s.enc.Inv)
    (hend : encFlush s = .ok () t) : ∃ r, Emits s r (trailingPages s.enc s.writer.rsvd) (trailingBits s.enc) ∧
      Flushed { r with enc := t.enc } t ∧ t.enc = { s.enc with rl := 0, act := false } := by
  cases hact : s.enc.act with
  | false => rw [encFlush, requireEncoder_raise hact, andThen_raise] at hend; cases hend
  | true =>
    rw [encFlush, requireEncoder_ok hact, andThen_ok] at hend
    obtain ⟨_, r, hrun, hbehind⟩ := andThen_eq_ok.mp hend
    obtain ⟨hemits, henc⟩ := flushRun_of_ok h hp he hrun
    obtain ⟨_, v, hflush, hlast⟩ := andThen_eq_ok.mp hbehind
    have hflushed := wFlush_of_ok (hemits.canWrite h) hflush
    cases hlast
    exact ⟨r, hemits, hflushed.setEncoder _, by rw [hflushed.enc, henc]⟩

end Sys2Proof.Machine

/-! PROOF. The normal ends of the decoder side (41_reservation_window.md R153; 43_bit_reader.md R195;
46_rlgr_decoder.md R262): a procedure that does not fault has read on in the stream, and leaves the decoder within
its ranges. -/

namespace Sys2Proof.Machine

/-! ## Reading on -/

/-- `t` is `s` after the reader has read on, in pages that are there; the decoder's registers are within their
ranges, the response is not looked at. -/
structure ReadsOn (s t : State) (n : Nat) (rest : List Bool) : Prop where
  room : s.psRcur + n ≤ s.psWcur
  on : ReadOn s { t with dec := s.dec, response := s.response } n rest
  dec : t.dec.Inv

/-- The decoder registers and the response after the reader's part. -/
theorem ReadOn.readsOn {s u : State} {n : Nat} {rest : List Bool} (hroom : s.psRcur + n ≤ s.psWcur)
    (h : ReadOn s u n rest) {d : Decoder} (hd : d.Inv) (r : Option Response) :
    ReadsOn s { u with dec := d, response := r } n rest where
  room := hroom
  on := by
    have hu : ({ u with dec := s.dec, response := s.response } : State) = u := by rw [h.others]
    rw [hu]
    exact h
  dec := hd

theorem ReadOn.refl {s : State} (h : s.CanRead) : ReadOn s s 0 (streamAhead s) := ⟨rfl, h.reader, rfl⟩

/-! ## The decoder's registers -/

theorem Decoder.atBoundary_iff {d : Decoder} : d.atBoundary = true ↔ d.rl = 0 ∧ d.pend = false := by
  simp [Decoder.atBoundary]

/-- A zero that is returned was held and expected. -/
theorem Decoder.Inv.afterZero {d : Decoder} (h : d.Inv) (hrl : 0 < d.rl) :
    Decoder.Inv { d with rl := d.rl - 1, rem := d.rem - 1 } where
  k_le := h.k_le
  kr_le := h.kr_le
  rl_lt := (Nat.sub_le _ _).trans_lt h.rl_lt
  pv_iff := h.pv_iff
  held_le := by
    have hheld := h.held_le
    simp only
    omega
  rem_lt := (Nat.sub_le _ _).trans_lt h.rem_lt

/-- A symbol that is returned was the last one held. -/
theorem Decoder.Inv.afterPending {d : Decoder} (h : d.Inv) (hrl : d.rl = 0) :
    Decoder.Inv { d with pend := false, pv := 0, rem := d.rem - 1 } where
  k_le := h.k_le
  kr_le := h.kr_le
  rl_lt := h.rl_lt
  pv_iff := ⟨fun _ => rfl, fun _ => rfl⟩
  held_le := by simp [hrl]
  rem_lt := (Nat.sub_le _ _).trans_lt h.rem_lt

theorem two_pow_width_le {k : Nat} (hk : k ≤ 240) : 2 ^ (k / 8) ≤ 2 ^ 30 :=
  Nat.pow_le_pow_right Nat.two_pos (by omega)

/-- A code that fits leaves at most what is then expected to be returned (10_state.md R43, R45). -/
theorem codeResult_inv (p : Params) {d : Decoder} {i : Instr} (h : d.Inv) (hboundary : d.atBoundary = true)
    (hrem : 0 < d.rem) (hi : i.wellFormed = true) (hfits : codeFits d i = true) :
    (codeResult p d i).2.Inv := by
  obtain ⟨hrl, hpend⟩ := Decoder.atBoundary_iff.mp hboundary
  have hk := h.k_le
  have hremlt : d.rem - 1 < 2 ^ 32 := (Nat.sub_le _ _).trans_lt h.rem_lt
  cases i with
  | cwRunfull =>
    simp only [codeFits, decide_eq_true_eq] at hfits
    have hwindow := two_pow_width_le hk
    have hpos := Nat.two_pow_pos (d.k / 8)
    refine ⟨Nat.min_le_left _ _, h.kr_le, ?_, h.pv_iff, ?_, hremlt⟩
    · simp only [codeResult]; omega
    · simp only [codeResult, hpend, Bool.toNat_false]; omega
  | cwRunend rl =>
    simp only [codeFits, Instr.wellFormed, Bool.and_eq_true, decide_eq_true_eq] at hfits hi
    refine ⟨hk, h.kr_le, (Nat.sub_le _ _).trans_lt hi.2, h.pv_iff, ?_, hremlt⟩
    simp only [codeResult, hpend, Bool.toNat_false]; omega
  | cwRunterm rl u =>
    simp only [codeFits, Instr.wellFormed, Bool.and_eq_true, decide_eq_true_eq] at hfits hi
    obtain ⟨hlt, hu⟩ := hi
    have hkr := adaptKr_le p u.toNat h.kr_le
    by_cases hzero : rl = 0
    · simp only [codeResult, if_pos hzero]
      exact ⟨(Nat.sub_le _ _).trans hk, hkr, h.rl_lt, h.pv_iff, by simp [hrl, hpend], hremlt⟩
    · have hpos : rl.toNat ≠ 0 := mt valueOperand_eq_zero.mp hzero
      simp only [codeResult, if_neg hzero]
      refine ⟨(Nat.sub_le _ _).trans hk, hkr, (Nat.sub_le _ _).trans_lt hlt, by simpa using hu, ?_, hremlt⟩
      simp only [Bool.toNat_true]; omega
  | cwDirect u =>
    refine ⟨?_, adaptKr_le p u.toNat h.kr_le, h.rl_lt, h.pv_iff, by simp [codeResult, hrl, hpend], hremlt⟩
    simp only [codeResult]
    split <;> omega
  | _ => exact h

/-! ## A code that has been read -/

/-- The procedure ends at a code that fits, with the reader behind its bits, if it ends normally. -/
def Res.EndsAtCode (s : State) (r : Res Nat) : Prop := ∀ v t, r = .ok v t → ∃ i u n rest,
  s.psRcur + n ≤ s.psWcur ∧ ReadOn s u n rest ∧ i.wellFormed = true ∧ codeFits s.dec i = true ∧
    Res.ok v t = delivered i u

theorem endsAtCode_of_raise {s : State} {r : Res Nat} {f : FaultName} {info : Nat} (h : r = .raise f info) :
    r.EndsAtCode s := by
  subst h
  rintro _ _ ⟨⟩

theorem endsAtCode_of_delivered {s u : State} {r : Res Nat} {i : Instr} {n : Nat} {rest : List Bool}
    (h : r = delivered i u) (hroom : s.psRcur + n ≤ s.psWcur) (hon : ReadOn s u n rest)
    (hi : i.wellFormed = true) (hfits : codeFits s.dec i = true) : r.EndsAtCode s :=
  fun _ _ hend => ⟨i, u, n, rest, hroom, hon, hi, hfits, hend ▸ h⟩

/-- What is read before the code is read with it. -/
theorem Res.EndsAtCode.after {s a : State} {r : Res Nat} {n : Nat} {rest : List Bool} (hon : ReadOn s a n rest)
    (h : r.EndsAtCode a) : r.EndsAtCode s := by
  intro v t hend
  obtain ⟨i, u, n', rest', hroom, hon', hi, hfits, hdelivered⟩ := h v t hend
  rw [hon.psRcur, hon.psWcur] at hroom
  exact ⟨i, u, n + n', rest', by omega, hon.trans hon', hi, hon.dec ▸ hfits, hdelivered⟩

section Decoder

variable {s : State} (h : s.CanRead) (hd : s.dec.Inv)
include h hd

theorem getDirect_endsAtCode : (getDirect s).EndsAtCode s := by
  by_cases hroom : s.psRcur + pagesNeeded 64 s.reader.rsvd ≤ s.psWcur
  · obtain ⟨u, esc, rest, t, hgr, hon, hget⟩ := getDirect_ok h hd hroom
    have hdone : getDirect s = directDone u t := by rw [hget, directDone, hon.dec, hon.params]
    rw [directDone_delivers (hon.dec ▸ hd.k_le) (decodeGr_lt hgr)] at hdone
    exact endsAtCode_of_delivered hdone hroom hon rfl rfl
  · exact endsAtCode_of_raise
      (by rw [getDirect, rReserve64_pastWrite h (le_refl 64) (not_le.mp hroom), andThen_raise])

/-- Behind a run of at most a window: too long, the last, or followed by its symbol (46_rlgr_decoder.md R262,
R266, R267). -/
theorem getTerminator_endsAtCode {r : Nat} (hr : r < 2 ^ 30) (hrem : 0 < s.dec.rem) :
    (getTerminator r s).EndsAtCode s := by
  have htoNat : (BitVec.ofNat 32 r).toNat = r := Nat.mod_eq_of_lt (by omega)
  rcases Nat.lt_trichotomy r s.dec.rem with hshort | rfl | hlong
  · by_cases hroom : s.psRcur + pagesNeeded 64 s.reader.rsvd ≤ s.psWcur
    · obtain ⟨x, _, _, -, hgr, -⟩ := getDirect_ok h hd hroom
      obtain ⟨t, hon, hget⟩ := getTerminator_reads h hd hshort hgr hroom
      by_cases hx : x = 0xFFFFFFFF
      · exact endsAtCode_of_raise (hget.trans (if_pos hx))
      · have hlt := decodeGr_lt hgr
        have hu : BitVec.ofNat 32 (x + 1) ≠ 0 := by
          rw [ne_eq, ← valueOperand_eq_zero, valueOperand, BitVec.toNat_ofNat, Nat.mod_eq_of_lt (by omega)]
          exact Nat.succ_ne_zero x
        rw [runTermDone_delivers (hon.dec ▸ hd.k_le) (by omega) hlt hx] at hget
        refine endsAtCode_of_delivered hget hroom hon ?_ ?_
        · simp only [Instr.wellFormed, htoNat, Bool.and_eq_true, decide_eq_true_eq]
          exact ⟨hr, hu⟩
        · simp only [codeFits, htoNat, decide_eq_true_eq]
          exact hshort
    · exact endsAtCode_of_raise (getTerminator_pastWrite h hshort (not_le.mp hroom))
  · refine endsAtCode_of_delivered ((getTerminator_last s).trans (runEndDone_delivers hd.rem_lt)) h.rcur
      (.refl h) ?_ ?_
    · simp only [Instr.wellFormed, htoNat, Bool.and_eq_true, decide_eq_true_eq]
      exact ⟨hrem, hr⟩
    · simp only [codeFits, htoNat, decide_eq_true_eq]
  · exact endsAtCode_of_raise (getTerminator_desync hlong)

theorem getRun_endsAtCode (hrem : 0 < s.dec.rem) : (getRun s).EndsAtCode s := by
  have hw := width_le hd.k_le
  by_cases hroom : s.psRcur + pagesNeeded (1 + width s.dec.k) s.reader.rsvd ≤ s.psWcur
  · have hlen := le_length_streamAhead h (by omega) hroom
    match hahead : streamAhead s with
    | [] => simp [hahead] at hlen
    | false :: rest =>
      obtain ⟨t, hon, hget⟩ := getRun_full h hd hahead hroom
      rcases Nat.lt_or_ge s.dec.rem (2 ^ width s.dec.k) with hlong | hfits
      · exact endsAtCode_of_raise (hget.trans (runFullDone_desync (hon.dec.symm ▸ hlong)))
      · refine endsAtCode_of_delivered (hget.trans (runFullDone_delivers (hon.dec.symm ▸ hfits))) hroom hon rfl ?_
        rw [width_eq] at hfits
        exact decide_eq_true hfits
    | true :: rest =>
      obtain ⟨t, hon, -, ht, hget⟩ := getRun_term h hd hahead hroom
      have hrun : natOfBits (rest.take (width s.dec.k)) < 2 ^ 30 :=
        (natOfBits_lt _).trans_le (Nat.pow_le_pow_right Nat.two_pos ((List.length_take_le _ _).trans hw))
      rw [hget]
      exact (getTerminator_endsAtCode ht (hon.dec ▸ hd) hrun (hon.dec.symm ▸ hrem)).after hon
  · exact endsAtCode_of_raise
      (by rw [getRun, rReserve64_pastWrite h (by omega) (not_le.mp hroom), andThen_raise])

/-- `DEC.GET` returns what is held, or reads on to the end of a code. -/
theorem decGet_of_ok {t : State} {v : Nat} (hend : decGet s = .ok v t) (r : Option Response) :
    ∃ n rest, ReadsOn s { t with response := r } n rest := by
  by_cases hready : s.dec.act = true ∧ 0 < s.dec.rem
  · obtain ⟨hact, hrem⟩ := hready
    rw [decGet_eq hact hrem] at hend
    split at hend
    next hrl =>
      cases hend
      exact ⟨_, _, (ReadOn.refl h).readsOn h.rcur (hd.afterZero hrl) r⟩
    next hrl =>
      have hzero := Nat.eq_zero_of_not_pos hrl
      split at hend
      next =>
        cases hend
        exact ⟨_, _, (ReadOn.refl h).readsOn h.rcur (hd.afterPending hzero) r⟩
      next hpend =>
        have hboundary := Decoder.atBoundary_iff.mpr ⟨hzero, Bool.eq_false_of_not_eq_true hpend⟩
        have hcode : Res.EndsAtCode s (if s.dec.k = 0 then getDirect s else getRun s) := by
          split
          · exact getDirect_endsAtCode h hd
          · exact getRun_endsAtCode h hd hrem
        obtain ⟨i, u, n, rest, hroom, hon, hi, hfits, hdelivered⟩ := hcode v t hend
        have hinv := codeResult_inv s.params hd hboundary hrem hi hfits
        rw [← hon.params, ← hon.dec] at hinv
        cases hdelivered
        exact ⟨n, rest, hon.readsOn hroom hinv r⟩
  · rw [decGet, requireDecoder, if_neg hready, andThen_raise] at hend; cases hend

end Decoder

/-! ## The Bit Reader's procedures -/

section Reader

variable {s t : State} (h : s.CanRead) (hd : s.dec.Inv)
include h hd

theorem rReserve_readsOn {n : Nat} (hend : rReserve n s = .ok () t) (r : Option Response) :
    ∃ k rest, ReadsOn s { t with response := r } k rest := by
  obtain ⟨hon, ht⟩ := rReserve_of_ok h hend
  have hroom := ht.rcur
  rw [hon.psRcur, hon.psWcur] at hroom
  exact ⟨_, _, hon.dec ▸ hon.readsOn hroom hd r⟩

theorem rSkip_readsOn {n : Nat} (hend : rSkip n s = .ok () t) (r : Option Response) :
    ∃ k rest, ReadsOn s { t with response := r } k rest := by
  obtain ⟨hon, -⟩ := rSkip_of_ok h hend
  exact ⟨_, _, hon.dec ▸ hon.readsOn h.rcur hd r⟩

theorem grRead_readsOn {m v : Nat} (hend : grRead m s = .ok v t) (r : Option Response) :
    ∃ k rest, ReadsOn s { t with response := r } k rest := by
  rcases Nat.lt_or_ge 31 m with hm | hm
  · rw [grRead_badOperand hm] at hend; cases hend
  rcases Nat.lt_or_ge s.reader.rsvd 32 with hr | hr
  · rw [grRead_unreserved hm hr] at hend; cases hend
  obtain ⟨hcode, hmissing⟩ := grRead_cases h.reader h.rcur hm hr
  cases hdec : decodeGr m (reservedBits s) with
  | error e => rw [hmissing e hdec] at hend; cases hend
  | ok c =>
    obtain ⟨x, esc, rest⟩ := c
    obtain ⟨u, hread, hconsumed, -⟩ := hcode x esc rest hdec
    rw [hend] at hread
    cases hread
    have hon := hconsumed.readOn (Nat.sub_le _ _)
    exact ⟨_, _, hon.dec ▸ hon.readsOn h.rcur hd r⟩

end Reader

end Sys2Proof.Machine

/-! PROOF. What an instruction can do to a good state without a fault, once for all instructions, and from it that
every step keeps the invariant and that a byte of the store is written at most once (10_state.md section 5;
20_memory.md R66, R68; 40_page_storage.md R130). -/

namespace Sys2Proof.Machine

/-! ## The effects of an instruction -/

/-- The ways in which an instruction that does not fault changes a good state `s`; the response is not looked
at. -/
inductive Effect (i : Instr) (s t : State) : Prop
  /-- The decoder side reads on, or does nothing. -/
  | reads {n : Nat} {rest : List Bool} (h : ReadsOn s t n rest)
  /-- A page is appended. -/
  | acquires (hroom : s.roomFor 1) (ht : t = { s with psWcur := s.psWcur + 1, response := t.response })
  /-- A page is stored by the host. -/
  | sets {h : Half} {v : Page} (hi : i = .psSet h v) (hlt : h.toNat < s.psWcur)
      (ht : t = { s with mem := pageWrite s.mem h.toNat v, response := t.response })
  /-- The writer reserves pages and appends bits; what does not commit leaves the store. -/
  | writes {n : Nat} {bits : List Bool} (hemits : Emits s t n bits) (henc : t.enc.Inv)
      (hcommits : commitsPages i = true ∨ t.mem = s.mem)
  /-- The writer does so and then commits the last word. -/
  | flushes {r : State} {n : Nat} {bits : List Bool} (hemits : Emits s r n bits)
      (hflushed : Flushed { r with enc := t.enc, response := t.response } t) (henc : t.enc.Inv)
      (hcommits : commitsPages i = true)
  /-- A new stream is begun. -/
  | startsEncoder
      (ht : t = { s with writer := freshWriter, enc := freshEncoder s.params, response := t.response })

section Ends

variable {s t : State} (hs : s.fault = 0) (ht : t.fault = 0)
include hs ht

/-- A command that does not fault is the normal end of its procedure. -/
theorem command_of_next {p : State → Res (BitVec 64)} (h : runCommand p s = .next t) :
    ∃ u v, p s = .ok v u ∧ t = u.answer v := by
  rcases runCommand_next h with ⟨hfaulted, -⟩ | ⟨-, v, u, hp, rfl⟩ | ⟨-, f, info, -, rfl⟩
  · exact absurd hs hfaulted
  · exact ⟨u, v, hp, rfl⟩
  · exact absurd ht (faultCode_ne_zero f)

theorem procedure_of_next {p : State → Res Unit} (h : runCommand (noResult p) s = .next t) :
    ∃ u, p s = .ok () u ∧ t = u.answer 0 := by
  obtain ⟨u, v, hp, rfl⟩ := command_of_next hs ht h
  obtain ⟨hu, rfl⟩ := noResult_eq_ok.mp hp
  exact ⟨u, hu, rfl⟩

theorem number_of_next {p : State → Res Nat} (h : runCommand (numResult p) s = .next t) :
    ∃ u n, p s = .ok n u ∧ t = u.answer (BitVec.ofNat 64 n) := by
  obtain ⟨u, v, hp, rfl⟩ := command_of_next hs ht h
  obtain ⟨n, hn, rfl⟩ := numResult_eq_ok.mp hp
  exact ⟨u, n, hn, rfl⟩

end Ends

/-! ## The ends of the encoder's commands -/

theorem freshEncoder_inv {p : Params} (hp : p.legal = true) : (freshEncoder p).Inv := by
  simp only [Params.legal, Bool.and_eq_true, decide_eq_true_eq] at hp
  obtain ⟨⟨-, hk⟩, hkr⟩ := hp
  exact ⟨hk, hkr, Nat.two_pow_pos _⟩

theorem freshDecoder_inv {p : Params} (hp : p.legal = true) {n : Nat} (hn : n < 2 ^ 32) :
    (freshDecoder p n).Inv := by
  simp only [Params.legal, Bool.and_eq_true, decide_eq_true_eq] at hp
  obtain ⟨⟨-, hk⟩, hkr⟩ := hp
  exact ⟨hk, hkr, Nat.two_pow_pos _, ⟨fun _ => rfl, fun _ => rfl⟩, Nat.zero_le n, hn⟩

/-- The encoder's ranges after each row of R230 (45_rlgr_encoder.md R238). -/
theorem PutEnd.enc_inv {u : Half} {s t : State} (h : PutEnd u s t) (he : s.enc.Inv) : t.enc.Inv := by
  cases h with
  | direct hk _ henc =>
    rw [henc]
    have hrl := he.rl_lt
    rw [hk] at hrl
    have hzero : s.enc.rl = 0 := by rw [width_eq] at hrl; omega
    refine ⟨?_, adaptKr_le _ _ he.kr_le, by rw [hzero]; exact Nat.two_pow_pos _⟩
    simp only [adaptKDirect]
    split <;> exact clamp240_le _
  | counted hk hu hrl ht =>
    rw [ht]
    exact ⟨he.k_le, he.kr_le, hrl⟩
  | window hk hu hrl _ henc =>
    rw [henc]
    exact ⟨clamp240_le _, he.kr_le, Nat.two_pow_pos _⟩
  | symbol hk hu _ henc =>
    rw [henc]
    exact ⟨clamp240_le _, adaptKr_le _ _ he.kr_le, Nat.two_pow_pos _⟩

section Encoder

variable {s t : State} (hs : s.Ready) (ht : t.fault = 0)
include hs ht

theorem encPut_end {u : Half} (h : exec (.encPut u) s = .next t) : s.enc.act = true ∧ PutEnd u s t := by
  obtain ⟨hpages, -, -, he, -⟩ := hs.inv.live hs.no_fault
  obtain ⟨v, hput, rfl⟩ := procedure_of_next hs.no_fault ht h
  exact encPut_of_ok hs.canWrite hpages.wcur_le he hput _

theorem encFlush_end (h : exec .encFlush s = .next t) :
    ∃ r, Emits s r (trailingPages s.enc s.writer.rsvd) (trailingBits s.enc) ∧
      Flushed { r with enc := t.enc, response := t.response } t ∧ t.enc = { s.enc with rl := 0, act := false } := by
  obtain ⟨hpages, -, -, he, -⟩ := hs.inv.live hs.no_fault
  obtain ⟨v, hflush, rfl⟩ := procedure_of_next hs.no_fault ht h
  obtain ⟨r, hemits, hflushed, henc⟩ := encFlush_of_ok hs.canWrite hpages.wcur_le he hflush
  exact ⟨r, hemits, hflushed.setPort v.enc _, henc⟩

end Encoder

theorem PutEnd.effect {u : Half} {s t : State} (hs : s.Ready) (h : PutEnd u s t) : Effect (.encPut u) s t := by
  obtain ⟨hpages, -, -, he, -⟩ := hs.inv.live hs.no_fault
  have henc := h.enc_inv he
  cases h with
  | direct _ hemits _ => exact .writes hemits henc (.inl rfl)
  | counted _ _ _ ht =>
    rw [ht] at henc ⊢
    exact .writes (emits_nothing hs.canWrite hpages.wcur_le _ _) henc (.inl rfl)
  | window _ _ _ hemits _ => exact .writes hemits henc (.inl rfl)
  | symbol _ _ hemits _ => exact .writes hemits henc (.inl rfl)

/-! ## Every instruction -/

/-- A peek leaves the state as it is. -/
theorem rPeek_of_ok {s t : State} {n v : Nat} (h : rPeek n s = .ok v t) : t = s := by
  obtain ⟨_, a, hcount, hbehind⟩ := andThen_eq_ok.mp h
  obtain ⟨_, b, hreadable, hend⟩ := andThen_eq_ok.mp hbehind
  cases hend
  unfold requireReadable at hreadable
  split at hreadable <;> cases hreadable
  exact (requirePeekCount_eq_ok.mp hcount).2

theorem csrProc_of_ok {s t : State} {idx : Nat} {v : BitVec 64} (h : csrProc idx s = .ok v t) : t = s := by
  unfold csrProc at h
  split at h <;> cases h
  rfl

section Effects

variable {i : Instr} {s t : State} (hs : s.Ready)
include hs

theorem effect_of_unchanged (h : t = { s with response := t.response }) : Effect i s t := by
  rw [h]
  exact .reads ((ReadOn.refl hs.canRead).readsOn hs.canRead.rcur (hs.inv.live hs.no_fault).dec _)

theorem effect_of_appended {u : State} {bits : List Bool} (h : Appended s u bits) (v : BitVec 64)
    (hcommits : commitsPages i = true ∨ u.mem = s.mem) : Effect i s (u.answer v) := by
  obtain ⟨hpages, hwriter, -, he, -⟩ := hs.inv.live hs.no_fault
  have henc : u.enc = s.enc := by rw [h.others]
  exact .writes (Appended.emits (n := 0) (show s.roomFor 0 from hpages.wcur_le) hwriter.win_le
    (by rwa [withReserved_zero]) u.enc _) (henc ▸ he) hcommits

theorem effect_of_peek {n : Nat} (ht : t.fault = 0) (h : runCommand (numResult (rPeek n)) s = .next t) :
    Effect i s t := by
  obtain ⟨u, v, hpeek, rfl⟩ := number_of_next hs.no_fault ht h
  obtain rfl := rPeek_of_ok hpeek
  exact effect_of_unchanged hs rfl

theorem effect_of_csrRd {idx : Half} (ht : t.fault = 0) (h : execCsrRd idx s = .next t) : Effect i s t := by
  have hrun : runCommand (csrProc (auxOperand idx)) s = .next t := by
    unfold execCsrRd at h
    split at h
    · exact (runCommand_live hs.no_fault).trans h
    · exact h
  obtain ⟨u, v, hread, rfl⟩ := command_of_next hs.no_fault ht hrun
  obtain rfl := csrProc_of_ok hread
  exact effect_of_unchanged hs rfl

/-- Every command, case by case. -/
theorem command_effect (hi : i.isCommand = true) (ht : t.fault = 0) (h : exec i s = .next t) : Effect i s t := by
  have hw := hs.canWrite
  have hr := hs.canRead
  have hf := hs.no_fault
  obtain ⟨hpages, -, -, he, hd⟩ := hs.inv.live hf
  cases i with
  | psAcq =>
    obtain ⟨u, v, hend, rfl⟩ := number_of_next hf ht h
    have hroom := (psAcquire_eq_ok.mp hend).1
    rw [psAcquire_ok hs.inv.mem_wf hpages.mem_below hroom] at hend
    cases hend
    exact .acquires hroom rfl
  | psNext =>
    obtain ⟨u, v, hend, rfl⟩ := number_of_next hf ht h
    obtain ⟨hlt, -, rfl⟩ := psReadNext_eq_ok.mp hend
    have hreader := (hs.inv.live hf).reader
    exact .reads ⟨hlt, ⟨rfl, { hreader with win_ok := ⟨hreader.win_ok.1, fun x hx =>
      Nat.lt_succ_of_lt (hreader.win_ok.2 x hx)⟩ }, rfl⟩, hd⟩
  | psGet a =>
    obtain ⟨u, v, hend, rfl⟩ := command_of_next hf ht h
    obtain ⟨-, -, rfl⟩ := pageGet_eq_ok.mp hend
    exact effect_of_unchanged hs rfl
  | psSet a v =>
    obtain ⟨u, hend, rfl⟩ := procedure_of_next hf ht h
    obtain ⟨hlt, rfl⟩ := pageSet_eq_ok.mp hend
    exact .sets rfl hlt rfl
  | psLen | wAvail | rAvail =>
    obtain ⟨u, v, hend, rfl⟩ := number_of_next hf ht h
    cases hend
    exact effect_of_unchanged hs rfl
  | wRsv n =>
    obtain ⟨u, hend, rfl⟩ := procedure_of_next hf ht h
    obtain ⟨rfl, hroom, hfits⟩ := wReserve_of_ok hw hpages.wcur_le hend
    exact .writes (Appended.emits hroom hfits (Appended.nil (withReserved_writer_inv hw hfits) hw.wf) s.enc _)
      he (.inr rfl)
  | wPut n v =>
    obtain ⟨u, hend, rfl⟩ := procedure_of_next hf ht h
    exact effect_of_appended hs (wPut_of_ok hw hend) 0 (.inl rfl)
  | wAlign =>
    obtain ⟨u, hend, rfl⟩ := procedure_of_next hf ht h
    cases hend
    exact effect_of_appended hs (alignWriter_appended hw.writer hw.wf) 0 (.inr rfl)
  | wFlush =>
    obtain ⟨u, hend, rfl⟩ := procedure_of_next hf ht h
    have hflushed := wFlush_of_ok hw hend
    exact .flushes (emits_nothing hw hpages.wcur_le s.enc s.response)
      (hflushed.enc ▸ hflushed.setPort s.enc _) (hflushed.enc ▸ he) rfl
  | rRsv n =>
    obtain ⟨u, hend, rfl⟩ := procedure_of_next hf ht h
    obtain ⟨_, _, hreads⟩ := rReserve_readsOn hr hd hend (okWith 0)
    exact .reads hreads
  | rPeek32 => exact effect_of_peek hs ht h
  | rPeek n => exact effect_of_peek hs ht h
  | rSkip n =>
    obtain ⟨u, hend, rfl⟩ := procedure_of_next hf ht h
    obtain ⟨_, _, hreads⟩ := rSkip_readsOn hr hd hend (okWith 0)
    exact .reads hreads
  | grWr m x =>
    obtain ⟨u, hend, rfl⟩ := procedure_of_next hf ht h
    exact effect_of_appended hs (grWrite_of_ok hw x.isLt hend) 0 (.inl rfl)
  | grRd m =>
    obtain ⟨u, v, hend, rfl⟩ := number_of_next hf ht h
    obtain ⟨_, _, hreads⟩ := grRead_readsOn hr hd hend (okWith (BitVec.ofNat 64 v))
    exact .reads hreads
  | zzEnc v | zzDec v =>
    obtain ⟨u, v, hend, rfl⟩ := command_of_next hf ht h
    cases hend
    exact effect_of_unchanged hs rfl
  | encNew =>
    obtain ⟨u, hend, rfl⟩ := procedure_of_next hf ht h
    cases hend
    exact .startsEncoder rfl
  | encPut u => exact (encPut_end hs ht h).2.effect hs
  | encFlush =>
    obtain ⟨r, hemits, hflushed, henc⟩ := encFlush_end hs ht h
    exact .flushes hemits hflushed (henc ▸ ⟨he.k_le, he.kr_le, Nat.two_pow_pos _⟩) rfl
  | decNew n =>
    obtain ⟨u, hend, rfl⟩ := procedure_of_next hf ht h
    cases hend
    exact .reads (n := 0) ⟨hr.rcur, ⟨rfl, freshReader_inv _ _, rfl⟩,
      freshDecoder_inv hs.inv.params_legal n.isLt⟩
  | decGet =>
    obtain ⟨u, v, hend, rfl⟩ := number_of_next hf ht h
    obtain ⟨_, _, hreads⟩ := decGet_of_ok hr hd hend (okWith (BitVec.ofNat 64 v))
    exact .reads hreads
  | csrRd idx => exact effect_of_csrRd hs ht h
  | cwGr _ _ | cwEsc _ | cwRunfull | cwRunterm _ _ | cwRunend _ | cwDirect _ => cases hi

end Effects

/-! ## What the writer leaves -/

section Emits

variable {s t : State} {n : Nat} {bits : List Bool} (h : Emits s t n bits)
include h

theorem Emits.params : t.params = s.params := (congrArg State.params h.appended.others :)

theorem Emits.psWcur : t.psWcur = s.psWcur + n := (congrArg State.psWcur h.appended.others :)

theorem Emits.psRcur : t.psRcur = s.psRcur := (congrArg State.psRcur h.appended.others :)

theorem Emits.reader : t.reader = s.reader := (congrArg State.reader h.appended.others :)

theorem Emits.dec : t.dec = s.dec := (congrArg State.dec h.appended.others :)

theorem Emits.rsvd : t.writer.rsvd + bits.length = s.writer.rsvd + 64 * n := h.appended.rsvd

/-- The window holds pages it held before, and new ones (41_reservation_window.md R152, R154). -/
theorem Emits.mem_win {x : Nat} (hx : x ∈ t.writer.win) :
    x ∈ s.writer.win ∨ (s.psWcur ≤ x ∧ x < t.psWcur) := by
  have hwin : t.writer.win = (s.withReserved n).writer.win.drop _ := h.appended.win
  rw [hwin] at hx
  have hold : x ∈ s.writer.win ++ List.range' s.psWcur n := List.mem_of_mem_drop hx
  rwa [List.mem_append, List.mem_range'_1, ← h.psWcur] at hold

/-- A byte that reads differently is in a page that was reserved and has left the window (20_memory.md R68). -/
theorem Emits.written (hw : s.CanWrite) {a : Nat} (ha : memRead t.mem a ≠ memRead s.mem a) :
    a / 8 ∉ t.writer.win ∧ (a / 8 ∈ s.writer.win ∨ (s.psWcur ≤ a / 8 ∧ a / 8 < t.psWcur)) := by
  have hnodup : (s.withReserved n).writer.win.Nodup :=
    (withReserved_writer_inv hw h.fits).win_ok.1.imp Nat.ne_of_lt
  have htaken := not_imp_comm.mp (h.appended.frame a) ha
  have hwin : t.writer.win = (s.withReserved n).writer.win.drop _ := h.appended.win
  refine ⟨fun hleft => ?_, ?_⟩
  · rw [hwin] at hleft
    exact List.disjoint_take_drop hnodup (le_refl _) htaken hleft
  · have hold : a / 8 ∈ s.writer.win ++ List.range' s.psWcur n := List.mem_of_mem_take htaken
    rwa [List.mem_append, List.mem_range'_1, ← h.psWcur] at hold

end Emits

section Flushed

variable {s t : State} (h : Flushed s t)
include h

/-- What a flush changes: bytes of the store, and the writer. -/
theorem Flushed.others : t = { s with mem := t.mem, writer := t.writer } := by
  unfold Flushed at h
  split at h
  · rw [h]
  · rw [h.others]

theorem Flushed.params : t.params = s.params := (congrArg State.params h.others :)

theorem Flushed.psWcur : t.psWcur = s.psWcur := (congrArg State.psWcur h.others :)

theorem Flushed.psRcur : t.psRcur = s.psRcur := (congrArg State.psRcur h.others :)

theorem Flushed.reader : t.reader = s.reader := (congrArg State.reader h.others :)

theorem Flushed.dec : t.dec = s.dec := (congrArg State.dec h.others :)

theorem Flushed.mem_wf (hwf : s.mem.wf = true) : t.mem.wf = true := by
  unfold Flushed at h
  split at h
  · rwa [h]
  · exact h.mem_wf

/-- The window loses at most its oldest page. -/
theorem Flushed.win_suffix : t.writer.win <:+ s.writer.win := by
  unfold Flushed at h
  split at h
  · rw [h]
  · rw [h.others]
    exact List.tail_suffix _

/-- A byte that reads differently is in the oldest reserved page, which leaves the window. -/
theorem Flushed.written {cap pages : Nat} (hw : s.writer.Inv cap pages) {a : Nat}
    (ha : memRead t.mem a ≠ memRead s.mem a) : a / 8 ∈ s.writer.win ∧ a / 8 ∉ t.writer.win := by
  unfold Flushed at h
  split at h
  · rw [h] at ha
    exact absurd rfl ha
  · obtain ⟨g, rest, hwin, -, hframe⟩ := h.page
    obtain rfl := not_imp_comm.mp (hframe a) ha
    have hincreasing := hw.win_ok.1
    have hleft : t.writer.win = s.writer.win.tail := by rw [h.others]
    rw [hwin] at hincreasing hleft ⊢
    refine ⟨List.mem_cons_self, fun hmem => ?_⟩
    rw [hleft] at hmem
    exact lt_irrefl _ ((List.pairwise_cons.mp hincreasing).1 _ hmem)

theorem Flushed.canWrite (hw : s.CanWrite) : t.CanWrite := by
  have hwf := h.mem_wf hw.wf
  refine ⟨by rw [h.params]; exact hw.cap, by rw [h.params]; exact h.inv hw.writer, hwf, ?_⟩
  rw [h.psWcur]
  refine memBelow_of_read hwf fun a ha => ?_
  by_contra hne
  have hchanged : memRead t.mem a ≠ memRead s.mem a := by rwa [memRead_of_memBelow hw.below ha]
  have hlt := hw.writer.win_ok.2 _ (h.written hw.writer hchanged).1
  omega

end Flushed

/-! ## The invariant -/

section Effects

variable {i : Instr} {s t : State}

/-- The writer's side and the store after an instruction. -/
theorem Effect.canWrite (hs : s.Ready) (h : Effect i s t) : t.CanWrite := by
  have hw := hs.canWrite
  cases h with
  | reads h =>
    have hmem : t.mem = s.mem := (congrArg State.mem h.on.others :)
    have hwriter : t.writer = s.writer := (congrArg State.writer h.on.others :)
    have hwcur : t.psWcur = s.psWcur := (congrArg State.psWcur h.on.others :)
    have hparams : t.params = s.params := (congrArg State.params h.on.others :)
    exact ⟨by rw [hparams]; exact hw.cap, by rw [hparams, hwriter, hwcur]; exact hw.writer, by rw [hmem]; exact hw.wf,
      by rw [hmem, hwcur]; exact hw.below⟩
  | acquires hroom ht =>
    rw [ht]
    exact ⟨hw.cap, { hw.writer with win_ok := ⟨hw.writer.win_ok.1, fun x hx =>
      Nat.lt_succ_of_lt (hw.writer.win_ok.2 x hx)⟩ }, hw.wf, memBelow_mono hw.below (by simp only; omega)⟩
  | sets hi hlt ht =>
    rw [ht]
    exact ⟨hw.cap, hw.writer, pageWrite_wf hw.wf _ _, pageWrite_below hw.below hlt _⟩
  | writes hemits _ _ => exact hemits.canWrite hw
  | flushes hemits hflushed _ _ =>
    have hr := hemits.canWrite hw
    exact hflushed.canWrite ⟨hr.cap, hr.writer, hr.wf, hr.below⟩
  | startsEncoder ht =>
    rw [ht]
    exact ⟨hw.cap, freshWriter_inv _ _, hw.wf, hw.below⟩

/-- The reader's side after an instruction. -/
theorem Effect.reader_inv (hs : s.Ready) (h : Effect i s t) : t.reader.Inv t.params.winCap t.psRcur := by
  have hr := hs.canRead.reader
  cases h with
  | @reads n rest h =>
    have hrcur : t.psRcur = s.psRcur + n := (congrArg State.psRcur h.on.others :)
    have hparams : t.params = s.params := (congrArg State.params h.on.others :)
    rw [hrcur, hparams]
    exact h.on.reader
  | acquires _ ht | sets _ _ ht | startsEncoder ht => rw [ht]; exact hr
  | writes hemits _ _ => rwa [hemits.reader, hemits.params, hemits.psRcur]
  | flushes hemits hflushed _ _ =>
    rw [hflushed.reader, hflushed.params, hflushed.psRcur]
    rwa [hemits.reader, hemits.params, hemits.psRcur]

theorem Effect.enc_inv (hs : s.Ready) (h : Effect i s t) : t.enc.Inv := by
  have he := (hs.inv.live hs.no_fault).enc
  cases h with
  | reads h =>
    have henc : t.enc = s.enc := (congrArg State.enc h.on.others :)
    rwa [henc]
  | acquires _ ht | sets _ _ ht => rw [ht]; exact he
  | writes _ henc _ => exact henc
  | flushes _ _ henc _ => exact henc
  | startsEncoder ht => rw [ht]; exact freshEncoder_inv hs.inv.params_legal

theorem Effect.dec_inv (hs : s.Ready) (h : Effect i s t) : t.dec.Inv := by
  have hd := (hs.inv.live hs.no_fault).dec
  cases h with
  | reads h => exact h.dec
  | acquires _ ht | sets _ _ ht | startsEncoder ht => rw [ht]; exact hd
  | writes hemits _ _ => rwa [hemits.dec]
  | flushes hemits hflushed _ _ =>
    rw [hflushed.dec]
    rwa [hemits.dec]

end Effects

/-- Every instruction that does not fault has one of the effects: a code that is ahead has that of the command
that meets it. -/
theorem code_eq_command {i : Instr} {s t : State} (hi : i.isCommand = false) (hs : s.Ready)
    (h : exec i s = .next t) : (∃ f info, t = takeFault f info s) ∨ exec .decGet s = .next t ∨
      ∃ m, exec (.grRd m) s = .next t := by
  have hmeets {before : State → Res Unit} {ctx : CodeCtx} {p : State → Res Nat}
      (hexec : exec i s = runCode before ctx i p s) :
      (∃ f info, t = takeFault f info s) ∨ ∃ bits, encodeCode ctx i = some bits ∧ bits <+: streamAhead s := by
    rw [hexec] at h
    rcases runCode_cases before ctx i p s with ⟨hfaulted, -⟩ | ⟨-, f, info, -, hr⟩ | ⟨-, -, -, hr⟩ |
      ⟨-, -, hahead, -⟩
    · exact absurd hs.no_fault hfaulted
    · rw [hr] at h
      cases h
      exact .inl ⟨f, info, rfl⟩
    · rw [hr] at h; cases h
    · exact .inr (codeAhead_iff.mp hahead)
  cases i with
  | cwGr m x =>
    refine (hmeets (exec_cwGr m x s)).imp_right fun ⟨bits, hcode, hahead⟩ => .inr ⟨m, ?_⟩
    rw [exec_grRd_eq_code hs hcode hahead, h]
  | cwEsc x =>
    refine (hmeets (ctx := .golomb (0 : Byte).toNat) rfl).imp_right fun ⟨bits, hcode, hahead⟩ => .inr ⟨0, ?_⟩
    rw [exec_grRd_eq_code hs hcode hahead, h]
  | cwRunfull | cwRunterm _ _ | cwRunend _ | cwDirect _ =>
    refine (hmeets (ctx := decoderCtx s) rfl).imp_right fun ⟨bits, hcode, hahead⟩ => .inl ?_
    rw [exec_decGet_eq_code hs hcode hahead, h]
  | _ => cases hi

/-- An effect that neither commits nor stores for the host is one that any instruction can have. -/
theorem Effect.of_noncommitting {i j : Instr} {s t : State} (hj : commitsPages j = false)
    (hset : ∀ h v, j ≠ .psSet h v) (h : Effect j s t) : Effect i s t := by
  cases h with
  | reads h => exact .reads h
  | acquires hroom ht => exact .acquires hroom ht
  | sets hi _ _ => exact absurd hi (hset _ _)
  | writes hemits henc hcommits =>
    exact .writes hemits henc (.inr (hcommits.resolve_left (Bool.eq_false_iff.mp hj)))
  | flushes _ _ _ hcommits => rw [hj] at hcommits; cases hcommits
  | startsEncoder ht => exact .startsEncoder ht

/-- From a good state an instruction takes a fault or has an effect. -/
theorem exec_of_ready {i : Instr} {s t : State} (hs : s.Ready) (h : exec i s = .next t) :
    (∃ f info, t = takeFault f info s) ∨ (t.fault = 0 ∧ Effect i s t) := by
  have hcommand {j : Instr} (hj : j.isCommand = true) (hexec : exec j s = .next t) :
      (∃ f info, t = takeFault f info s) ∨ (t.fault = 0 ∧ Effect j s t) := by
    rcases raisesOnlyItsFaults j s hj hs with ⟨u, v, hend, hfault⟩ | ⟨f, info, -, hend⟩
    · rw [hexec] at hend
      cases hend
      exact .inr ⟨hfault, command_effect hs hj hfault hexec⟩
    · rw [hexec] at hend
      cases hend
      exact .inl ⟨f, info, rfl⟩
  cases hi : i.isCommand with
  | true => exact hcommand hi h
  | false =>
    rcases code_eq_command hi hs h with hfault | hget | ⟨m, hread⟩
    · exact .inl hfault
    · exact (hcommand rfl hget).imp_right (.imp_right (.of_noncommitting rfl fun _ _ h => Instr.noConfusion h))
    · exact (hcommand rfl hread).imp_right (.imp_right (.of_noncommitting rfl fun _ _ h => Instr.noConfusion h))

/-! ## O10: every step keeps the invariant -/

/-- Position and response are in no part of the invariant. -/
theorem SameBlock.inv {s t : State} (h : SameBlock s t) (hs : s.Inv) : t.Inv := by
  rw [h]
  refine ⟨hs.params_legal, hs.mem_wf, hs.fault_le, hs.finfo_zero, fun hf => ?_⟩
  obtain ⟨⟨hrcur, hwcur, hbelow⟩, hwriter, hreader, henc, hdec⟩ := hs.live hf
  exact ⟨⟨hrcur, hwcur, hbelow⟩, hwriter, hreader, henc, hdec⟩

/-- In the fault state an instruction is refused, or reads one of the two registers (60_exceptions.md R311). -/
theorem sameBlock_of_exec_faulted {i : Instr} {s t : State} (hs : s.fault ≠ 0) (h : exec i s = .next t) :
    SameBlock s t := by
  have hcode {before : State → Res Unit} {ctx : CodeCtx} {p : State → Res Nat}
      (hexec : exec i s = runCode before ctx i p s) : SameBlock s t := by
    rw [hexec, runCode, if_pos hs] at h
    cases h
    rfl
  have hread {idx : Half} {v : BitVec 64} (hidx : idx = 0 ∨ idx = 1) (hi : i = .csrRd idx)
      (hv : csrRead idx.toNat s = some v) : SameBlock s t := by
    rw [hi, exec_csrRd_of_read (.inr hidx) hv] at h
    cases h
    rfl
  cases hi : i.isCommand with
  | true =>
    by_cases hfault : i = .csrRd 0
    · exact hread (.inl rfl) hfault rfl
    by_cases hfinfo : i = .csrRd 1
    · exact hread (.inr rfl) hfinfo rfl
    · rw [exec_refused hi hs hfault hfinfo] at h
      cases h
      rfl
  | false =>
    cases i with
    | cwGr m x => exact hcode (exec_cwGr m x s)
    | cwEsc x => exact hcode (ctx := .golomb (0 : Byte).toNat) rfl
    | cwRunfull | cwRunterm _ _ | cwRunend _ | cwDirect _ => exact hcode (ctx := decoderCtx s) rfl
    | _ => cases hi

/-- What a fault leaves is unspecified but for the parameters, the canonical memory and the two registers. -/
theorem takeFault_inv {s : State} (hs : s.Inv) (f : FaultName) (info : Nat) : (takeFault f info s).Inv where
  params_legal := hs.params_legal
  mem_wf := memWriteAll_wf hs.mem_wf _
  fault_le := faultCode_le f
  finfo_zero h := absurd h (faultCode_ne_zero f)
  live h := absurd h (faultCode_ne_zero f)

/-- An instruction that does not fault leads from a good state to a good state. -/
theorem State.Ready.next {i : Instr} {s t : State} (hs : s.Ready) (h : exec i s = .next t) (ht : t.fault = 0) :
    t.Ready := by
  refine ⟨?_, ht⟩
  rcases exec_of_ready hs h with ⟨f, info, rfl⟩ | ⟨-, heffect⟩
  · exact absurd ht (faultCode_ne_zero f)
  have hframe := exec_keepsFrame i s t hs.no_fault h ht
  obtain ⟨-, -, hrcur, hwcur⟩ := cursorsOnlyGrow i s t hs h ht
  have hwrite := heffect.canWrite hs
  exact {
    params_legal := hframe.params ▸ hs.inv.params_legal
    mem_wf := hwrite.wf
    fault_le := by rw [ht]; exact Nat.zero_le _
    finfo_zero := fun _ => hframe.finfo.trans (hs.inv.finfo_zero hs.no_fault)
    live := fun _ => ⟨⟨hrcur, hframe.params ▸ hwcur, hwrite.below⟩, hwrite.writer, heffect.reader_inv hs,
      heffect.enc_inv hs, heffect.dec_inv hs⟩ }

theorem exec_inv {i : Instr} {s t : State} (hs : s.Inv) (h : exec i s = .next t) : t.Inv := by
  by_cases hf : s.fault = 0
  · rcases exec_of_ready ⟨hs, hf⟩ h with ⟨f, info, rfl⟩ | ⟨ht, -⟩
    · exact takeFault_inv hs f info
    · exact (State.Ready.next ⟨hs, hf⟩ h ht).inv
  · exact (sameBlock_of_exec_faulted hf h).inv hs

/-- A packet that is no command is refused, or takes its fault (30_encoding.md R96). -/
theorem illegalPacket_inv {p : Packet} {s t : State} (hs : s.Inv) (h : illegalPacket p s = .next t) : t.Inv := by
  rcases runCommand_next h with ⟨-, rfl⟩ | ⟨-, v, u, hend, -⟩ | ⟨-, f, info, -, rfl⟩
  · exact SameBlock.inv (s := s) rfl hs
  · cases hend
  · exact takeFault_inv hs f info

/-- Settles O10: a step waits, or advances the position and runs an instruction or takes a fault. -/
theorem stepKeepsInv : Obligations.StepKeepsInv := by
  refine ⟨fun s t hs h => ?_, fun i s t hs h => exec_inv hs h⟩
  have hadvanced : s.advance.Inv := SameBlock.inv rfl hs
  unfold step at h
  split at h
  next =>
    cases h
    exact hs
  next =>
    split at h
    next => exact exec_inv hadvanced h
    next => exact illegalPacket_inv hadvanced h

/-! ## O59: a byte is written once -/

/-- The bytes that an effect changes. -/
theorem Effect.written {i : Instr} {s t : State} (hs : s.Ready) (h : Effect i s t) {a : Nat}
    (ha : memRead t.mem a ≠ memRead s.mem a) :
    (∃ h v, i = .psSet h v ∧ h.toNat = a / 8) ∨ (commitsPages i = true ∧ a / 8 ∉ t.writer.win ∧
      (a / 8 ∈ s.writer.win ∨ (s.psWcur ≤ a / 8 ∧ a / 8 < t.psWcur))) := by
  cases h with
  | reads h =>
    have hmem : t.mem = s.mem := (congrArg State.mem h.on.others :)
    exact absurd (by rw [hmem]) ha
  | acquires _ ht | startsEncoder ht => exact absurd (by rw [ht]) ha
  | @sets h v hi _ ht =>
    refine .inl ⟨h, v, hi, ?_⟩
    by_contra hother
    exact ha (by rw [ht]; exact memRead_pageWrite_frame hs.inv.mem_wf (Ne.symm hother) v)
  | writes hemits _ hcommits =>
    exact .inr ⟨hcommits.resolve_right fun hmem => ha (by rw [hmem]), hemits.written hs.canWrite ha⟩
  | @flushes r n bits hemits hflushed _ hcommits =>
    refine .inr ⟨hcommits, ?_⟩
    rw [hflushed.psWcur]
    by_cases hflush : memRead t.mem a = memRead r.mem a
    · obtain ⟨hleft, hreserved⟩ := hemits.written hs.canWrite (hflush ▸ ha)
      exact ⟨fun hmem => hleft (hflushed.win_suffix.mem hmem), hreserved⟩
    · obtain ⟨hreserved, hleft⟩ := hflushed.written (hemits.canWrite hs.canWrite).writer hflush
      exact ⟨hleft, hemits.mem_win hreserved⟩

/-- Settles O59: by the effect of the instruction. -/
theorem storeWritesOnlyReservedPages : Obligations.StoreWritesOnlyReservedPages := by
  intro i s t a hs h ht ha
  rcases exec_of_ready hs h with ⟨f, info, rfl⟩ | ⟨-, heffect⟩
  · exact absurd ht (faultCode_ne_zero f)
  · exact heffect.written hs ha

end Sys2Proof.Machine

/-! PROOF. Lock-step (46_rlgr_decoder.md R271): each code that the encoder emits is one of the decoder's context,
stands for the symbols put since the code before, and takes both coders to the same `k` and `kr`. -/

namespace Sys2Proof.Machine

/-! ## The codes of the encoder -/

/-- The symbols that the decoder holds, in the order it returns them: the zeros of a run, then the symbol behind
them (10_state.md R43). -/
def Decoder.held (d : Decoder) : List Half := List.replicate d.rl 0 ++ if d.pend then [d.pv] else []

/-- The symbols that a code stands for: the one returned at once, then those held. -/
def codeSymbols (p : Params) (d : Decoder) (i : Instr) : List Half :=
  BitVec.ofNat 32 (codeResult p d i).1 :: (codeResult p d i).2.held

/-- The decoder of `d` stands between two codes and has the encoder's parameters, `k` and `kr`. -/
structure InStep (p : Params) (e : Encoder) (d : State) : Prop where
  params : d.params = p
  boundary : d.dec.atBoundary = true
  k : d.dec.k = e.k
  kr : d.dec.kr = e.kr

/-- `bits`, put with `rsvd` bits reserved and behind `n` new pages, are a code of the decoder's context that it
takes for what it is: it stands for the symbols `us`, and takes `k` and `kr` to those of `e`. -/
structure CodeFor (d : State) (rsvd : Nat) (i : Instr) (bits : List Bool) (n : Nat) (us : List Half) (e : Encoder) :
    Prop where
  encodes : encodeCode (decoderCtx d) i = some bits
  fits : codeFits d.dec i = true
  pages : n = codePages d.dec rsvd i
  symbols : codeSymbols d.params d.dec i = us
  k : (codeResult d.params d.dec i).2.k = e.k
  kr : (codeResult d.params d.dec i).2.kr = e.kr

theorem Encoder.Inv.rl_toNat {e : Encoder} (h : e.Inv) : (BitVec.ofNat 32 e.rl).toNat = e.rl := by
  have hrl := h.rl_lt
  have hwindow := two_pow_width_le h.k_le
  rw [width_eq] at hrl
  rw [BitVec.toNat_ofNat, Nat.mod_eq_of_lt (by omega)]

theorem Encoder.Inv.rl_eq_zero {e : Encoder} (h : e.Inv) (hk : e.k = 0) : e.rl = 0 := by
  have hrl := h.rl_lt
  rw [hk, width_eq] at hrl
  omega

section InStep

variable {p : Params} {e : Encoder} {d : State} (h : InStep p e d) {rsvd : Nat} {u : Half}
include h

theorem InStep.window (hk : e.k ≠ 0) (hu : u = 0) (hfull : e.rl + 1 = 2 ^ width e.k) (hrem : e.rl < d.dec.rem)
    {e' : Encoder} (hkr' : e'.kr = e.kr) (hk' : e'.k = adaptKFull p e.k) :
    CodeFor d rsvd .cwRunfull [false] (pagesNeeded (1 + width e.k) rsvd) (List.replicate e.rl 0 ++ [u]) e' := by
  obtain ⟨-, hpend⟩ := Decoder.atBoundary_iff.mp h.boundary
  rw [width_eq] at hfull
  refine ⟨?_, ?_, ?_, ?_, ?_, ?_⟩
  · rw [decoderCtx_run (h.k ▸ hk)]
    rfl
  · exact decide_eq_true (by rw [h.k]; omega)
  · rw [codePages, h.k, width_eq]
  · simp [codeSymbols, codeResult, Decoder.held, hpend, h.k, ← hfull, hu, ← List.replicate_succ,
      ← List.replicate_succ']
  · simp only [codeResult, h.params, h.k, hk', adaptKFull_eq]
  · simp only [codeResult, h.kr, hkr']

variable (he : e.Inv)
include he

theorem InStep.direct (hk : e.k = 0) {e' : Encoder} (hkr' : e'.kr = adaptKr p e.kr u.toNat)
    (hk' : e'.k = adaptKDirect p e.k u.toNat) :
    CodeFor d rsvd (.cwDirect u) (grBits u.toNat (width e.kr)) (pagesNeeded 64 rsvd)
      (List.replicate e.rl 0 ++ [u]) e' := by
  obtain ⟨hrl, hpend⟩ := Decoder.atBoundary_iff.mp h.boundary
  have hw := width_le he.kr_le
  have hzero : u.toNat = 0 ↔ u = 0 := valueOperand_eq_zero
  refine ⟨?_, rfl, rfl, ?_, ?_, ?_⟩
  · rw [decoderCtx_direct (h.k.trans hk), h.kr]
    exact if_pos (hw.trans (by decide))
  · simp [codeSymbols, codeResult, Decoder.held, hrl, hpend, he.rl_eq_zero hk]
  · simp only [codeResult, h.params, h.k, hk', adaptKDirect_eq _ _ he.k_le, hzero]
  · simp only [codeResult, h.params, h.kr, hkr']

theorem InStep.symbol (hk : e.k ≠ 0) (hu : u ≠ 0) (hrem : e.rl < d.dec.rem) {e' : Encoder}
    (hkr' : e'.kr = adaptKr p e.kr u.toNat) (hk' : e'.k = adaptKTerm p e.k) :
    CodeFor d rsvd (.cwRunterm (BitVec.ofNat 32 e.rl) u)
      (true :: (bitsOf (width e.k) e.rl ++ grBits (u.toNat - 1) (width e.kr))) (termPages (width e.k) rsvd)
      (List.replicate e.rl 0 ++ [u]) e' := by
  obtain ⟨hrl, hpend⟩ := Decoder.atBoundary_iff.mp h.boundary
  have hw := width_le he.kr_le
  have hrun := he.rl_toNat
  have hiff : BitVec.ofNat 32 e.rl = 0 ↔ e.rl = 0 := by rw [← valueOperand_eq_zero, valueOperand, hrun]
  refine ⟨?_, ?_, ?_, ?_, ?_, ?_⟩
  · rw [decoderCtx_run (h.k ▸ hk), encodeCode_cwRunterm_eq_some, hrun, h.k, h.kr]
    exact ⟨⟨hw.trans (by decide), he.rl_lt, hu⟩, rfl⟩
  · exact decide_eq_true (by rwa [hrun])
  · rw [codePages, h.k, width_eq]
  · by_cases hzero : e.rl = 0
    · simp [codeSymbols, codeResult, Decoder.held, hrl, hpend, hzero]
    · obtain ⟨r, hr⟩ := Nat.exists_eq_succ_of_ne_zero hzero
      simp only [codeSymbols, codeResult, if_neg (mt hiff.mp hzero), Decoder.held, hrun, if_true]
      simp [hr, List.replicate_succ]
  · simp only [codeResult, h.params, h.k, hk', adaptKTerm_eq _ he.k_le]
    split <;> rfl
  · simp only [codeResult, h.params, h.kr, hkr']
    split <;> rfl

/-- The trailing run, where exactly its zeros are expected. -/
theorem InStep.trailing (hk : e.k ≠ 0) (hpos : 0 < e.rl) (hrem : d.dec.rem = e.rl) {e' : Encoder}
    (hkr' : e'.kr = e.kr) (hk' : e'.k = e.k) :
    CodeFor d rsvd (.cwRunend (BitVec.ofNat 32 e.rl)) (true :: bitsOf (width e.k) e.rl)
      (pagesNeeded (1 + width e.k) rsvd) (List.replicate e.rl 0) e' := by
  obtain ⟨-, hpend⟩ := Decoder.atBoundary_iff.mp h.boundary
  have hrun := he.rl_toNat
  refine ⟨?_, ?_, ?_, ?_, ?_, ?_⟩
  · rw [encodeCode_cwRunend (h.k ▸ hk) (by omega) (by rw [hrun, h.k]; exact he.rl_lt), hrun, h.k]
  · exact decide_eq_true (by rw [hrun, hrem])
  · rw [codePages, h.k, width_eq]
  · obtain ⟨r, hr⟩ := Nat.exists_eq_add_of_lt hpos
    simp only [codeSymbols, codeResult, Decoder.held, hpend, hrun]
    simp [hr, List.replicate_succ]
  · simp only [codeResult, h.k, hk']
  · simp only [codeResult, h.kr, hkr']

end InStep

/-- A put counts its zero, or emits the code of the symbols put since the code before. -/
theorem PutEnd.code {u : Half} {s t : State} (h : PutEnd u s t) (he : s.enc.Inv) :
    (u = 0 ∧ t = { s with enc := { s.enc with rl := s.enc.rl + 1 }, response := t.response }) ∨
    (t.enc.rl = 0 ∧ ∃ i bits n, Emits s t n bits ∧ ∀ d, InStep s.params s.enc d → s.enc.rl < d.dec.rem →
      CodeFor d s.writer.rsvd i bits n (List.replicate s.enc.rl 0 ++ [u]) t.enc) := by
  cases h with
  | direct hk hemits henc =>
    rw [henc]
    exact .inr ⟨he.rl_eq_zero hk, _, _, _, hemits, fun d hd _ => hd.direct he hk rfl rfl⟩
  | counted hk hu hrl ht => exact .inl ⟨hu, ht⟩
  | window hk hu hrl hemits henc =>
    rw [henc]
    exact .inr ⟨rfl, _, _, _, hemits, fun d hd hrem => hd.window hk hu hrl hrem rfl rfl⟩
  | symbol hk hu hemits henc =>
    rw [henc]
    exact .inr ⟨rfl, _, _, _, hemits, fun d hd hrem => hd.symbol he hk hu hrem rfl rfl⟩

/-- Settles O53: a put that does not only count its zero emits a code. -/
theorem lockStepOnOneCode : Obligations.LockStepOnOneCode := by
  intro u s t s' hs ht hparams hact hreads hk hkr hrem h hfault hrl
  obtain ⟨-, hput⟩ := encPut_end hs hfault h
  obtain ⟨-, hboundary⟩ := decoderReads_iff.mp hreads
  rcases hput.code (hs.inv.live hs.no_fault).enc with ⟨-, hcounted⟩ | ⟨-, i, bits, n, hemits, hcode⟩
  · rw [hcounted] at hrl
    cases hrl
  · obtain ⟨hencodes, hfits, hpages, -, hk', hkr'⟩ := hcode t ⟨hparams.symm, hboundary, hk, hkr⟩ hrem
    exact ⟨i, bits, n, hencodes, hfits, hemits.appended, hpages, hk', hkr'⟩

end Sys2Proof.Machine

/-! PROOF. What has been written is read back (44_golomb_rice.md R214; 46_rlgr_decoder.md R271): the bits that the
writer emits into an empty stream stand at its head, and the decoder takes one code after another from there. -/

namespace Sys2Proof.Machine

/-! ## Lists of commands -/

theorem runAll_cons {i : Instr} {is : List Instr} {s t u : State} {rs : List (Option Response)}
    (hi : exec i s = .next t) (his : runAll is t = some (rs, u)) :
    runAll (i :: is) s = some (t.response :: rs, u) := by
  simp only [runAll, hi, his]

theorem runAll_cons_eq_some {i : Instr} {is : List Instr} {s u : State} {rs : List (Option Response)}
    (h : runAll (i :: is) s = some (rs, u)) :
    ∃ t rs', exec i s = .next t ∧ runAll is t = some (rs', u) := by
  rw [runAll] at h
  split at h
  next t hi =>
    split at h
    next rs' v his =>
      cases h
      exact ⟨t, rs', hi, his⟩
    next => cases h
  next => cases h

theorem runAll_append {is js : List Instr} {s t u : State} {rs rs' : List (Option Response)}
    (his : runAll is s = some (rs, t)) (hjs : runAll js t = some (rs', u)) :
    runAll (is ++ js) s = some (rs ++ rs', u) := by
  induction is generalizing s rs with
  | nil =>
    cases his
    exact hjs
  | cons i is ih =>
    rw [runAll] at his
    split at his
    next v hi =>
      split at his
      next rs₁ w his' =>
        cases his
        exact runAll_cons hi (ih his')
      next => cases his
    next => cases his

/-- A fault is never cleared (60_exceptions.md R312). -/
theorem runAll_fault {is : List Instr} {s t : State} {rs : List (Option Response)}
    (h : runAll is s = some (rs, t)) (ht : t.fault = 0) : s.fault = 0 := by
  induction is generalizing s rs with
  | nil =>
    cases h
    exact ht
  | cons i is ih =>
    obtain ⟨u, rs', hi, his⟩ := runAll_cons_eq_some h
    by_contra hs
    exact hs ((sameBlock_of_exec_faulted hs hi).fault ▸ ih his)

theorem runAll_ready {is : List Instr} {s t : State} {rs : List (Option Response)} (hs : s.Ready)
    (h : runAll is s = some (rs, t)) (ht : t.fault = 0) : t.Ready := by
  induction is generalizing s rs with
  | nil =>
    cases h
    exact hs
  | cons i is ih =>
    obtain ⟨u, rs', hi, his⟩ := runAll_cons_eq_some h
    exact ih (hs.next hi (runAll_fault his ht)) his

/-! ## The stream that a flush completes -/

/-- From `s` the writer has appended `bits`, in pages that it reserved as it went, and committed the last word;
the encoder and the response are not looked at. -/
def Written (s e : State) (bits : List Bool) : Prop :=
  ∃ n r, Appended (s.withReserved n) { r with enc := s.enc, response := s.response } bits ∧ Flushed r e

theorem Written.wcur_le {s e : State} {bits : List Bool} (h : Written s e bits) : s.psWcur ≤ e.psWcur := by
  obtain ⟨n, r, happended, hflushed⟩ := h
  have hwcur : r.psWcur = s.psWcur + n := (congrArg State.psWcur happended.others :)
  rw [hflushed.psWcur, hwcur]
  exact Nat.le_add_right _ _

theorem Written.psRcur {s e : State} {bits : List Bool} (h : Written s e bits) : e.psRcur = s.psRcur := by
  obtain ⟨n, r, happended, hflushed⟩ := h
  exact hflushed.psRcur.trans (congrArg State.psRcur happended.others :)

theorem Written.params {s e : State} {bits : List Bool} (h : Written s e bits) : e.params = s.params := by
  obtain ⟨n, r, happended, hflushed⟩ := h
  exact hflushed.params.trans (congrArg State.params happended.others :)

theorem Emits.flushed {s r e : State} {n : Nat} {bits : List Bool} (h : Emits s r n bits) (hflushed : Flushed r e) :
    Written s e bits := ⟨n, r, h.appended, hflushed⟩

/-- What is appended does not depend on the encoder and the response that stand beside it. -/
theorem Appended.setPort {s t : State} {bits : List Bool} (h : Appended s t bits) (e : Encoder)
    (r : Option Response) :
    Appended { s with enc := e, response := r } { t with enc := e, response := r } bits :=
  { h with others := congrArg (fun u : State => { u with enc := e, response := r }) h.others }

/-- The invariant of the writer with pages that need not fit its window. -/
theorem withReserved_writer_inv_unbounded {s : State} (h : s.CanWrite) (n : Nat) :
    (s.withReserved n).writer.Inv (s.params.winCap + n) (s.withReserved n).psWcur :=
  Writer.Inv.withReserved { h.writer with win_le := h.writer.win_le.trans (Nat.le_add_right _ _) } n
    (Nat.add_le_add_right h.writer.win_le n)

/-- Bits emitted one after another (42_bit_writer.md R176). -/
theorem Emits.written_append {s t e : State} {n : Nat} {a b : List Bool} (h : Emits s t n a) (hs : s.CanWrite)
    (hb : Written t e b) : Written s e (a ++ b) := by
  obtain ⟨k, r, happended, hflushed⟩ := hb
  have hfirst := h.appended.withReserved k
  rw [withReserved_withReserved] at hfirst
  exact ⟨n + k, r, hfirst.trans (happended.setPort s.enc s.response)
    (withReserved_writer_inv_unbounded hs (n + k)), hflushed⟩

theorem pageBits_congr {m m' : Memory} {g : Nat} (h : ∀ a, a / 8 = g → memRead m' a = memRead m a) :
    pageBits m' g = pageBits m g := by
  have hbyte (j : Nat) (hj : j < 8) : memRead m' (8 * g + j) = memRead m (8 * g + j) := h _ (by omega)
  have hfirst := hbyte 0 (by decide)
  rw [Nat.add_zero] at hfirst
  simp only [pageBits, streamWord, pageRead, hfirst, hbyte 1 (by decide), hbyte 2 (by decide),
    hbyte 3 (by decide), hbyte 4 (by decide), hbyte 5 (by decide), hbyte 6 (by decide), hbyte 7 (by decide)]

/-- Pages that hold the words of a bit string one after another hold it. -/
theorem flatMap_words {f : Nat → List Bool} {bits : List Bool} {p c : Nat}
    (h : ∀ i < c, f (p + i) = (bits.drop (64 * i)).take 64) :
    (List.range' p c).flatMap f = bits.take (64 * c) := by
  induction c with
  | zero => simp
  | succ c ih =>
    rw [List.range'_1_concat, List.flatMap_append, ih fun i hi => h i (Nat.lt_succ_of_lt hi),
      List.flatMap_singleton, h c (Nat.lt_succ_self c), ← List.take_add, Nat.mul_succ]

/-- What is flushed behind the committed words `p` to `p + c - 1` completes the stream: the rest of the bits, and
zeros to the end of their word. -/
theorem Flushed.completes {r e : State} {bits : List Bool} {p c n : Nat} (h : Flushed r e)
    (hleft : r.writer.left ≤ 64) (hc : c ≤ n) (hwin : r.writer.win = List.range' (p + c) (n - c))
    (hbuffered : r.writer.pendingBits = bits.drop (64 * c))
    (hwords : ∀ i < c, pageBits r.mem (p + i) = (bits.drop (64 * i)).take 64) :
    bits <+: (List.range' p n).flatMap (pageBits e.mem) := by
  have hpages {m : Nat} (hm : m ≤ n) {pad : List Bool}
      (hstream : (List.range' p m).flatMap (pageBits e.mem) = bits ++ pad) :
      bits <+: (List.range' p n).flatMap (pageBits e.mem) := by
    obtain ⟨k, rfl⟩ := Nat.exists_eq_add_of_le hm
    rw [← List.range'_append_1, List.flatMap_append, hstream, List.append_assoc]
    exact List.prefix_append _ _
  have hsplit := List.take_append_drop (64 * c) bits
  unfold Flushed at h
  split at h
  next hempty =>
    subst h
    have hnone : bits.drop (64 * c) = [] := by
      rw [← hbuffered, Writer.pendingBits, hempty]
      rfl
    rw [hnone, List.append_nil] at hsplit
    exact hpages hc (pad := []) (by rw [flatMap_words hwords, hsplit, List.append_nil])
  next =>
    obtain ⟨g, rest, hhead, hpage, hframe⟩ := h.page
    obtain ⟨k, rfl⟩ := Nat.exists_eq_add_of_le hc
    rw [hwin, Nat.add_sub_cancel_left] at hhead
    cases k with
    | zero => cases hhead
    | succ k =>
      obtain ⟨rfl, -⟩ := List.cons.inj hhead
      have hkept : ∀ i < c, pageBits e.mem (p + i) = (bits.drop (64 * i)).take 64 := fun i hi => by
        rw [pageBits_congr fun a ha => hframe a (by omega), hwords i hi]
      refine hpages (m := c + 1) (by omega) (pad := List.replicate r.writer.left false) ?_
      rw [List.range'_1_concat, List.flatMap_append, flatMap_words hkept, List.flatMap_singleton, hpage, hbuffered,
        ← List.append_assoc, hsplit]

/-- Bits written into an empty stream stand at the head of its pages (20_memory.md R60; 42_bit_writer.md
R175). -/
theorem Written.stream {s e : State} {bits : List Bool} (h : Written s e bits) (hs : s.writer = freshWriter) :
    bits <+: (List.range' s.psWcur (e.psWcur - s.psWcur)).flatMap (pageBits e.mem) := by
  obtain ⟨n, r, happended, hflushed⟩ := h
  have hwcur : r.psWcur = s.psWcur + n := (congrArg State.psWcur happended.others :)
  rw [hflushed.psWcur, hwcur, Nat.add_sub_cancel_left]
  have hwin : (s.withReserved n).writer.win = List.range' s.psWcur n := by simp [State.withReserved, hs, freshWriter]
  have hpending : (s.withReserved n).writer.pendingBits = [] := by
    simp [State.withReserved, hs, freshWriter, Writer.pendingBits, bitsOf]
  have henough := happended.enough
  have hwords := happended.pages
  have hbuffered : r.writer.pendingBits = _ := happended.buffered
  have hleft : r.writer.win = _ := happended.win
  rw [hwin, List.length_range'] at henough
  rw [hpending, List.nil_append] at hbuffered
  simp only [hpending, hwin, List.nil_append] at hwords
  rw [hwin, List.drop_range', Nat.mul_one] at hleft
  have hfree := happended.left
  refine hflushed.completes ?_ henough hleft hbuffered fun i hi => hwords i _ hi ?_
  · simp only [wordsCommitted, hpending, List.length_nil] at hfree
    omega
  · rw [List.getElem?_range' (by omega), Nat.one_mul]

theorem Written.reader {s e : State} {bits : List Bool} (h : Written s e bits) : e.reader = s.reader := by
  obtain ⟨n, r, happended, hflushed⟩ := h
  exact hflushed.reader.trans (congrArg State.reader happended.others :)

/-! ## O35: one Golomb-Rice code through the store -/

/-- Into an empty stream with room for a page, the code of `x` is written and flushed to that page. -/
theorem golomb_written {m : Byte} {x : Half} {s : State} (hs : s.Ready) (hm : m.toNat ≤ 31) (hroom : s.roomFor 1)
    (hw : s.writer = freshWriter) :
    ∃ e, runAll [.wRsv 64, .grWr m x, .wFlush] s = some ([okWith 0, okWith 0, okWith 0], e) ∧ e.Ready ∧
      e.psWcur = s.psWcur + 1 ∧ Written s e (grBits x.toNat m.toNat) := by
  have hcap := hs.inv.cap_ge
  have hrsvd : s.writer.rsvd = 0 := by rw [hw]; rfl
  have hwin : s.writer.win.length = 0 := by rw [hw]; rfl
  have hneed : pagesNeeded (64 : Half).toNat s.writer.rsvd = 1 := by rw [hrsvd]; rfl
  obtain ⟨hreserve, henough, -⟩ := wRsvReserves 64 s hs (by rw [hneed, hwin]; omega) (by rwa [hneed])
  rw [hneed] at hreserve henough
  have hs₁ := hs.next hreserve hs.no_fault
  obtain ⟨t, hwrite, happended⟩ := grWrAppends m x _ hs₁ hm ((lenGr_le _ hm).trans henough)
  have hfault : t.fault = 0 := by rw [happended.others]; exact hs.no_fault
  have hs₂ := hs₁.next hwrite hfault
  obtain ⟨u, hflush, hflushed⟩ := wFlushCommits _ hs₂
  have hfault' : u.fault = 0 := (congrArg State.fault hflushed.others :).trans hfault
  refine ⟨u.answer 0, runAll_cons hreserve (runAll_cons hwrite (runAll_cons hflush rfl)), hs₂.next hflush hfault',
    ?_, 1, { t.answer 0 with enc := u.enc }, happended.setPort s.enc s.response, hflushed.setPort u.enc (okWith 0)⟩
  have hwcur : t.psWcur = s.psWcur + 1 := (congrArg State.psWcur happended.others :)
  exact hflushed.psWcur.trans hwcur

/-- From a fresh reader with a page to fetch, the code of `x` at the head of that page is read. -/
theorem golomb_read {m : Byte} {x : Half} {s : State} (hs : s.Ready) (hm : m.toNat ≤ 31)
    (hr : s.reader = freshReader) (hroom : s.psRcur + 1 ≤ s.psWcur)
    (hpage : grBits x.toNat m.toNat <+: pageBits s.mem s.psRcur) :
    ∃ t, runAll [.rRsv 64, .grRd m] s = some ([okWith 0, okWith (x.setWidth 64)], t) ∧
      t.reader.rsvd + lenGr x.toNat m.toNat = 64 ∧ t.psRcur = s.psRcur + 1 ∧ t.psWcur = s.psWcur := by
  have hcap := hs.inv.cap_ge
  have hrsvd : s.reader.rsvd = 0 := by rw [hr]; rfl
  have hwin : s.reader.win.length = 0 := by rw [hr]; rfl
  have hneed : pagesNeeded (64 : Half).toNat s.reader.rsvd = 1 := by rw [hrsvd]; rfl
  have hempty : reservedBits s = [] := by simp [reservedBits, hr, freshReader]
  obtain ⟨t, hreserve, hon, hfetched, -, hbits⟩ := rRsvFetches 64 s hs (by rw [hneed, hwin]; omega) (by rwa [hneed])
  rw [hneed] at hon hfetched hbits
  rw [hrsvd] at hfetched
  rw [hempty, List.nil_append, List.range'_one, List.flatMap_singleton] at hbits
  have ht := hs.next hreserve (by rw [hon.others]; exact hs.no_fault)
  have hrcur : t.psRcur = s.psRcur + 1 := (congrArg State.psRcur hon.others :)
  have hwcur : t.psWcur = s.psWcur := (congrArg State.psWcur hon.others :)
  obtain ⟨rest, hrest⟩ := hpage
  have hahead : reservedBits (t.answer 0) = grBits x.toNat m.toNat ++ rest := hbits.trans hrest.symm
  have henough : 32 ≤ (t.answer 0).reader.rsvd := le_of_le_of_eq (by decide) hfetched.symm
  obtain ⟨u, hread, hconsumed, -⟩ := (grRdReadsCode m _ ht hm henough).1 _ _ _
    (hahead ▸ decodeGr_grBits x.isLt rest)
  have hlen : (reservedBits (t.answer 0)).length - rest.length = lenGr x.toNat m.toNat := by
    rw [hahead, List.length_append, Nat.add_sub_cancel, grBits_length]
  rw [hlen] at hconsumed
  rw [BitVec.ofNat_toNat] at hread
  refine ⟨u.answer (x.setWidth 64), runAll_cons hreserve (runAll_cons hread rfl), ?_, ?_, ?_⟩
  · exact hconsumed.rsvd.trans hfetched
  · exact (congrArg State.psRcur hconsumed.others :).trans hrcur
  · exact (congrArg State.psWcur hconsumed.others :).trans hwcur

/-- Settles O35: the page that is written is the one that is fetched, and it begins with the code. -/
theorem golombRoundTrip : Obligations.GolombRoundTrip := by
  intro m x s hs hm hroom hw hr hcursors
  obtain ⟨e, hwrite, he, hwcur, hwritten⟩ := golomb_written (x := x) hs hm hroom hw
  have hstream := hwritten.stream hw
  have hrcur := hwritten.psRcur
  rw [hwcur, Nat.add_sub_cancel_left, ← hcursors, ← hrcur, List.range'_one, List.flatMap_singleton] at hstream
  obtain ⟨t, hread, hleft, hrcur', hwcur'⟩ := golomb_read he hm (hwritten.reader.trans hr) (by omega) hstream
  exact ⟨t, runAll_append hwrite hread, hleft, by omega⟩

/-! ## The decoder's symbols -/

/-- From `s`, one `DEC.GET` for each of `us` answers them in order, and leads to `t`. -/
def Decodes (s : State) (us : List Half) (t : State) : Prop :=
  runAll (us.map fun _ => .decGet) s = some (us.map fun u => okWith (u.setWidth 64), t)

theorem Decodes.nil (s : State) : Decodes s [] s := rfl

theorem Decodes.append {s t v : State} {us us' : List Half} (h : Decodes s us t) (h' : Decodes t us' v) :
    Decodes s (us ++ us') v := by
  unfold Decodes at h h' ⊢
  rw [List.map_append, List.map_append]
  exact runAll_append h h'

theorem Decodes.cons {s t v : State} {u : Half} {us : List Half} (h : exec .decGet s = .next t)
    (ht : t.response = okWith (u.setWidth 64)) (h' : Decodes t us v) : Decodes s (u :: us) v := by
  unfold Decodes at h' ⊢
  rw [List.map_cons, List.map_cons, ← ht]
  exact runAll_cons h h'

/-- The decoder when all that it holds has been returned. -/
def Decoder.drained (d : Decoder) : Decoder :=
  { d with rl := 0, pend := false, pv := 0, rem := d.rem - (d.rl + d.pend.toNat) }

theorem Decoder.held_length (d : Decoder) : d.held.length = d.rl + d.pend.toNat := by
  cases hpend : d.pend <;> simp [Decoder.held, hpend]

theorem Decoder.drained_of_atBoundary {d : Decoder} (h : d.Inv) (hrl : d.rl = 0) (hpend : d.pend = false) :
    d.drained = d := by
  have hpv := h.pv_iff.mp hpend
  cases d
  simp only [Decoder.drained] at *
  simp [hrl, hpend, hpv]

theorem Decoder.drained_afterZero {d : Decoder} (hrl : 0 < d.rl) :
    Decoder.drained { d with rl := d.rl - 1, rem := d.rem - 1 } = d.drained := by
  simp only [Decoder.drained, Decoder.mk.injEq, true_and, and_true]
  omega

/-- What is held is returned without a bit being read (46_rlgr_decoder.md R262). -/
theorem decodes_held {s : State} (hs : s.fault = 0) (hact : s.dec.act = true) (hd : s.dec.Inv) :
    ∃ t, Decodes s s.dec.held t ∧ t = { s with dec := s.dec.drained, response := t.response } := by
  have hheld := hd.held_le
  induction hrl : s.dec.rl generalizing s with
  | zero =>
    cases hpend : s.dec.pend with
    | false =>
      refine ⟨s, ?_, by rw [Decoder.drained_of_atBoundary hd hrl hpend]⟩
      have hsymbols : s.dec.held = [] := by simp [Decoder.held, hrl, hpend]
      rw [hsymbols]
      exact .nil s
    | true =>
      rw [hrl, hpend] at hheld
      have hget := (decGetHeld s hs hact hheld).2 hrl hpend
      have hsymbols : s.dec.held = [s.dec.pv] := by simp [Decoder.held, hrl, hpend]
      rw [hsymbols]
      refine ⟨_, .cons hget rfl (.nil _), ?_⟩
      simp [Decoder.drained, hrl, hpend]
  | succ r ih =>
    have hpos : 0 < s.dec.rl := by omega
    have hget := (decGetHeld s hs hact (by omega)).1 hpos
    have hinv := hd.afterZero hpos
    obtain ⟨t, hdecodes, ht⟩ := ih (s := { s with
      dec := { s.dec with rl := s.dec.rl - 1, rem := s.dec.rem - 1 }, response := okWith 0 }) hs hact hinv
      hinv.held_le (by simp [hrl])
    refine ⟨t, ?_, ?_⟩
    · have hsymbols : s.dec.held = 0 :: Decoder.held { s.dec with rl := s.dec.rl - 1, rem := s.dec.rem - 1 } := by
        simp [Decoder.held, hrl, List.replicate_succ]
      rw [hsymbols]
      exact .cons hget rfl hdecodes
    · rw [ht, Decoder.drained_afterZero hpos]

/-- The stream ahead is the reserved bits and the pages not yet fetched. -/
theorem streamAhead_length {s : State} (h : s.CanRead) :
    (streamAhead s).length = s.reader.rsvd + 64 * (s.psWcur - s.psRcur) := by
  have hpages (l : List Nat) : (l.flatMap (pageBits s.mem)).length = 64 * l.length := by
    induction l with
    | nil => rfl
    | cons g l ih =>
      rw [List.flatMap_cons, List.length_append, ih, List.length_cons, pageBits, bitsOf_length]
      omega
  rw [streamAhead, List.length_append, reservedBits_length h.reader, unfetchedBits, hpages, List.length_range']

/-- Reading on accounts for the bits consumed and the pages fetched (10_state.md R35). -/
theorem ReadOn.rsvd {s t : State} {n : Nat} {bits : List Bool} (hs : s.CanRead) (hroom : s.psRcur + n ≤ s.psWcur)
    (hahead : bits <+: streamAhead s) (h : ReadOn s t n ((streamAhead s).drop bits.length)) :
    t.reader.rsvd + bits.length = s.reader.rsvd + 64 * n := by
  have hbefore := streamAhead_length hs
  have hafter := streamAhead_length (h.canRead hs hroom)
  have hlen := hahead.length_le
  have hrcur : t.psRcur = s.psRcur + n := (congrArg State.psRcur h.others :)
  have hwcur : t.psWcur = s.psWcur := (congrArg State.psWcur h.others :)
  rw [h.ahead, List.length_drop, hrcur, hwcur] at hafter
  omega

theorem setWidth_ofNat_half {n : Nat} (h : n < 2 ^ 32) : (BitVec.ofNat 32 n).setWidth 64 = BitVec.ofNat 64 n := by
  refine BitVec.eq_of_toNat_eq ?_
  rw [BitVec.toNat_setWidth, BitVec.toNat_ofNat, BitVec.toNat_ofNat, Nat.mod_eq_of_lt h]

/-- A code of the decoder's context returns a 32-bit symbol and counts it. -/
theorem codeResult_of_encodes {s : State} {i : Instr} {bits : List Bool}
    (h : encodeCode (decoderCtx s) i = some bits) (p : Params) :
    (codeResult p s.dec i).1 < 2 ^ 32 ∧ (codeResult p s.dec i).2.rem = s.dec.rem - 1 ∧
      (codeResult p s.dec i).2.act = s.dec.act := by
  have hcode : (∃ u, i = .cwDirect u) ∨ ∃ bits, RunCode (width s.dec.k) (width s.dec.kr) i bits := by
    by_cases hk : s.dec.k = 0
    · obtain ⟨u, hi, -⟩ := encodeCode_direct_eq_some (decoderCtx_direct hk ▸ h)
      exact .inl ⟨u, hi⟩
    · exact .inr ⟨bits, runCode_of_encodeCode (decoderCtx_run hk ▸ h)⟩
  rcases hcode with ⟨u, rfl⟩ | ⟨bits, hrun⟩
  · exact ⟨u.isLt, rfl, rfl⟩
  cases hrun with
  | full | last => exact ⟨Nat.two_pow_pos 32, rfl, rfl⟩
  | @term rl u _ _ =>
    simp only [codeResult]
    split
    · exact ⟨u.isLt, rfl, rfl⟩
    · exact ⟨Nat.two_pow_pos 32, rfl, rfl⟩

/-! ## O54: a whole stream -/

/-- The decoder of `d` is where the encoder of `s` was, with the symbols of the run in progress and `us` to come;
`e` is the end of the encoding. -/
structure Follows (s d e : State) (us : List Half) : Prop where
  ready : d.Ready
  inStep : InStep s.params s.enc d
  act : d.dec.act = true
  rem : d.dec.rem = s.enc.rl + us.length
  rsvd : d.reader.rsvd = s.writer.rsvd
  rcur : d.psRcur = s.psWcur
  wcur : d.psWcur = e.psWcur

/-- A code that the encoder emits brings the decoder after it. -/
theorem Follows.code {s d e t : State} {us us' syms : List Half} {i : Instr} {bits : List Bool} {n : Nat}
    (h : Follows s d e us) (hemits : Emits s t n bits) (hcode : CodeFor d s.writer.rsvd i bits n syms t.enc)
    (hrl : t.enc.rl = 0) (hcount : s.enc.rl + us.length = syms.length + us'.length) (hroom : t.psWcur ≤ e.psWcur)
    (hahead : bits <+: streamAhead d) :
    ∃ d', Decodes d syms d' ∧ Follows t d' e us' ∧ streamAhead d' = (streamAhead d).drop bits.length := by
  have hencodes := hcode.encodes
  obtain ⟨hvalue, hrem, hact⟩ := codeResult_of_encodes hencodes d.params
  have hcounted : syms.length = 1 +
      ((codeResult d.params d.dec i).2.rl + (codeResult d.params d.dec i).2.pend.toNat) := by
    rw [← hcode.symbols, codeSymbols, List.length_cons, Decoder.held_length, Nat.add_comm]
  have hexpected := h.rem
  have hwcur := hemits.psWcur
  have hreads : decoderReads d = true := decoderReads_iff.mpr ⟨⟨h.act, by omega⟩, h.inStep.boundary⟩
  have hpages : d.psRcur + n ≤ d.psWcur := by rw [h.rcur, h.wcur]; omega
  obtain ⟨v, hon, hexec⟩ := (decoderCodesComplete d i bits h.ready hreads hencodes hahead).1 hcode.fits
    (by rwa [h.rsvd, ← hcode.pages])
  rw [h.rsvd, ← hcode.pages] at hon
  rw [← exec_decGet_eq_code h.ready hencodes hahead] at hexec
  have hv := h.ready.next hexec (by rw [hon.others]; exact h.ready.no_fault)
  obtain ⟨d', hdecodes, hd'⟩ := decodes_held hv.no_fault (hact.trans h.act) (hv.inv.live hv.no_fault).dec
  have hsymbols : Decodes d syms d' := by
    rw [← hcode.symbols]
    refine .cons hexec ?_ hdecodes
    rw [setWidth_ofNat_half hvalue]
  have hreader := hon.rsvd h.ready.canRead hpages hahead
  have hwriter := hemits.rsvd
  have hrsvd := h.rsvd
  have hrcur : v.psRcur = d.psRcur + n := (congrArg State.psRcur hon.others :)
  have hfault : d'.fault = 0 := by rw [hd']; exact hv.no_fault
  refine ⟨d', hsymbols, ⟨runAll_ready h.ready hsymbols hfault, ⟨?_, ?_, ?_, ?_⟩, ?_, ?_, ?_, ?_, ?_⟩, ?_⟩ <;>
    rw [hd']
  · rw [hemits.params, ← h.inStep.params]
    exact hon.params
  · rfl
  · exact hcode.k
  · exact hcode.kr
  · exact hact.trans h.act
  · rw [hrl]
    simp only [Decoder.drained]
    omega
  · show v.reader.rsvd = t.writer.rsvd
    omega
  · show v.psRcur = t.psWcur
    rw [hrcur, hwcur, h.rcur]
  · exact (congrArg State.psWcur hon.others :).trans h.wcur
  · exact hon.ahead

/-- A zero that the encoder counts is one that the decoder is still to return. -/
theorem Follows.counted {s t d e : State} {us : List Half} (h : Follows s d e (0 :: us))
    (ht : t = { s with enc := { s.enc with rl := s.enc.rl + 1 }, response := t.response }) : Follows t d e us := by
  obtain ⟨hready, ⟨hparams, hboundary, hk, hkr⟩, hact, hrem, hrsvd, hrcur, hwcur⟩ := h
  rw [ht]
  refine ⟨hready, ⟨hparams, hboundary, hk, hkr⟩, hact, ?_, hrsvd, hrcur, hwcur⟩
  rw [hrem, List.length_cons, Nat.add_assoc, Nat.add_comm 1]

/-- The end of the stream: the trailing run, if there is one, is the decoder's last code. -/
theorem Follows.trailing {s d e r : State} (he : s.enc.Inv) (h : Follows s d e [])
    (hemits : Emits s r (trailingPages s.enc s.writer.rsvd) (trailingBits s.enc))
    (henc : r.enc = { s.enc with rl := 0, act := false }) (hroom : r.psWcur ≤ e.psWcur)
    (hahead : trailingBits s.enc <+: streamAhead d) :
    ∃ d', Decodes d (List.replicate s.enc.rl 0) d' ∧ Follows r d' e [] := by
  have hexpected := h.rem
  by_cases hrl : s.enc.rl = 0
  · have hnone : trailingBits s.enc = [] := if_pos hrl
    have hpages : trailingPages s.enc s.writer.rsvd = 0 := if_pos hrl
    rw [hnone, hpages] at hemits
    refine ⟨d, by rw [hrl]; exact .nil d, h.ready, ?_, h.act, ?_, ?_, ?_, h.wcur⟩
    · obtain ⟨hparams, hboundary, hk, hkr⟩ := h.inStep
      rw [hemits.params, henc]
      exact ⟨hparams, hboundary, hk, hkr⟩
    · rw [hexpected, henc, hrl]
    · exact h.rsvd.trans hemits.rsvd.symm
    · exact h.rcur.trans hemits.psWcur.symm
  · have hk : s.enc.k ≠ 0 := fun hk => hrl (he.rl_eq_zero hk)
    have hbits : trailingBits s.enc = _ := if_neg hrl
    have hpages : trailingPages s.enc s.writer.rsvd = _ := if_neg hrl
    rw [hbits] at hemits hahead
    rw [hpages] at hemits
    have hcode := h.inStep.trailing he (rsvd := s.writer.rsvd) hk (Nat.pos_of_ne_zero hrl) hexpected (e' := r.enc)
      (by rw [henc]) (by rw [henc])
    obtain ⟨d', hdecodes, hfollows, -⟩ := h.code (us' := []) hemits hcode (by rw [henc])
      (by rw [List.length_replicate]) hroom hahead
    exact ⟨d', hdecodes, hfollows⟩

/-- From the middle of a stream: what is put from here on is appended to it, and a decoder that has come to here
and has it ahead returns the run in progress and every symbol put. -/
theorem encoding_decodes (us : List Half) {s e : State} {rs : List (Option Response)} (hs : s.Ready)
    (hrun : runAll (us.map Instr.encPut ++ [Instr.encFlush]) s = some (rs, e)) (he : e.fault = 0) :
    ∃ bits, Written s e bits ∧ ∀ d, Follows s d e us → bits <+: streamAhead d →
      ∃ d' r, Decodes d (List.replicate s.enc.rl 0 ++ us) d' ∧ Follows r d' e [] ∧ r.enc = e.enc ∧ e.enc.rl = 0 ∧
        r.psWcur = e.psWcur := by
  induction us generalizing s rs with
  | nil =>
    obtain ⟨t, rs', hflush, hend⟩ := runAll_cons_eq_some hrun
    cases hend
    obtain ⟨r, hemits, hflushed, henc⟩ := encFlush_end hs he hflush
    have hemits' : Emits s { r with enc := e.enc, response := e.response } _ _ :=
      ⟨hemits.room, hemits.fits, hemits.appended⟩
    refine ⟨_, hemits'.flushed hflushed, fun d hd hahead => ?_⟩
    have hwcur := hflushed.psWcur
    obtain ⟨d', hdecodes, hfollows⟩ := hd.trailing (hs.inv.live hs.no_fault).enc hemits' henc hwcur.ge hahead
    refine ⟨d', _, ?_, hfollows, rfl, by rw [henc], hwcur.symm⟩
    rwa [List.append_nil]
  | cons u us ih =>
    obtain ⟨t, rs', hput, hrest⟩ := runAll_cons_eq_some hrun
    have hfault := runAll_fault hrest he
    obtain ⟨bits, hwritten, hdecodes⟩ := ih (hs.next hput hfault) hrest
    rcases (encPut_end hs hfault hput).2.code (hs.inv.live hs.no_fault).enc with ⟨rfl, ht⟩ |
      ⟨hrl, i, code, n, hemits, hcode⟩
    · have hpages := (hs.inv.live hs.no_fault).pages
      have hnothing := emits_nothing hs.canWrite hpages.wcur_le { s.enc with rl := s.enc.rl + 1 } t.response
      rw [← ht] at hnothing
      refine ⟨bits, hnothing.written_append hs.canWrite hwritten, fun d hd hahead => ?_⟩
      have hrun : List.replicate t.enc.rl 0 ++ us = List.replicate s.enc.rl 0 ++ 0 :: us := by
        rw [ht, List.replicate_succ', List.append_assoc, List.singleton_append]
      rw [← hrun]
      exact hdecodes d (hd.counted ht) hahead
    · refine ⟨code ++ bits, hemits.written_append hs.canWrite hwritten, fun d hd hahead => ?_⟩
      have hrem : s.enc.rl < d.dec.rem := by rw [hd.rem, List.length_cons]; omega
      obtain ⟨d₁, hcodeDecodes, hfollows, hbehind⟩ := hd.code (us' := us) hemits (hcode d hd.inStep hrem) hrl
        (by simp; omega) hwritten.wcur_le ((List.prefix_append _ _).trans hahead)
      obtain ⟨d', r, hrestDecodes, hlast⟩ := hdecodes d₁ hfollows (hbehind ▸ isPrefix_drop_of_append hahead)
      rw [hrl] at hrestDecodes
      refine ⟨d', r, ?_, hlast⟩
      have hall := hcodeDecodes.append hrestDecodes
      simpa using hall

/-- Settles O54: the decoder begins where the stream begins, and follows the encoder code by code. -/
theorem streamRoundTrip : Obligations.StreamRoundTrip := by
  intro us s e rs hs hcursors hlen hrun he
  obtain ⟨s₁, rs', hnew, hrest⟩ := runAll_cons_eq_some hrun
  have hstart : exec .encNew s =
      .next (State.answer { s with writer := freshWriter, enc := freshEncoder s.params } 0) :=
    procedure_of_ok hs.no_fault rfl
  rw [hstart] at hnew
  cases hnew
  have hs₁ := hs.next hstart hs.no_fault
  obtain ⟨bits, hwritten, hdecodes⟩ := encoding_decodes us hs₁ hrest he
  have hstream := hwritten.stream rfl
  have hready := runAll_ready hs hrun he
  have hcount : auxOperand (BitVec.ofNat 32 us.length) = us.length := by
    rw [auxOperand, BitVec.toNat_ofNat, Nat.mod_eq_of_lt hlen]
  have hbegin : exec (.decNew (BitVec.ofNat 32 us.length)) e = .next (State.answer { e with
      reader := freshReader, dec := freshDecoder e.params (auxOperand (BitVec.ofNat 32 us.length)) } 0) :=
    procedure_of_ok hready.no_fault rfl
  have hd := hready.next hbegin he
  rw [hcount] at hbegin hd
  have hrcur : e.psRcur = s.psWcur := hwritten.psRcur.trans hcursors
  have hparams : e.params = s.params := hwritten.params
  have hahead : streamAhead (State.answer { e with
      reader := freshReader, dec := freshDecoder e.params us.length } 0) =
      (List.range' s.psWcur (e.psWcur - s.psWcur)).flatMap (pageBits e.mem) := by
    rw [← hrcur]
    rfl
  obtain ⟨d, r, hdecode, hlast, henc, hrl, hwcur⟩ := hdecodes _
    { ready := hd
      inStep := ⟨hparams, rfl, congrArg Params.kInit hparams, congrArg Params.krInit hparams⟩
      act := rfl
      rem := (Nat.zero_add _).symm
      rsvd := rfl
      rcur := hrcur
      wcur := rfl }
    (hahead ▸ hstream)
  obtain ⟨hfinal, hinStep, -, hrem, -, hrcur', hwcur'⟩ := hlast
  refine ⟨d, runAll_cons hbegin hdecode, hfinal.no_fault, ?_, henc ▸ hinStep.k, henc ▸ hinStep.kr, ?_⟩
  · rw [hrem, henc, hrl]
    rfl
  · rw [hrcur', hwcur, hwcur']

end Sys2Proof.Machine
